-- ==== Sys2Proof/Word.lean ====
section
/-! DEFINITION. The word types: a byte of a buffer (00_scope R5) and the 32-bit word of a host
register or container field (10_state R30, 30_encoding R80). -/

namespace Sys2Proof

/-- A byte: bit 7 the most significant, bit 0 the least (00_scope R5). -/
abbrev Byte := BitVec 8

/-- A 32-bit word, as the host reads registers and as a container field holds (10_state R30, 30_encoding R80). -/
abbrev Word := BitVec 32

end Sys2Proof
end

