-- ==== Sys2Proof/Config.lean ====
section
/-! DEFINITION. The implementation parameters of 00_scope R4. `IB_CAP` is the one OPEN parameter
(93_implementation_defined U17); every other one is fixed or a function of it. The spec leaves no
free value, so there is none here ("Nothing in this spec is treated as `any value`"). -/

namespace Sys2Proof

/-- The parameters a HUFFCORE is built with (00_scope R4). The bound `0 <= IB_CAP <= 2^29 - 1` is the type's. -/
structure Config where
  /-- `IB_CAP`, the capacity of the input buffer in bytes. -/
  ibCap : Fin (2 ^ 29)
  deriving DecidableEq, Repr

namespace Config

/-- The default of 00_scope R4: `IB_CAP = 2^29 - 1`. -/
def standard : Config := { ibCap := ⟨536870911, by decide⟩ }

/-- `PB_CAP = IB_CAP`. -/
def pbCap (c : Config) : Nat := c.ibCap.val

/-- `TD_CAP`, fixed. -/
def tdCap : Nat := 320

/-- `OB_CAP = max(8 * IB_CAP, IB_CAP + 328)`. -/
def obCap (c : Config) : Nat := max (8 * c.ibCap.val) (c.ibCap.val + 328)

/-- `NSYM_MAX`, the number of symbol values. -/
abbrev nsymMax : Nat := 256

/-- `NODE_MAX`, the number of arena entries. -/
abbrev nodeMax : Nat := 511

/-- `CODE_MAX`, the longest code in bits. -/
abbrev codeMax : Nat := 255

end Config

end Sys2Proof
end

