-- ==== Sys2Proof/Syntax.lean ====
section
/-! DEFINITION. The instructions: one constructor per row of spec/opcode_table.json. The eleven
commands (30_encoding R96) have no operand fields; the twelve micro-operations (30_encoding R98)
carry the arguments their rules name; the four container encodings (30_encoding R87, R88, R90)
carry the value of their field. -/

namespace Sys2Proof

/-- The buffer a BitWriter sends its bytes to, `BW.SINK` (10_state R25): 0 = PB, 1 = TD. -/
inductive Sink where
  | pb
  | td
  deriving DecidableEq, Repr

/-- The rows of the opcode table. -/
inductive Instr where
  /-- NOP, 0x00 (46_codec R200). -/
  | nop
  /-- CLEAR, 0x01 (46_codec R201). -/
  | clear
  /-- FCOUNT, 0x02 (40_frequency_counter R111). -/
  | fcount
  /-- TBUILD, 0x03 (41_tree_builder R122). -/
  | tbuild
  /-- CGEN, 0x04 (42_code_table R137). -/
  | cgen
  /-- PACK, 0x05 (43_bit_writer R150). -/
  | pack
  /-- SERIAL, 0x06 (45_container R175). -/
  | serial
  /-- PARSE, 0x07 (45_container R180). -/
  | parse
  /-- UNPACK, 0x08 (44_bit_reader R163). -/
  | unpack
  /-- COMPRESS, 0x10 (46_codec R204). -/
  | compress
  /-- DECOMPRESS, 0x11 (46_codec R205). -/
  | decompress
  /-- PQ.PUSH(i) (41_tree_builder R125). -/
  | pqPush (i : Nat)
  /-- PQ.POPMIN() (41_tree_builder R126). -/
  | pqPopMin
  /-- CG.WALK(i, path) (42_code_table R136); `false` is path bit `0`, left. -/
  | cgWalk (i : Nat) (path : List Bool)
  /-- BW.INIT(sink) (43_bit_writer R146). -/
  | bwInit (sink : Sink)
  /-- BW.PUT(b) (43_bit_writer R147). -/
  | bwPut (b : Bool)
  /-- BW.FLUSH() (43_bit_writer R148). -/
  | bwFlush
  /-- BR.INIT(base, limit) (44_bit_reader R162). -/
  | brInit (base limit : Nat)
  /-- BR.REM() (44_bit_reader R162). -/
  | brRem
  /-- BR.GET() (44_bit_reader R161). -/
  | brGet
  /-- SER.EMIT(i) (45_container R176). -/
  | serEmit (i : Nat)
  /-- DES.NODE() (45_container R182). -/
  | desNode
  /-- ClearDerived() (10_state R47). -/
  | clearDerived
  /-- HDR.T, the tree-description length field (30_encoding R87). -/
  | hdrT (t : Word)
  /-- META.V, the valid-bit count field (30_encoding R88). -/
  | metaV (v : Word)
  /-- TREE.INTERNAL, the node code `0` (30_encoding R90). -/
  | treeInternal
  /-- TREE.LEAF, the node code `1 s7 .. s0` (30_encoding R90). -/
  | treeLeaf (s : Byte)
  deriving DecidableEq, Repr

end Sys2Proof
end

