-- ==== Sys2Proof/WellFormed.lean ====
section
/-! DEFINITION. Which operands an instruction may carry. Only micro-operations have operands that
can be out of range: a node index is 9 bits, 0 to 510 (10_state R22); a path has at most 255 bits
(42_code_table R136); a bit-reader base is a 32-bit address and its limit a 33-bit count (10_state
R26). A container field fills its type, so every value of it is legal. -/

namespace Sys2Proof

/-- The operand checks, one clause per constructor. -/
def Instr.wellFormed : Instr → Bool
  | .nop => true
  | .clear => true
  | .fcount => true
  | .tbuild => true
  | .cgen => true
  | .pack => true
  | .serial => true
  | .parse => true
  | .unpack => true
  | .compress => true
  | .decompress => true
  | .pqPush i => decide (i < Config.nodeMax)
  | .pqPopMin => true
  | .cgWalk i path => decide (i < Config.nodeMax) && decide (path.length ≤ Config.codeMax)
  | .bwInit _ => true
  | .bwPut _ => true
  | .bwFlush => true
  | .brInit base limit => decide (base < 2 ^ 32) && decide (limit < 2 ^ 33)
  | .brRem => true
  | .brGet => true
  | .serEmit i => decide (i < Config.nodeMax)
  | .desNode => true
  | .clearDerived => true
  | .hdrT _ => true
  | .metaV _ => true
  | .treeInternal => true
  | .treeLeaf _ => true

end Sys2Proof
end

