-- ==== Sys2Proof/Decode.lean ====
section
/-! DEFINITION. The decoders and the encoder, from the encoding tables of 30_encoding: the command
byte (R96, R97), the big-endian 32-bit fields (R80, R87, R88) and the node codes (R90). WHERE a bit
string stands decides which decoder reads it (a byte written to CMD, the container's offset 0, its
offset 4 + T, the tree-description block): no bit of any encoding names its own format (R100). -/

namespace Sys2Proof

/-! ### Integers and bits -/

/-- `ceil8(v) = (v + 7) div 8`, the bytes that hold `v` bits (00_scope R6). -/
def ceil8 (v : Nat) : Nat := (v + 7) / 8

/-- `be32(v)`, lowest address first (30_encoding R80). -/
def be32 (v : Word) : List Byte :=
  [v.extractLsb' 24 8, v.extractLsb' 16 8, v.extractLsb' 8 8, v.extractLsb' 0 8]

/-- `unbe32([b0, b1, b2, b3])` (30_encoding R80). -/
def unbe32 (b0 b1 b2 b3 : Byte) : Word := b0 ++ b1 ++ b2 ++ b3

/-- The bits of a byte, most significant first (20_memory R62). -/
def byteBits (b : Byte) : List Bool :=
  [b.getLsbD 7, b.getLsbD 6, b.getLsbD 5, b.getLsbD 4, b.getLsbD 3, b.getLsbD 2, b.getLsbD 1, b.getLsbD 0]

/-- The byte whose bits, most significant first, are the arguments (20_memory R62). -/
def byteOfBits (b7 b6 b5 b4 b3 b2 b1 b0 : Bool) : Byte :=
  BitVec.ofBool b7 ++ BitVec.ofBool b6 ++ BitVec.ofBool b5 ++ BitVec.ofBool b4 ++
    BitVec.ofBool b3 ++ BitVec.ofBool b2 ++ BitVec.ofBool b1 ++ BitVec.ofBool b0

/-! ### Decoders -/

/-- Why a bit string is no instruction. -/
inductive DecodeError where
  /-- A reserved command code (30_encoding R97). The host port answers it with ERR_BADCMD. -/
  | reservedCode (c : Byte)
  /-- The bit string ends before the encoding it starts (30_encoding R90, R100). -/
  | truncated
  deriving DecidableEq, Repr

/-- Where a bit string stands, which decides how it is read (30_encoding R86, R96, R98, R100). -/
inductive Place where
  /-- A byte written to CMD. -/
  | command
  /-- The container's header field, offset 0. -/
  | header
  /-- The container's payload-metadata field, offset 4 + T. -/
  | payloadMetadata
  /-- A node of the tree-description block. -/
  | treeNode
  deriving DecidableEq, Repr

/-- The command whose code is `c`, matched on all 8 bits (30_encoding R96); any other is reserved (R97). -/
def decodeCommand (c : Byte) : Except DecodeError Instr :=
  if c = 0x00#8 then .ok .nop
  else if c = 0x01#8 then .ok .clear
  else if c = 0x02#8 then .ok .fcount
  else if c = 0x03#8 then .ok .tbuild
  else if c = 0x04#8 then .ok .cgen
  else if c = 0x05#8 then .ok .pack
  else if c = 0x06#8 then .ok .serial
  else if c = 0x07#8 then .ok .parse
  else if c = 0x08#8 then .ok .unpack
  else if c = 0x10#8 then .ok .compress
  else if c = 0x11#8 then .ok .decompress
  else .error (.reservedCode c)

/-- The first eight bits of a bit string as a byte, and the rest. -/
def takeByte : List Bool → Except DecodeError (Byte × List Bool)
  | b7 :: b6 :: b5 :: b4 :: b3 :: b2 :: b1 :: b0 :: rest =>
    .ok (byteOfBits b7 b6 b5 b4 b3 b2 b1 b0, rest)
  | _ => .error .truncated

/-- The first 32 bits of a bit string as the big-endian field they hold (30_encoding R80). -/
def takeWord (bits : List Bool) : Except DecodeError (Word × List Bool) := do
  let (b0, bits) ← takeByte bits
  let (b1, bits) ← takeByte bits
  let (b2, bits) ← takeByte bits
  let (b3, bits) ← takeByte bits
  .ok (unbe32 b0 b1 b2 b3, bits)

/-- One node of a tree description: the flag bit decides its length (30_encoding R90). -/
def decodeNode : List Bool → Except DecodeError (Instr × List Bool)
  | [] => .error .truncated
  | false :: rest => .ok (.treeInternal, rest)
  | true :: rest => do
    let (s, rest) ← takeByte rest
    .ok (.treeLeaf s, rest)

/-- The instruction a bit string starts with at a place, and the bits after it. Total on all bit strings. -/
def decode (p : Place) (bits : List Bool) : Except DecodeError (Instr × List Bool) :=
  match p with
  | .command => do
    let (c, rest) ← takeByte bits
    let i ← decodeCommand c
    .ok (i, rest)
  | .header => do
    let (t, rest) ← takeWord bits
    .ok (.hdrT t, rest)
  | .payloadMetadata => do
    let (v, rest) ← takeWord bits
    .ok (.metaV v, rest)
  | .treeNode => decodeNode bits

/-! ### The encoder -/

/-- The place an instruction's encoding stands at; a micro-operation has no encoding (30_encoding R98). -/
def Instr.place : Instr → Option Place
  | .nop | .clear | .fcount | .tbuild | .cgen | .pack | .serial | .parse | .unpack | .compress
  | .decompress => some .command
  | .pqPush _ | .pqPopMin | .cgWalk _ _ | .bwInit _ | .bwPut _ | .bwFlush | .brInit _ _ | .brRem
  | .brGet | .serEmit _ | .desNode | .clearDerived => none
  | .hdrT _ => some .header
  | .metaV _ => some .payloadMetadata
  | .treeInternal | .treeLeaf _ => some .treeNode

/-- The bits of a 32-bit field as they lie in the container (20_memory R61, R62). -/
def wordBits (v : Word) : List Bool := (be32 v).flatMap byteBits

/-- The bits of an instruction, first bit first: the command byte of 30_encoding R96, the
big-endian field of R80, the node code of R90; none for a micro-operation (R98). -/
def encode : Instr → List Bool
  | .nop => byteBits 0x00#8
  | .clear => byteBits 0x01#8
  | .fcount => byteBits 0x02#8
  | .tbuild => byteBits 0x03#8
  | .cgen => byteBits 0x04#8
  | .pack => byteBits 0x05#8
  | .serial => byteBits 0x06#8
  | .parse => byteBits 0x07#8
  | .unpack => byteBits 0x08#8
  | .compress => byteBits 0x10#8
  | .decompress => byteBits 0x11#8
  | .pqPush _ => []
  | .pqPopMin => []
  | .cgWalk _ _ => []
  | .bwInit _ => []
  | .bwPut _ => []
  | .bwFlush => []
  | .brInit _ _ => []
  | .brRem => []
  | .brGet => []
  | .serEmit _ => []
  | .desNode => []
  | .clearDerived => []
  | .hdrT t => wordBits t
  | .metaV v => wordBits v
  | .treeInternal => [false]
  | .treeLeaf s => true :: byteBits s

/-! ### The opcode table's numbering (log 16) -/

/-- The `n` low bits of `w`, the most significant of them first. -/
def natBits : Nat → Nat → List Bool
  | 0, _ => []
  | n + 1, w => w.testBit n :: natBits n w

/-- The bit string of a table row: `nbits` bits of `w` read as one number, bit 0 the least
significant, as spec/opcode_table.json numbers its patterns. A TREE.LEAF row has 9 bits, given in
whole bytes as 16, so its flag is bit 8; a TREE.INTERNAL row has 1, and the eight bits after it are 0. -/
def tableBits (nbits w : Nat) : List Bool :=
  if nbits = 9 ∨ nbits = 16 then natBits 9 w
  else if nbits = 1 then natBits 1 w ++ List.replicate 8 false
  else natBits nbits w

/-- Which place a row of `nbits` bits stands at: a CMD8 row has 8, a BE32 row 32 (read as the
container's first field), a TNODE row 1 or 9 (16 in whole bytes); no other width is an encoding. -/
def tablePlace (nbits : Nat) : Option Place :=
  if nbits = 8 then some .command
  else if nbits = 32 then some .header
  else if nbits = 1 ∨ nbits = 9 ∨ nbits = 16 then some .treeNode
  else none

/-- What the decoder reads from a table row's bits; a micro-operation has none (30_encoding R98). -/
def decodeTableWord (nbits w : Nat) : Option Instr :=
  match tablePlace nbits with
  | none => none
  | some p =>
    match decode p (tableBits nbits w) with
    | .ok (i, _) => some i
    | .error _ => none

end Sys2Proof
end

