-- ==== Sys2Proof/Machine/State.lean ====
section
/-! DEFINITION. The state of HUFFCORE (10_state R20 to R46) as plain data, with the reasons a step can
stop and the state after reset (10_state R49, 70_reset_and_hazards R240). Counts, lengths and indices
are natural numbers, since no arithmetic of the block wraps (00_scope R6); that each fits its
register's width is an invariant (Safety.lean, log 8). Code bits and byte contents are bits. -/

namespace Sys2Proof.Machine

/-! ### The parts of the state -/

/-- The kind of an arena record: 1 = LEAF, 0 = INTERNAL (10_state R22). -/
inductive Kind where
  | internal
  | leaf
  deriving DecidableEq, Repr

/-- A record of the node arena (10_state R22). -/
structure Node where
  kind : Kind
  sym : Byte
  left : Nat
  right : Nat
  weight : Nat
  deriving DecidableEq, Repr

/-- The all-zero record: an INTERNAL node with every field 0 (10_state R22). -/
def Node.zero : Node := { kind := .internal, sym := 0#8, left := 0, right := 0, weight := 0 }

/-- A byte buffer (10_state R46): address and byte pairs, addresses strictly rising. An unlisted
address holds no value (10_state R48). -/
abbrev Buf := List Host.Cell

/-- The four byte buffers (10_state R46). -/
inductive BufName where
  | ib
  | ob
  | pb
  | td
  deriving DecidableEq, Repr

/-- The BitWriter registers (10_state R25). -/
structure BitWriter where
  sink : Sink
  acc : Byte
  nb : Nat
  wp : Nat
  total : Nat
  deriving DecidableEq, Repr

/-- The BitWriter registers all 0 (10_state R25, R47). -/
def BitWriter.zero : BitWriter := { sink := .pb, acc := 0#8, nb := 0, wp := 0, total := 0 }

/-- The BitReader registers (10_state R26). -/
structure BitReader where
  base : Nat
  limit : Nat
  pos : Nat
  deriving DecidableEq, Repr

/-- The BitReader registers all 0 (10_state R26, R47). -/
def BitReader.zero : BitReader := { base := 0, limit := 0, pos := 0 }

/-- The sequencer stages (10_state R45), in the order of their values 0 to 7. -/
inductive Stage where
  | clear
  | freq
  | tree
  | code
  | packed
  | cdone
  | parsed
  | ddone
  deriving DecidableEq, Repr

/-- The causes ERR_CODE can hold (60_exceptions R216); the codes stand in Machine/Flags.lean. -/
inductive ErrCode where
  | none
  | eob
  | treeTrunc
  | treeOvf
  | treeLen
  | vbits
  | paylen
  | notree
  | midcode
  | badcmd
  | seq
  | len
  | cap
  deriving DecidableEq, Repr

/-- What the host can do to the block, one action a step (10_state R50). -/
inductive HostAction where
  | writeIB (a : Nat) (b : Byte)
  | writeReg (r : Byte) (v : Word)
  | readReg (r : Byte)
  | readOB (a : Nat)
  | readIB (a : Nat)
  | readFT (s : Byte)
  | readNODE (i : Nat)
  | readCT (s : Byte)
  | reset
  deriving DecidableEq, Repr

/-- What a host read returns, or that the action was refused (10_state R50, 93 U3, U7). -/
inductive Reply where
  | reg (v : Word)
  | byte (b : Byte)
  | count (n : Nat)
  | node (x : Node)
  | code (len : Nat) (bits : List Bool)
  | refused
  deriving DecidableEq, Repr

/-- The host's side (00_scope R10): the actions still to come, oldest first, and the replies it has
had, newest first. Not state of the block (logs 2, 3). -/
structure HostPort where
  script : List HostAction
  replies : List Reply
  deriving DecidableEq, Repr

/-! ### The state -/

/-- The state of one HUFFCORE instance (10_state R20) with its configuration, the host's side and the
latch of the last stand-alone micro-operation's result (logs 1 to 4). -/
structure State where
  /-- The parameters, written by no step (00_scope R4, log 1). -/
  cfg : Config
  /-- FT, one count per symbol value (10_state R21). -/
  ft : Vector Nat 256
  /-- NODE, the arena (10_state R22). -/
  node : Vector Node 511
  /-- CT, the code of each symbol, first path bit first; `len` is its length (10_state R23, log 9). -/
  ct : Vector (List Bool) 256
  /-- PQ, a set of node indices, strictly rising (10_state R24, log 12). -/
  pq : List Nat
  /-- The BitWriter (10_state R25). -/
  bw : BitWriter
  /-- The BitReader (10_state R26). -/
  br : BitReader
  /-- IB, the input buffer (10_state R46). -/
  ib : Buf
  /-- OB, the output buffer (10_state R46). -/
  ob : Buf
  /-- PB, the payload staging buffer (10_state R46). -/
  pb : Buf
  /-- TD, the tree-description staging buffer (10_state R46). -/
  td : Buf
  /-- STATUS.BUSY (10_state R31). -/
  busy : Bool
  /-- STATUS.DONE (10_state R31). -/
  done : Bool
  /-- STATUS.ERR (10_state R31). -/
  err : Bool
  /-- STATUS.STAGE (10_state R45). -/
  stage : Stage
  /-- ERR_CODE, register 2 (10_state R33). -/
  errCode : ErrCode
  /-- ERR_POS, register 3 (10_state R34). -/
  errPos : Nat
  /-- IN_LEN, register 4 (10_state R35). -/
  inLen : Nat
  /-- OUT_LEN, register 5 (10_state R36). -/
  outLen : Nat
  /-- NSYM, register 6 (10_state R37). -/
  nsym : Nat
  /-- NNODE, register 7 (10_state R38). -/
  nnode : Nat
  /-- ROOT, register 8 (10_state R39). -/
  root : Nat
  /-- TD_BITS, register 9 (10_state R40). -/
  tdBits : Nat
  /-- TD_LEN, register 10 (10_state R41). -/
  tdLen : Nat
  /-- VBITS, register 11 (10_state R42). -/
  vbits : Nat
  /-- PAY_LEN, register 12 (10_state R43). -/
  payLen : Nat
  /-- PAY_OFF, register 13 (10_state R44). -/
  payOff : Nat
  /-- What the last stand-alone micro-operation returned to its caller (log 4). -/
  ret : Option Nat
  /-- The host's side (logs 2, 3). -/
  host : HostPort
  deriving DecidableEq, Repr

/-! ### Why a step can stop -/

/-- Model faults: none of them is a HUFFCORE error and none sets STATUS.ERR (60_exceptions R236). -/
inductive Fault where
  /-- A byte that holds no value is read: raised by every read of IB (a command, BR.GET, the host's
  ReadIB), and by SERIAL's reads of PB and TD. The spec asks for it (10_state R48, 70 R248, 93 U1,
  U15). Safe: the run stops where the hardware has no defined result. -/
  | readUnwritten (b : BufName) (a : Nat)
  /-- A node index above 510 is used: raised by every access to NODE (TBUILD, CGEN, SERIAL, UNPACK,
  PARSE and their micro-operations). There is no such entry (10_state R22). Safe. -/
  | noSuchNode (i : Nat)
  /-- CG.WALK or SER.EMIT nests deeper than the 256 calls its stack holds (10_state R27): raised on an
  arena that is no tree of at most 256 leaves. Safe. -/
  | traversalTooDeep
  /-- PQ.POPMIN on an empty queue, outside its precondition (41_tree_builder R126). Safe. -/
  | queueEmpty
  /-- BR.GET at BR.LIMIT, outside its precondition (44_bit_reader R161). Safe. -/
  | readerAtLimit
  deriving DecidableEq, Repr

/-- Why the model has no meaning for what is asked of it. -/
inductive Refusal where
  /-- An instruction without a meaning: raised by exec's arm for it, if there is one. Safe. -/
  | notModelled (mnemonic : String)
  /-- A host action other than a CMD write, a STATUS read or Reset while BUSY = 1: raised by the host
  port, "no move" (93 U4, 70 R246). Safe. -/
  | hostWhileBusy
  deriving DecidableEq, Repr

/-- The three outcomes of a step of this machine. -/
abbrev Outcome := Host.Outcome State Fault Refusal

/-! ### Reset -/

/-- The state after reset of a HUFFCORE built with the parameters `c` (10_state R49): every register,
flag and table entry 0, no byte of any buffer holding a value. -/
def State.initial (c : Config) : State where
  cfg := c
  ft := Vector.replicate 256 0
  node := Vector.replicate 511 Node.zero
  ct := Vector.replicate 256 []
  pq := []
  bw := BitWriter.zero
  br := BitReader.zero
  ib := []
  ob := []
  pb := []
  td := []
  busy := false
  done := false
  err := false
  stage := .clear
  errCode := .none
  errPos := 0
  inLen := 0
  outLen := 0
  nsym := 0
  nnode := 0
  root := 0
  tdBits := 0
  tdLen := 0
  vbits := 0
  payLen := 0
  payOff := 0
  ret := none
  host := { script := [], replies := [] }

/-- The state after reset, with the default `IB_CAP` of 00_scope R4 (log 1). -/
def State.reset : State := State.initial Config.standard

end Sys2Proof.Machine
end

