-- ==== Sys2Proof/Machine/Flags.lean ====
section
/-! DEFINITION. The status flags and the codes the host sees (10_state R31, R33, R45; 60_exceptions
R216), and what the command frame does to the flags at the start and at the end of a command
(60_exceptions R221). No command computes any other flag: the block has no condition codes. -/

namespace Sys2Proof.Machine

/-- The value of STAGE, 3 bits (10_state R45). -/
def stageValue : Stage → BitVec 3
  | .clear => 0#3
  | .freq => 1#3
  | .tree => 2#3
  | .code => 3#3
  | .packed => 4#3
  | .cdone => 5#3
  | .parsed => 6#3
  | .ddone => 7#3

/-- The value of ERR_CODE (60_exceptions R216). -/
def errValue : ErrCode → Byte
  | .none => 0x00#8
  | .eob => 0x01#8
  | .treeTrunc => 0x02#8
  | .treeOvf => 0x03#8
  | .treeLen => 0x04#8
  | .vbits => 0x05#8
  | .paylen => 0x06#8
  | .notree => 0x07#8
  | .midcode => 0x08#8
  | .badcmd => 0x10#8
  | .seq => 0x11#8
  | .len => 0x12#8
  | .cap => 0x13#8

/-- The causes of class FormatError, codes 0x01 to 0x08 (60_exceptions R215, R216). -/
def isFormatError : ErrCode → Bool
  | .eob | .treeTrunc | .treeOvf | .treeLen | .vbits | .paylen | .notree | .midcode => true
  | .none | .badcmd | .seq | .len | .cap => false

/-- STATUS, register 1: bit 0 BUSY, bit 1 DONE, bit 2 ERR, bits 6:4 STAGE, bits 3 and 7 read 0 (10_state R31). -/
def statusWord (s : State) : Byte :=
  0#1 ++ stageValue s.stage ++ 0#1 ++ BitVec.ofBool s.err ++ BitVec.ofBool s.done ++
    BitVec.ofBool s.busy

/-- The start of a command other than NOP: `BUSY <- 1; DONE <- 0; ERR <- 0; ERR_CODE <- 0;
ERR_POS <- 0` (60_exceptions R221). The micro-operation latch is emptied with them (log 4). -/
def startCommand (s : State) : State :=
  { s with busy := true, done := false, err := false, errCode := .none, errPos := 0, ret := none }

/-- The normal end of a command: `BUSY <- 0; DONE <- 1` (60_exceptions R221). -/
def endCommand (s : State) : State := { s with busy := false, done := true }

/-- The stages in which a host write to IB or IN_LEN invalidates the derived state (10_state R51). -/
def midPipeline : Stage → Bool
  | .freq | .tree | .code | .packed | .parsed => true
  | .clear | .cdone | .ddone => false

end Sys2Proof.Machine
end

