-- ==== Sys2Proof/Machine/Ops.lean ====
section
/-! DEFINITION. The named operations every meaning is built from: the byte buffers with `MemRead` and
`MemWrite` (00_scope R7), ClearDerived (10_state R47), the error entry (60_exceptions R222) and the
command frame (R221). There is no return from an error: the frame of the next command other than NOP
clears the error registers (R224). -/

namespace Sys2Proof.Machine

/-! ### How the pseudocode of a command can end early -/

/-- What stops a command's pseudocode: a `raise` (00_scope R7) or a model fault (60_exceptions R236). -/
inductive Stop where
  | raise (c : ErrCode) (pos : Nat)
  | fault (f : Fault)
  deriving DecidableEq, Repr

/-- `raise FormatError(code, pos)` (00_scope R7). -/
def raiseFormat {α : Type} (c : ErrCode) (pos : Nat) : Except Stop α := .error (.raise c pos)

/-- `raise CapacityError`: code ERR_CAP, position 0 (00_scope R7). -/
def raiseCapacity {α : Type} : Except Stop α := .error (.raise .cap 0)

/-- A model fault (60_exceptions R236). -/
def stopFault {α : Type} (f : Fault) : Except Stop α := .error (.fault f)

/-! ### Buffers (10_state R46) -/

/-- The canonical form of a buffer: addresses strictly rising. An unlisted address holds no value, so
no listed byte equals what an unlisted address reads as. -/
def Memory.wf : Buf → Bool
  | [] => true
  | [_] => true
  | (a, _) :: (a', b') :: rest => decide (a < a') && Memory.wf ((a', b') :: rest)

/-- The byte at an address, if it holds a value (10_state R48). -/
def bufRead : Buf → Nat → Option Byte
  | [], _ => none
  | (k, b) :: rest, a => if k = a then some b else bufRead rest a

/-- Writes one byte, keeping the canonical form. -/
def bufWrite : Buf → Nat → Byte → Buf
  | [], a, b => [(a, b)]
  | (k, c) :: rest, a, b =>
    if a < k then (a, b) :: (k, c) :: rest
    else if a = k then (a, b) :: rest
    else (k, c) :: bufWrite rest a b

/-- Writes bytes at ascending addresses from `a`. -/
def bufWriteList : Buf → Nat → List Byte → Buf
  | m, _, [] => m
  | m, a, b :: bs => bufWriteList (bufWrite m a b) (a + 1) bs

/-- The buffer of a name. -/
def buffer (s : State) : BufName → Buf
  | .ib => s.ib
  | .ob => s.ob
  | .pb => s.pb
  | .td => s.td

/-- The state with one buffer replaced. -/
def setBuffer (s : State) : BufName → Buf → State
  | .ib, m => { s with ib := m }
  | .ob, m => { s with ob := m }
  | .pb, m => { s with pb := m }
  | .td, m => { s with td := m }

/-- The capacity of a buffer (00_scope R4). -/
def capacity (c : Config) : BufName → Nat
  | .ib => c.ibCap.val
  | .ob => c.obCap
  | .pb => c.pbCap
  | .td => Config.tdCap

/-- `MemRead(B, a, 1)`: a byte that holds no value is a model fault (00_scope R7, 10_state R48). -/
def memReadByte (s : State) (n : BufName) (a : Nat) : Except Stop Byte :=
  match bufRead (buffer s n) a with
  | some b => .ok b
  | none => stopFault (.readUnwritten n a)

/-- `MemRead(B, a, n)`: the bytes in address order (00_scope R7). -/
def memRead (s : State) (n : BufName) : Nat → Nat → Except Stop (List Byte)
  | _, 0 => .ok []
  | a, k + 1 => do
    let b ← memReadByte s n a
    let bs ← memRead s n (a + 1) k
    .ok (b :: bs)

/-- `MemWrite(B, a, n, v)`: CapacityError when `a + n` exceeds the capacity (00_scope R7, 60_exceptions R232). -/
def memWrite (s : State) (n : BufName) (a : Nat) (bs : List Byte) : Except Stop State :=
  if capacity s.cfg n < a + bs.length then raiseCapacity
  else .ok (setBuffer s n (bufWriteList (buffer s n) a bs))

/-! ### ClearDerived, error entry, reset -/

/-- ClearDerived (10_state R47). The bytes of OB, PB and TD hold no value afterwards (R48), so none
stays listed (log 6); the micro-operation latch is the model's own (log 4). -/
def clearDerived (s : State) : State :=
  { s with
    ft := Vector.replicate 256 0
    ct := Vector.replicate 256 []
    node := Vector.replicate 511 Node.zero
    pq := []
    bw := BitWriter.zero
    br := BitReader.zero
    ob := []
    pb := []
    td := []
    outLen := 0
    nsym := 0
    nnode := 0
    root := 0
    tdBits := 0
    tdLen := 0
    vbits := 0
    payLen := 0
    payOff := 0
    stage := .clear
    ret := none }

/-- The error entry, the same for every `raise` of every class (60_exceptions R222). -/
def errorEntry (s : State) (c : ErrCode) (pos : Nat) : State :=
  { clearDerived s with errCode := c, errPos := pos, err := true, busy := false, done := true }

/-- Reset (10_state R49, 70_reset_and_hazards R240, R241): ClearDerived, the remaining registers and
flags 0, no byte of any buffer, IB's included, holding a value. The host's side is not the block's
(log 23). -/
def resetBlock (s : State) : State :=
  { clearDerived s with
    ib := []
    inLen := 0
    busy := false
    done := false
    err := false
    errCode := .none
    errPos := 0 }

/-! ### The command frame (60_exceptions R221) -/

/-- How a stand-alone micro-operation or container field ends: its state, the error entry its `raise`
performs, or a model fault. -/
def settle (s : State) : Except Stop State → Outcome
  | .ok t => .next t
  | .error (.raise c pos) => .next (errorEntry s c pos)
  | .error (.fault f) => .fault f

/-- As `settle`, for an operation that returns a value to its caller: the value goes to the latch (log 4). -/
def settleRet (s : State) : Except Stop (Nat × State) → Outcome
  | .ok (v, t) => .next { t with ret := some v }
  | .error (.raise c pos) => .next (errorEntry s c pos)
  | .error (.fault f) => .fault f

/-- How a command's body ends (60_exceptions R221, R222). -/
def settleCommand (s : State) : Except Stop State → Outcome
  | .ok t => .next (endCommand t)
  | .error (.raise c pos) => .next (errorEntry s c pos)
  | .error (.fault f) => .fault f

/-- The frame of a unit command: the length test for a command that reads IB (60_exceptions R229),
then the stage test (R230), then the body. A CMD write while BUSY = 1 has no effect (R221). -/
def unitCommand (readsIB : Bool) (required : Stage) (body : State → Except Stop State) (s : State) :
    Outcome :=
  if s.busy then .next s
  else if readsIB && decide (s.cfg.ibCap.val < s.inLen) then
    .next (errorEntry (startCommand s) .len 0)
  else if s.stage ≠ required then .next (errorEntry (startCommand s) .seq 0)
  else settleCommand (startCommand s) (body (startCommand s))

/-- The frame of CLEAR, COMPRESS and DECOMPRESS: legal in every stage, ClearDerived in place of the
stage test (60_exceptions R221). -/
def wholeCommand (readsIB : Bool) (body : State → Except Stop State) (s : State) : Outcome :=
  if s.busy then .next s
  else if readsIB && decide (s.cfg.ibCap.val < s.inLen) then
    .next (errorEntry (startCommand s) .len 0)
  else settleCommand (startCommand s) (body (clearDerived (startCommand s)))

/-- A CMD write of a reserved code: ERR_BADCMD, never a no-op (30_encoding R97, 60_exceptions R228). -/
def badCommand (s : State) : State :=
  if s.busy then s else errorEntry (startCommand s) .badcmd 0

end Sys2Proof.Machine
end

