-- ==== Sys2Proof/Machine/Operands.lean ====
section
/-! DEFINITION. The operand forms (20_memory R65, 30_encoding R96: every operand is in a register, a
table or a buffer): an input byte `IB[i]`, a big-endian 32-bit field, a table entry `FT[s]`, `CT[s]`,
`NODE[i]`, the BitWriter's sink. -/

namespace Sys2Proof.Machine

/-- `unbe32(MemRead(IB, a, 4))`: four byte reads at ascending addresses (20_memory R63, R64). -/
def readField32 (s : State) (a : Nat) : Except Stop Word := do
  let b0 ← memReadByte s .ib a
  let b1 ← memReadByte s .ib (a + 1)
  let b2 ← memReadByte s .ib (a + 2)
  let b3 ← memReadByte s .ib (a + 3)
  .ok (unbe32 b0 b1 b2 b3)

/-- `be32` of a register (30_encoding R80; the register fits 32 bits, log 26). -/
def fieldBytes (v : Nat) : List Byte := be32 (BitVec.ofNat 32 v)

/-- `FT[s]` (10_state R21). -/
def readFT (s : State) (sym : Byte) : Nat := s.ft.getD sym.toNat 0

/-- `FT[s] <- n`. -/
def writeFT (s : State) (sym : Byte) (n : Nat) : State :=
  { s with ft := s.ft.setIfInBounds sym.toNat n }

/-- `CT[s]` (10_state R23): the code, its length the `len` field. -/
def readCT (s : State) (sym : Byte) : List Bool := s.ct.getD sym.toNat []

/-- `CT[s] <- (len(path), path)`. -/
def writeCT (s : State) (sym : Byte) (path : List Bool) : State :=
  { s with ct := s.ct.setIfInBounds sym.toNat path }

/-- `NODE[i]` where the index is known to be an entry; the all-zero record elsewhere. -/
def nodeAt (s : State) (i : Nat) : Node := s.node.getD i Node.zero

/-- `NODE[i]`; there is no entry above 510 (10_state R22, log 11). -/
def readNode (s : State) (i : Nat) : Except Stop Node :=
  if i < Config.nodeMax then .ok (nodeAt s i) else stopFault (.noSuchNode i)

/-- `NODE[i] <- x`; there is no entry above 510 (10_state R22, log 11). -/
def writeNode (s : State) (i : Nat) (x : Node) : Except Stop State :=
  if i < Config.nodeMax then .ok { s with node := s.node.setIfInBounds i x }
  else stopFault (.noSuchNode i)

/-- The buffer `BW.SINK` names (10_state R25). -/
def sinkBuffer : Sink → BufName
  | .pb => .pb
  | .td => .td

/-- The number of `s` in 0..255 with `FT[s] > 0` (40_frequency_counter R111). -/
def countPresent (s : State) : Nat := s.ft.toList.countP (fun n => decide (0 < n))

end Sys2Proof.Machine
end

