-- ==== Sys2Proof/Machine/BitReader.lean ====
section
/-! DEFINITION. The bit-unpacker and UNPACK (44_bit_reader). -/

namespace Sys2Proof.Machine

/-- BR.INIT(base, limit) (44_bit_reader R162). -/
def readerInit (base limit : Nat) (s : State) : State :=
  { s with br := { base := base, limit := limit, pos := 0 } }

/-- BR.REM() (44_bit_reader R162). -/
def readerRem (s : State) : Nat := s.br.limit - s.br.pos

/-- Bit `7 - k` of a byte, the bit with number `k` of a packed sequence (20_memory R62). -/
def bitOfByte (b : Byte) (k : Nat) : Bool := b.getLsbD (7 - k)

/-- BR.GET() (44_bit_reader R161); at the limit its precondition fails (log 13). -/
def readerGet (s : State) : Except Stop (Bool × State) :=
  if s.br.pos < s.br.limit then do
    let b ← memReadByte s .ib (s.br.base + s.br.pos / 8)
    .ok (bitOfByte b (s.br.pos % 8), { s with br := { s.br with pos := s.br.pos + 1 } })
  else stopFault .readerAtLimit

/-- `n` bits, the first the most significant: `v <- 2 * v + BR.GET()` (45_container R182). -/
def readerGetBits : Nat → Nat → State → Except Stop (Nat × State)
  | 0, v, s => .ok (v, s)
  | n + 1, v, s => do
    let (b, s) ← readerGet s
    readerGetBits n (2 * v + b.toNat) s

/-! ### UNPACK (44_bit_reader R163 to R167) -/

/-- The loop of the tree walk (44_bit_reader R165); `fuel` is the number of bits left, the second
argument is CUR, which lives only inside the command (10_state R27). -/
def walkLoop : Nat → Nat → State → Except Stop (Nat × State)
  | 0, cur, s => .ok (cur, s)
  | fuel + 1, cur, s =>
    if readerRem s = 0 then .ok (cur, s)
    else do
      let (b, s) ← readerGet s
      let x ← readNode s cur
      let cur := if b then x.right else x.left
      let y ← readNode s cur
      match y.kind with
      | .leaf => do
        let s ← memWrite s .ob s.outLen [y.sym]
        walkLoop fuel s.root { s with outLen := s.outLen + 1 }
      | .internal => walkLoop fuel cur s

/-- The tree walk (44_bit_reader R165). -/
def treeWalk (s : State) : Except Stop State := do
  let (cur, s) ← walkLoop s.vbits s.root (readerInit s.payOff s.vbits s)
  if cur ≠ s.root then raiseFormat .midcode s.inLen else .ok s

/-- `for k in a .. a+n-1: MemWrite(OB, k, 1, [sym])` (44_bit_reader R166). -/
def repeatLoop : Nat → Nat → Byte → State → Except Stop State
  | 0, _, _, s => .ok s
  | n + 1, k, sym, s => do
    let s ← memWrite s .ob k [sym]
    repeatLoop n (k + 1) sym s

/-- The single-symbol case: the payload is not read (44_bit_reader R166). -/
def singleSymbol (sym : Byte) (s : State) : Except Stop State := do
  let s ← repeatLoop s.vbits 0 sym s
  .ok { s with outLen := s.vbits }

/-- The case split of UNPACK: no tree (44_bit_reader R167), a lone leaf (R166), a tree to walk (R165). -/
def unpackTree (s : State) : Except Stop State :=
  if s.nnode = 0 then .ok s
  else do
    let x ← readNode s s.root
    match x.kind with
    | .leaf => singleSymbol x.sym s
    | .internal => treeWalk s

/-- The body of UNPACK (44_bit_reader R163). -/
def unpackBody (s : State) : Except Stop State := do
  let s ← unpackTree { s with outLen := 0 }
  .ok { s with stage := .ddone }

/-- UNPACK (44_bit_reader R163). -/
def execUnpack (s : State) : Outcome := unitCommand true .parsed unpackBody s

/-- BR.INIT(base, limit) as a micro-operation (44_bit_reader R162). -/
def execBrInit (base limit : Nat) (s : State) : Outcome := .next (readerInit base limit s)

/-- BR.REM() as a micro-operation: it changes nothing and returns the bits left (44_bit_reader R162). -/
def execBrRem (s : State) : Outcome := settleRet s (.ok (readerRem s, s))

/-- BR.GET() as a micro-operation (44_bit_reader R161). -/
def execBrGet (s : State) : Outcome :=
  settleRet s (do
    let (b, t) ← readerGet s
    .ok (b.toNat, t))

end Sys2Proof.Machine
end

