-- ==== Sys2Proof/Machine/BitWriter.lean ====
section
/-! DEFINITION. The bit-packer and PACK (43_bit_writer). -/

namespace Sys2Proof.Machine

/-- BW.INIT(sink) (43_bit_writer R146). -/
def writerInit (k : Sink) (s : State) : State := { s with bw := { BitWriter.zero with sink := k } }

/-- `ACC | (b << (7 - NB))` (43_bit_writer R147). -/
def placeBit (acc : Byte) (nb : Nat) (b : Bool) : Byte :=
  acc ||| ((BitVec.ofBool b).setWidth 8 <<< (7 - nb))

/-- Sends ACC to the sink and starts the next byte (43_bit_writer R147, R148). -/
def writerSend (s : State) : Except Stop State := do
  let s ← memWrite s (sinkBuffer s.bw.sink) s.bw.wp [s.bw.acc]
  .ok { s with bw := { s.bw with wp := s.bw.wp + 1, acc := 0#8, nb := 0 } }

/-- BW.PUT(b) (43_bit_writer R147). -/
def writerPut (b : Bool) (s : State) : Except Stop State :=
  let s := { s with
    bw := { s.bw with
      acc := placeBit s.bw.acc s.bw.nb b
      nb := s.bw.nb + 1
      total := s.bw.total + 1 } }
  if s.bw.nb = 8 then writerSend s else .ok s

/-- BW.FLUSH() (43_bit_writer R148). -/
def writerFlush (s : State) : Except Stop State :=
  if 0 < s.bw.nb then writerSend s else .ok s

/-- `for k in 0 .. l-1: call BW.PUT(c[k])` (43_bit_writer R150). -/
def putBits : List Bool → State → Except Stop State
  | [], s => .ok s
  | b :: rest, s => do
    let s ← writerPut b s
    putBits rest s

/-- `for i in a .. a+n-1`: the code of each input byte, in order (43_bit_writer R150). -/
def packLoop : Nat → Nat → State → Except Stop State
  | 0, _, s => .ok s
  | n + 1, i, s => do
    let b ← memReadByte s .ib i
    let s ← putBits (readCT s b) s
    packLoop n (i + 1) s

/-- The body of PACK (43_bit_writer R150). -/
def packBody (s : State) : Except Stop State := do
  let s ← packLoop s.inLen 0 (writerInit .pb s)
  let s ← writerFlush s
  if 2 ^ 32 - 1 < s.bw.total then raiseCapacity
  else .ok { s with vbits := s.bw.total, payLen := s.bw.wp, stage := .packed }

/-- PACK (43_bit_writer R150). -/
def execPack (s : State) : Outcome := unitCommand true .code packBody s

/-- BW.INIT(sink) as a micro-operation (43_bit_writer R146). -/
def execBwInit (k : Sink) (s : State) : Outcome := .next (writerInit k s)

/-- BW.PUT(b) as a micro-operation (43_bit_writer R147). -/
def execBwPut (b : Bool) (s : State) : Outcome := settle s (writerPut b s)

/-- BW.FLUSH() as a micro-operation (43_bit_writer R148). -/
def execBwFlush (s : State) : Outcome := settle s (writerFlush s)

end Sys2Proof.Machine
end

