-- ==== Sys2Proof/Machine/CodeTable.lean ====
section
/-! DEFINITION. The code-table generator (42_code_table). -/

namespace Sys2Proof.Machine

/-- CG.WALK(i, path) (42_code_table R136). The first argument is what is left of the 256 nested calls
the traversal stack holds (10_state R27), which also keeps every path at most 255 bits. -/
def codeWalk : Nat → Nat → List Bool → State → Except Stop State
  | 0, _, _, _ => stopFault .traversalTooDeep
  | fuel + 1, i, path, s => do
    let x ← readNode s i
    match x.kind with
    | .leaf => .ok (writeCT s x.sym path)
    | .internal => do
      let s ← codeWalk fuel x.left (path ++ [false]) s
      codeWalk fuel x.right (path ++ [true]) s

/-- The nested calls of a traversal stack (10_state R27). -/
def stackDepth : Nat := 256

/-- The case split of CGEN: no tree (42_code_table R140), a lone leaf (R138), a tree to walk (R136). -/
def codeTree (s : State) : Except Stop State :=
  if s.nnode = 0 then .ok s
  else do
    let x ← readNode s s.root
    match x.kind with
    | .leaf => .ok (writeCT s x.sym [false])
    | .internal => codeWalk stackDepth s.root [] s

/-- The body of CGEN (42_code_table R137). -/
def cgenBody (s : State) : Except Stop State := do
  let s ← codeTree s
  .ok { s with stage := .code }

/-- CGEN (42_code_table R137). -/
def execCgen (s : State) : Outcome := unitCommand false .tree cgenBody s

/-- CG.WALK(i, path) as a micro-operation: a path of `k` bits stands `k` calls deep (42_code_table R136). -/
def execCgWalk (i : Nat) (path : List Bool) (s : State) : Outcome :=
  settle s (codeWalk (stackDepth - path.length) i path s)

end Sys2Proof.Machine
end

