-- ==== Sys2Proof/Machine/Container.lean ====
section
/-! DEFINITION. The container serializer and deserializer (45_container), and the four container
encodings that PARSE decodes (30_encoding R87, R88, R90). -/

namespace Sys2Proof.Machine

/-! ### The serializer -/

/-- SER.EMIT(i) (45_container R176), within the 256 nested calls of the traversal stack (10_state R27). -/
def emitNode : Nat → Nat → State → Except Stop State
  | 0, _, _ => stopFault .traversalTooDeep
  | fuel + 1, i, s => do
    let x ← readNode s i
    match x.kind with
    | .leaf => putBits (true :: byteBits x.sym) s
    | .internal => do
      let s ← writerPut false s
      let s ← emitNode fuel x.left s
      emitNode fuel x.right s

/-- The tree from its root, if there is one (45_container R175). -/
def emitTree (s : State) : Except Stop State :=
  if 0 < s.nnode then emitNode stackDepth s.root s else .ok s

/-- Part 1 of SERIAL: the tree description, into TD (45_container R175). -/
def describeTree (s : State) : Except Stop State := do
  let s ← emitTree (writerInit .td s)
  let s ← writerFlush s
  .ok { s with tdBits := s.bw.total, tdLen := s.bw.wp }

/-- Part 2 of SERIAL: the four blocks of the container, into OB (45_container R175, R178). -/
def assemble (s : State) : Except Stop State := do
  let s ← memWrite s .ob 0 (fieldBytes s.tdLen)
  let d ← memRead s .td 0 s.tdLen
  let s ← memWrite s .ob 4 d
  let s ← memWrite s .ob (4 + s.tdLen) (fieldBytes s.vbits)
  let s := { s with payOff := 8 + s.tdLen }
  let p ← memRead s .pb 0 s.payLen
  let s ← memWrite s .ob s.payOff p
  .ok { s with outLen := s.payOff + s.payLen, stage := .cdone }

/-- The body of SERIAL (45_container R175). -/
def serialBody (s : State) : Except Stop State := do
  let s ← describeTree s
  assemble s

/-- SERIAL (45_container R175). -/
def execSerial (s : State) : Outcome := unitCommand false .packed serialBody s

/-- SER.EMIT(i) as a micro-operation (45_container R176). -/
def execSerEmit (i : Nat) (s : State) : Outcome := settle s (emitNode stackDepth i s)

/-! ### The nodes of a tree description (45_container R182) -/

/-- The position `4 + T`, the end of the tree block, `T` being the header value of the enclosing PARSE
(45_container R182, log 14). -/
def treeBlockEnd (s : State) : Nat := 4 + s.tdLen

/-- The two tests DES.NODE makes when a node is due: a bit is left, and an arena entry is free. -/
def nodeDue (s : State) : Except Stop Unit :=
  if readerRem s = 0 then raiseFormat .treeTrunc (treeBlockEnd s)
  else if Config.nodeMax ≤ s.nnode then raiseFormat .treeOvf (4 + s.br.pos / 8)
  else .ok ()

/-- `i <- NNODE; NNODE <- NNODE + 1; NODE[i] <- x` (45_container R182). -/
def allocNode (x : Node) (s : State) : Except Stop (Nat × State) := do
  let t ← writeNode s s.nnode x
  .ok (s.nnode, { t with nnode := s.nnode + 1 })

/-- A TREE.LEAF node whose bits have been taken (45_container R182). -/
def placeLeaf (sym : Byte) (s : State) : Except Stop (Nat × State) := do
  let (i, s) ← allocNode { kind := .leaf, sym := sym, left := 0, right := 0, weight := 0 } s
  .ok (i, { s with nsym := s.nsym + 1 })

/-- A TREE.INTERNAL node whose flag has been taken: its left subtree follows, then its right subtree,
each read by `child` (30_encoding R90, 45_container R182). -/
def placeInternal (child : State → Except Stop (Nat × State)) (s : State) :
    Except Stop (Nat × State) := do
  let (i, s) ← allocNode Node.zero s
  let (l, s) ← child s
  let (r, s) ← child s
  let x ← readNode s i
  let s ← writeNode s i { x with left := l, right := r }
  .ok (i, s)

/-- DES.NODE() (45_container R182). The first argument is what is left of the 511 nested calls of the
traversal stack (10_state R27); at 0 the arena is full, so a node that is due overflows it (log 22). -/
def deserNode : Nat → State → Except Stop (Nat × State)
  | 0, s => do
    nodeDue s
    raiseFormat .treeOvf (4 + s.br.pos / 8)
  | fuel + 1, s => do
    nodeDue s
    let (f, s) ← readerGet s
    if f then
      if readerRem s < 8 then raiseFormat .treeTrunc (treeBlockEnd s)
      else do
        let (v, s) ← readerGetBits 8 0 s
        placeLeaf (BitVec.ofNat 8 v) s
    else placeInternal (deserNode fuel) s

/-- The nested calls of PARSE's traversal stack (10_state R27). -/
def parseDepth : Nat := 511

/-- The BitReader moved past `n` bits that have been decoded. -/
def skipBits (n : Nat) (s : State) : State := { s with br := { s.br with pos := s.br.pos + n } }

/-- The node code TREE.LEAF at the reader's position: DES.NODE's tests and effect on its nine bits
(30_encoding R90, 45_container R182, log 15). -/
def leafCode (sym : Byte) (s : State) : Except Stop (Nat × State) := do
  nodeDue s
  if readerRem s < 9 then raiseFormat .treeTrunc (treeBlockEnd s)
  else placeLeaf sym (skipBits 9 s)

/-- The node code TREE.INTERNAL at the reader's position: DES.NODE's tests and effect on its one bit,
its two subtrees read by DES.NODE (30_encoding R90, 45_container R182, log 15). -/
def internalCode (s : State) : Except Stop (Nat × State) := do
  nodeDue s
  placeInternal (deserNode parseDepth) (skipBits 1 s)

/-- DES.NODE() as a micro-operation (45_container R182). -/
def execDesNode (s : State) : Outcome := settleRet s (deserNode parseDepth s)

/-- TREE.LEAF (30_encoding R90, log 15). -/
def execTreeLeaf (sym : Byte) (s : State) : Outcome := settleRet s (leafCode sym s)

/-- TREE.INTERNAL (30_encoding R90, log 15). -/
def execTreeInternal (s : State) : Outcome := settleRet s (internalCode s)

/-! ### The two fields -/

/-- The header field: step 1 of PARSE, the fixed fields must fit (30_encoding R87, 45_container R183).
TD_LEN holds `T` from here on (log 14). -/
def headerField (t : Word) (s : State) : Except Stop State :=
  if s.inLen < 4 then raiseFormat .eob 0
  else if s.inLen < 4 + t.toNat then raiseFormat .eob 4
  else if s.inLen < 8 + t.toNat then raiseFormat .eob (4 + t.toNat)
  else .ok { s with tdLen := t.toNat }

/-- Steps 3 and 4 of PARSE on the payload-metadata field (45_container R184, R185), `p` payload bytes
being present. -/
def checkPayload (v p : Nat) (s : State) : Except Stop State :=
  if 8 * p < v then raiseFormat .vbits (4 + s.tdLen)
  else if ceil8 v < p then raiseFormat .paylen (8 + s.tdLen + ceil8 v)
  else if s.tdLen = 0 ∧ v ≠ 0 then raiseFormat .notree 4
  else .ok { s with vbits := v, payLen := p, payOff := 8 + s.tdLen, stage := .parsed }

/-- The payload-metadata field: steps 3 and 4 of PARSE and its success (30_encoding R88, 45_container
R180, R184, R185). A container that ends before the field has no such field (R183). -/
def metadataField (v : Word) (s : State) : Except Stop State :=
  if s.inLen < 8 + s.tdLen then raiseFormat .eob (4 + s.tdLen)
  else checkPayload v.toNat (s.inLen - (8 + s.tdLen)) s

/-- HDR.T (30_encoding R87, log 15). -/
def execHdrT (t : Word) (s : State) : Outcome := settle s (headerField t s)

/-- META.V (30_encoding R88, log 15). -/
def execMetaV (v : Word) (s : State) : Outcome := settle s (metadataField v s)

/-! ### PARSE (45_container R180) -/

/-- Step 2: the tree, when the header names one (45_container R180, R182). -/
def parseTree (s : State) : Except Stop State :=
  if 0 < s.tdLen then do
    let (r, s) ← deserNode parseDepth (readerInit 4 (8 * s.tdLen) s)
    if ceil8 s.br.pos ≠ s.tdLen then raiseFormat .treeLen (4 + ceil8 s.br.pos)
    else .ok { s with root := r, tdBits := s.br.pos }
  else .ok s

/-- The body of PARSE (45_container R180). -/
def parseBody (s : State) : Except Stop State :=
  if s.inLen < 4 then raiseFormat .eob 0
  else do
    let t ← readField32 s 0
    let s ← headerField t s
    let s ← parseTree s
    let v ← readField32 s (4 + s.tdLen)
    metadataField v s

/-- PARSE (45_container R180). -/
def execParse (s : State) : Outcome := unitCommand true .clear parseBody s

end Sys2Proof.Machine
end

