-- ==== Sys2Proof/Machine/FrequencyCounter.lean ====
section
/-! DEFINITION. The frequency counter (40_frequency_counter). -/

namespace Sys2Proof.Machine

/-- `for i in a .. a+n-1: s <- MemRead(IB, i, 1); FT[s] <- FT[s] + 1` (40_frequency_counter R111). -/
def countLoop : Nat → Nat → State → Except Stop State
  | 0, _, s => .ok s
  | n + 1, i, s => do
    let b ← memReadByte s .ib i
    countLoop n (i + 1) (writeFT s b (readFT s b + 1))

/-- The body of FCOUNT (40_frequency_counter R111). -/
def fcountBody (s : State) : Except Stop State := do
  let s ← countLoop s.inLen 0 s
  .ok { s with nsym := countPresent s, stage := .freq }

/-- FCOUNT (40_frequency_counter R111). -/
def execFcount (s : State) : Outcome := unitCommand true .clear fcountBody s

end Sys2Proof.Machine
end

