-- ==== Sys2Proof/Machine/Housekeeping.lean ====
section
/-! DEFINITION. The housekeeping commands NOP and CLEAR (46_codec R200, R201) and the
micro-operation ClearDerived (10_state R47). -/

namespace Sys2Proof.Machine

/-- NOP: handled before the frame, changes no state at all (46_codec R200). -/
def execNop (s : State) : Outcome := .next s

/-- The body of CLEAR is empty: the frame performs ClearDerived (46_codec R201). -/
def clearBody (s : State) : Except Stop State := .ok s

/-- CLEAR (46_codec R201). -/
def execClear (s : State) : Outcome := wholeCommand false clearBody s

/-- ClearDerived as a micro-operation (10_state R47). -/
def execClearDerived (s : State) : Outcome := .next (clearDerived s)

end Sys2Proof.Machine
end

