-- ==== Sys2Proof/Machine/TreeBuilder.lean ====
section
/-! DEFINITION. The Huffman tree builder and its priority queue (41_tree_builder). -/

namespace Sys2Proof.Machine

/-! ### The queue (41_tree_builder R121, R125, R126) -/

/-- Adds a member to a set of indices kept strictly rising. -/
def setInsert (i : Nat) : List Nat → List Nat
  | [] => [i]
  | j :: rest => if i < j then i :: j :: rest else if i = j then j :: rest else j :: setInsert i rest

/-- The order of the queue: weight first, arena index second (41_tree_builder R121). -/
def keyBefore (s : State) (i j : Nat) : Bool :=
  decide ((nodeAt s i).weight < (nodeAt s j).weight) ||
    (decide ((nodeAt s i).weight = (nodeAt s j).weight) && decide (i < j))

/-- The member with the lowest key (41_tree_builder R126). -/
def lowestKey (s : State) : List Nat → Option Nat
  | [] => none
  | i :: rest =>
    match lowestKey s rest with
    | none => some i
    | some j => if keyBefore s j i then some j else some i

/-- PQ.PUSH(i) (41_tree_builder R125). -/
def queuePush (i : Nat) (s : State) : State := { s with pq := setInsert i s.pq }

/-- PQ.POPMIN() (41_tree_builder R126). -/
def queuePopMin (s : State) : Except Stop (Nat × State) :=
  match lowestKey s s.pq with
  | none => stopFault .queueEmpty
  | some m => .ok (m, { s with pq := s.pq.erase m })

/-! ### TBUILD (41_tree_builder R122) -/

/-- The leaf record of a symbol with its count. -/
def leafRecord (sym : Byte) (w : Nat) : Node :=
  { kind := .leaf, sym := sym, left := 0, right := 0, weight := w }

/-- The internal record of two children. -/
def internalRecord (l r w : Nat) : Node :=
  { kind := .internal, sym := 0#8, left := l, right := r, weight := w }

/-- The first loop: a leaf for each present symbol, in the order of the list; `n` counts them. -/
def leafLoop : List Nat → Nat → State → Except Stop (Nat × State)
  | [], n, s => .ok (n, s)
  | v :: rest, n, s =>
    let sym := BitVec.ofNat 8 v
    if 0 < readFT s sym then do
      let s ← writeNode s n (leafRecord sym (readFT s sym))
      leafLoop rest (n + 1) (queuePush n s)
    else leafLoop rest n s

/-- The merge loop; the queue loses one member a pass, so its length bounds the passes. -/
def mergeLoop : Nat → State → Except Stop State
  | 0, s => .ok s
  | fuel + 1, s =>
    if s.pq.length ≤ 1 then .ok s
    else do
      let (a, s) ← queuePopMin s
      let (b, s) ← queuePopMin s
      let na ← readNode s a
      let nb ← readNode s b
      let s ← writeNode s s.nnode (internalRecord a b (na.weight + nb.weight))
      mergeLoop fuel { queuePush s.nnode s with nnode := s.nnode + 1 }

/-- The end: the one queued node is the root; an empty queue leaves ROOT 0 (41_tree_builder R127). -/
def takeRoot (s : State) : Except Stop State :=
  if s.pq.length = 1 then do
    let (r, s) ← queuePopMin s
    .ok { s with root := r }
  else .ok { s with root := 0 }

/-- The body of TBUILD (41_tree_builder R122). -/
def tbuildBody (s : State) : Except Stop State := do
  let (n, s) ← leafLoop (List.range 256) 0 s
  let s ← mergeLoop s.pq.length { s with nnode := n }
  let s ← takeRoot s
  .ok { s with stage := .tree }

/-- TBUILD (41_tree_builder R122). It does not read IB, so there is no length test (60_exceptions R229). -/
def execTbuild (s : State) : Outcome := unitCommand false .freq tbuildBody s

/-- PQ.PUSH(i) as a micro-operation (41_tree_builder R125). -/
def execPqPush (i : Nat) (s : State) : Outcome :=
  settle s (if i < Config.nodeMax then .ok (queuePush i s) else stopFault (.noSuchNode i))

/-- PQ.POPMIN() as a micro-operation (41_tree_builder R126). -/
def execPqPopMin (s : State) : Outcome := settleRet s (queuePopMin s)

end Sys2Proof.Machine
end

