-- ==== Sys2Proof/Machine/Codec.lean ====
section
/-! DEFINITION. The Codec commands COMPRESS and DECOMPRESS (46_codec R204, R205): the bodies of the
unit commands in sequence, without their frames. -/

namespace Sys2Proof.Machine

/-- The body of COMPRESS: encode steps 1 to 5 (46_codec R204). -/
def compressBody (s : State) : Except Stop State := do
  let s ← fcountBody s
  let s ← tbuildBody s
  let s ← cgenBody s
  let s ← packBody s
  serialBody s

/-- COMPRESS (46_codec R204). -/
def execCompress (s : State) : Outcome := wholeCommand true compressBody s

/-- The body of DECOMPRESS: decode steps 1 to 4 (46_codec R205). -/
def decompressBody (s : State) : Except Stop State := do
  let s ← parseBody s
  unpackBody s

/-- DECOMPRESS (46_codec R205). -/
def execDecompress (s : State) : Outcome := wholeCommand true decompressBody s

end Sys2Proof.Machine
end

