-- ==== Sys2Proof/Machine/Dispatch.lean ====
section
/-! DEFINITION. What each instruction of the opcode table does: one call of its meaning. -/

namespace Sys2Proof.Machine

def exec (i : Instr) (s : State) : Host.Outcome State Fault Refusal :=
  match i with
  -- commands (30_encoding R96)
  | .nop => Sys2Proof.Machine.execNop s
  | .clear => Sys2Proof.Machine.execClear s
  | .fcount => Sys2Proof.Machine.execFcount s
  | .tbuild => Sys2Proof.Machine.execTbuild s
  | .cgen => Sys2Proof.Machine.execCgen s
  | .pack => Sys2Proof.Machine.execPack s
  | .serial => Sys2Proof.Machine.execSerial s
  | .parse => Sys2Proof.Machine.execParse s
  | .unpack => Sys2Proof.Machine.execUnpack s
  | .compress => Sys2Proof.Machine.execCompress s
  | .decompress => Sys2Proof.Machine.execDecompress s
  -- micro-operations (30_encoding R98)
  | .pqPush j => Sys2Proof.Machine.execPqPush j s
  | .pqPopMin => Sys2Proof.Machine.execPqPopMin s
  | .cgWalk j path => Sys2Proof.Machine.execCgWalk j path s
  | .bwInit k => Sys2Proof.Machine.execBwInit k s
  | .bwPut b => Sys2Proof.Machine.execBwPut b s
  | .bwFlush => Sys2Proof.Machine.execBwFlush s
  | .brInit base limit => Sys2Proof.Machine.execBrInit base limit s
  | .brRem => Sys2Proof.Machine.execBrRem s
  | .brGet => Sys2Proof.Machine.execBrGet s
  | .serEmit j => Sys2Proof.Machine.execSerEmit j s
  | .desNode => Sys2Proof.Machine.execDesNode s
  | .clearDerived => Sys2Proof.Machine.execClearDerived s
  -- container encodings (30_encoding R87, R88, R90)
  | .hdrT t => Sys2Proof.Machine.execHdrT t s
  | .metaV v => Sys2Proof.Machine.execMetaV v s
  | .treeInternal => Sys2Proof.Machine.execTreeInternal s
  | .treeLeaf sym => Sys2Proof.Machine.execTreeLeaf sym s

end Sys2Proof.Machine
end

