-- ==== Sys2Proof/Machine/HostPort.lean ====
section
/-! DEFINITION. The host interface (10_state R30 to R51): the register map, the host actions with
their effects and replies, the write to CMD, and the placing of an instruction where the next step
meets it. -/

namespace Sys2Proof.Machine

/-! ### The register map (10_state R30) -/

/-- The value of register `r`, zero-extended to 32 bits; CMD and the reserved numbers read 0 (10_state R30, R32). -/
def readReg (s : State) (r : Byte) : Word :=
  if r = 1#8 then (statusWord s).setWidth 32
  else if r = 2#8 then (errValue s.errCode).setWidth 32
  else if r = 3#8 then BitVec.ofNat 32 s.errPos
  else if r = 4#8 then BitVec.ofNat 32 s.inLen
  else if r = 5#8 then BitVec.ofNat 32 s.outLen
  else if r = 6#8 then BitVec.ofNat 32 s.nsym
  else if r = 7#8 then BitVec.ofNat 32 s.nnode
  else if r = 8#8 then BitVec.ofNat 32 s.root
  else if r = 9#8 then BitVec.ofNat 32 s.tdBits
  else if r = 10#8 then BitVec.ofNat 32 s.tdLen
  else if r = 11#8 then BitVec.ofNat 32 s.vbits
  else if r = 12#8 then BitVec.ofNat 32 s.payLen
  else if r = 13#8 then BitVec.ofNat 32 s.payOff
  else 0#32

/-! ### Host actions (10_state R50) -/

/-- The host receives a reply; nothing of the block changes (10_state R50: reads never change state). -/
def answer (s : State) (r : Reply) : State :=
  { s with host := { s.host with replies := r :: s.host.replies } }

/-- A host write to IB or IN_LEN that has taken effect performs ClearDerived in a mid-pipeline stage (10_state R51). -/
def invalidate (s : State) : State := if midPipeline s.stage then clearDerived s else s

/-- WriteIB(a, b) (10_state R50): refused where there is no such byte (93 U7). -/
def writeIB (a : Nat) (b : Byte) (s : State) : State :=
  if a < s.cfg.ibCap.val then invalidate { s with ib := bufWrite s.ib a b } else answer s .refused

/-- WriteReg(IN_LEN, v) (10_state R35, R50). -/
def writeInLen (v : Word) (s : State) : State := invalidate { s with inLen := v.toNat }

/-- WriteReg(CMD, c): the command whose code is `c`, or ERR_BADCMD (10_state R32, 60_exceptions R221). -/
def writeCMD (c : Byte) (s : State) : Outcome :=
  match decodeCommand c with
  | .ok i => exec i s
  | .error _ => .next (badCommand s)

/-- WriteReg(r, v) (10_state R30, R50): CMD takes the low 8 bits (log 17); any register but CMD and
IN_LEN is unaffected. -/
def writeReg (r : Byte) (v : Word) (s : State) : Outcome :=
  if r = 0#8 then writeCMD (v.setWidth 8) s
  else if r = 4#8 then .next (writeInLen v s)
  else .next s

/-- ReadOB(a) (10_state R50): refused at or above OUT_LEN (93 U3). -/
def hostReadOB (a : Nat) (s : State) : Outcome :=
  if a < s.outLen then
    match bufRead s.ob a with
    | some b => .next (answer s (.byte b))
    | none => .fault (.readUnwritten .ob a)
  else .next (answer s .refused)

/-- ReadIB(a) (10_state R50): a byte the host has not written holds no value (10_state R48, 93 U15,
log 18). -/
def hostReadIB (a : Nat) (s : State) : Outcome :=
  if a < s.cfg.ibCap.val then
    match bufRead s.ib a with
    | some b => .next (answer s (.byte b))
    | none => .fault (.readUnwritten .ib a)
  else .next (answer s .refused)

/-- ReadTab(NODE, i) (10_state R50); there is no entry above 510 (log 18). -/
def hostReadNODE (i : Nat) (s : State) : State :=
  if i < Config.nodeMax then answer s (.node (nodeAt s i)) else answer s .refused

/-- One host action while BUSY = 0 (10_state R50). -/
def hostActIdle (a : HostAction) (s : State) : Outcome :=
  match a with
  | .writeIB a b => .next (writeIB a b s)
  | .writeReg r v => writeReg r v s
  | .readReg r => .next (answer s (.reg (readReg s r)))
  | .readOB a => hostReadOB a s
  | .readIB a => hostReadIB a s
  | .readFT sym => .next (answer s (.count (readFT s sym)))
  | .readNODE i => .next (hostReadNODE i s)
  | .readCT sym => .next (answer s (.code (readCT s sym).length (readCT s sym)))
  | .reset => .next (resetBlock s)

/-- One host action while BUSY = 1: a CMD write is ignored, STATUS may be read, Reset resets, and for
every other action there is no move (10_state R32, R50; 70 R242, R246; 93 U4; log 7). -/
def hostActBusy (a : HostAction) (s : State) : Outcome :=
  match a with
  | .writeReg r _ => if r = 0#8 then .next s else .refused .hostWhileBusy
  | .readReg r => if r = 1#8 then .next (answer s (.reg (readReg s r))) else .refused .hostWhileBusy
  | .reset => .next (resetBlock s)
  | .writeIB _ _ => .refused .hostWhileBusy
  | .readOB _ => .refused .hostWhileBusy
  | .readIB _ => .refused .hostWhileBusy
  | .readFT _ => .refused .hostWhileBusy
  | .readNODE _ => .refused .hostWhileBusy
  | .readCT _ => .refused .hostWhileBusy

/-- One host action. -/
def hostAct (a : HostAction) (s : State) : Outcome :=
  if s.busy then hostActBusy a s else hostActIdle a s

/-- The next host action, if one is pending; without one the block waits (10_state R49). -/
def hostStep (s : State) : Outcome :=
  match s.host.script with
  | [] => .next s
  | a :: rest => hostAct a { s with host := { s.host with script := rest } }

/-! ### Placing an instruction (log 16) -/

/-- The host's next action put in front of those pending. -/
def nextAction (a : HostAction) (s : State) : State :=
  { s with host := { s.host with script := a :: s.host.script } }

/-- The bytes of a bit string whose length is a multiple of eight. -/
def bytesOfBits : List Bool → List Byte
  | b7 :: b6 :: b5 :: b4 :: b3 :: b2 :: b1 :: b0 :: rest =>
    byteOfBits b7 b6 b5 b4 b3 b2 b1 b0 :: bytesOfBits rest
  | _ => []

/-- A container placed in IB with PARSE as the host's next action: its fields are what PARSE decodes. -/
def placeContainer (bytes : List Byte) (s : State) : State :=
  nextAction (.writeReg 0#8 7#32)
    { clearDerived s with ib := bufWriteList s.ib 0 bytes, inLen := bytes.length, busy := false }

/-- An instruction of the opcode table where the next step meets it: a command byte is the host's next
write to CMD; a header field is the start of a container that PARSE decodes, followed by zeros up to
8 bytes; a node code is the start of the tree description of such a container. -/
def placeTableWord (nbits w : Nat) (s : State) : State :=
  match tablePlace nbits with
  | some .command => nextAction (.writeReg 0#8 (BitVec.ofNat 32 (w % 256))) { s with busy := false }
  | some .header | some .payloadMetadata =>
    placeContainer (be32 (BitVec.ofNat 32 w) ++ be32 0#32) s
  | some .treeNode =>
    let d := bytesOfBits (tableBits nbits w ++ List.replicate 7 false)
    placeContainer (be32 (BitVec.ofNat 32 d.length) ++ d ++ be32 0#32) s
  | none => s

end Sys2Proof.Machine
end

