-- ==== Sys2Proof/Machine/HostScript.lean ====
section
/-! DEFINITION. The host scripts of 30_encoding R101 and R102, and the functions `compress` and
`decompress` they expand to (46_codec R207): the scripts played by `step`, and what the host takes
from the state they end in. -/

namespace Sys2Proof.Machine

/-! ### Scripts (30_encoding R101, R102) -/

/-- `WRIB a, bs`: WriteIB(a, b0), WriteIB(a + 1, b1), … in that order; no action for no byte. -/
def scriptWRIB : Nat → List Byte → List HostAction
  | _, [] => []
  | a, b :: bs => .writeIB a b :: scriptWRIB (a + 1) bs

/-- `WRLEN n`. -/
def scriptWRLEN (n : Nat) : HostAction := .writeReg 4#8 (BitVec.ofNat 32 n)

/-- `CMD 0xNN`; for a mnemonic the byte is its code (30_encoding R96). -/
def scriptCMD (code : Byte) : HostAction := .writeReg 0#8 (code.setWidth 32)

/-- The script of a call on an input: `WRIB 0, input`, `WRLEN` its length, `CMD` (30_encoding R102). -/
def callScript (code : Byte) (input : List Byte) : List HostAction :=
  scriptWRIB 0 input ++ [scriptWRLEN input.length, scriptCMD code]

/-! ### Playing a script -/

/-- So many steps, ending at the first fault or refusal. -/
def runSteps : Nat → State → Outcome
  | 0, s => .next s
  | k + 1, s =>
    match step s with
    | .next t => runSteps k t
    | .fault f => .fault f
    | .refused r => .refused r

/-- These actions in front of those the host has pending. -/
def prependScript (script : List HostAction) (s : State) : State :=
  { s with host := { s.host with script := script ++ s.host.script } }

/-- The host plays a script: one step for each of its actions (log 27). -/
def playScript (script : List HostAction) (s : State) : Outcome :=
  runSteps script.length (prependScript script s)

/-! ### The two functions (30_encoding R102, 46_codec R207) -/

/-- What the host takes from a call: the bytes it returns, or the error it raises (30_encoding R102).
The last two are no result of the spec's: they say why the model stopped (log 27). -/
inductive CallResult where
  | bytes (out : List Byte)
  | error (code : ErrCode) (pos : Nat)
  | fault (f : Fault)
  | refused (r : Refusal)
  deriving DecidableEq, Repr

/-- The result of a call read from the state it ends in: with STATUS.ERR = 0 the bytes
`OB[0 .. OUT_LEN-1]`, with STATUS.ERR = 1 the cause ERR_CODE and the position ERR_POS (30_encoding R102). -/
def stateResult (t : State) : CallResult :=
  if t.err then .error t.errCode t.errPos
  else match memRead t .ob 0 t.outLen with
    | .ok out => .bytes out
    | .error (.raise c pos) => .error c pos
    | .error (.fault f) => .fault f

/-- The result of a call. -/
def callResult : Outcome → CallResult
  | .next t => stateResult t
  | .fault f => .fault f
  | .refused r => .refused r

/-- `compress(input)` from a state (30_encoding R102, 46_codec R207). -/
def compressFrom (s : State) (input : List Byte) : CallResult :=
  callResult (playScript (callScript 0x10#8 input) s)

/-- `decompress(input)` from a state (30_encoding R102, 46_codec R207). -/
def decompressFrom (s : State) (input : List Byte) : CallResult :=
  callResult (playScript (callScript 0x11#8 input) s)

/-- `compress`, a function of its argument alone on an instance with these parameters (46_codec R207):
the call from the state after reset. -/
def compress (c : Config) (input : List Byte) : CallResult := compressFrom (State.initial c) input

/-- `decompress`, a function of its argument alone on an instance with these parameters (46_codec
R207): the call from the state after reset. -/
def decompress (c : Config) (input : List Byte) : CallResult := decompressFrom (State.initial c) input

end Sys2Proof.Machine
end

