-- ==== Sys2Proof/Safety.lean ====
section
/-! DEFINITION. The words statements are made of: what a buffer or an input holds, binary trees with
their descriptions and codes (30_encoding R89, 42_code_table R135) and what it is for the arena to
hold one, packed bit strings (43_bit_writer R149), sequences of instructions, the tables of 10_state
R45 and 60_exceptions R221 as functions, and the invariants of the machine. Nothing here is part of
the machine. -/

namespace Sys2Proof.Machine

/-! ### Buffers and inputs -/

/-- The buffer holds these bytes at ascending addresses from `a`. -/
def bufHolds (m : Buf) : Nat → List Byte → Bool
  | _, [] => true
  | a, b :: bs => decide (bufRead m a = some b) && bufHolds m (a + 1) bs

/-- Every listed address lies below a capacity. -/
def bufBelow (m : Buf) (n : Nat) : Bool := m.all (fun c => decide (c.1 < n))

/-- The input of the call: IN_LEN bytes, all of them written (10_state R35, 70_reset_and_hazards R244). -/
def State.hasInput (s : State) (bs : List Byte) : Bool :=
  decide (s.inLen = bs.length) && bufHolds s.ib 0 bs

/-- Nothing derived is held: ClearDerived would change nothing (10_state R47). -/
abbrev State.derivedClear (s : State) : Prop := clearDerived s = s

/-- The flags and error registers after a command other than NOP that has ended normally (60_exceptions
R221), everything else as it was; the latch of micro-operations is empty (log 4). -/
def completed (s : State) : State :=
  { s with busy := false, done := true, err := false, errCode := .none, errPos := 0, ret := none }

/-- The symbols FT counts, in ascending order (41_tree_builder R122). -/
def presentSymbols (s : State) : List Byte :=
  ((List.range 256).map (BitVec.ofNat 8)).filter (fun sym => decide (0 < readFT s sym))

/-- The key order of the queue (41_tree_builder R121). -/
abbrev keyLess (s : State) (i j : Nat) : Prop :=
  (nodeAt s i).weight < (nodeAt s j).weight ∨ ((nodeAt s i).weight = (nodeAt s j).weight ∧ i < j)

/-! ### Packed bit strings (20_memory R62, 43_bit_writer R149) -/

/-- The bit string cut into bytes, the first bit in the top position, the last byte filled up with zeros. -/
def packBits (bits : List Bool) : List Byte :=
  (List.range (ceil8 bits.length)).map fun j =>
    byteOfBits (bits.getD (8 * j) false) (bits.getD (8 * j + 1) false) (bits.getD (8 * j + 2) false)
      (bits.getD (8 * j + 3) false) (bits.getD (8 * j + 4) false) (bits.getD (8 * j + 5) false)
      (bits.getD (8 * j + 6) false) (bits.getD (8 * j + 7) false)

/-- The bits of bytes, most significant first. -/
def unpackBits (bytes : List Byte) : List Bool := bytes.flatMap byteBits

/-- The bits the BitReader has still to read from `IB` are these (44_bit_reader R161, R162). -/
def readerHolds (s : State) : Nat → List Bool → Bool
  | _, [] => true
  | k, b :: rest =>
    decide (Option.map (fun y => bitOfByte y (k % 8)) (bufRead s.ib (s.br.base + k / 8)) = some b) &&
      readerHolds s (k + 1) rest

/-- The invariant of the BitWriter between micro-operations (10_state R25): NB within its range, TOTAL
the bits put, the positions of ACC not yet written 0. -/
abbrev BitWriter.regular (w : BitWriter) : Prop :=
  w.nb < 8 ∧ w.total = 8 * w.wp + w.nb ∧ ∀ j < 8 - w.nb, w.acc.getLsbD j = false

/-! ### Trees (30_encoding R89, 42_code_table R135) -/

/-- A complete binary tree with a symbol at every leaf. -/
inductive Tree where
  | leaf (sym : Byte)
  | node (l r : Tree)
  deriving DecidableEq, Repr

/-- The symbols at the leaves, left to right. -/
def treeLeaves : Tree → List Byte
  | .leaf sym => [sym]
  | .node l r => treeLeaves l ++ treeLeaves r

/-- The number of nodes. -/
def treeSize : Tree → Nat
  | .leaf _ => 1
  | .node l r => 1 + treeSize l + treeSize r

/-- The longest root-to-leaf path, in edges. -/
def treeDepth : Tree → Nat
  | .leaf _ => 0
  | .node l r => 1 + max (treeDepth l) (treeDepth r)

/-- The tree description (30_encoding R89, R90). -/
def treeBits : Tree → List Bool
  | .leaf sym => true :: byteBits sym
  | .node l r => false :: (treeBits l ++ treeBits r)

/-- The description's bits for the first `n` nodes in pre-order (45_container R182). -/
def treePrefix (n : Nat) : Tree → List Bool
  | .leaf sym => if n = 0 then [] else true :: byteBits sym
  | .node l r =>
    if n = 0 then [] else false :: (treePrefix (n - 1) l ++ treePrefix (n - 1 - treeSize l) r)

/-- Each leaf with its path below `path`, left before right (42_code_table R136). -/
def treeCodes (path : List Bool) : Tree → List (Byte × List Bool)
  | .leaf sym => [(sym, path)]
  | .node l r => treeCodes (path ++ [false]) l ++ treeCodes (path ++ [true]) r

/-- The walk of 44_bit_reader R165 below `root`, standing on `cur`: the symbols the bits spell, or
none if they end inside a code. -/
def treeDecode (root : Tree) : Tree → List Bool → Option (List Byte)
  | cur, [] => if cur = root then some [] else none
  | .leaf _, _ :: _ => none
  | .node l r, b :: rest =>
    match (if b then r else l) with
    | .leaf sym => (treeDecode root root rest).map (sym :: ·)
    | .node l' r' => treeDecode root (.node l' r') rest

/-- The arena holds the tree at an index (10_state R22). -/
def holdsTree (s : State) (i : Nat) : Tree → Bool
  | .leaf sym =>
    decide (i < Config.nodeMax) && decide ((nodeAt s i).kind = .leaf) && decide ((nodeAt s i).sym = sym)
  | .node l r =>
    decide (i < Config.nodeMax) && decide ((nodeAt s i).kind = .internal) &&
      holdsTree s (nodeAt s i).left l && holdsTree s (nodeAt s i).right r

/-- The records of a tree in pre-order from an index on (45_container R182): the left child of an
internal node is the next index, its right child follows the left subtree's nodes, every weight and
every field that is not used is 0. -/
def placedAt (s : State) : Nat → Tree → Prop
  | i, .leaf sym => nodeAt s i = leafRecord sym 0
  | i, .node l r =>
    nodeAt s i = internalRecord (i + 1) (i + 1 + treeSize l) 0 ∧ placedAt s (i + 1) l ∧
      placedAt s (i + 1 + treeSize l) r

/-- The root holds the tree, or there is no tree (10_state R39, 41_tree_builder R127). -/
def holdsRoot (s : State) : Option Tree → Bool
  | none => decide (s.nnode = 0)
  | some tr => decide (s.nnode ≠ 0) && holdsTree s s.root tr

/-- The description of a tree that may be absent (45_container R175). -/
def rootBits : Option Tree → List Bool
  | none => []
  | some tr => treeBits tr

/-- What `v` payload bits decode to (44_bit_reader R163): nothing without a tree (R167), the one
symbol `v` times (R166), the walk of the bits (R165); none if the bits end inside a code. -/
def rootOutput (v : Nat) (bits : List Bool) : Option Tree → Option (List Byte)
  | none => some []
  | some (.leaf sym) => some (List.replicate v sym)
  | some (.node l r) => treeDecode (.node l r) (.node l r) bits

/-- The entries of CT written in order (42_code_table R136). -/
def writeCodes (s : State) : List (Byte × List Bool) → State
  | [] => s
  | (sym, path) :: rest => writeCodes (writeCT s sym path) rest

/-- The bytes of a container with a tree description, a valid-bit count and a payload (30_encoding R86). -/
def containerBytes (description : List Byte) (v : Nat) (payload : List Byte) : List Byte :=
  fieldBytes description.length ++ description ++ fieldBytes v ++ payload

/-! ### Sequences of instructions -/

/-- Instructions one after the other, stopping at the first fault or refusal. -/
def runInstrs : List Instr → State → Outcome
  | [], s => .next s
  | i :: rest, s =>
    match exec i s with
    | .next t => runInstrs rest t
    | .fault f => .fault f
    | .refused r => .refused r

/-! ### The tables of 10_state R45 and 60_exceptions R221 -/

/-- The commands: the instructions with an 8-bit code (30_encoding R96). -/
def isCommand (i : Instr) : Bool := decide (i.place = some .command)

/-- The stage a unit command requires (10_state R45); none for the others. -/
def requiredStage : Instr → Option Stage
  | .fcount => some .clear
  | .tbuild => some .freq
  | .cgen => some .tree
  | .pack => some .code
  | .serial => some .packed
  | .parse => some .clear
  | .unpack => some .parsed
  | _ => none

/-- The stage a command moves to on normal completion (10_state R45); none where it is unchanged. -/
def nextStage : Instr → Option Stage
  | .clear => some .clear
  | .fcount => some .freq
  | .tbuild => some .tree
  | .cgen => some .code
  | .pack => some .packed
  | .serial => some .cdone
  | .parse => some .parsed
  | .unpack => some .ddone
  | .compress => some .cdone
  | .decompress => some .ddone
  | _ => none

/-- The commands that read IB, which the frame gives the length test (60_exceptions R221, R229). -/
def readsInput : Instr → Bool
  | .fcount | .pack | .parse | .unpack | .compress | .decompress => true
  | _ => false

/-! ### Invariants -/

/-- The buffers are canonical and lie within their capacities (10_state R46, 20_memory R60). -/
abbrev State.memoryOk (s : State) : Prop :=
  Memory.wf s.ib = true ∧ Memory.wf s.ob = true ∧ Memory.wf s.pb = true ∧ Memory.wf s.td = true ∧
    bufBelow s.ib s.cfg.ibCap.val = true ∧ bufBelow s.ob s.cfg.obCap = true ∧
    bufBelow s.pb s.cfg.pbCap = true ∧ bufBelow s.td Config.tdCap = true

/-- Between commands: no command is executing, the queue is empty, and no byte of OB, PB or TD above
its length register holds a value (10_state R24, R31, R48). -/
abbrev State.quiet (s : State) : Prop :=
  s.busy = false ∧ s.pq = [] ∧ bufBelow s.ob s.outLen = true ∧ bufBelow s.pb s.payLen = true ∧
    bufBelow s.td s.tdLen = true

/-- The error registers: ERR_CODE is not 0 exactly when ERR is set, an error leaves stage CLEAR and
DONE, and only a FormatError records a position (10_state R33, R34; 60_exceptions R222). -/
abbrev State.errorsOk (s : State) : Prop :=
  (s.err = true ↔ s.errCode ≠ .none) ∧ (s.err = true → s.stage = .clear ∧ s.done = true) ∧
    (s.errPos ≠ 0 → isFormatError s.errCode = true)

/-- Stage CLEAR means that nothing is derived (10_state R45). -/
abbrev State.clearOk (s : State) : Prop := s.stage = .clear → s.derivedClear

/-- Every register fits its width: nothing has wrapped (00_scope R6; 10_state R21 to R26, R30). -/
abbrev State.fits (s : State) : Prop :=
  (∀ sym : Byte, readFT s sym < 2 ^ 32) ∧
  (∀ i : Fin 511, (nodeAt s i.val).left < 2 ^ 9 ∧ (nodeAt s i.val).right < 2 ^ 9 ∧
    (nodeAt s i.val).weight < 2 ^ 32) ∧
  (∀ sym : Byte, (readCT s sym).length < 2 ^ 8) ∧
  s.bw.nb < 2 ^ 3 ∧ s.bw.wp < 2 ^ 33 ∧ s.bw.total < 2 ^ 40 ∧
  s.br.base < 2 ^ 32 ∧ s.br.limit < 2 ^ 33 ∧ s.br.pos < 2 ^ 33 ∧
  s.errPos < 2 ^ 32 ∧ s.inLen < 2 ^ 32 ∧ s.outLen < 2 ^ 32 ∧ s.nsym < 2 ^ 9 ∧ s.nnode < 2 ^ 10 ∧
  s.root < 2 ^ 9 ∧ s.tdBits < 2 ^ 12 ∧ s.tdLen < 2 ^ 32 ∧ s.vbits < 2 ^ 32 ∧ s.payLen < 2 ^ 32 ∧
  s.payOff < 2 ^ 32

/-- What each stage says of the derived state (10_state R45): in FREQ the counts sum to the length of
the input (40_frequency_counter R112); a buffer that no command of the pipeline has filled yet holds
no byte; an arena entry that is not allocated is all-zero (10_state R22). -/
abbrev State.stageOk (s : State) : Prop :=
  (s.stage = .freq → s.ft.toList.sum = s.inLen ∧ s.inLen ≤ s.cfg.ibCap.val ∧ s.nnode = 0) ∧
  (s.stage ≠ .cdone → s.stage ≠ .ddone → s.ob = []) ∧
  (s.stage ≠ .packed → s.stage ≠ .cdone → s.pb = []) ∧
  (s.stage ≠ .cdone → s.td = []) ∧
  (∀ i : Fin 511, s.nnode ≤ i.val → nodeAt s i.val = Node.zero)

/-- The invariant of the machine, all of the above. -/
abbrev State.invariant (s : State) : Prop :=
  s.memoryOk ∧ s.quiet ∧ s.errorsOk ∧ s.clearOk ∧ s.fits ∧ s.stageOk

end Sys2Proof.Machine
end

