-- ==== Sys2Proof/Certificates/Slice0/Obligations.lean ====
section
/-! DEFINITION. The statements for the provers, each from the numbered rules of spec/. -/

section

open Sys2Proof Sys2Proof.Machine

/-! ### Encoding -/

/-- 30_encoding R80, R87, R88, R90, R96: the encoding of an instruction that has one, followed by any
bits, decodes at its place to that instruction and those bits, for every value of its field. -/
def Obligations.EncodeThenDecodeGivesInstruction : Prop :=
  ∀ (i : Instr) (p : Place) (rest : List Bool), i.place = some p →
    decode p (encode i ++ rest) = .ok (i, rest)

/-- 30_encoding R90, R96, R100: a bit string that decodes at a place is the encoding of the instruction
it gives followed by the rest, and that instruction stands at that place and is well formed. -/
def Obligations.DecodedBitsAreTheEncoding : Prop :=
  ∀ (p : Place) (bits : List Bool) (i : Instr) (rest : List Bool), decode p bits = .ok (i, rest) →
    bits = encode i ++ rest ∧ i.place = some p ∧ i.wellFormed = true

/-- Words written out from 30_encoding R80, R90, R96 and 95_test_vectors: FCOUNT 0x02, COMPRESS 0x10,
the leaf `1 01100001`, an internal flag, the header `00 00 03 E8`, the metadata `00 00 00 17`. -/
def Obligations.SpecWordsDecode : Prop :=
  decode .command [false, false, false, false, false, false, true, false] = .ok (.fcount, []) ∧
  decode .command [false, false, false, true, false, false, false, false] = .ok (.compress, []) ∧
  decode .treeNode [true, false, true, true, false, false, false, false, true] = .ok (.treeLeaf 0x61#8, []) ∧
  decode .treeNode [false, true] = .ok (.treeInternal, [true]) ∧
  decode .header (unpackBits [0x00#8, 0x00#8, 0x03#8, 0xE8#8]) = .ok (.hdrT 1000#32, []) ∧
  decode .payloadMetadata (unpackBits [0x00#8, 0x00#8, 0x00#8, 0x17#8]) = .ok (.metaV 23#32, [])

/-! ### Steps -/

/-- 60_exceptions R221, 10_state R32: when the host's next action writes a defined code to CMD and BUSY
is 0, the step is that instruction on the state with the action taken. One action a step is log 2; that a
value above 255 writes its low 8 bits is log 17 (93_implementation_defined U5: bits above a register's
width have no effect). -/
def Obligations.StepRunsDecodedCommand : Prop :=
  ∀ (s : State) (v : Word) (rest : List HostAction) (i : Instr), s.busy = false →
    s.host.script = .writeReg 0#8 v :: rest → decodeCommand (v.setWidth 8) = .ok i →
    step s = exec i { s with host := { s.host with script := rest } }

/-- 30_encoding R97, 60_exceptions R228: writing 0x09 to 0x0F or 0x12 to 0xFF to CMD enters the error
ERR_BADCMD (0x10, position 0): derived state cleared, DONE and ERR set, IB and IN_LEN kept. That a value
above 255 writes its low 8 bits is log 17 (93_implementation_defined U5). -/
def Obligations.ReservedCodeRaisesBadCommand : Prop :=
  errValue .badcmd = 0x10#8 ∧
  ∀ (s : State) (v : Word) (rest : List HostAction), s.busy = false →
    s.host.script = .writeReg 0#8 v :: rest →
    (0x09 ≤ (v.setWidth 8 : Byte).toNat ∧ (v.setWidth 8 : Byte).toNat ≤ 0x0F ∨
      0x12 ≤ (v.setWidth 8 : Byte).toNat) →
    step s = .next { clearDerived s with
      errCode := .badcmd, errPos := 0, err := true, busy := false, done := true
      host := { s.host with script := rest } }

/-- 10_state R49, logs 2 and 16: without a pending host action the block waits; and a command byte
placed by withFetchWord is what the next step runs. -/
def Obligations.WaitsAndRunsPlacedCommand : Prop :=
  (∀ s : State, s.host.script = [] → step s = .next s) ∧
  ∀ (s : State) (w : Nat) (i : Instr), decodeCommand (BitVec.ofNat 8 w) = .ok i →
    step (s.withFetchWord 8 w) = exec i { s with busy := false }

/-- 45_container R182, 30_encoding R90: where the unread bits of the block start with a node code,
DES.NODE is that node code's instruction. -/
def Obligations.DesNodeRunsDecodedNode : Prop :=
  ∀ (s : State) (bits rest : List Bool) (i : Instr),
    readerHolds s s.br.pos bits = true → s.br.pos + bits.length ≤ s.br.limit →
    decode .treeNode bits = .ok (i, rest) → exec .desNode s = exec i s

/-! ### The command frame and the error entry -/

/-- 20_memory R60, 00_scope R10: no instruction changes IB, IN_LEN, the parameters or the host's side. -/
def Obligations.InstructionsKeepInput : Prop :=
  ∀ (i : Instr) (s t : State), exec i s = .next t →
    t.ib = s.ib ∧ t.inLen = s.inLen ∧ t.cfg = s.cfg ∧ t.host = s.host

/-- 10_state R31, R33, R45, 60_exceptions R221, R222: every command other than NOP ends with BUSY 0 and
DONE 1; either normally, with ERR 0, ERR_CODE and ERR_POS 0 and the command's next stage, or in the
error entry, with STATUS 0x06, nothing derived left and OUT_LEN 0. -/
def Obligations.CommandsEndDoneOrInErrorEntry : Prop :=
  ∀ (i : Instr) (s t : State), isCommand i = true → i ≠ .nop → s.busy = false →
    exec i s = .next t →
    t.busy = false ∧ t.done = true ∧ (t.err = true ↔ t.errCode ≠ .none) ∧
    ((t.err = false ∧ t.errPos = 0 ∧ some t.stage = nextStage i) ∨
      (t.err = true ∧ statusWord t = 0x06#8 ∧ t.outLen = 0 ∧ t.derivedClear ∧
        t = { clearDerived s with
          errCode := t.errCode, errPos := t.errPos, err := true, busy := false, done := true }))

/-- 60_exceptions R230: a unit command in a stage other than the one it requires, its length test
passed, enters ERR_SEQ (0x11, position 0); its body is not performed. -/
def Obligations.WrongStageRaisesSequenceError : Prop :=
  errValue .seq = 0x11#8 ∧
  ∀ (i : Instr) (st : Stage) (s : State), requiredStage i = some st → s.busy = false →
    s.stage ≠ st → (readsInput i = true → s.inLen ≤ s.cfg.ibCap.val) →
    exec i s = .next { clearDerived s with
      errCode := .seq, errPos := 0, err := true, busy := false, done := true }

/-- 60_exceptions R229: a command that reads IB with IN_LEN above IB_CAP enters ERR_LEN (0x12, position
0) in every stage, so before the stage test; IN_LEN is not changed. -/
def Obligations.OversizeInputRaisesLengthError : Prop :=
  errValue .len = 0x12#8 ∧
  ∀ (i : Instr) (s : State), readsInput i = true → s.busy = false → s.cfg.ibCap.val < s.inLen →
    exec i s = .next { clearDerived s with
      errCode := .len, errPos := 0, err := true, busy := false, done := true }

/-- 10_state R32, 60_exceptions R221: a command started while BUSY is 1 has no effect. -/
def Obligations.BusyIgnoresCommands : Prop :=
  ∀ (i : Instr) (s : State), isCommand i = true → s.busy = true → exec i s = .next s

/-! ### Housekeeping -/

/-- 46_codec R200: NOP changes no state at all, in any state. -/
def Obligations.NopChangesNothing : Prop := ∀ s : State, exec .nop s = .next s

/-- 46_codec R201, 10_state R47: CLEAR completes in every stage with STATUS 0x02: every table, cursor
and derived register 0, the error registers 0, IB and IN_LEN kept. (That OB, PB and TD list no byte is log
6; that the latch of micro-operations is empty is log 4.) -/
def Obligations.ClearDiscardsDerivedState : Prop :=
  ∀ s : State, s.busy = false →
    ∃ t, exec .clear s = .next t ∧ statusWord t = 0x02#8 ∧
      t = { completed s with
        ft := Vector.replicate 256 0, ct := Vector.replicate 256 []
        node := Vector.replicate 511 Node.zero, pq := []
        bw := { sink := .pb, acc := 0#8, nb := 0, wp := 0, total := 0 }
        br := { base := 0, limit := 0, pos := 0 }, ob := [], pb := [], td := []
        outLen := 0, nsym := 0, nnode := 0, root := 0, tdBits := 0, tdLen := 0, vbits := 0
        payLen := 0, payOff := 0, stage := .clear }

/-- 10_state R47: the micro-operation ClearDerived zeroes what CLEAR zeroes and leaves IB, IN_LEN, BUSY,
DONE, ERR, ERR_CODE and ERR_POS. (That OB, PB and TD list no byte is log 6; the latch is log 4.) -/
def Obligations.ClearDerivedZeroesDerivedState : Prop :=
  ∀ s : State, exec .clearDerived s = .next { s with
    ft := Vector.replicate 256 0, ct := Vector.replicate 256 []
    node := Vector.replicate 511 Node.zero, pq := []
    bw := { sink := .pb, acc := 0#8, nb := 0, wp := 0, total := 0 }
    br := { base := 0, limit := 0, pos := 0 }, ob := [], pb := [], td := []
    outLen := 0, nsym := 0, nnode := 0, root := 0, tdBits := 0, tdLen := 0, vbits := 0
    payLen := 0, payOff := 0, stage := .clear, ret := none }

/-! ### The frequency counter -/

/-- 40_frequency_counter R111: FCOUNT from stage CLEAR with a zero table completes in FREQ with
`FT[s]` the number of occurrences of `s` in the input and NSYM the number of distinct symbols; nothing
else changes. -/
def Obligations.FcountCountsInput : Prop :=
  ∀ (s : State) (bs : List Byte), s.busy = false → s.stage = .clear → (∀ sym, readFT s sym = 0) →
    s.hasInput bs = true → bs.length ≤ s.cfg.ibCap.val →
    ∃ t, exec .fcount s = .next t ∧ (∀ sym, readFT t sym = bs.count sym) ∧
      t.nsym = bs.dedup.length ∧
      t = { completed s with ft := t.ft, nsym := t.nsym, stage := .freq }

/-- 40_frequency_counter R112: after FCOUNT the counts sum to IN_LEN, an entry is at least 1 exactly for
a symbol of the input, NSYM is 0 exactly when IN_LEN is 0 and otherwise at most min(256, IN_LEN), IB is
not changed, and FT does not depend on the order of the input. -/
def Obligations.FcountTableFacts : Prop :=
  ∀ (s t : State) (bs : List Byte), s.busy = false → s.stage = .clear → s.derivedClear →
    s.hasInput bs = true → exec .fcount s = .next t → t.err = false →
    t.ft.toList.sum = t.inLen ∧ (∀ sym, 1 ≤ readFT t sym ↔ sym ∈ bs) ∧
    (t.nsym = 0 ↔ t.inLen = 0) ∧ t.nsym ≤ min 256 t.inLen ∧ t.ib = s.ib ∧
    ∀ (s' t' : State) (bs' : List Byte), s'.busy = false → s'.stage = .clear → s'.derivedClear →
      s'.hasInput bs' = true → exec .fcount s' = .next t' → t'.err = false → bs'.Perm bs →
      t'.ft = t.ft

/-- 70_reset_and_hazards R248, 10_state R48: FCOUNT in its stage and COMPRESS in any stage stop in the
model fault of the first byte of `IB[0 .. IN_LEN-1]` that the host has not written. -/
def Obligations.UnwrittenInputFaults : Prop :=
  ∀ (s : State) (k : Nat), s.busy = false → s.inLen ≤ s.cfg.ibCap.val → k < s.inLen →
    (∀ j < k, (bufRead s.ib j).isSome = true) → bufRead s.ib k = none →
    (s.stage = .clear → exec .fcount s = .fault (.readUnwritten .ib k)) ∧
    exec .compress s = .fault (.readUnwritten .ib k)

/-! ### The tree builder -/

/-- 41_tree_builder R122, R124, R127, R128: TBUILD from stage FREQ with an empty queue completes in TREE;
with `n` present symbols the leaves are `NODE[0 .. n-1]` in ascending symbol value with their counts, each
later entry is an internal node over two earlier ones in key order with their weights' sum, NNODE is
`2n - 1` and ROOT `NNODE - 1` (both 0 for `n = 0`); entries above NNODE and everything else are unchanged. -/
def Obligations.TbuildBuildsArena : Prop :=
  ∀ s : State, s.busy = false → s.stage = .freq → s.pq = [] →
    ∃ t, exec .tbuild s = .next t ∧
      t.nnode = 2 * (presentSymbols s).length - 1 ∧ t.root = 2 * (presentSymbols s).length - 2 ∧
      (∀ (k : Nat) (h : k < (presentSymbols s).length),
        nodeAt t k = leafRecord (presentSymbols s)[k] (readFT s (presentSymbols s)[k])) ∧
      (∀ k, (presentSymbols s).length ≤ k → k < t.nnode →
        (nodeAt t k).left < k ∧ (nodeAt t k).right < k ∧
        keyLess t (nodeAt t k).left (nodeAt t k).right ∧
        nodeAt t k = internalRecord (nodeAt t k).left (nodeAt t k).right
          ((nodeAt t (nodeAt t k).left).weight + (nodeAt t (nodeAt t k).right).weight)) ∧
      (∀ k, t.nnode ≤ k → nodeAt t k = nodeAt s k) ∧
      t = { completed s with node := t.node, nnode := t.nnode, root := t.root, stage := .tree }

/-- 41_tree_builder R122, R126: every internal node joins the two lowest keys then queued: an entry older
than it that is no child of an earlier internal node is one of its children or has a higher key than both. -/
def Obligations.TbuildMergesTwoLowestKeys : Prop :=
  ∀ s t : State, s.busy = false → s.stage = .freq → s.pq = [] → exec .tbuild s = .next t →
    ∀ k, (presentSymbols s).length ≤ k → k < t.nnode → ∀ j < k,
      (∀ m, (presentSymbols s).length ≤ m → m < k → (nodeAt t m).left ≠ j ∧ (nodeAt t m).right ≠ j) →
      j = (nodeAt t k).left ∨ j = (nodeAt t k).right ∨ keyLess t (nodeAt t k).right j

/-- 41_tree_builder R124, 10_state R22: with at least one present symbol the arena holds a strict tree
from ROOT: its leaves are the present symbols, each once, it has NNODE nodes, every index below ROOT is a
child exactly once, and the root's weight is the sum of all counts. -/
def Obligations.TbuildYieldsStrictTree : Prop :=
  ∀ s t : State, s.busy = false → s.stage = .freq → s.pq = [] → presentSymbols s ≠ [] →
    exec .tbuild s = .next t →
    (∃ tr, holdsTree t t.root tr = true ∧ (treeLeaves tr).Perm (presentSymbols s) ∧
      treeSize tr = t.nnode) ∧
    (((List.range t.nnode).drop (presentSymbols s).length).flatMap
      (fun k => [(nodeAt t k).left, (nodeAt t k).right])).Perm (List.range t.root) ∧
    (nodeAt t t.root).weight = s.ft.toList.sum

/-- 41_tree_builder R123: the tree TBUILD builds is optimal: no complete binary tree over the present symbols
has a lower weighted path length, the sum over its leaves of count times depth. -/
def Obligations.TbuildTreeIsOptimal : Prop :=
  ∀ (s t : State) (tr tr' : Machine.Tree), s.busy = false → s.stage = .freq → s.pq = [] →
    exec .tbuild s = .next t → holdsRoot t (some tr) = true →
    (treeLeaves tr').Perm (presentSymbols s) →
    ((treeCodes [] tr).map fun c => readFT s c.1 * c.2.length).sum ≤
      ((treeCodes [] tr').map fun c => readFT s c.1 * c.2.length).sum

/-- 41_tree_builder R121, R126: PQ.POPMIN on a queue with members returns the member with the lowest
(weight, index) and removes it; nothing else changes. -/
def Obligations.PopMinTakesLowestKey : Prop :=
  ∀ s : State, s.pq ≠ [] →
    ∃ m, m ∈ s.pq ∧ (∀ j ∈ s.pq, j = m ∨ keyLess s m j) ∧
      exec .pqPopMin s = .next { s with pq := s.pq.erase m, ret := some m }

/-- 41_tree_builder R125: PQ.PUSH(i) makes `i` a member of the set and changes nothing else; the set
stays strictly rising. -/
def Obligations.PushAddsMember : Prop :=
  ∀ (s : State) (i : Nat), i < 511 →
    ∃ t, exec (.pqPush i) s = .next t ∧ (∀ j, j ∈ t.pq ↔ j = i ∨ j ∈ s.pq) ∧
      (s.pq.Pairwise (· < ·) → t.pq.Pairwise (· < ·)) ∧ t = { s with pq := t.pq }

/-! ### The code table -/

/-- 42_code_table R136: CG.WALK(i, path) on a tree whose paths stay within 255 bits writes, left before
right, each leaf's path below `path` into CT, and nothing else. -/
def Obligations.CodeWalkRecordsPaths : Prop :=
  ∀ (s : State) (i : Nat) (path : List Bool) (tr : Tree), holdsTree s i tr = true →
    path.length + treeDepth tr ≤ 255 →
    exec (.cgWalk i path) s = .next { s with ct := (writeCodes s (treeCodes path tr)).ct }

/-- 42_code_table R137, R138, R140: CGEN from stage TREE completes in CODE: without a tree CT is
unchanged, a lone leaf gets the code `0`, any other tree gives each leaf its root-to-leaf path; nothing
else changes. -/
def Obligations.CgenBuildsCodeTable : Prop :=
  ∀ s : State, s.busy = false → s.stage = .tree →
    (s.nnode = 0 → exec .cgen s = .next { completed s with stage := .code }) ∧
    (∀ sym, holdsRoot s (some (.leaf sym)) = true →
      exec .cgen s = .next { completed s with
        ct := (writeCodes s [(sym, [false])]).ct, stage := .code }) ∧
    (∀ l r, holdsRoot s (some (.node l r)) = true → treeDepth (.node l r) ≤ 255 →
      exec .cgen s = .next { completed s with
        ct := (writeCodes s (treeCodes [] (.node l r))).ct, stage := .code })

/-- 42_code_table R139: after CGEN on a tree whose leaves carry different symbols, with CT empty before,
exactly the symbols of the tree have a code and no code is a prefix of another's. -/
def Obligations.CodesArePrefixFree : Prop :=
  ∀ (s t : State) (tr : Tree), s.busy = false → s.stage = .tree → (∀ sym, readCT s sym = []) →
    holdsRoot s (some tr) = true → (treeLeaves tr).Nodup → treeDepth tr ≤ 255 →
    exec .cgen s = .next t →
    (∀ sym, readCT t sym ≠ [] ↔ sym ∈ treeLeaves tr) ∧
    ∀ a b, a ∈ treeLeaves tr → b ∈ treeLeaves tr → a ≠ b → ¬ readCT t a <+: readCT t b

/-! ### The bit writer -/

/-- 43_bit_writer R146: BW.INIT(sink). The BitWriter then meets the invariant of 10_state R25. -/
def Obligations.WriterInitStartsEmpty : Prop :=
  ∀ (s : State) (k : Sink), exec (.bwInit k) s =
    .next { s with bw := { sink := k, acc := 0#8, nb := 0, wp := 0, total := 0 } } ∧
    ({ sink := k, acc := 0#8, nb := 0, wp := 0, total := 0 } : BitWriter).regular

/-- 43_bit_writer R147: BW.PUT(b) puts the bit at position `7 - NB` of ACC and counts it; the eighth bit
of a byte sends the byte to the sink at WP, or raises CapacityError where the sink has no such byte. It
keeps the invariant of 10_state R25: TOTAL the bits put, the positions of ACC not yet written 0. -/
def Obligations.WriterPutPlacesBit : Prop :=
  ∀ (s : State) (b : Bool),
    (s.bw.nb < 7 → exec (.bwPut b) s = .next { s with bw := { s.bw with
      acc := s.bw.acc ||| ((BitVec.ofBool b).setWidth 8 <<< (7 - s.bw.nb))
      nb := s.bw.nb + 1, total := s.bw.total + 1 } }) ∧
    (s.bw.nb = 7 → s.bw.wp < capacity s.cfg (sinkBuffer s.bw.sink) →
      ∃ t, exec (.bwPut b) s = .next t ∧
        bufRead (buffer t (sinkBuffer s.bw.sink)) s.bw.wp =
          some (s.bw.acc ||| (BitVec.ofBool b).setWidth 8) ∧
        (∀ n a, ¬(n = sinkBuffer s.bw.sink ∧ a = s.bw.wp) →
          bufRead (buffer t n) a = bufRead (buffer s n) a) ∧
        t = { s with
          pb := t.pb, td := t.td
          bw := { s.bw with acc := 0#8, nb := 0, wp := s.bw.wp + 1, total := s.bw.total + 1 } }) ∧
    (s.bw.nb = 7 → capacity s.cfg (sinkBuffer s.bw.sink) ≤ s.bw.wp →
      exec (.bwPut b) s = .next { clearDerived s with
        errCode := .cap, errPos := 0, err := true, busy := false, done := true }) ∧
    (s.bw.regular → ∀ t, exec (.bwPut b) s = .next t → t.bw.regular)

/-- 43_bit_writer R148: BW.FLUSH() writes nothing on a byte boundary and otherwise sends the partial byte
without counting the padding, or raises CapacityError where the sink has no such byte. Where the BitWriter
meets the invariant of 10_state R25, the byte sent keeps ACC's top NB bits and its low `8 - NB` bits, the
padding, are 0. -/
def Obligations.WriterFlushSendsPartialByte : Prop :=
  ∀ s : State,
    (s.bw.nb = 0 → exec .bwFlush s = .next s) ∧
    (0 < s.bw.nb → s.bw.wp < capacity s.cfg (sinkBuffer s.bw.sink) →
      ∃ (t : State) (y : Byte), exec .bwFlush s = .next t ∧
        bufRead (buffer t (sinkBuffer s.bw.sink)) s.bw.wp = some y ∧ y = s.bw.acc ∧
        (s.bw.regular → ∀ j < 8, y.getLsbD j = (decide (8 - s.bw.nb ≤ j) && s.bw.acc.getLsbD j)) ∧
        (∀ n a, ¬(n = sinkBuffer s.bw.sink ∧ a = s.bw.wp) →
          bufRead (buffer t n) a = bufRead (buffer s n) a) ∧
        t = { s with
          pb := t.pb, td := t.td
          bw := { s.bw with acc := 0#8, nb := 0, wp := s.bw.wp + 1 } }) ∧
    (0 < s.bw.nb → capacity s.cfg (sinkBuffer s.bw.sink) ≤ s.bw.wp →
      exec .bwFlush s = .next { clearDerived s with
        errCode := .cap, errPos := 0, err := true, busy := false, done := true })

/-- 43_bit_writer R149: BW.INIT, a BW.PUT for each bit and BW.FLUSH leave TOTAL the number of bits, WP its
ceil8, and in the sink the bits cut into bytes, first bit on top, the last byte filled with zeros; every
other byte and everything else is unchanged. -/
def Obligations.WriterPacksBitString : Prop :=
  ∀ (s : State) (k : Sink) (bits : List Bool), ceil8 bits.length ≤ capacity s.cfg (sinkBuffer k) →
    ∃ t, runInstrs (.bwInit k :: (bits.map .bwPut ++ [.bwFlush])) s = .next t ∧
      bufHolds (buffer t (sinkBuffer k)) 0 (packBits bits) = true ∧
      (∀ n a, ¬(n = sinkBuffer k ∧ a < ceil8 bits.length) →
        bufRead (buffer t n) a = bufRead (buffer s n) a) ∧
      t = { s with
        pb := t.pb, td := t.td
        bw := { sink := k, acc := 0#8, nb := 0, wp := ceil8 bits.length, total := bits.length } }

/-- 43_bit_writer R150, R151, 60_exceptions R232: PACK from stage CODE completes in PACKED with the codes
of the input bytes, in order, packed into PB: VBITS their total length, PAY_LEN its ceil8; where the
payload exceeds PB it raises CapacityError (ERR_CAP). PB at and above PAY_LEN and everything else is
unchanged. -/
def Obligations.PackWritesPayload : Prop :=
  ∀ (s : State) (bs : List Byte), s.busy = false → s.stage = .code → s.hasInput bs = true →
    bs.length ≤ s.cfg.ibCap.val →
    (ceil8 (bs.flatMap (readCT s)).length ≤ s.cfg.pbCap →
      ∃ t, exec .pack s = .next t ∧
        t.vbits = (bs.map (fun b => (readCT s b).length)).sum ∧ t.payLen = ceil8 t.vbits ∧
        bufHolds t.pb 0 (packBits (bs.flatMap (readCT s))) = true ∧
        (∀ a, t.payLen ≤ a → bufRead t.pb a = bufRead s.pb a) ∧
        t = { completed s with
          pb := t.pb, vbits := t.vbits, payLen := t.payLen, stage := .packed
          bw := { sink := .pb, acc := 0#8, nb := 0, wp := t.payLen, total := t.vbits } }) ∧
    (s.cfg.pbCap < ceil8 (bs.flatMap (readCT s)).length →
      exec .pack s = .next { clearDerived s with
        errCode := .cap, errPos := 0, err := true, busy := false, done := true })

/-! ### The bit reader -/

/-- 44_bit_reader R161, R162: BR.INIT sets BASE and LIMIT and POS 0; BR.REM returns `LIMIT - POS`; BR.GET
below the limit returns bit `7 - POS mod 8` of the byte at `BASE + POS div 8` and advances POS by one. -/
def Obligations.ReaderYieldsBits : Prop :=
  ∀ s : State,
    (∀ base limit, exec (.brInit base limit) s =
      .next { s with br := { base := base, limit := limit, pos := 0 } }) ∧
    exec .brRem s = .next { s with ret := some (s.br.limit - s.br.pos) } ∧
    (∀ y : Byte, s.br.pos < s.br.limit → bufRead s.ib (s.br.base + s.br.pos / 8) = some y →
      exec .brGet s = .next { s with
        br := { s.br with pos := s.br.pos + 1 }
        ret := some (y.getLsbD (7 - s.br.pos % 8)).toNat })

/-- 41_tree_builder R126, 44_bit_reader R161, 10_state R22, R48, logs 5, 11, 12, 13: these stop in a model
fault: POPMIN on an empty queue, BR.GET at the limit or on a byte that holds no value, and PUSH, CG.WALK
and SER.EMIT on a node index above 510. (Not every precondition: PUSH of a member or of an index that is
not allocated goes on, log 12.) -/
def Obligations.EmptyPopReaderEndAndBadIndexFault : Prop :=
  ∀ s : State,
    (s.pq = [] → exec .pqPopMin s = .fault .queueEmpty) ∧
    (s.br.limit ≤ s.br.pos → exec .brGet s = .fault .readerAtLimit) ∧
    (s.br.pos < s.br.limit → bufRead s.ib (s.br.base + s.br.pos / 8) = none →
      exec .brGet s = .fault (.readUnwritten .ib (s.br.base + s.br.pos / 8))) ∧
    ∀ i, 511 ≤ i → exec (.pqPush i) s = .fault (.noSuchNode i) ∧
      (∀ path, path.length ≤ 255 → exec (.cgWalk i path) s = .fault (.noSuchNode i)) ∧
      exec (.serEmit i) s = .fault (.noSuchNode i)

/-! ### The container -/

/-- 45_container R176: SER.EMIT(i) on a tree puts exactly the bits of its description, where the sink has
room for them. -/
def Obligations.EmitPutsDescription : Prop :=
  ∀ (s : State) (i : Nat) (tr : Tree), holdsTree s i tr = true → treeDepth tr ≤ 255 →
    s.bw.nb < 8 →
    8 * s.bw.wp + s.bw.nb + (treeBits tr).length ≤ 8 * capacity s.cfg (sinkBuffer s.bw.sink) →
    ∃ t, exec (.serEmit i) s = .next t ∧ runInstrs ((treeBits tr).map .bwPut) s = .next t ∧
      t.bw.total = s.bw.total + (treeBits tr).length ∧
      t = { s with pb := t.pb, td := t.td, bw := t.bw }

/-- 45_container R175, R178, R179: SERIAL from stage PACKED completes in CDONE: TD holds the packed tree
description, TD_BITS and TD_LEN its size, PAY_OFF is `8 + TD_LEN`, OUT_LEN `PAY_OFF + PAY_LEN`, and OB
holds be32(TD_LEN), the description, be32(VBITS) and the payload of PB. TD at and above TD_LEN, OB at and
above OUT_LEN and everything else is unchanged. -/
def Obligations.SerialWritesContainer : Prop :=
  ∀ (s : State) (tr : Option Tree) (payload : List Byte), s.busy = false → s.stage = .packed →
    holdsRoot s tr = true → (∀ x ∈ tr, treeDepth x ≤ 255) → (rootBits tr).length ≤ 2560 →
    s.payLen = payload.length → bufHolds s.pb 0 payload = true → s.payLen ≤ s.cfg.pbCap →
    ∃ t, exec .serial s = .next t ∧
      t.tdBits = (rootBits tr).length ∧ t.tdLen = ceil8 t.tdBits ∧
      bufHolds t.td 0 (packBits (rootBits tr)) = true ∧
      (∀ a, t.tdLen ≤ a → bufRead t.td a = bufRead s.td a) ∧
      t.payOff = 8 + t.tdLen ∧ t.outLen = t.payOff + s.payLen ∧
      bufHolds t.ob 0 (be32 (BitVec.ofNat 32 t.tdLen) ++ packBits (rootBits tr) ++
        be32 (BitVec.ofNat 32 s.vbits) ++ payload) = true ∧
      (∀ a, t.outLen ≤ a → bufRead t.ob a = bufRead s.ob a) ∧
      t = { completed s with
        td := t.td, tdBits := t.tdBits, tdLen := t.tdLen, payOff := t.payOff, ob := t.ob
        outLen := t.outLen, stage := .cdone
        bw := { sink := .td, acc := 0#8, nb := 0, wp := t.tdLen, total := t.tdBits } }

/-- 45_container R183, 30_encoding R87: the header field must leave room for itself, the tree block and the
valid-bit field, else ERR_EOB (0x01) at 0, 4 or `4 + T`; otherwise TD_LEN is T and nothing else changes. -/
def Obligations.HeaderFieldChecksExtent : Prop :=
  errValue .eob = 0x01#8 ∧
  ∀ (s : State) (t : Word),
    (s.inLen < 4 → exec (.hdrT t) s = .next { clearDerived s with
      errCode := .eob, errPos := 0, err := true, busy := false, done := true }) ∧
    (4 ≤ s.inLen → s.inLen < 4 + t.toNat → exec (.hdrT t) s = .next { clearDerived s with
      errCode := .eob, errPos := 4, err := true, busy := false, done := true }) ∧
    (4 + t.toNat ≤ s.inLen → 4 ≤ s.inLen → s.inLen < 8 + t.toNat →
      exec (.hdrT t) s = .next { clearDerived s with
        errCode := .eob, errPos := 4 + t.toNat, err := true, busy := false, done := true }) ∧
    (8 + t.toNat ≤ s.inLen → exec (.hdrT t) s = .next { s with tdLen := t.toNat })

/-- 45_container R184, R185, 30_encoding R88: with `P` payload bytes present, `V > 8P` is ERR_VBITS at
`4 + T`, `ceil8(V) < P` is ERR_PAYLEN at the first surplus byte, `T = 0` with `V != 0` is ERR_NOTREE at 4;
otherwise VBITS, PAY_LEN and PAY_OFF are set and the stage is PARSED. -/
def Obligations.MetadataFieldChecksPayload : Prop :=
  errValue .vbits = 0x05#8 ∧ errValue .paylen = 0x06#8 ∧ errValue .notree = 0x07#8 ∧
  ∀ (s : State) (v : Word) (p : Nat), s.inLen = 8 + s.tdLen + p →
    (8 * p < v.toNat → exec (.metaV v) s = .next { clearDerived s with
      errCode := .vbits, errPos := 4 + s.tdLen, err := true, busy := false, done := true }) ∧
    (v.toNat ≤ 8 * p → ceil8 v.toNat < p → exec (.metaV v) s = .next { clearDerived s with
      errCode := .paylen, errPos := 8 + s.tdLen + ceil8 v.toNat, err := true, busy := false
      done := true }) ∧
    (v.toNat ≤ 8 * p → p ≤ ceil8 v.toNat → s.tdLen = 0 → v.toNat ≠ 0 →
      exec (.metaV v) s = .next { clearDerived s with
        errCode := .notree, errPos := 4, err := true, busy := false, done := true }) ∧
    (v.toNat ≤ 8 * p → p ≤ ceil8 v.toNat → ¬(s.tdLen = 0 ∧ v.toNat ≠ 0) →
      exec (.metaV v) s = .next { s with
        vbits := v.toNat, payLen := p, payOff := 8 + s.tdLen, stage := .parsed })

/-- 45_container R182, 30_encoding R90: TREE.LEAF with its nine bits unread and an arena entry free
allocates the next entry as that leaf with weight 0, counts it in NSYM and returns its index. -/
def Obligations.LeafCodeAllocatesLeaf : Prop :=
  ∀ (s : State) (sym : Byte), s.nnode < 511 → s.br.pos + 9 ≤ s.br.limit →
    ∃ t, exec (.treeLeaf sym) s = .next t ∧
      nodeAt t s.nnode = { kind := .leaf, sym := sym, left := 0, right := 0, weight := 0 } ∧
      (∀ k, k ≠ s.nnode → nodeAt t k = nodeAt s k) ∧
      t = { s with
        node := t.node, nnode := s.nnode + 1, nsym := s.nsym + 1
        br := { s.br with pos := s.br.pos + 9 }, ret := some s.nnode }

/-- 45_container R182: DES.NODE, and TREE.INTERNAL for a tree with an internal root, on the unread bits of
a tree's description, with room for its nodes, allocates its nodes in pre-order from NNODE on (the left
child of an internal node `i` is `i + 1`, its right child `i + 1 +` the number of nodes of the left
subtree, every weight is 0), reads exactly its bits, adds its leaves to NSYM and returns its root's index;
nothing else changes. -/
def Obligations.NodesRebuildTree : Prop :=
  ∀ (s : State) (tr : Tree), s.nnode + treeSize tr ≤ 511 →
    readerHolds s s.br.pos (treeBits tr) = true → s.br.pos + (treeBits tr).length ≤ s.br.limit →
    ∃ t, exec .desNode s = .next t ∧ ((∃ l r, tr = .node l r) → exec .treeInternal s = .next t) ∧
      holdsTree t s.nnode tr = true ∧ placedAt t s.nnode tr ∧
      (∀ k, k < s.nnode ∨ t.nnode ≤ k → nodeAt t k = nodeAt s k) ∧
      t = { s with
        node := t.node, nnode := s.nnode + treeSize tr
        nsym := s.nsym + (treeLeaves tr).length
        br := { s.br with pos := s.br.pos + (treeBits tr).length }, ret := some s.nnode }

/-- 45_container R182, 60_exceptions R216: when a node is due, DES.NODE raises ERR_TREE_TRUNC (0x02) at
`4 + T` if no bit is left, else ERR_TREE_OVF (0x03) at the byte of the next flag if the arena is full, else
ERR_TREE_TRUNC if a leaf flag is followed by fewer than 8 bits. (That a stand-alone DES.NODE finds T in
TD_LEN is log 14; that an NNODE above 511, which no run has, is a full arena too is log 22.) -/
def Obligations.DesNodeRejectsBadDescriptions : Prop :=
  errValue .treeTrunc = 0x02#8 ∧ errValue .treeOvf = 0x03#8 ∧
  ∀ s : State,
    (s.br.limit ≤ s.br.pos → exec .desNode s = .next { clearDerived s with
      errCode := .treeTrunc, errPos := 4 + s.tdLen, err := true, busy := false, done := true }) ∧
    (s.br.pos < s.br.limit → 511 ≤ s.nnode → exec .desNode s = .next { clearDerived s with
      errCode := .treeOvf, errPos := 4 + s.br.pos / 8, err := true, busy := false, done := true }) ∧
    (s.br.pos < s.br.limit → s.nnode < 511 → readerHolds s s.br.pos [true] = true →
      s.br.limit < s.br.pos + 9 → exec .desNode s = .next { clearDerived s with
        errCode := .treeTrunc, errPos := 4 + s.tdLen, err := true, busy := false, done := true })

/-- 45_container R180, R184, R185, R186: PARSE from stage CLEAR with nothing derived, on a container whose
header, description (of a tree of at most 256 leaves, padded to its bytes by any bits, or none) and
valid-bit count `v` are in IB and which has `p` payload bytes: the checks of `v` against `p` decide as they
do for META.V, and otherwise PARSE completes in PARSED with the tree in the arena in pre-order from 0 (its
right children after the nodes of the left subtrees, R182) and the registers of R186; the payload is not
read and nothing else changes. -/
def Obligations.ParseRebuildsContainer : Prop :=
  ∀ (s : State) (tr : Option Tree) (d : List Byte) (v : Word) (p : Nat), s.busy = false →
    s.stage = .clear → s.derivedClear → s.inLen ≤ s.cfg.ibCap.val →
    (∀ x ∈ tr, (treeLeaves x).length ≤ 256) → d.length = ceil8 (rootBits tr).length →
    rootBits tr <+: unpackBits d →
    bufHolds s.ib 0 (be32 (BitVec.ofNat 32 d.length) ++ d ++ be32 v) = true →
    s.inLen = 8 + d.length + p →
    (8 * p < v.toNat → exec .parse s = .next { clearDerived s with
      errCode := .vbits, errPos := 4 + d.length, err := true, busy := false, done := true }) ∧
    (v.toNat ≤ 8 * p → ceil8 v.toNat < p → exec .parse s = .next { clearDerived s with
      errCode := .paylen, errPos := 8 + d.length + ceil8 v.toNat, err := true, busy := false
      done := true }) ∧
    (v.toNat ≤ 8 * p → p ≤ ceil8 v.toNat → d.length = 0 → v.toNat ≠ 0 →
      exec .parse s = .next { clearDerived s with
        errCode := .notree, errPos := 4, err := true, busy := false, done := true }) ∧
    (v.toNat ≤ 8 * p → p ≤ ceil8 v.toNat → ¬(d.length = 0 ∧ v.toNat ≠ 0) →
      ∃ t, exec .parse s = .next t ∧ t.root = 0 ∧ holdsRoot t tr = true ∧
        (∀ x ∈ tr, placedAt t 0 x) ∧
        t.nnode = (tr.map treeSize).getD 0 ∧ t.nsym = ((tr.map treeLeaves).getD []).length ∧
        (∀ k, t.nnode ≤ k → nodeAt t k = nodeAt s k) ∧
        t = { completed s with
          node := t.node, nnode := t.nnode, nsym := t.nsym, br := t.br
          tdBits := (rootBits tr).length, tdLen := d.length, vbits := v.toNat, payLen := p
          payOff := 8 + d.length, stage := .parsed })

/-- 45_container R183: PARSE on a container that ends before a fixed field raises ERR_EOB at the start of
the field that does not fit: 0, 4 or `4 + T`. -/
def Obligations.ParseRejectsMissingFields : Prop :=
  ∀ s : State, s.busy = false → s.stage = .clear → s.inLen ≤ s.cfg.ibCap.val →
    (s.inLen < 4 → exec .parse s = .next { clearDerived s with
      errCode := .eob, errPos := 0, err := true, busy := false, done := true }) ∧
    ∀ w : Word, bufHolds s.ib 0 (be32 w) = true →
      (4 ≤ s.inLen → s.inLen < 4 + w.toNat → exec .parse s = .next { clearDerived s with
        errCode := .eob, errPos := 4, err := true, busy := false, done := true }) ∧
      (4 + w.toNat ≤ s.inLen → s.inLen < 8 + w.toNat → exec .parse s = .next { clearDerived s with
        errCode := .eob, errPos := 4 + w.toNat, err := true, busy := false, done := true })

/-- 45_container R182, 60_exceptions R216: the three ways a tree block is malformed, for PARSE: longer than
the bytes of its complete tree of at most 511 nodes, ERR_TREE_LEN (0x04) at the first byte that belongs to
no node; a bit left where a 512th node is due, ERR_TREE_OVF (0x03) at the byte of that node's flag; its
bits at an end before its tree is complete, no further than 511 nodes, ERR_TREE_TRUNC (0x02) at the
block's end. `treePrefix 511 tr` is the description of the first 511 nodes of a tree of any size. -/
def Obligations.ParseRejectsWrongTreeBlock : Prop :=
  errValue .treeLen = 0x04#8 ∧ errValue .treeOvf = 0x03#8 ∧ errValue .treeTrunc = 0x02#8 ∧
  ∀ (s : State) (tr : Tree) (d : List Byte), s.busy = false → s.stage = .clear → s.derivedClear →
    s.inLen ≤ s.cfg.ibCap.val → d ≠ [] → 8 + d.length ≤ s.inLen →
    bufHolds s.ib 0 (be32 (BitVec.ofNat 32 d.length) ++ d) = true →
    (treeSize tr ≤ 511 → treeBits tr <+: unpackBits d → ceil8 (treeBits tr).length < d.length →
      exec .parse s = .next { clearDerived s with
        errCode := .treeLen, errPos := 4 + ceil8 (treeBits tr).length, err := true, busy := false
        done := true }) ∧
    (511 < treeSize tr → treePrefix 511 tr <+: unpackBits d →
      (treePrefix 511 tr).length < 8 * d.length →
      exec .parse s = .next { clearDerived s with
        errCode := .treeOvf, errPos := 4 + (treePrefix 511 tr).length / 8, err := true, busy := false
        done := true }) ∧
    (unpackBits d <+: treePrefix 511 tr → 8 * d.length < (treeBits tr).length →
      exec .parse s = .next { clearDerived s with
        errCode := .treeTrunc, errPos := 4 + d.length, err := true, busy := false, done := true })

/-- 44_bit_reader R163, R165, R166, R167: UNPACK from stage PARSED, the payload's valid bits being in IB
(needed only where a tree is walked): where they decode, it completes in DDONE with the symbols in OB and
OUT_LEN their number; where they end inside a code, it raises ERR_MIDCODE (0x08) at IN_LEN. OB at and
above OUT_LEN and everything else but the BitReader is unchanged. -/
def Obligations.UnpackDecodesPayload : Prop :=
  errValue .midcode = 0x08#8 ∧
  ∀ (s : State) (tr : Option Tree) (bits : List Bool), s.busy = false → s.stage = .parsed →
    s.inLen ≤ s.cfg.ibCap.val → holdsRoot s tr = true → s.vbits ≤ s.cfg.obCap →
    ((∃ l r, tr = some (.node l r)) → bits.length = s.vbits ∧
      readerHolds { s with br := { base := s.payOff, limit := s.vbits, pos := 0 } } 0 bits = true) →
    (∀ out, rootOutput s.vbits bits tr = some out →
      ∃ t, exec .unpack s = .next t ∧ t.outLen = out.length ∧ bufHolds t.ob 0 out = true ∧
        (∀ a, t.outLen ≤ a → bufRead t.ob a = bufRead s.ob a) ∧
        t = { completed s with ob := t.ob, outLen := t.outLen, br := t.br, stage := .ddone }) ∧
    (rootOutput s.vbits bits tr = none → exec .unpack s = .next { clearDerived s with
      errCode := .midcode, errPos := s.inLen, err := true, busy := false, done := true })

/-! ### The codec -/

/-- 46_codec R204, R206, R209, 60_exceptions R232: COMPRESS never fails on a legal input: with IN_LEN at
most IB_CAP and every byte of the input written it completes in every stage with STATUS 0x52, ERR_CODE 0,
at most 8 payload bits per input byte and an output of `8 + TD_LEN + PAY_LEN` bytes, at most
`IN_LEN + 328`, where TD_LEN is ceil8(10n - 1) for `n >= 1` distinct symbols and 0 for none; and
`compress` of the input returns the bytes OB then holds. -/
def Obligations.CompressNeverFails : Prop :=
  ∀ (s : State) (bs : List Byte), s.busy = false → s.hasInput bs = true →
    bs.length ≤ s.cfg.ibCap.val →
    ∃ t, exec .compress s = .next t ∧ statusWord t = 0x52#8 ∧ t.errCode = .none ∧
      t.vbits ≤ 8 * bs.length ∧ t.nsym = bs.dedup.length ∧
      t.tdLen = (if t.nsym = 0 then 0 else ceil8 (10 * t.nsym - 1)) ∧ t.payLen = ceil8 t.vbits ∧
      t.outLen = 8 + t.tdLen + t.payLen ∧ t.outLen ≤ bs.length + 328 ∧
      ∃ out, compress s.cfg bs = .bytes out ∧ out.length = t.outLen ∧ bufHolds t.ob 0 out = true

/-- 46_codec R204, 45_container R178, 43_bit_writer R151: what COMPRESS leaves in OB is the container of
the tree in the arena and of the input coded by CT: FT counts the input, the tree's leaves are its symbols,
CT holds each symbol's path (the code `0` for a lone symbol), VBITS is the sum of the code lengths. -/
def Obligations.CompressWritesContainer : Prop :=
  ∀ (s t : State) (bs : List Byte), s.busy = false → s.hasInput bs = true →
    bs.length ≤ s.cfg.ibCap.val → exec .compress s = .next t → t.err = false →
    (∀ sym, readFT t sym = bs.count sym) ∧
    ∃ tr : Option Tree, holdsRoot t tr = true ∧
      ((tr.map treeLeaves).getD []).Perm bs.dedup ∧
      (∀ sym, tr = some (.leaf sym) → readCT t sym = [false]) ∧
      (∀ l r, tr = some (.node l r) → ∀ c ∈ treeCodes [] (.node l r), readCT t c.1 = c.2) ∧
      t.vbits = (bs.map (fun b => (readCT t b).length)).sum ∧
      t.outLen = (containerBytes (packBits (rootBits tr)) t.vbits
        (packBits (bs.flatMap (readCT t)))).length ∧
      bufHolds t.ob 0 (containerBytes (packBits (rootBits tr)) t.vbits
        (packBits (bs.flatMap (readCT t)))) = true

/-- 46_codec R205, 44_bit_reader R168: DECOMPRESS completes in every stage on a container in IB whose tree
(of at most 256 leaves, or none), valid-bit count and payload agree and whose bits decode: STATUS 0x72 and
OB the decoded bytes. On any input at all it ends without error or in a FormatError, and `decompress` of
the input returns the bytes OB then holds, or that error's cause and position (60_exceptions R215, R216). -/
def Obligations.DecompressDecodesContainer : Prop :=
  (∀ (s : State) (tr : Option Tree) (d payload : List Byte) (v : Nat) (out : List Byte),
    s.busy = false → (∀ x ∈ tr, (treeLeaves x).length ≤ 256) →
    d.length = ceil8 (rootBits tr).length → rootBits tr <+: unpackBits d →
    payload.length = ceil8 v → (tr = none → v = 0) →
    s.hasInput (containerBytes d v payload) = true →
    (containerBytes d v payload).length ≤ s.cfg.ibCap.val →
    rootOutput v ((unpackBits payload).take v) tr = some out →
    ∃ t, exec .decompress s = .next t ∧ statusWord t = 0x72#8 ∧ t.errCode = .none ∧
      t.outLen = out.length ∧ bufHolds t.ob 0 out = true) ∧
  ∀ (s : State) (c : List Byte), s.busy = false → s.hasInput c = true → c.length ≤ s.cfg.ibCap.val →
    ∃ t, exec .decompress s = .next t ∧
      ((t.err = false ∧ ∃ out, decompress s.cfg c = .bytes out ∧ out.length = t.outLen ∧
          bufHolds t.ob 0 out = true) ∨
        (t.err = true ∧ isFormatError t.errCode = true ∧
          decompress s.cfg c = .error t.errCode t.errPos))

/-- 46_codec R209, 30_encoding R102, 44_bit_reader R168: the round-trip law: the output of COMPRESS, given
to DECOMPRESS in any state of any instance that can hold it, is decoded to the input without error; in the
words of the two functions, `decompress(compress(S)) = S`. -/
def Obligations.DecompressInvertsCompress : Prop :=
  (∀ (s t s' : State) (bs c : List Byte), s.busy = false → s.hasInput bs = true →
    bs.length ≤ s.cfg.ibCap.val → exec .compress s = .next t → t.err = false →
    c.length = t.outLen → bufHolds t.ob 0 c = true →
    s'.busy = false → s'.hasInput c = true → c.length ≤ s'.cfg.ibCap.val →
    ∃ t', exec .decompress s' = .next t' ∧ t'.err = false ∧ t'.outLen = bs.length ∧
      bufHolds t'.ob 0 bs = true) ∧
  ∀ (c c' : Config) (bs : List Byte), bs.length ≤ c.ibCap.val →
    ∃ out, compress c bs = .bytes out ∧ (out.length ≤ c'.ibCap.val → decompress c' out = .bytes bs)

/-- 95_test_vectors V-S6, 45_container R184: the output of COMPRESS without its last byte, where it has a
payload byte, is rejected with ERR_VBITS at `4 + TD_LEN`. -/
def Obligations.TruncatedContainerIsRejected : Prop :=
  ∀ (s t s' : State) (bs c : List Byte), s.busy = false → s.hasInput bs = true →
    bs.length ≤ s.cfg.ibCap.val → exec .compress s = .next t → t.err = false → 1 ≤ t.payLen →
    c.length = t.outLen → bufHolds t.ob 0 c = true →
    s'.busy = false → s'.hasInput c.dropLast = true → c.length ≤ s'.cfg.ibCap.val →
    exec .decompress s' = .next { clearDerived s' with
      errCode := .vbits, errPos := 4 + t.tdLen, err := true, busy := false, done := true }

/-- 46_codec R207, 30_encoding R102: COMPRESS and DECOMPRESS are functions of the input alone: two states
with the same parameters and IN_LEN whose IB agrees below IN_LEN, whatever else they hold, end alike: the
same model fault, or next states that differ in IB and the host's side only. The host script of a call
loads the input and runs the command, and leaves the input in IB untouched; what it returns is, from every
state, `compress` and `decompress` of the input. -/
def Obligations.CodecDependsOnInputAlone : Prop :=
  (∀ (i : Instr) (s s' : State), i = .compress ∨ i = .decompress → s.busy = false →
    s'.busy = false → s'.cfg = s.cfg → s'.inLen = s.inLen →
    (∀ a < s.inLen, bufRead s'.ib a = bufRead s.ib a) →
    (∀ t, exec i s = .next t → exec i s' = .next { t with ib := s'.ib, host := s'.host }) ∧
    ∀ f, exec i s = .fault f → exec i s' = .fault f) ∧
  ∀ (s : State) (bs : List Byte), s.busy = false → bs.length ≤ s.cfg.ibCap.val →
    (∃ u : State, u.busy = false ∧ u.hasInput bs = true ∧ u.cfg = s.cfg ∧ u.host = s.host ∧
      playScript (callScript 0x10#8 bs) s = exec .compress u ∧
      playScript (callScript 0x11#8 bs) s = exec .decompress u) ∧
    (∀ (code : Byte) (t : State), playScript (callScript code bs) s = .next t →
      t.hasInput bs = true) ∧
    compressFrom s bs = compress s.cfg bs ∧ decompressFrom s bs = decompress s.cfg bs

/-- 46_codec R208: from a state with nothing derived, the five encode commands one after the other, none
of them in error, end in exactly the state in which COMPRESS ends, and PARSE and UNPACK in the one in
which DECOMPRESS ends; where PARSE raises, DECOMPRESS ends as PARSE did. -/
def Obligations.UnitCommandsAgreeWithCodec : Prop :=
  ∀ s : State, s.busy = false → s.derivedClear →
    (∀ t, runInstrs [.fcount, .tbuild, .cgen, .pack, .serial] s = .next t → t.err = false →
      exec .compress s = .next t) ∧
    (∀ t, runInstrs [.parse, .unpack] s = .next t → t.errCode ≠ .seq →
      exec .decompress s = .next t) ∧
    (∀ t, exec .parse s = .next t → t.err = true → exec .decompress s = .next t)

/-! ### Invariants of the machine -/

/-- 10_state R46, 20_memory R60: every step keeps the four buffers in their canonical form and within
their capacities. -/
def Obligations.StepKeepsMemoryCanonical : Prop :=
  ∀ s t : State, s.memoryOk → step s = .next t → t.memoryOk

/-- 00_scope R6, 10_state R22, R24, R31, R33, R34, R45: every step keeps the invariant of the machine: no
register outgrows its width, BUSY is 0, the queue is empty, the error registers agree, stage CLEAR holds
nothing derived, unallocated arena entries are zero and no byte above a length register holds a value. -/
def Obligations.StepKeepsMachineInvariant : Prop :=
  ∀ s t : State, s.invariant → step s = .next t → t.invariant

/-- 10_state R49, 70_reset_and_hazards R240: the state after reset meets the invariant, with every
numbered register reading 0 and no byte of any buffer holding a value. -/
def Obligations.ResetMeetsInvariant : Prop :=
  State.reset.invariant ∧ (∀ r : Byte, readReg State.reset r = 0#32) ∧
  ∀ (n : BufName) (a : Nat), bufRead (buffer State.reset n) a = none

/-! ### The host interface -/

/-- 10_state R50, R51: WriteIB below IB_CAP writes its byte and WriteReg(IN_LEN, v) its value; in FREQ,
TREE, CODE, PACKED and PARSED ClearDerived follows, in CLEAR, CDONE and DDONE nothing else changes; WriteIB
at or above IB_CAP is refused with no effect on the block. -/
def Obligations.HostWritesInvalidate : Prop :=
  ∀ (s : State) (rest : List HostAction), s.busy = false →
    (∀ a b, s.host.script = .writeIB a b :: rest →
      (a < s.cfg.ibCap.val → ∃ m, bufRead m a = some b ∧ (∀ c, c ≠ a → bufRead m c = bufRead s.ib c) ∧
        step s = .next (if s.stage = .clear ∨ s.stage = .cdone ∨ s.stage = .ddone then
          { s with ib := m, host := { s.host with script := rest } }
        else clearDerived { s with ib := m, host := { s.host with script := rest } })) ∧
      (s.cfg.ibCap.val ≤ a → step s = .next { s with
        host := { script := rest, replies := .refused :: s.host.replies } })) ∧
    (∀ v, s.host.script = .writeReg 4#8 v :: rest →
      step s = .next (if s.stage = .clear ∨ s.stage = .cdone ∨ s.stage = .ddone then
        { s with inLen := v.toNat, host := { s.host with script := rest } }
      else clearDerived { s with inLen := v.toNat, host := { s.host with script := rest } })) ∧
    (∀ r v, r ≠ 0#8 → r ≠ 4#8 → s.host.script = .writeReg r v :: rest →
      step s = .next { s with host := { s.host with script := rest } })

/-- 10_state R50, 20_memory R66: a host read changes nothing of the block: it only hands the host its reply, which
is the register's value, the byte of OB below OUT_LEN (refused above), the byte of IB, or the table entry. -/
def Obligations.HostReadsChangeNothing : Prop :=
  ∀ (s : State) (rest : List HostAction), s.busy = false →
    (∀ r, s.host.script = .readReg r :: rest → step s = .next { s with
      host := { script := rest, replies := .reg (readReg s r) :: s.host.replies } }) ∧
    (∀ a b, s.host.script = .readOB a :: rest → a < s.outLen → bufRead s.ob a = some b →
      step s = .next { s with host := { script := rest, replies := .byte b :: s.host.replies } }) ∧
    (∀ a, s.host.script = .readOB a :: rest → s.outLen ≤ a →
      step s = .next { s with host := { script := rest, replies := .refused :: s.host.replies } }) ∧
    (∀ a b, s.host.script = .readIB a :: rest → a < s.cfg.ibCap.val → bufRead s.ib a = some b →
      step s = .next { s with host := { script := rest, replies := .byte b :: s.host.replies } }) ∧
    (∀ sym, s.host.script = .readFT sym :: rest → step s = .next { s with
      host := { script := rest, replies := .count (readFT s sym) :: s.host.replies } }) ∧
    (∀ i, s.host.script = .readNODE i :: rest → i ≤ 510 → step s = .next { s with
      host := { script := rest, replies := .node (nodeAt s i) :: s.host.replies } }) ∧
    (∀ sym, s.host.script = .readCT sym :: rest → step s = .next { s with
      host := { script := rest
                replies := .code (readCT s sym).length (readCT s sym) :: s.host.replies } })

/-- 10_state R30, R31: the register map: CMD and 14 to 255 read 0, STATUS is BUSY, DONE, ERR, 0, STAGE, 0
from bit 0 up, and each other register reads its value, zero-extended, where it fits its width. -/
def Obligations.RegisterMapReadsRegisters : Prop :=
  ∀ s : State, s.fits →
    readReg s 0#8 = 0#32 ∧ (∀ r : Byte, 14 ≤ r.toNat → readReg s r = 0#32) ∧
    (readReg s 1#8).toNat = s.busy.toNat + 2 * s.done.toNat + 4 * s.err.toNat +
      16 * (stageValue s.stage).toNat ∧
    (readReg s 2#8).toNat = (errValue s.errCode).toNat ∧ (readReg s 3#8).toNat = s.errPos ∧
    (readReg s 4#8).toNat = s.inLen ∧ (readReg s 5#8).toNat = s.outLen ∧
    (readReg s 6#8).toNat = s.nsym ∧ (readReg s 7#8).toNat = s.nnode ∧
    (readReg s 8#8).toNat = s.root ∧ (readReg s 9#8).toNat = s.tdBits ∧
    (readReg s 10#8).toNat = s.tdLen ∧ (readReg s 11#8).toNat = s.vbits ∧
    (readReg s 12#8).toNat = s.payLen ∧ (readReg s 13#8).toNat = s.payOff

/-- 70_reset_and_hazards R240, R241, R242, 10_state R49: Reset, in every state, leaves the block as it is
after reset: STATUS 0x00, every register and table entry 0, every buffer byte unwritten, IB's included. -/
def Obligations.ResetActionResetsBlock : Prop :=
  ∀ (s : State) (rest : List HostAction), s.host.script = .reset :: rest →
    step s = .next { State.initial s.cfg with host := { s.host with script := rest } }

/-- 10_state R32, 70_reset_and_hazards R246, log 7: while BUSY is 1 a write to CMD has no effect and STATUS
can be read; every other host action but Reset is refused. -/
def Obligations.BusyHostHasNoOtherMove : Prop :=
  ∀ (s : State) (rest : List HostAction), s.busy = true →
    (∀ v, s.host.script = .writeReg 0#8 v :: rest →
      step s = .next { s with host := { s.host with script := rest } }) ∧
    (s.host.script = .readReg 1#8 :: rest → step s = .next { s with
      host := { script := rest, replies := .reg (readReg s 1#8) :: s.host.replies } }) ∧
    ∀ a, a ≠ .reset → (∀ v, a ≠ .writeReg 0#8 v) → a ≠ .readReg 1#8 → s.host.script = a :: rest →
      step s = .refused .hostWhileBusy

end
end

