-- ==== Sys2Proof/Laws/Encoding.lean ====
section
/-! SUPPORT. Bytes and big-endian fields taken apart and put together again (20_memory R61, R62;
30_encoding R80). -/

namespace Sys2Proof

theorem byteOfBits_byteBits (b : Byte) :
    byteOfBits (b.getLsbD 7) (b.getLsbD 6) (b.getLsbD 5) (b.getLsbD 4) (b.getLsbD 3) (b.getLsbD 2)
      (b.getLsbD 1) (b.getLsbD 0) = b := by
  revert b; decide +kernel

theorem byteBits_byteOfBits (b7 b6 b5 b4 b3 b2 b1 b0 : Bool) :
    byteBits (byteOfBits b7 b6 b5 b4 b3 b2 b1 b0) = [b7, b6, b5, b4, b3, b2, b1, b0] := by
  revert b7 b6 b5 b4 b3 b2 b1 b0; decide +kernel

@[simp] theorem byteBits_length (b : Byte) : (byteBits b).length = 8 := rfl

@[simp] theorem be32_length (v : Word) : (be32 v).length = 4 := rfl

@[simp] theorem wordBits_length (v : Word) : (wordBits v).length = 32 := rfl

/-- Taking a byte from its own bits answers it. -/
theorem takeByte_byteBits (b : Byte) (rest : List Bool) :
    takeByte (byteBits b ++ rest) = .ok (b, rest) := by
  have := byteOfBits_byteBits b
  simp only [byteBits, takeByte, List.cons_append, List.nil_append, this]

/-- A byte taken is the first eight bits. -/
theorem takeByte_ok {bits : List Bool} {b : Byte} {rest : List Bool}
    (h : takeByte bits = .ok (b, rest)) : bits = byteBits b ++ rest := by
  unfold takeByte at h
  split at h
  · simp at h; obtain ⟨rfl, rfl⟩ := h; simp [byteBits_byteOfBits]
  · simp at h

theorem unbe32_be32 (v : Word) :
    unbe32 (v.extractLsb' 24 8) (v.extractLsb' 16 8) (v.extractLsb' 8 8) (v.extractLsb' 0 8) = v := by
  unfold unbe32
  apply BitVec.eq_of_getLsbD_eq
  intro i hi
  simp only [BitVec.getLsbD_append, BitVec.getLsbD_extractLsb']
  by_cases h0 : i < 8
  · simp [h0]
  · by_cases h1 : i < 16
    · have e : 8 + (i - 8) = i := by omega
      simp [h0, e, show i - 8 < 8 by omega]
    · by_cases h2 : i < 24
      · have e : 16 + (i - 8 - 8) = i := by omega
        simp [h0, e, show ¬ i - 8 < 8 by omega, show i - 8 - 8 < 8 by omega]
      · have e : 24 + (i - 8 - 8 - 8) = i := by omega
        simp [h0, e, show ¬ i - 8 < 8 by omega, show ¬ i - 8 - 8 < 8 by omega,
          show i - 8 - 8 - 8 < 8 by omega]

theorem be32_unbe32 (a b c d : Byte) : be32 (unbe32 a b c d) = [a, b, c, d] := by
  unfold unbe32 be32
  simp only [List.cons.injEq, and_true]
  refine ⟨?_, ?_, ?_, ?_⟩ <;> apply BitVec.eq_of_getLsbD_eq <;> intro i hi <;>
    simp only [BitVec.getLsbD_append, BitVec.getLsbD_extractLsb', hi, decide_true, Bool.true_and]
  · simp [show ¬ 24 + i < 8 by omega, show ¬ 24 + i - 8 < 8 by omega,
      show ¬ 24 + i - 8 - 8 < 8 by omega, show 24 + i - 8 - 8 - 8 = i by omega]
  · rw [if_neg (by omega), if_neg (by omega), if_pos (by omega)]; congr 1; omega
  · rw [if_neg (by omega), if_pos (by omega)]; congr 1; omega
  · simp [hi]

/-- Taking a field from its own bits answers it. -/
theorem takeWord_wordBits (v : Word) (rest : List Bool) :
    takeWord (wordBits v ++ rest) = .ok (v, rest) := by
  simp only [wordBits, be32, List.flatMap_cons, List.flatMap_nil, List.append_nil, List.append_assoc,
    takeWord, takeByte_byteBits, bind, Except.bind, unbe32_be32]

/-- A field taken is the first 32 bits. -/
theorem takeWord_ok {bits : List Bool} {v : Word} {rest : List Bool}
    (h : takeWord bits = .ok (v, rest)) : bits = wordBits v ++ rest := by
  have peel : ∀ {β : Type} {x : Except DecodeError (Byte × List Bool)} {f} {r : β},
      (x >>= f) = .ok r → ∃ a, x = .ok a ∧ f a = .ok r := by
    intro β x f r h; cases x <;> simp_all [bind, Except.bind]
  obtain ⟨⟨b0, r0⟩, h0, h⟩ := peel h
  obtain ⟨⟨b1, r1⟩, h1, h⟩ := peel h
  obtain ⟨⟨b2, r2⟩, h2, h⟩ := peel h
  obtain ⟨⟨b3, r3⟩, h3, h⟩ := peel h
  simp at h
  obtain ⟨rfl, rfl⟩ := h
  rw [takeByte_ok h0, takeByte_ok h1, takeByte_ok h2, takeByte_ok h3]
  simp [wordBits, be32_unbe32]

/-- The bytes `ceil8` gives are the fewest that hold the bits (00_scope R6). -/
theorem ceil8_le (v p : Nat) : ceil8 v ≤ p ↔ v ≤ 8 * p := by
  unfold ceil8; omega

theorem ceil8_mul (p : Nat) : ceil8 (8 * p) = p := by
  unfold ceil8; omega

end Sys2Proof
end

