-- ==== Sys2Proof/Laws/State.lean ====
section
/-! SUPPORT. What each named update of the state does to each field, so that no later proof unfolds a
record update. -/

namespace Sys2Proof.Machine

variable (s : State)

/-! ### clearDerived -/

@[simp] theorem clearDerived_cfg : (clearDerived s).cfg = s.cfg := rfl
@[simp] theorem clearDerived_ft : (clearDerived s).ft = Vector.replicate 256 0 := rfl
@[simp] theorem clearDerived_node : (clearDerived s).node = Vector.replicate 511 Node.zero := rfl
@[simp] theorem clearDerived_ct : (clearDerived s).ct = Vector.replicate 256 [] := rfl
@[simp] theorem clearDerived_pq : (clearDerived s).pq = [] := rfl
@[simp] theorem clearDerived_bw : (clearDerived s).bw = BitWriter.zero := rfl
@[simp] theorem clearDerived_br : (clearDerived s).br = BitReader.zero := rfl
@[simp] theorem clearDerived_ib : (clearDerived s).ib = s.ib := rfl
@[simp] theorem clearDerived_ob : (clearDerived s).ob = [] := rfl
@[simp] theorem clearDerived_pb : (clearDerived s).pb = [] := rfl
@[simp] theorem clearDerived_td : (clearDerived s).td = [] := rfl
@[simp] theorem clearDerived_busy : (clearDerived s).busy = s.busy := rfl
@[simp] theorem clearDerived_done : (clearDerived s).done = s.done := rfl
@[simp] theorem clearDerived_err : (clearDerived s).err = s.err := rfl
@[simp] theorem clearDerived_stage : (clearDerived s).stage = .clear := rfl
@[simp] theorem clearDerived_errCode : (clearDerived s).errCode = s.errCode := rfl
@[simp] theorem clearDerived_errPos : (clearDerived s).errPos = s.errPos := rfl
@[simp] theorem clearDerived_inLen : (clearDerived s).inLen = s.inLen := rfl
@[simp] theorem clearDerived_outLen : (clearDerived s).outLen = 0 := rfl
@[simp] theorem clearDerived_nsym : (clearDerived s).nsym = 0 := rfl
@[simp] theorem clearDerived_nnode : (clearDerived s).nnode = 0 := rfl
@[simp] theorem clearDerived_root : (clearDerived s).root = 0 := rfl
@[simp] theorem clearDerived_tdBits : (clearDerived s).tdBits = 0 := rfl
@[simp] theorem clearDerived_tdLen : (clearDerived s).tdLen = 0 := rfl
@[simp] theorem clearDerived_vbits : (clearDerived s).vbits = 0 := rfl
@[simp] theorem clearDerived_payLen : (clearDerived s).payLen = 0 := rfl
@[simp] theorem clearDerived_payOff : (clearDerived s).payOff = 0 := rfl
@[simp] theorem clearDerived_ret : (clearDerived s).ret = none := rfl
@[simp] theorem clearDerived_host : (clearDerived s).host = s.host := rfl

/-! ### errorEntry -/

@[simp] theorem errorEntry_cfg (c : ErrCode) (pos : Nat) : (errorEntry s c pos).cfg = s.cfg := rfl
@[simp] theorem errorEntry_ft (c : ErrCode) (pos : Nat) : (errorEntry s c pos).ft = Vector.replicate 256 0 := rfl
@[simp] theorem errorEntry_node (c : ErrCode) (pos : Nat) : (errorEntry s c pos).node = Vector.replicate 511 Node.zero := rfl
@[simp] theorem errorEntry_ct (c : ErrCode) (pos : Nat) : (errorEntry s c pos).ct = Vector.replicate 256 [] := rfl
@[simp] theorem errorEntry_pq (c : ErrCode) (pos : Nat) : (errorEntry s c pos).pq = [] := rfl
@[simp] theorem errorEntry_bw (c : ErrCode) (pos : Nat) : (errorEntry s c pos).bw = BitWriter.zero := rfl
@[simp] theorem errorEntry_br (c : ErrCode) (pos : Nat) : (errorEntry s c pos).br = BitReader.zero := rfl
@[simp] theorem errorEntry_ib (c : ErrCode) (pos : Nat) : (errorEntry s c pos).ib = s.ib := rfl
@[simp] theorem errorEntry_ob (c : ErrCode) (pos : Nat) : (errorEntry s c pos).ob = [] := rfl
@[simp] theorem errorEntry_pb (c : ErrCode) (pos : Nat) : (errorEntry s c pos).pb = [] := rfl
@[simp] theorem errorEntry_td (c : ErrCode) (pos : Nat) : (errorEntry s c pos).td = [] := rfl
@[simp] theorem errorEntry_busy (c : ErrCode) (pos : Nat) : (errorEntry s c pos).busy = false := rfl
@[simp] theorem errorEntry_done (c : ErrCode) (pos : Nat) : (errorEntry s c pos).done = true := rfl
@[simp] theorem errorEntry_err (c : ErrCode) (pos : Nat) : (errorEntry s c pos).err = true := rfl
@[simp] theorem errorEntry_stage (c : ErrCode) (pos : Nat) : (errorEntry s c pos).stage = .clear := rfl
@[simp] theorem errorEntry_errCode (c : ErrCode) (pos : Nat) : (errorEntry s c pos).errCode = c := rfl
@[simp] theorem errorEntry_errPos (c : ErrCode) (pos : Nat) : (errorEntry s c pos).errPos = pos := rfl
@[simp] theorem errorEntry_inLen (c : ErrCode) (pos : Nat) : (errorEntry s c pos).inLen = s.inLen := rfl
@[simp] theorem errorEntry_outLen (c : ErrCode) (pos : Nat) : (errorEntry s c pos).outLen = 0 := rfl
@[simp] theorem errorEntry_nsym (c : ErrCode) (pos : Nat) : (errorEntry s c pos).nsym = 0 := rfl
@[simp] theorem errorEntry_nnode (c : ErrCode) (pos : Nat) : (errorEntry s c pos).nnode = 0 := rfl
@[simp] theorem errorEntry_root (c : ErrCode) (pos : Nat) : (errorEntry s c pos).root = 0 := rfl
@[simp] theorem errorEntry_tdBits (c : ErrCode) (pos : Nat) : (errorEntry s c pos).tdBits = 0 := rfl
@[simp] theorem errorEntry_tdLen (c : ErrCode) (pos : Nat) : (errorEntry s c pos).tdLen = 0 := rfl
@[simp] theorem errorEntry_vbits (c : ErrCode) (pos : Nat) : (errorEntry s c pos).vbits = 0 := rfl
@[simp] theorem errorEntry_payLen (c : ErrCode) (pos : Nat) : (errorEntry s c pos).payLen = 0 := rfl
@[simp] theorem errorEntry_payOff (c : ErrCode) (pos : Nat) : (errorEntry s c pos).payOff = 0 := rfl
@[simp] theorem errorEntry_ret (c : ErrCode) (pos : Nat) : (errorEntry s c pos).ret = none := rfl
@[simp] theorem errorEntry_host (c : ErrCode) (pos : Nat) : (errorEntry s c pos).host = s.host := rfl

/-! ### resetBlock -/

@[simp] theorem resetBlock_cfg : (resetBlock s).cfg = s.cfg := rfl
@[simp] theorem resetBlock_ft : (resetBlock s).ft = Vector.replicate 256 0 := rfl
@[simp] theorem resetBlock_node : (resetBlock s).node = Vector.replicate 511 Node.zero := rfl
@[simp] theorem resetBlock_ct : (resetBlock s).ct = Vector.replicate 256 [] := rfl
@[simp] theorem resetBlock_pq : (resetBlock s).pq = [] := rfl
@[simp] theorem resetBlock_bw : (resetBlock s).bw = BitWriter.zero := rfl
@[simp] theorem resetBlock_br : (resetBlock s).br = BitReader.zero := rfl
@[simp] theorem resetBlock_ib : (resetBlock s).ib = [] := rfl
@[simp] theorem resetBlock_ob : (resetBlock s).ob = [] := rfl
@[simp] theorem resetBlock_pb : (resetBlock s).pb = [] := rfl
@[simp] theorem resetBlock_td : (resetBlock s).td = [] := rfl
@[simp] theorem resetBlock_busy : (resetBlock s).busy = false := rfl
@[simp] theorem resetBlock_done : (resetBlock s).done = false := rfl
@[simp] theorem resetBlock_err : (resetBlock s).err = false := rfl
@[simp] theorem resetBlock_stage : (resetBlock s).stage = .clear := rfl
@[simp] theorem resetBlock_errCode : (resetBlock s).errCode = .none := rfl
@[simp] theorem resetBlock_errPos : (resetBlock s).errPos = 0 := rfl
@[simp] theorem resetBlock_inLen : (resetBlock s).inLen = 0 := rfl
@[simp] theorem resetBlock_outLen : (resetBlock s).outLen = 0 := rfl
@[simp] theorem resetBlock_nsym : (resetBlock s).nsym = 0 := rfl
@[simp] theorem resetBlock_nnode : (resetBlock s).nnode = 0 := rfl
@[simp] theorem resetBlock_root : (resetBlock s).root = 0 := rfl
@[simp] theorem resetBlock_tdBits : (resetBlock s).tdBits = 0 := rfl
@[simp] theorem resetBlock_tdLen : (resetBlock s).tdLen = 0 := rfl
@[simp] theorem resetBlock_vbits : (resetBlock s).vbits = 0 := rfl
@[simp] theorem resetBlock_payLen : (resetBlock s).payLen = 0 := rfl
@[simp] theorem resetBlock_payOff : (resetBlock s).payOff = 0 := rfl
@[simp] theorem resetBlock_ret : (resetBlock s).ret = none := rfl
@[simp] theorem resetBlock_host : (resetBlock s).host = s.host := rfl

/-! ### startCommand -/

@[simp] theorem startCommand_cfg : (startCommand s).cfg = s.cfg := rfl
@[simp] theorem startCommand_ft : (startCommand s).ft = s.ft := rfl
@[simp] theorem startCommand_node : (startCommand s).node = s.node := rfl
@[simp] theorem startCommand_ct : (startCommand s).ct = s.ct := rfl
@[simp] theorem startCommand_pq : (startCommand s).pq = s.pq := rfl
@[simp] theorem startCommand_bw : (startCommand s).bw = s.bw := rfl
@[simp] theorem startCommand_br : (startCommand s).br = s.br := rfl
@[simp] theorem startCommand_ib : (startCommand s).ib = s.ib := rfl
@[simp] theorem startCommand_ob : (startCommand s).ob = s.ob := rfl
@[simp] theorem startCommand_pb : (startCommand s).pb = s.pb := rfl
@[simp] theorem startCommand_td : (startCommand s).td = s.td := rfl
@[simp] theorem startCommand_busy : (startCommand s).busy = true := rfl
@[simp] theorem startCommand_done : (startCommand s).done = false := rfl
@[simp] theorem startCommand_err : (startCommand s).err = false := rfl
@[simp] theorem startCommand_stage : (startCommand s).stage = s.stage := rfl
@[simp] theorem startCommand_errCode : (startCommand s).errCode = .none := rfl
@[simp] theorem startCommand_errPos : (startCommand s).errPos = 0 := rfl
@[simp] theorem startCommand_inLen : (startCommand s).inLen = s.inLen := rfl
@[simp] theorem startCommand_outLen : (startCommand s).outLen = s.outLen := rfl
@[simp] theorem startCommand_nsym : (startCommand s).nsym = s.nsym := rfl
@[simp] theorem startCommand_nnode : (startCommand s).nnode = s.nnode := rfl
@[simp] theorem startCommand_root : (startCommand s).root = s.root := rfl
@[simp] theorem startCommand_tdBits : (startCommand s).tdBits = s.tdBits := rfl
@[simp] theorem startCommand_tdLen : (startCommand s).tdLen = s.tdLen := rfl
@[simp] theorem startCommand_vbits : (startCommand s).vbits = s.vbits := rfl
@[simp] theorem startCommand_payLen : (startCommand s).payLen = s.payLen := rfl
@[simp] theorem startCommand_payOff : (startCommand s).payOff = s.payOff := rfl
@[simp] theorem startCommand_ret : (startCommand s).ret = none := rfl
@[simp] theorem startCommand_host : (startCommand s).host = s.host := rfl

/-! ### endCommand -/

@[simp] theorem endCommand_cfg : (endCommand s).cfg = s.cfg := rfl
@[simp] theorem endCommand_ft : (endCommand s).ft = s.ft := rfl
@[simp] theorem endCommand_node : (endCommand s).node = s.node := rfl
@[simp] theorem endCommand_ct : (endCommand s).ct = s.ct := rfl
@[simp] theorem endCommand_pq : (endCommand s).pq = s.pq := rfl
@[simp] theorem endCommand_bw : (endCommand s).bw = s.bw := rfl
@[simp] theorem endCommand_br : (endCommand s).br = s.br := rfl
@[simp] theorem endCommand_ib : (endCommand s).ib = s.ib := rfl
@[simp] theorem endCommand_ob : (endCommand s).ob = s.ob := rfl
@[simp] theorem endCommand_pb : (endCommand s).pb = s.pb := rfl
@[simp] theorem endCommand_td : (endCommand s).td = s.td := rfl
@[simp] theorem endCommand_busy : (endCommand s).busy = false := rfl
@[simp] theorem endCommand_done : (endCommand s).done = true := rfl
@[simp] theorem endCommand_err : (endCommand s).err = s.err := rfl
@[simp] theorem endCommand_stage : (endCommand s).stage = s.stage := rfl
@[simp] theorem endCommand_errCode : (endCommand s).errCode = s.errCode := rfl
@[simp] theorem endCommand_errPos : (endCommand s).errPos = s.errPos := rfl
@[simp] theorem endCommand_inLen : (endCommand s).inLen = s.inLen := rfl
@[simp] theorem endCommand_outLen : (endCommand s).outLen = s.outLen := rfl
@[simp] theorem endCommand_nsym : (endCommand s).nsym = s.nsym := rfl
@[simp] theorem endCommand_nnode : (endCommand s).nnode = s.nnode := rfl
@[simp] theorem endCommand_root : (endCommand s).root = s.root := rfl
@[simp] theorem endCommand_tdBits : (endCommand s).tdBits = s.tdBits := rfl
@[simp] theorem endCommand_tdLen : (endCommand s).tdLen = s.tdLen := rfl
@[simp] theorem endCommand_vbits : (endCommand s).vbits = s.vbits := rfl
@[simp] theorem endCommand_payLen : (endCommand s).payLen = s.payLen := rfl
@[simp] theorem endCommand_payOff : (endCommand s).payOff = s.payOff := rfl
@[simp] theorem endCommand_ret : (endCommand s).ret = s.ret := rfl
@[simp] theorem endCommand_host : (endCommand s).host = s.host := rfl

/-! ### answer -/

@[simp] theorem answer_cfg (r : Reply) : (answer s r).cfg = s.cfg := rfl
@[simp] theorem answer_ft (r : Reply) : (answer s r).ft = s.ft := rfl
@[simp] theorem answer_node (r : Reply) : (answer s r).node = s.node := rfl
@[simp] theorem answer_ct (r : Reply) : (answer s r).ct = s.ct := rfl
@[simp] theorem answer_pq (r : Reply) : (answer s r).pq = s.pq := rfl
@[simp] theorem answer_bw (r : Reply) : (answer s r).bw = s.bw := rfl
@[simp] theorem answer_br (r : Reply) : (answer s r).br = s.br := rfl
@[simp] theorem answer_ib (r : Reply) : (answer s r).ib = s.ib := rfl
@[simp] theorem answer_ob (r : Reply) : (answer s r).ob = s.ob := rfl
@[simp] theorem answer_pb (r : Reply) : (answer s r).pb = s.pb := rfl
@[simp] theorem answer_td (r : Reply) : (answer s r).td = s.td := rfl
@[simp] theorem answer_busy (r : Reply) : (answer s r).busy = s.busy := rfl
@[simp] theorem answer_done (r : Reply) : (answer s r).done = s.done := rfl
@[simp] theorem answer_err (r : Reply) : (answer s r).err = s.err := rfl
@[simp] theorem answer_stage (r : Reply) : (answer s r).stage = s.stage := rfl
@[simp] theorem answer_errCode (r : Reply) : (answer s r).errCode = s.errCode := rfl
@[simp] theorem answer_errPos (r : Reply) : (answer s r).errPos = s.errPos := rfl
@[simp] theorem answer_inLen (r : Reply) : (answer s r).inLen = s.inLen := rfl
@[simp] theorem answer_outLen (r : Reply) : (answer s r).outLen = s.outLen := rfl
@[simp] theorem answer_nsym (r : Reply) : (answer s r).nsym = s.nsym := rfl
@[simp] theorem answer_nnode (r : Reply) : (answer s r).nnode = s.nnode := rfl
@[simp] theorem answer_root (r : Reply) : (answer s r).root = s.root := rfl
@[simp] theorem answer_tdBits (r : Reply) : (answer s r).tdBits = s.tdBits := rfl
@[simp] theorem answer_tdLen (r : Reply) : (answer s r).tdLen = s.tdLen := rfl
@[simp] theorem answer_vbits (r : Reply) : (answer s r).vbits = s.vbits := rfl
@[simp] theorem answer_payLen (r : Reply) : (answer s r).payLen = s.payLen := rfl
@[simp] theorem answer_payOff (r : Reply) : (answer s r).payOff = s.payOff := rfl
@[simp] theorem answer_ret (r : Reply) : (answer s r).ret = s.ret := rfl
@[simp] theorem answer_host (r : Reply) : (answer s r).host = { s.host with replies := r :: s.host.replies } := rfl

/-! ### writeFT -/

@[simp] theorem writeFT_cfg (sym : Byte) (n : Nat) : (writeFT s sym n).cfg = s.cfg := rfl
@[simp] theorem writeFT_ft (sym : Byte) (n : Nat) : (writeFT s sym n).ft = s.ft.setIfInBounds sym.toNat n := rfl
@[simp] theorem writeFT_node (sym : Byte) (n : Nat) : (writeFT s sym n).node = s.node := rfl
@[simp] theorem writeFT_ct (sym : Byte) (n : Nat) : (writeFT s sym n).ct = s.ct := rfl
@[simp] theorem writeFT_pq (sym : Byte) (n : Nat) : (writeFT s sym n).pq = s.pq := rfl
@[simp] theorem writeFT_bw (sym : Byte) (n : Nat) : (writeFT s sym n).bw = s.bw := rfl
@[simp] theorem writeFT_br (sym : Byte) (n : Nat) : (writeFT s sym n).br = s.br := rfl
@[simp] theorem writeFT_ib (sym : Byte) (n : Nat) : (writeFT s sym n).ib = s.ib := rfl
@[simp] theorem writeFT_ob (sym : Byte) (n : Nat) : (writeFT s sym n).ob = s.ob := rfl
@[simp] theorem writeFT_pb (sym : Byte) (n : Nat) : (writeFT s sym n).pb = s.pb := rfl
@[simp] theorem writeFT_td (sym : Byte) (n : Nat) : (writeFT s sym n).td = s.td := rfl
@[simp] theorem writeFT_busy (sym : Byte) (n : Nat) : (writeFT s sym n).busy = s.busy := rfl
@[simp] theorem writeFT_done (sym : Byte) (n : Nat) : (writeFT s sym n).done = s.done := rfl
@[simp] theorem writeFT_err (sym : Byte) (n : Nat) : (writeFT s sym n).err = s.err := rfl
@[simp] theorem writeFT_stage (sym : Byte) (n : Nat) : (writeFT s sym n).stage = s.stage := rfl
@[simp] theorem writeFT_errCode (sym : Byte) (n : Nat) : (writeFT s sym n).errCode = s.errCode := rfl
@[simp] theorem writeFT_errPos (sym : Byte) (n : Nat) : (writeFT s sym n).errPos = s.errPos := rfl
@[simp] theorem writeFT_inLen (sym : Byte) (n : Nat) : (writeFT s sym n).inLen = s.inLen := rfl
@[simp] theorem writeFT_outLen (sym : Byte) (n : Nat) : (writeFT s sym n).outLen = s.outLen := rfl
@[simp] theorem writeFT_nsym (sym : Byte) (n : Nat) : (writeFT s sym n).nsym = s.nsym := rfl
@[simp] theorem writeFT_nnode (sym : Byte) (n : Nat) : (writeFT s sym n).nnode = s.nnode := rfl
@[simp] theorem writeFT_root (sym : Byte) (n : Nat) : (writeFT s sym n).root = s.root := rfl
@[simp] theorem writeFT_tdBits (sym : Byte) (n : Nat) : (writeFT s sym n).tdBits = s.tdBits := rfl
@[simp] theorem writeFT_tdLen (sym : Byte) (n : Nat) : (writeFT s sym n).tdLen = s.tdLen := rfl
@[simp] theorem writeFT_vbits (sym : Byte) (n : Nat) : (writeFT s sym n).vbits = s.vbits := rfl
@[simp] theorem writeFT_payLen (sym : Byte) (n : Nat) : (writeFT s sym n).payLen = s.payLen := rfl
@[simp] theorem writeFT_payOff (sym : Byte) (n : Nat) : (writeFT s sym n).payOff = s.payOff := rfl
@[simp] theorem writeFT_ret (sym : Byte) (n : Nat) : (writeFT s sym n).ret = s.ret := rfl
@[simp] theorem writeFT_host (sym : Byte) (n : Nat) : (writeFT s sym n).host = s.host := rfl

/-! ### writeCT -/

@[simp] theorem writeCT_cfg (sym : Byte) (path : List Bool) : (writeCT s sym path).cfg = s.cfg := rfl
@[simp] theorem writeCT_ft (sym : Byte) (path : List Bool) : (writeCT s sym path).ft = s.ft := rfl
@[simp] theorem writeCT_node (sym : Byte) (path : List Bool) : (writeCT s sym path).node = s.node := rfl
@[simp] theorem writeCT_ct (sym : Byte) (path : List Bool) : (writeCT s sym path).ct = s.ct.setIfInBounds sym.toNat path := rfl
@[simp] theorem writeCT_pq (sym : Byte) (path : List Bool) : (writeCT s sym path).pq = s.pq := rfl
@[simp] theorem writeCT_bw (sym : Byte) (path : List Bool) : (writeCT s sym path).bw = s.bw := rfl
@[simp] theorem writeCT_br (sym : Byte) (path : List Bool) : (writeCT s sym path).br = s.br := rfl
@[simp] theorem writeCT_ib (sym : Byte) (path : List Bool) : (writeCT s sym path).ib = s.ib := rfl
@[simp] theorem writeCT_ob (sym : Byte) (path : List Bool) : (writeCT s sym path).ob = s.ob := rfl
@[simp] theorem writeCT_pb (sym : Byte) (path : List Bool) : (writeCT s sym path).pb = s.pb := rfl
@[simp] theorem writeCT_td (sym : Byte) (path : List Bool) : (writeCT s sym path).td = s.td := rfl
@[simp] theorem writeCT_busy (sym : Byte) (path : List Bool) : (writeCT s sym path).busy = s.busy := rfl
@[simp] theorem writeCT_done (sym : Byte) (path : List Bool) : (writeCT s sym path).done = s.done := rfl
@[simp] theorem writeCT_err (sym : Byte) (path : List Bool) : (writeCT s sym path).err = s.err := rfl
@[simp] theorem writeCT_stage (sym : Byte) (path : List Bool) : (writeCT s sym path).stage = s.stage := rfl
@[simp] theorem writeCT_errCode (sym : Byte) (path : List Bool) : (writeCT s sym path).errCode = s.errCode := rfl
@[simp] theorem writeCT_errPos (sym : Byte) (path : List Bool) : (writeCT s sym path).errPos = s.errPos := rfl
@[simp] theorem writeCT_inLen (sym : Byte) (path : List Bool) : (writeCT s sym path).inLen = s.inLen := rfl
@[simp] theorem writeCT_outLen (sym : Byte) (path : List Bool) : (writeCT s sym path).outLen = s.outLen := rfl
@[simp] theorem writeCT_nsym (sym : Byte) (path : List Bool) : (writeCT s sym path).nsym = s.nsym := rfl
@[simp] theorem writeCT_nnode (sym : Byte) (path : List Bool) : (writeCT s sym path).nnode = s.nnode := rfl
@[simp] theorem writeCT_root (sym : Byte) (path : List Bool) : (writeCT s sym path).root = s.root := rfl
@[simp] theorem writeCT_tdBits (sym : Byte) (path : List Bool) : (writeCT s sym path).tdBits = s.tdBits := rfl
@[simp] theorem writeCT_tdLen (sym : Byte) (path : List Bool) : (writeCT s sym path).tdLen = s.tdLen := rfl
@[simp] theorem writeCT_vbits (sym : Byte) (path : List Bool) : (writeCT s sym path).vbits = s.vbits := rfl
@[simp] theorem writeCT_payLen (sym : Byte) (path : List Bool) : (writeCT s sym path).payLen = s.payLen := rfl
@[simp] theorem writeCT_payOff (sym : Byte) (path : List Bool) : (writeCT s sym path).payOff = s.payOff := rfl
@[simp] theorem writeCT_ret (sym : Byte) (path : List Bool) : (writeCT s sym path).ret = s.ret := rfl
@[simp] theorem writeCT_host (sym : Byte) (path : List Bool) : (writeCT s sym path).host = s.host := rfl

/-! ### queuePush -/

@[simp] theorem queuePush_cfg (i : Nat) : (queuePush i s).cfg = s.cfg := rfl
@[simp] theorem queuePush_ft (i : Nat) : (queuePush i s).ft = s.ft := rfl
@[simp] theorem queuePush_node (i : Nat) : (queuePush i s).node = s.node := rfl
@[simp] theorem queuePush_ct (i : Nat) : (queuePush i s).ct = s.ct := rfl
@[simp] theorem queuePush_pq (i : Nat) : (queuePush i s).pq = setInsert i s.pq := rfl
@[simp] theorem queuePush_bw (i : Nat) : (queuePush i s).bw = s.bw := rfl
@[simp] theorem queuePush_br (i : Nat) : (queuePush i s).br = s.br := rfl
@[simp] theorem queuePush_ib (i : Nat) : (queuePush i s).ib = s.ib := rfl
@[simp] theorem queuePush_ob (i : Nat) : (queuePush i s).ob = s.ob := rfl
@[simp] theorem queuePush_pb (i : Nat) : (queuePush i s).pb = s.pb := rfl
@[simp] theorem queuePush_td (i : Nat) : (queuePush i s).td = s.td := rfl
@[simp] theorem queuePush_busy (i : Nat) : (queuePush i s).busy = s.busy := rfl
@[simp] theorem queuePush_done (i : Nat) : (queuePush i s).done = s.done := rfl
@[simp] theorem queuePush_err (i : Nat) : (queuePush i s).err = s.err := rfl
@[simp] theorem queuePush_stage (i : Nat) : (queuePush i s).stage = s.stage := rfl
@[simp] theorem queuePush_errCode (i : Nat) : (queuePush i s).errCode = s.errCode := rfl
@[simp] theorem queuePush_errPos (i : Nat) : (queuePush i s).errPos = s.errPos := rfl
@[simp] theorem queuePush_inLen (i : Nat) : (queuePush i s).inLen = s.inLen := rfl
@[simp] theorem queuePush_outLen (i : Nat) : (queuePush i s).outLen = s.outLen := rfl
@[simp] theorem queuePush_nsym (i : Nat) : (queuePush i s).nsym = s.nsym := rfl
@[simp] theorem queuePush_nnode (i : Nat) : (queuePush i s).nnode = s.nnode := rfl
@[simp] theorem queuePush_root (i : Nat) : (queuePush i s).root = s.root := rfl
@[simp] theorem queuePush_tdBits (i : Nat) : (queuePush i s).tdBits = s.tdBits := rfl
@[simp] theorem queuePush_tdLen (i : Nat) : (queuePush i s).tdLen = s.tdLen := rfl
@[simp] theorem queuePush_vbits (i : Nat) : (queuePush i s).vbits = s.vbits := rfl
@[simp] theorem queuePush_payLen (i : Nat) : (queuePush i s).payLen = s.payLen := rfl
@[simp] theorem queuePush_payOff (i : Nat) : (queuePush i s).payOff = s.payOff := rfl
@[simp] theorem queuePush_ret (i : Nat) : (queuePush i s).ret = s.ret := rfl
@[simp] theorem queuePush_host (i : Nat) : (queuePush i s).host = s.host := rfl

/-! ### writerInit -/

@[simp] theorem writerInit_cfg (k : Sink) : (writerInit k s).cfg = s.cfg := rfl
@[simp] theorem writerInit_ft (k : Sink) : (writerInit k s).ft = s.ft := rfl
@[simp] theorem writerInit_node (k : Sink) : (writerInit k s).node = s.node := rfl
@[simp] theorem writerInit_ct (k : Sink) : (writerInit k s).ct = s.ct := rfl
@[simp] theorem writerInit_pq (k : Sink) : (writerInit k s).pq = s.pq := rfl
@[simp] theorem writerInit_bw (k : Sink) : (writerInit k s).bw = { BitWriter.zero with sink := k } := rfl
@[simp] theorem writerInit_br (k : Sink) : (writerInit k s).br = s.br := rfl
@[simp] theorem writerInit_ib (k : Sink) : (writerInit k s).ib = s.ib := rfl
@[simp] theorem writerInit_ob (k : Sink) : (writerInit k s).ob = s.ob := rfl
@[simp] theorem writerInit_pb (k : Sink) : (writerInit k s).pb = s.pb := rfl
@[simp] theorem writerInit_td (k : Sink) : (writerInit k s).td = s.td := rfl
@[simp] theorem writerInit_busy (k : Sink) : (writerInit k s).busy = s.busy := rfl
@[simp] theorem writerInit_done (k : Sink) : (writerInit k s).done = s.done := rfl
@[simp] theorem writerInit_err (k : Sink) : (writerInit k s).err = s.err := rfl
@[simp] theorem writerInit_stage (k : Sink) : (writerInit k s).stage = s.stage := rfl
@[simp] theorem writerInit_errCode (k : Sink) : (writerInit k s).errCode = s.errCode := rfl
@[simp] theorem writerInit_errPos (k : Sink) : (writerInit k s).errPos = s.errPos := rfl
@[simp] theorem writerInit_inLen (k : Sink) : (writerInit k s).inLen = s.inLen := rfl
@[simp] theorem writerInit_outLen (k : Sink) : (writerInit k s).outLen = s.outLen := rfl
@[simp] theorem writerInit_nsym (k : Sink) : (writerInit k s).nsym = s.nsym := rfl
@[simp] theorem writerInit_nnode (k : Sink) : (writerInit k s).nnode = s.nnode := rfl
@[simp] theorem writerInit_root (k : Sink) : (writerInit k s).root = s.root := rfl
@[simp] theorem writerInit_tdBits (k : Sink) : (writerInit k s).tdBits = s.tdBits := rfl
@[simp] theorem writerInit_tdLen (k : Sink) : (writerInit k s).tdLen = s.tdLen := rfl
@[simp] theorem writerInit_vbits (k : Sink) : (writerInit k s).vbits = s.vbits := rfl
@[simp] theorem writerInit_payLen (k : Sink) : (writerInit k s).payLen = s.payLen := rfl
@[simp] theorem writerInit_payOff (k : Sink) : (writerInit k s).payOff = s.payOff := rfl
@[simp] theorem writerInit_ret (k : Sink) : (writerInit k s).ret = s.ret := rfl
@[simp] theorem writerInit_host (k : Sink) : (writerInit k s).host = s.host := rfl

/-! ### readerInit -/

@[simp] theorem readerInit_cfg (base limit : Nat) : (readerInit base limit s).cfg = s.cfg := rfl
@[simp] theorem readerInit_ft (base limit : Nat) : (readerInit base limit s).ft = s.ft := rfl
@[simp] theorem readerInit_node (base limit : Nat) : (readerInit base limit s).node = s.node := rfl
@[simp] theorem readerInit_ct (base limit : Nat) : (readerInit base limit s).ct = s.ct := rfl
@[simp] theorem readerInit_pq (base limit : Nat) : (readerInit base limit s).pq = s.pq := rfl
@[simp] theorem readerInit_bw (base limit : Nat) : (readerInit base limit s).bw = s.bw := rfl
@[simp] theorem readerInit_br (base limit : Nat) : (readerInit base limit s).br = { base := base, limit := limit, pos := 0 } := rfl
@[simp] theorem readerInit_ib (base limit : Nat) : (readerInit base limit s).ib = s.ib := rfl
@[simp] theorem readerInit_ob (base limit : Nat) : (readerInit base limit s).ob = s.ob := rfl
@[simp] theorem readerInit_pb (base limit : Nat) : (readerInit base limit s).pb = s.pb := rfl
@[simp] theorem readerInit_td (base limit : Nat) : (readerInit base limit s).td = s.td := rfl
@[simp] theorem readerInit_busy (base limit : Nat) : (readerInit base limit s).busy = s.busy := rfl
@[simp] theorem readerInit_done (base limit : Nat) : (readerInit base limit s).done = s.done := rfl
@[simp] theorem readerInit_err (base limit : Nat) : (readerInit base limit s).err = s.err := rfl
@[simp] theorem readerInit_stage (base limit : Nat) : (readerInit base limit s).stage = s.stage := rfl
@[simp] theorem readerInit_errCode (base limit : Nat) : (readerInit base limit s).errCode = s.errCode := rfl
@[simp] theorem readerInit_errPos (base limit : Nat) : (readerInit base limit s).errPos = s.errPos := rfl
@[simp] theorem readerInit_inLen (base limit : Nat) : (readerInit base limit s).inLen = s.inLen := rfl
@[simp] theorem readerInit_outLen (base limit : Nat) : (readerInit base limit s).outLen = s.outLen := rfl
@[simp] theorem readerInit_nsym (base limit : Nat) : (readerInit base limit s).nsym = s.nsym := rfl
@[simp] theorem readerInit_nnode (base limit : Nat) : (readerInit base limit s).nnode = s.nnode := rfl
@[simp] theorem readerInit_root (base limit : Nat) : (readerInit base limit s).root = s.root := rfl
@[simp] theorem readerInit_tdBits (base limit : Nat) : (readerInit base limit s).tdBits = s.tdBits := rfl
@[simp] theorem readerInit_tdLen (base limit : Nat) : (readerInit base limit s).tdLen = s.tdLen := rfl
@[simp] theorem readerInit_vbits (base limit : Nat) : (readerInit base limit s).vbits = s.vbits := rfl
@[simp] theorem readerInit_payLen (base limit : Nat) : (readerInit base limit s).payLen = s.payLen := rfl
@[simp] theorem readerInit_payOff (base limit : Nat) : (readerInit base limit s).payOff = s.payOff := rfl
@[simp] theorem readerInit_ret (base limit : Nat) : (readerInit base limit s).ret = s.ret := rfl
@[simp] theorem readerInit_host (base limit : Nat) : (readerInit base limit s).host = s.host := rfl

/-! ### skipBits -/

@[simp] theorem skipBits_cfg (n : Nat) : (skipBits n s).cfg = s.cfg := rfl
@[simp] theorem skipBits_ft (n : Nat) : (skipBits n s).ft = s.ft := rfl
@[simp] theorem skipBits_node (n : Nat) : (skipBits n s).node = s.node := rfl
@[simp] theorem skipBits_ct (n : Nat) : (skipBits n s).ct = s.ct := rfl
@[simp] theorem skipBits_pq (n : Nat) : (skipBits n s).pq = s.pq := rfl
@[simp] theorem skipBits_bw (n : Nat) : (skipBits n s).bw = s.bw := rfl
@[simp] theorem skipBits_br (n : Nat) : (skipBits n s).br = { s.br with pos := s.br.pos + n } := rfl
@[simp] theorem skipBits_ib (n : Nat) : (skipBits n s).ib = s.ib := rfl
@[simp] theorem skipBits_ob (n : Nat) : (skipBits n s).ob = s.ob := rfl
@[simp] theorem skipBits_pb (n : Nat) : (skipBits n s).pb = s.pb := rfl
@[simp] theorem skipBits_td (n : Nat) : (skipBits n s).td = s.td := rfl
@[simp] theorem skipBits_busy (n : Nat) : (skipBits n s).busy = s.busy := rfl
@[simp] theorem skipBits_done (n : Nat) : (skipBits n s).done = s.done := rfl
@[simp] theorem skipBits_err (n : Nat) : (skipBits n s).err = s.err := rfl
@[simp] theorem skipBits_stage (n : Nat) : (skipBits n s).stage = s.stage := rfl
@[simp] theorem skipBits_errCode (n : Nat) : (skipBits n s).errCode = s.errCode := rfl
@[simp] theorem skipBits_errPos (n : Nat) : (skipBits n s).errPos = s.errPos := rfl
@[simp] theorem skipBits_inLen (n : Nat) : (skipBits n s).inLen = s.inLen := rfl
@[simp] theorem skipBits_outLen (n : Nat) : (skipBits n s).outLen = s.outLen := rfl
@[simp] theorem skipBits_nsym (n : Nat) : (skipBits n s).nsym = s.nsym := rfl
@[simp] theorem skipBits_nnode (n : Nat) : (skipBits n s).nnode = s.nnode := rfl
@[simp] theorem skipBits_root (n : Nat) : (skipBits n s).root = s.root := rfl
@[simp] theorem skipBits_tdBits (n : Nat) : (skipBits n s).tdBits = s.tdBits := rfl
@[simp] theorem skipBits_tdLen (n : Nat) : (skipBits n s).tdLen = s.tdLen := rfl
@[simp] theorem skipBits_vbits (n : Nat) : (skipBits n s).vbits = s.vbits := rfl
@[simp] theorem skipBits_payLen (n : Nat) : (skipBits n s).payLen = s.payLen := rfl
@[simp] theorem skipBits_payOff (n : Nat) : (skipBits n s).payOff = s.payOff := rfl
@[simp] theorem skipBits_ret (n : Nat) : (skipBits n s).ret = s.ret := rfl
@[simp] theorem skipBits_host (n : Nat) : (skipBits n s).host = s.host := rfl

/-! ### setBuffer -/

@[simp] theorem setBuffer_cfg (n : BufName) (m : Buf) : (setBuffer s n m).cfg = s.cfg := by cases n <;> rfl
@[simp] theorem setBuffer_ft (n : BufName) (m : Buf) : (setBuffer s n m).ft = s.ft := by cases n <;> rfl
@[simp] theorem setBuffer_node (n : BufName) (m : Buf) : (setBuffer s n m).node = s.node := by cases n <;> rfl
@[simp] theorem setBuffer_ct (n : BufName) (m : Buf) : (setBuffer s n m).ct = s.ct := by cases n <;> rfl
@[simp] theorem setBuffer_pq (n : BufName) (m : Buf) : (setBuffer s n m).pq = s.pq := by cases n <;> rfl
@[simp] theorem setBuffer_bw (n : BufName) (m : Buf) : (setBuffer s n m).bw = s.bw := by cases n <;> rfl
@[simp] theorem setBuffer_br (n : BufName) (m : Buf) : (setBuffer s n m).br = s.br := by cases n <;> rfl
@[simp] theorem setBuffer_busy (n : BufName) (m : Buf) : (setBuffer s n m).busy = s.busy := by cases n <;> rfl
@[simp] theorem setBuffer_done (n : BufName) (m : Buf) : (setBuffer s n m).done = s.done := by cases n <;> rfl
@[simp] theorem setBuffer_err (n : BufName) (m : Buf) : (setBuffer s n m).err = s.err := by cases n <;> rfl
@[simp] theorem setBuffer_stage (n : BufName) (m : Buf) : (setBuffer s n m).stage = s.stage := by cases n <;> rfl
@[simp] theorem setBuffer_errCode (n : BufName) (m : Buf) : (setBuffer s n m).errCode = s.errCode := by cases n <;> rfl
@[simp] theorem setBuffer_errPos (n : BufName) (m : Buf) : (setBuffer s n m).errPos = s.errPos := by cases n <;> rfl
@[simp] theorem setBuffer_inLen (n : BufName) (m : Buf) : (setBuffer s n m).inLen = s.inLen := by cases n <;> rfl
@[simp] theorem setBuffer_outLen (n : BufName) (m : Buf) : (setBuffer s n m).outLen = s.outLen := by cases n <;> rfl
@[simp] theorem setBuffer_nsym (n : BufName) (m : Buf) : (setBuffer s n m).nsym = s.nsym := by cases n <;> rfl
@[simp] theorem setBuffer_nnode (n : BufName) (m : Buf) : (setBuffer s n m).nnode = s.nnode := by cases n <;> rfl
@[simp] theorem setBuffer_root (n : BufName) (m : Buf) : (setBuffer s n m).root = s.root := by cases n <;> rfl
@[simp] theorem setBuffer_tdBits (n : BufName) (m : Buf) : (setBuffer s n m).tdBits = s.tdBits := by cases n <;> rfl
@[simp] theorem setBuffer_tdLen (n : BufName) (m : Buf) : (setBuffer s n m).tdLen = s.tdLen := by cases n <;> rfl
@[simp] theorem setBuffer_vbits (n : BufName) (m : Buf) : (setBuffer s n m).vbits = s.vbits := by cases n <;> rfl
@[simp] theorem setBuffer_payLen (n : BufName) (m : Buf) : (setBuffer s n m).payLen = s.payLen := by cases n <;> rfl
@[simp] theorem setBuffer_payOff (n : BufName) (m : Buf) : (setBuffer s n m).payOff = s.payOff := by cases n <;> rfl
@[simp] theorem setBuffer_ret (n : BufName) (m : Buf) : (setBuffer s n m).ret = s.ret := by cases n <;> rfl
@[simp] theorem setBuffer_host (n : BufName) (m : Buf) : (setBuffer s n m).host = s.host := by cases n <;> rfl

@[simp] theorem buffer_setBuffer_same (n : BufName) (m : Buf) : buffer (setBuffer s n m) n = m := by
  cases n <;> rfl

theorem buffer_setBuffer_ne {n k : BufName} (h : k ≠ n) (m : Buf) :
    buffer (setBuffer s n m) k = buffer s k := by
  cases n <;> cases k <;> first | rfl | exact absurd rfl h

/-! ### Twice is once -/

@[simp] theorem clearDerived_clearDerived : clearDerived (clearDerived s) = clearDerived s := rfl

@[simp] theorem errorEntry_startCommand (c : ErrCode) (pos : Nat) :
    errorEntry (startCommand s) c pos = errorEntry s c pos := rfl

@[simp] theorem errorEntry_clearDerived (c : ErrCode) (pos : Nat) :
    errorEntry (clearDerived s) c pos = errorEntry s c pos := rfl

end Sys2Proof.Machine
end

