-- ==== Sys2Proof/Laws/Memory.lean ====
section
/-! SUPPORT. The laws of the byte buffers: read after write, the canonical form, reading and writing
runs of bytes, and what MemRead and MemWrite can do. -/

namespace Sys2Proof.Machine

/-! ### One byte -/

@[simp] theorem bufRead_nil (a : Nat) : bufRead [] a = none := rfl

@[simp] theorem bufRead_bufWrite_same (m : Buf) (a : Nat) (b : Byte) :
    bufRead (bufWrite m a b) a = some b := by
  induction m with
  | nil => simp [bufWrite, bufRead]
  | cons c rest ih =>
    obtain ⟨k, d⟩ := c
    simp only [bufWrite]
    split
    · simp [bufRead]
    · split
      · simp [bufRead]
      · rename_i h1 h2
        have : k ≠ a := fun h => h2 h.symm
        simp [bufRead, this, ih]

theorem bufRead_bufWrite_ne (m : Buf) {a a' : Nat} (b : Byte) (h : a' ≠ a) :
    bufRead (bufWrite m a b) a' = bufRead m a' := by
  induction m with
  | nil => simp [bufWrite, bufRead, h.symm]
  | cons c rest ih =>
    obtain ⟨k, d⟩ := c
    simp only [bufWrite]
    split
    · simp [bufRead, h.symm]
    · split
      · rename_i h1 h2
        subst h2
        simp [bufRead, h.symm]
      · simp only [bufRead]
        split <;> simp_all

theorem bufRead_bufWrite (m : Buf) (a a' : Nat) (b : Byte) :
    bufRead (bufWrite m a b) a' = if a' = a then some b else bufRead m a' := by
  split
  · subst_vars; simp
  · exact bufRead_bufWrite_ne m b ‹_›

/-! ### The canonical form -/

theorem Memory.wf_cons (c : Host.Cell) (m : Buf) :
    Memory.wf (c :: m) = true ↔ (∀ d ∈ m.head?, c.1 < d.1) ∧ Memory.wf m = true := by
  cases m with
  | nil => simp [Memory.wf]
  | cons d rest => obtain ⟨a, b⟩ := c; obtain ⟨a', b'⟩ := d; simp [Memory.wf]

theorem head_bufWrite (m : Buf) (a : Nat) (b : Byte) (d : Host.Cell)
    (h : d ∈ (bufWrite m a b).head?) : d.1 = a ∨ d ∈ m.head? := by
  cases m with
  | nil => simp [bufWrite] at h; subst h; exact .inl rfl
  | cons c rest =>
    obtain ⟨k, e⟩ := c
    simp only [bufWrite] at h
    split at h
    · simp at h; subst h; exact .inl rfl
    · split at h
      · simp at h; subst h; exact .inl rfl
      · simp at h; subst h; exact .inr (by simp)

/-- Every write keeps the canonical form. -/
theorem wf_bufWrite (m : Buf) (a : Nat) (b : Byte) (h : Memory.wf m = true) :
    Memory.wf (bufWrite m a b) = true := by
  induction m with
  | nil => simp [bufWrite, Memory.wf]
  | cons c rest ih =>
    obtain ⟨k, e⟩ := c
    have hr := (Memory.wf_cons _ _).1 h
    simp only [bufWrite]
    split
    · rename_i hlt
      exact (Memory.wf_cons _ _).2 ⟨by simpa using hlt, h⟩
    · split
      · rename_i h1 h2
        subst h2
        exact (Memory.wf_cons _ _).2 ⟨hr.1, hr.2⟩
      · rename_i h1 h2
        refine (Memory.wf_cons _ _).2 ⟨fun d hd => ?_, ih hr.2⟩
        rcases head_bufWrite _ _ _ _ hd with hd | hd
        · simp only at *; omega
        · exact hr.1 d hd

theorem wf_bufWriteList (bs : List Byte) (m : Buf) (a : Nat) (h : Memory.wf m = true) :
    Memory.wf (bufWriteList m a bs) = true := by
  induction bs generalizing m a with
  | nil => exact h
  | cons b bs ih => exact ih _ _ (wf_bufWrite m a b h)

/-- Two canonical buffers that read alike are equal. -/
theorem buf_ext {m n : Buf} (hm : Memory.wf m = true) (hn : Memory.wf n = true)
    (h : ∀ a, bufRead m a = bufRead n a) : m = n := by
  have lower : ∀ {c : Host.Cell} {m : Buf}, Memory.wf (c :: m) = true → ∀ a ≤ c.1, bufRead m a = none := by
    intro c m
    induction m generalizing c with
    | nil => intros; rfl
    | cons d rest ih =>
      intro hw a ha
      have h1 := (Memory.wf_cons _ _).1 hw
      have h2 : c.1 < d.1 := h1.1 d (by simp)
      have := ih h1.2 a (by omega)
      obtain ⟨k, e⟩ := d
      simp only [bufRead]
      rw [if_neg (by simp only at h2; omega), this]
  induction m generalizing n with
  | nil =>
    cases n with
    | nil => rfl
    | cons c rest =>
      obtain ⟨k, e⟩ := c
      have := h k
      simp [bufRead] at this
  | cons c rest ih =>
    obtain ⟨k, e⟩ := c
    cases n with
    | nil =>
      have := h k
      simp [bufRead] at this
    | cons d rest' =>
      obtain ⟨k', e'⟩ := d
      have hk : k = k' := by
        by_contra hne
        rcases Nat.lt_or_gt_of_ne hne with hlt | hlt
        · have h1 := h k
          have h2 := lower hn k (by simp only; omega)
          simp [bufRead, h2, Ne.symm hne] at h1
        · have h1 := h k'
          have h2 := lower hm k' (by simp only; omega)
          simp [bufRead, h2, hne] at h1
      subst hk
      have he : e = e' := by
        have := h k
        simpa [bufRead] using this
      subst he
      congr 1
      refine ih ((Memory.wf_cons _ _).1 hm).2 ((Memory.wf_cons _ _).1 hn).2 fun a => ?_
      by_cases ha : k = a
      · subst ha
        rw [lower hm k (Nat.le_refl _), lower hn k (Nat.le_refl _)]
      · have := h a
        simpa [bufRead, ha] using this

/-! ### Bounds -/

@[simp] theorem bufBelow_nil (n : Nat) : bufBelow [] n = true := rfl

theorem bufBelow_bufWrite {m : Buf} {n : Nat} (a : Nat) (b : Byte) (h : bufBelow m n = true)
    (ha : a < n) : bufBelow (bufWrite m a b) n = true := by
  induction m with
  | nil => simp [bufWrite, bufBelow, ha]
  | cons c rest ih =>
    obtain ⟨k, e⟩ := c
    simp only [bufBelow, List.all_cons, Bool.and_eq_true, decide_eq_true_eq] at h ih
    simp only [bufWrite]
    split
    · simp [bufBelow, ha, h]
    · split
      · simp [bufBelow, ha, h]
      · simp [bufBelow, h.1, ih h.2]

theorem bufBelow_mono {m : Buf} {n k : Nat} (h : bufBelow m n = true) (hk : n ≤ k) :
    bufBelow m k = true := by
  simp only [bufBelow, List.all_eq_true, decide_eq_true_eq] at *
  exact fun c hc => Nat.lt_of_lt_of_le (h c hc) hk

theorem bufBelow_bufWriteList (bs : List Byte) {m : Buf} {n a : Nat} (h : bufBelow m n = true)
    (ha : a + bs.length ≤ n) : bufBelow (bufWriteList m a bs) n = true := by
  induction bs generalizing m a with
  | nil => exact h
  | cons b bs ih =>
    simp only [List.length_cons] at ha
    exact ih (bufBelow_bufWrite a b h (by omega)) (by omega)

theorem bufRead_of_bufBelow {m : Buf} {n a : Nat} (h : bufBelow m n = true) (ha : n ≤ a) :
    bufRead m a = none := by
  induction m with
  | nil => rfl
  | cons c rest ih =>
    obtain ⟨k, e⟩ := c
    simp only [bufBelow, List.all_cons, Bool.and_eq_true, decide_eq_true_eq] at h ih
    simp only [bufRead]
    rw [if_neg (by omega)]
    exact ih h.2

theorem bufBelow_zero {m : Buf} (h : bufBelow m 0 = true) : m = [] := by
  cases m with
  | nil => rfl
  | cons c rest => simp [bufBelow] at h

/-! ### Runs of bytes -/

theorem bufHolds_iff (m : Buf) (a : Nat) (bs : List Byte) :
    bufHolds m a bs = true ↔ ∀ (k : Nat) (h : k < bs.length), bufRead m (a + k) = some bs[k] := by
  induction bs generalizing a with
  | nil => simp [bufHolds]
  | cons b bs ih =>
    simp only [bufHolds, Bool.and_eq_true, decide_eq_true_eq, ih, List.length_cons]
    constructor
    · rintro ⟨h0, h⟩ k hk
      cases k with
      | zero => simpa using h0
      | succ k =>
        have := h k (by omega)
        simpa [Nat.add_assoc, Nat.add_comm 1] using this
    · intro h
      refine ⟨by simpa using h 0 (by omega), fun k hk => ?_⟩
      have := h (k + 1) (by omega)
      simpa [Nat.add_assoc, Nat.add_comm 1] using this

theorem bufHolds_append (m : Buf) (a : Nat) (bs cs : List Byte) :
    bufHolds m a (bs ++ cs) = true ↔
      bufHolds m a bs = true ∧ bufHolds m (a + bs.length) cs = true := by
  induction bs generalizing a with
  | nil => simp [bufHolds]
  | cons b bs ih => simp [bufHolds, ih, and_assoc, Nat.add_assoc, Nat.add_comm 1]

theorem bufRead_bufWriteList_outside (bs : List Byte) (m : Buf) (a c : Nat)
    (h : c < a ∨ a + bs.length ≤ c) : bufRead (bufWriteList m a bs) c = bufRead m c := by
  induction bs generalizing m a with
  | nil => rfl
  | cons b bs ih =>
    simp only [List.length_cons] at h
    rw [bufWriteList, ih _ _ (by omega), bufRead_bufWrite_ne _ _ (by omega)]

theorem bufRead_bufWriteList_inside (bs : List Byte) (m : Buf) (a k : Nat) (h : k < bs.length) :
    bufRead (bufWriteList m a bs) (a + k) = some bs[k] := by
  induction bs generalizing m a k with
  | nil => simp at h
  | cons b bs ih =>
    cases k with
    | zero => rw [bufWriteList, bufRead_bufWriteList_outside _ _ _ _ (by omega)]; simp
    | succ k =>
      have := ih (bufWrite m a b) (a + 1) k (by simpa using h)
      simpa [bufWriteList, Nat.add_assoc, Nat.add_comm 1] using this

theorem bufHolds_bufWriteList (bs : List Byte) (m : Buf) (a : Nat) :
    bufHolds (bufWriteList m a bs) a bs = true :=
  (bufHolds_iff _ _ _).2 fun k h => bufRead_bufWriteList_inside bs m a k h

theorem bufHolds_congr {m n : Buf} {a : Nat} {bs : List Byte}
    (h : ∀ c, a ≤ c → c < a + bs.length → bufRead m c = bufRead n c) :
    bufHolds m a bs = bufHolds n a bs := by
  rw [Bool.eq_iff_iff, bufHolds_iff, bufHolds_iff]
  constructor <;> intro hm k hk
  · rw [← h _ (by omega) (by omega)]; exact hm k hk
  · rw [h _ (by omega) (by omega)]; exact hm k hk

/-! ### MemRead and MemWrite (00_scope R7) -/

theorem memReadByte_ok {s : State} {n : BufName} {a : Nat} {b : Byte} :
    memReadByte s n a = .ok b ↔ bufRead (buffer s n) a = some b := by
  unfold memReadByte stopFault
  split <;> simp_all

/-- MemRead of one byte answers the byte or faults with the address. -/
theorem memReadByte_cases (s : State) (n : BufName) (a : Nat) :
    (∃ b, bufRead (buffer s n) a = some b ∧ memReadByte s n a = .ok b) ∨
      (bufRead (buffer s n) a = none ∧ memReadByte s n a = .error (.fault (.readUnwritten n a))) := by
  unfold memReadByte stopFault
  split <;> simp_all

theorem memRead_ok {s : State} {n : BufName} {a : Nat} {bs : List Byte}
    (h : bufHolds (buffer s n) a bs = true) : memRead s n a bs.length = .ok bs := by
  induction bs generalizing a with
  | nil => rfl
  | cons b bs ih =>
    simp only [bufHolds, Bool.and_eq_true, decide_eq_true_eq] at h
    simp [memRead, memReadByte_ok.2 h.1, ih h.2, bind, Except.bind]

/-- MemRead of `k` bytes answers the `k` bytes the buffer holds, or faults. -/
theorem memRead_cases (s : State) (n : BufName) (a k : Nat) :
    (∃ bs, bs.length = k ∧ bufHolds (buffer s n) a bs = true ∧ memRead s n a k = .ok bs) ∨
      ∃ c, memRead s n a k = .error (.fault (.readUnwritten n c)) := by
  induction k generalizing a with
  | zero => exact .inl ⟨[], rfl, rfl, rfl⟩
  | succ k ih =>
    rcases memReadByte_cases s n a with ⟨b, hb, h⟩ | ⟨_, h⟩
    · rcases ih (a + 1) with ⟨bs, hl, hh, hr⟩ | ⟨c, hr⟩
      · exact .inl ⟨b :: bs, by simp [hl], by simp [bufHolds, hb, hh], by
          simp [memRead, h, hr, bind, Except.bind]⟩
      · exact .inr ⟨c, by simp [memRead, h, hr, bind, Except.bind]⟩
    · exact .inr ⟨a, by simp [memRead, h, bind, Except.bind]⟩

/-- MemWrite writes the bytes where they fit and raises CapacityError where they do not. -/
theorem memWrite_eq (s : State) (n : BufName) (a : Nat) (bs : List Byte) :
    memWrite s n a bs =
      if a + bs.length ≤ capacity s.cfg n then
        .ok (setBuffer s n (bufWriteList (buffer s n) a bs))
      else .error (.raise .cap 0) := by
  unfold memWrite raiseCapacity
  by_cases h : a + bs.length ≤ capacity s.cfg n
  · rw [if_neg (by omega), if_pos h]
  · rw [if_pos (by omega), if_neg h]

end Sys2Proof.Machine
end

