-- ==== Sys2Proof/Laws/Frame.lean ====
section
/-! SUPPORT. How pseudocode sequences, what the command frame and the error entry can do, and what every
operation of the sequencer leaves unchanged: the input, the configuration, the host's side and the
flags (20_memory R60, 60_exceptions R221). -/

namespace Sys2Proof.Machine

/-! ### Sequencing -/

theorem bind_eq_ok {ε α β : Type} {x : Except ε α} {f : α → Except ε β} {r : β} :
    (x >>= f) = .ok r ↔ ∃ a, x = .ok a ∧ f a = .ok r := by
  cases x <;> simp [bind, Except.bind]

theorem bind_eq_error {ε α β : Type} {x : Except ε α} {f : α → Except ε β} {e : ε} :
    (x >>= f) = .error e ↔ x = .error e ∨ ∃ a, x = .ok a ∧ f a = .error e := by
  cases x <;> simp [bind, Except.bind]

@[simp] theorem ok_bind {ε α β : Type} (a : α) (f : α → Except ε β) :
    ((.ok a : Except ε α) >>= f) = f a := rfl

@[simp] theorem error_bind {ε α β : Type} (e : ε) (f : α → Except ε β) :
    ((.error e : Except ε α) >>= f) = .error e := rfl

/-! ### How meanings end -/

theorem settle_next {s t : State} {r : Except Stop State} (h : settle s r = .next t) :
    r = .ok t ∨ ∃ c pos, r = .error (.raise c pos) ∧ t = errorEntry s c pos := by
  cases r with
  | ok u => simp [settle] at h; subst h; exact .inl rfl
  | error e =>
    cases e with
    | raise c pos => simp [settle] at h; exact .inr ⟨c, pos, rfl, h.symm⟩
    | fault f => simp [settle] at h

theorem settleRet_next {s t : State} {r : Except Stop (Nat × State)} (h : settleRet s r = .next t) :
    (∃ v u, r = .ok (v, u) ∧ t = { u with ret := some v }) ∨
      ∃ c pos, r = .error (.raise c pos) ∧ t = errorEntry s c pos := by
  cases r with
  | ok u => obtain ⟨v, u⟩ := u; simp [settleRet] at h; exact .inl ⟨v, u, rfl, h.symm⟩
  | error e =>
    cases e with
    | raise c pos => simp [settleRet] at h; exact .inr ⟨c, pos, rfl, h.symm⟩
    | fault f => simp [settleRet] at h

theorem settleCommand_next {s t : State} {r : Except Stop State} (h : settleCommand s r = .next t) :
    (∃ u, r = .ok u ∧ t = endCommand u) ∨
      ∃ c pos, r = .error (.raise c pos) ∧ t = errorEntry s c pos := by
  cases r with
  | ok u => simp [settleCommand] at h; exact .inl ⟨u, rfl, h.symm⟩
  | error e =>
    cases e with
    | raise c pos => simp [settleCommand] at h; exact .inr ⟨c, pos, rfl, h.symm⟩
    | fault f => simp [settleCommand] at h

/-- Everything the frame of a unit command can answer with a next state (60_exceptions R221). -/
theorem unitCommand_next {io : Bool} {st : Stage} {body : State → Except Stop State} {s t : State}
    (h : unitCommand io st body s = .next t) :
    (s.busy = true ∧ t = s) ∨
    (s.busy = false ∧
      ((io = true ∧ s.cfg.ibCap.val < s.inLen ∧ t = errorEntry s .len 0) ∨
       ((io = true → s.inLen ≤ s.cfg.ibCap.val) ∧ s.stage ≠ st ∧ t = errorEntry s .seq 0) ∨
       ((io = true → s.inLen ≤ s.cfg.ibCap.val) ∧ s.stage = st ∧
         ((∃ u, body (startCommand s) = .ok u ∧ t = endCommand u) ∨
           ∃ c pos, body (startCommand s) = .error (.raise c pos) ∧ t = errorEntry s c pos)))) := by
  unfold unitCommand at h
  split at h
  · simp at h; exact .inl ⟨‹_›, h.symm⟩
  · rename_i hb
    refine .inr ⟨by simpa using hb, ?_⟩
    split at h
    · rename_i hl
      simp at hl h
      exact .inl ⟨hl.1, hl.2, by rw [← h]⟩
    · rename_i hl
      have hl' : io = true → s.inLen ≤ s.cfg.ibCap.val := by
        intro hio; simp [hio] at hl; exact hl
      split at h
      · simp at h
        exact .inr (.inl ⟨hl', ‹_›, by rw [← h]⟩)
      · rename_i hs
        refine .inr (.inr ⟨hl', by simpa using hs, ?_⟩)
        rcases settleCommand_next h with h | ⟨c, pos, h1, h2⟩
        · exact .inl h
        · exact .inr ⟨c, pos, h1, by simpa using h2⟩

/-- Everything the frame of CLEAR, COMPRESS and DECOMPRESS can answer with a next state (60_exceptions R221). -/
theorem wholeCommand_next {io : Bool} {body : State → Except Stop State} {s t : State}
    (h : wholeCommand io body s = .next t) :
    (s.busy = true ∧ t = s) ∨
    (s.busy = false ∧
      ((io = true ∧ s.cfg.ibCap.val < s.inLen ∧ t = errorEntry s .len 0) ∨
       ((io = true → s.inLen ≤ s.cfg.ibCap.val) ∧
         ((∃ u, body (clearDerived (startCommand s)) = .ok u ∧ t = endCommand u) ∨
           ∃ c pos, body (clearDerived (startCommand s)) = .error (.raise c pos) ∧
             t = errorEntry s c pos)))) := by
  unfold wholeCommand at h
  split at h
  · simp at h; exact .inl ⟨‹_›, h.symm⟩
  · rename_i hb
    refine .inr ⟨by simpa using hb, ?_⟩
    split at h
    · rename_i hl
      simp at hl h
      exact .inl ⟨hl.1, hl.2, by rw [← h]⟩
    · rename_i hl
      have hl' : io = true → s.inLen ≤ s.cfg.ibCap.val := by
        intro hio; simp [hio] at hl; exact hl
      refine .inr ⟨hl', ?_⟩
      rcases settleCommand_next h with h | ⟨c, pos, h1, h2⟩
      · exact .inl h
      · exact .inr ⟨c, pos, h1, by simpa using h2⟩

/-- A unit command in its stage, with a legal length, ends as its body does. -/
theorem unitCommand_eq {io : Bool} {st : Stage} {body : State → Except Stop State} {s : State}
    (hb : s.busy = false) (hl : io = true → s.inLen ≤ s.cfg.ibCap.val) (hs : s.stage = st) :
    unitCommand io st body s = settleCommand (startCommand s) (body (startCommand s)) := by
  unfold unitCommand
  have : ¬((io && decide (s.cfg.ibCap.val < s.inLen)) = true) := by
    intro hh; simp at hh; have := hl hh.1; omega
  simp [hb, this, hs]

/-- A command legal in every stage, with a legal length, ends as its body does from nothing derived. -/
theorem wholeCommand_eq {io : Bool} {body : State → Except Stop State} {s : State}
    (hb : s.busy = false) (hl : io = true → s.inLen ≤ s.cfg.ibCap.val) :
    wholeCommand io body s =
      settleCommand (startCommand s) (body (clearDerived (startCommand s))) := by
  unfold wholeCommand
  have : ¬((io && decide (s.cfg.ibCap.val < s.inLen)) = true) := by
    intro hh; simp at hh; have := hl hh.1; omega
  simp [hb, this]

/-- A unit command in its stage, with a legal length, whose body succeeds, completes. -/
theorem unitCommand_of_body {io : Bool} {st : Stage} {body : State → Except Stop State} {s u : State}
    (hb : s.busy = false) (hl : io = true → s.inLen ≤ s.cfg.ibCap.val) (hs : s.stage = st)
    (h : body (startCommand s) = .ok u) : unitCommand io st body s = .next (endCommand u) := by
  unfold unitCommand
  have : ¬((io && decide (s.cfg.ibCap.val < s.inLen)) = true) := by
    intro hh; simp at hh; have := hl hh.1; omega
  simp [hb, this, hs, h, settleCommand]

/-- A command legal in every stage, with a legal length, whose body succeeds, completes. -/
theorem wholeCommand_of_body {io : Bool} {body : State → Except Stop State} {s u : State}
    (hb : s.busy = false) (hl : io = true → s.inLen ≤ s.cfg.ibCap.val)
    (h : body (clearDerived (startCommand s)) = .ok u) :
    wholeCommand io body s = .next (endCommand u) := by
  unfold wholeCommand
  have : ¬((io && decide (s.cfg.ibCap.val < s.inLen)) = true) := by
    intro hh; simp at hh; have := hl hh.1; omega
  simp [hb, this, h, settleCommand]

/-! ### What no operation of the sequencer changes -/

/-- The input, the configuration, the host's side, the flags and the latch are the same. -/
structure Keeps (s t : State) : Prop where
  cfg : t.cfg = s.cfg
  ib : t.ib = s.ib
  inLen : t.inLen = s.inLen
  host : t.host = s.host
  busy : t.busy = s.busy
  done : t.done = s.done
  err : t.err = s.err
  errCode : t.errCode = s.errCode
  errPos : t.errPos = s.errPos
  ret : t.ret = s.ret

theorem Keeps.refl (s : State) : Keeps s s := ⟨rfl, rfl, rfl, rfl, rfl, rfl, rfl, rfl, rfl, rfl⟩

theorem Keeps.trans {s t u : State} (h : Keeps s t) (k : Keeps t u) : Keeps s u :=
  ⟨k.cfg.trans h.cfg, k.ib.trans h.ib, k.inLen.trans h.inLen, k.host.trans h.host,
    k.busy.trans h.busy, k.done.trans h.done, k.err.trans h.err, k.errCode.trans h.errCode,
    k.errPos.trans h.errPos, k.ret.trans h.ret⟩

theorem memWrite_keeps {s t : State} {n : BufName} {a : Nat} {bs : List Byte} (hn : n ≠ .ib)
    (h : memWrite s n a bs = .ok t) : Keeps s t := by
  rw [memWrite_eq] at h
  split at h
  · simp at h
    subst h
    cases n <;> first | exact absurd rfl hn | exact ⟨rfl, rfl, rfl, rfl, rfl, rfl, rfl, rfl, rfl, rfl⟩
  · simp at h

theorem writeNode_keeps {s t : State} {i : Nat} {x : Node} (h : writeNode s i x = .ok t) :
    Keeps s t := by
  unfold writeNode stopFault at h
  split at h
  · simp at h; subst h; exact ⟨rfl, rfl, rfl, rfl, rfl, rfl, rfl, rfl, rfl, rfl⟩
  · simp at h

theorem readNode_ok {s : State} {i : Nat} {x : Node} :
    readNode s i = .ok x ↔ i < Config.nodeMax ∧ x = nodeAt s i := by
  unfold readNode stopFault
  split <;> simp_all [eq_comm]

theorem writeNode_ok {s t : State} {i : Nat} {x : Node} :
    writeNode s i x = .ok t ↔
      i < Config.nodeMax ∧ t = { s with node := s.node.setIfInBounds i x } := by
  unfold writeNode stopFault
  split <;> simp_all [eq_comm]

theorem writerSend_keeps {s t : State} (h : writerSend s = .ok t) : Keeps s t := by
  unfold writerSend at h
  obtain ⟨u, h1, h2⟩ := bind_eq_ok.1 h
  simp at h2
  subst h2
  have := memWrite_keeps (by cases s.bw.sink <;> simp [sinkBuffer]) h1
  exact ⟨this.1, this.2, this.3, this.4, this.5, this.6, this.7, this.8, this.9, this.10⟩

theorem writerPut_keeps {b : Bool} {s t : State} (h : writerPut b s = .ok t) : Keeps s t := by
  unfold writerPut at h
  simp only at h
  split at h
  · have := writerSend_keeps h
    exact ⟨this.1, this.2, this.3, this.4, this.5, this.6, this.7, this.8, this.9, this.10⟩
  · simp at h; subst h; exact ⟨rfl, rfl, rfl, rfl, rfl, rfl, rfl, rfl, rfl, rfl⟩

theorem putBits_keeps {bits : List Bool} {s t : State} (h : putBits bits s = .ok t) : Keeps s t := by
  induction bits generalizing s with
  | nil => simp [putBits] at h; subst h; exact ⟨rfl, rfl, rfl, rfl, rfl, rfl, rfl, rfl, rfl, rfl⟩
  | cons b rest ih =>
    obtain ⟨u, h1, h2⟩ := bind_eq_ok.1 h
    exact (writerPut_keeps h1).trans (ih h2)

theorem writerFlush_keeps {s t : State} (h : writerFlush s = .ok t) : Keeps s t := by
  unfold writerFlush at h
  split at h
  · exact writerSend_keeps h
  · simp at h; subst h; exact ⟨rfl, rfl, rfl, rfl, rfl, rfl, rfl, rfl, rfl, rfl⟩

theorem countLoop_keeps {n i : Nat} {s t : State} (h : countLoop n i s = .ok t) : Keeps s t := by
  induction n generalizing i s with
  | zero => simp [countLoop] at h; subst h; exact ⟨rfl, rfl, rfl, rfl, rfl, rfl, rfl, rfl, rfl, rfl⟩
  | succ n ih =>
    obtain ⟨b, _, h2⟩ := bind_eq_ok.1 h
    have := ih h2
    exact ⟨this.1, this.2, this.3, this.4, this.5, this.6, this.7, this.8, this.9, this.10⟩

theorem fcountBody_keeps {s t : State} (h : fcountBody s = .ok t) : Keeps s t := by
  obtain ⟨u, h1, h2⟩ := bind_eq_ok.1 h
  simp at h2
  subst h2
  have := countLoop_keeps h1
  exact ⟨this.1, this.2, this.3, this.4, this.5, this.6, this.7, this.8, this.9, this.10⟩

theorem queuePopMin_keeps {s t : State} {m : Nat} (h : queuePopMin s = .ok (m, t)) : Keeps s t := by
  unfold queuePopMin stopFault at h
  split at h
  · simp at h
  · simp at h; obtain ⟨_, rfl⟩ := h; exact ⟨rfl, rfl, rfl, rfl, rfl, rfl, rfl, rfl, rfl, rfl⟩

theorem leafLoop_keeps {vs : List Nat} {n k : Nat} {s t : State} (h : leafLoop vs n s = .ok (k, t)) :
    Keeps s t := by
  induction vs generalizing n s with
  | nil => simp [leafLoop] at h; obtain ⟨_, rfl⟩ := h; exact ⟨rfl, rfl, rfl, rfl, rfl, rfl, rfl, rfl, rfl, rfl⟩
  | cons v rest ih =>
    simp only [leafLoop] at h
    split at h
    · obtain ⟨u, h1, h2⟩ := bind_eq_ok.1 h
      have := ih h2
      exact (writeNode_keeps h1).trans
        ⟨this.1, this.2, this.3, this.4, this.5, this.6, this.7, this.8, this.9, this.10⟩
    · exact ih h

theorem mergeLoop_keeps {fuel : Nat} {s t : State} (h : mergeLoop fuel s = .ok t) : Keeps s t := by
  induction fuel generalizing s with
  | zero => simp [mergeLoop] at h; subst h; exact ⟨rfl, rfl, rfl, rfl, rfl, rfl, rfl, rfl, rfl, rfl⟩
  | succ fuel ih =>
    simp only [mergeLoop] at h
    split at h
    · simp at h; subst h; exact ⟨rfl, rfl, rfl, rfl, rfl, rfl, rfl, rfl, rfl, rfl⟩
    · obtain ⟨⟨a, s1⟩, h1, h⟩ := bind_eq_ok.1 h
      obtain ⟨⟨b, s2⟩, h2, h⟩ := bind_eq_ok.1 h
      obtain ⟨na, _, h⟩ := bind_eq_ok.1 h
      obtain ⟨nb, _, h⟩ := bind_eq_ok.1 h
      obtain ⟨s3, h3, h⟩ := bind_eq_ok.1 h
      have := ih h
      exact (queuePopMin_keeps h1).trans ((queuePopMin_keeps h2).trans ((writeNode_keeps h3).trans
        ⟨this.1, this.2, this.3, this.4, this.5, this.6, this.7, this.8, this.9, this.10⟩))

theorem takeRoot_keeps {s t : State} (h : takeRoot s = .ok t) : Keeps s t := by
  unfold takeRoot at h
  split at h
  · obtain ⟨⟨r, u⟩, h1, h2⟩ := bind_eq_ok.1 h
    simp at h2
    subst h2
    have := queuePopMin_keeps h1
    exact ⟨this.1, this.2, this.3, this.4, this.5, this.6, this.7, this.8, this.9, this.10⟩
  · simp at h; subst h; exact ⟨rfl, rfl, rfl, rfl, rfl, rfl, rfl, rfl, rfl, rfl⟩

theorem tbuildBody_keeps {s t : State} (h : tbuildBody s = .ok t) : Keeps s t := by
  obtain ⟨⟨n, s1⟩, h1, h⟩ := bind_eq_ok.1 h
  obtain ⟨s2, h2, h⟩ := bind_eq_ok.1 h
  obtain ⟨s3, h3, h⟩ := bind_eq_ok.1 h
  simp at h
  subst h
  have k2 := mergeLoop_keeps h2
  have k3 := takeRoot_keeps h3
  have k : Keeps s s3 := (leafLoop_keeps h1).trans
    (Keeps.trans ⟨k2.1, k2.2, k2.3, k2.4, k2.5, k2.6, k2.7, k2.8, k2.9, k2.10⟩ k3)
  exact ⟨k.1, k.2, k.3, k.4, k.5, k.6, k.7, k.8, k.9, k.10⟩

theorem codeWalk_keeps {fuel i : Nat} {path : List Bool} {s t : State}
    (h : codeWalk fuel i path s = .ok t) : Keeps s t := by
  induction fuel generalizing i path s t with
  | zero => simp [codeWalk, stopFault] at h
  | succ fuel ih =>
    obtain ⟨x, _, h⟩ := bind_eq_ok.1 h
    split at h
    · simp at h; subst h; exact ⟨rfl, rfl, rfl, rfl, rfl, rfl, rfl, rfl, rfl, rfl⟩
    · obtain ⟨u, h1, h2⟩ := bind_eq_ok.1 h
      exact (ih h1).trans (ih h2)

theorem cgenBody_keeps {s t : State} (h : cgenBody s = .ok t) : Keeps s t := by
  obtain ⟨u, h1, h2⟩ := bind_eq_ok.1 h
  simp at h2
  subst h2
  have k : Keeps s u := by
    unfold codeTree at h1
    split at h1
    · simp at h1; subst h1; exact Keeps.refl _
    · obtain ⟨x, _, h1⟩ := bind_eq_ok.1 h1
      split at h1
      · simp at h1; subst h1; exact ⟨rfl, rfl, rfl, rfl, rfl, rfl, rfl, rfl, rfl, rfl⟩
      · exact codeWalk_keeps h1
  exact ⟨k.1, k.2, k.3, k.4, k.5, k.6, k.7, k.8, k.9, k.10⟩

theorem packLoop_keeps {n i : Nat} {s t : State} (h : packLoop n i s = .ok t) : Keeps s t := by
  induction n generalizing i s with
  | zero => simp [packLoop] at h; subst h; exact ⟨rfl, rfl, rfl, rfl, rfl, rfl, rfl, rfl, rfl, rfl⟩
  | succ n ih =>
    obtain ⟨b, _, h⟩ := bind_eq_ok.1 h
    obtain ⟨u, h1, h2⟩ := bind_eq_ok.1 h
    exact (putBits_keeps h1).trans (ih h2)

theorem packBody_keeps {s t : State} (h : packBody s = .ok t) : Keeps s t := by
  obtain ⟨u, h1, h⟩ := bind_eq_ok.1 h
  obtain ⟨v, h2, h⟩ := bind_eq_ok.1 h
  split at h
  · simp [raiseCapacity] at h
  · simp at h
    subst h
    have k1 := packLoop_keeps h1
    have k : Keeps s v := Keeps.trans
      ⟨k1.1, k1.2, k1.3, k1.4, k1.5, k1.6, k1.7, k1.8, k1.9, k1.10⟩ (writerFlush_keeps h2)
    exact ⟨k.1, k.2, k.3, k.4, k.5, k.6, k.7, k.8, k.9, k.10⟩

theorem emitNode_keeps {fuel i : Nat} {s t : State} (h : emitNode fuel i s = .ok t) : Keeps s t := by
  induction fuel generalizing i s t with
  | zero => simp [emitNode, stopFault] at h
  | succ fuel ih =>
    obtain ⟨x, _, h⟩ := bind_eq_ok.1 h
    split at h
    · exact putBits_keeps h
    · obtain ⟨u, h1, h⟩ := bind_eq_ok.1 h
      obtain ⟨v, h2, h3⟩ := bind_eq_ok.1 h
      exact (writerPut_keeps h1).trans ((ih h2).trans (ih h3))

theorem describeTree_keeps {s t : State} (h : describeTree s = .ok t) : Keeps s t := by
  obtain ⟨u, h1, h⟩ := bind_eq_ok.1 h
  obtain ⟨v, h2, h⟩ := bind_eq_ok.1 h
  simp at h
  subst h
  have k1 : Keeps (writerInit .td s) u := by
    unfold emitTree at h1
    split at h1
    · exact emitNode_keeps h1
    · simp at h1; subst h1; exact Keeps.refl _
  have k : Keeps s v := Keeps.trans
    ⟨k1.1, k1.2, k1.3, k1.4, k1.5, k1.6, k1.7, k1.8, k1.9, k1.10⟩ (writerFlush_keeps h2)
  exact ⟨k.1, k.2, k.3, k.4, k.5, k.6, k.7, k.8, k.9, k.10⟩

theorem assemble_keeps {s t : State} (h : assemble s = .ok t) : Keeps s t := by
  obtain ⟨s1, h1, h⟩ := bind_eq_ok.1 h
  obtain ⟨d, _, h⟩ := bind_eq_ok.1 h
  obtain ⟨s2, h2, h⟩ := bind_eq_ok.1 h
  obtain ⟨s3, h3, h⟩ := bind_eq_ok.1 h
  obtain ⟨p, _, h⟩ := bind_eq_ok.1 h
  obtain ⟨s4, h4, h⟩ := bind_eq_ok.1 h
  simp at h
  subst h
  have hn : BufName.ob ≠ .ib := by decide
  have k4 := memWrite_keeps hn h4
  have k := (memWrite_keeps hn h1).trans ((memWrite_keeps hn h2).trans ((memWrite_keeps hn h3).trans
    ⟨k4.1, k4.2, k4.3, k4.4, k4.5, k4.6, k4.7, k4.8, k4.9, k4.10⟩))
  exact ⟨k.1, k.2, k.3, k.4, k.5, k.6, k.7, k.8, k.9, k.10⟩

theorem serialBody_keeps {s t : State} (h : serialBody s = .ok t) : Keeps s t := by
  obtain ⟨u, h1, h2⟩ := bind_eq_ok.1 h
  exact (describeTree_keeps h1).trans (assemble_keeps h2)

theorem readerGet_keeps {s t : State} {b : Bool} (h : readerGet s = .ok (b, t)) : Keeps s t := by
  unfold readerGet at h
  split at h
  · obtain ⟨y, _, h⟩ := bind_eq_ok.1 h
    simp at h
    obtain ⟨_, rfl⟩ := h
    exact ⟨rfl, rfl, rfl, rfl, rfl, rfl, rfl, rfl, rfl, rfl⟩
  · simp [stopFault] at h

theorem readerGetBits_keeps {n v w : Nat} {s t : State} (h : readerGetBits n v s = .ok (w, t)) :
    Keeps s t := by
  induction n generalizing v s with
  | zero => simp [readerGetBits] at h; obtain ⟨_, rfl⟩ := h; exact ⟨rfl, rfl, rfl, rfl, rfl, rfl, rfl, rfl, rfl, rfl⟩
  | succ n ih =>
    obtain ⟨⟨b, u⟩, h1, h2⟩ := bind_eq_ok.1 h
    exact (readerGet_keeps h1).trans (ih h2)

theorem walkLoop_keeps {fuel cur c : Nat} {s t : State} (h : walkLoop fuel cur s = .ok (c, t)) :
    Keeps s t := by
  induction fuel generalizing cur s with
  | zero => simp [walkLoop] at h; obtain ⟨_, rfl⟩ := h; exact ⟨rfl, rfl, rfl, rfl, rfl, rfl, rfl, rfl, rfl, rfl⟩
  | succ fuel ih =>
    simp only [walkLoop] at h
    split at h
    · simp at h; obtain ⟨_, rfl⟩ := h; exact ⟨rfl, rfl, rfl, rfl, rfl, rfl, rfl, rfl, rfl, rfl⟩
    · obtain ⟨⟨b, s1⟩, h1, h⟩ := bind_eq_ok.1 h
      obtain ⟨x, _, h⟩ := bind_eq_ok.1 h
      obtain ⟨y, _, h⟩ := bind_eq_ok.1 h
      split at h
      · obtain ⟨s2, h2, h3⟩ := bind_eq_ok.1 h
        have k3 := ih h3
        exact (readerGet_keeps h1).trans ((memWrite_keeps (by decide) h2).trans
          ⟨k3.1, k3.2, k3.3, k3.4, k3.5, k3.6, k3.7, k3.8, k3.9, k3.10⟩)
      · exact (readerGet_keeps h1).trans (ih h)

theorem treeWalk_keeps {s t : State} (h : treeWalk s = .ok t) : Keeps s t := by
  obtain ⟨⟨c, u⟩, h1, h⟩ := bind_eq_ok.1 h
  simp only at h
  split at h
  · simp [raiseFormat] at h
  · simp at h
    subst h
    have k1 := walkLoop_keeps h1
    exact ⟨k1.1, k1.2, k1.3, k1.4, k1.5, k1.6, k1.7, k1.8, k1.9, k1.10⟩

theorem repeatLoop_keeps {n k : Nat} {sym : Byte} {s t : State} (h : repeatLoop n k sym s = .ok t) :
    Keeps s t := by
  induction n generalizing k s with
  | zero => simp [repeatLoop] at h; subst h; exact ⟨rfl, rfl, rfl, rfl, rfl, rfl, rfl, rfl, rfl, rfl⟩
  | succ n ih =>
    obtain ⟨u, h1, h2⟩ := bind_eq_ok.1 h
    exact (memWrite_keeps (by decide) h1).trans (ih h2)

theorem unpackBody_keeps {s t : State} (h : unpackBody s = .ok t) : Keeps s t := by
  obtain ⟨u, h1, h2⟩ := bind_eq_ok.1 h
  simp at h2
  subst h2
  have k : Keeps s u := by
    unfold unpackTree at h1
    split at h1
    · simp at h1; subst h1; exact ⟨rfl, rfl, rfl, rfl, rfl, rfl, rfl, rfl, rfl, rfl⟩
    · obtain ⟨x, _, h1⟩ := bind_eq_ok.1 h1
      split at h1
      · obtain ⟨v, h3, h4⟩ := bind_eq_ok.1 h1
        simp at h4
        subst h4
        have k := repeatLoop_keeps h3
        exact ⟨k.1, k.2, k.3, k.4, k.5, k.6, k.7, k.8, k.9, k.10⟩
      · have k := treeWalk_keeps h1
        exact ⟨k.1, k.2, k.3, k.4, k.5, k.6, k.7, k.8, k.9, k.10⟩
  exact ⟨k.1, k.2, k.3, k.4, k.5, k.6, k.7, k.8, k.9, k.10⟩

theorem allocNode_keeps {x : Node} {i : Nat} {s t : State} (h : allocNode x s = .ok (i, t)) :
    Keeps s t := by
  obtain ⟨u, h1, h2⟩ := bind_eq_ok.1 h
  simp at h2
  obtain ⟨_, rfl⟩ := h2
  have k := writeNode_keeps h1
  exact ⟨k.1, k.2, k.3, k.4, k.5, k.6, k.7, k.8, k.9, k.10⟩

theorem placeLeaf_keeps {sym : Byte} {i : Nat} {s t : State} (h : placeLeaf sym s = .ok (i, t)) :
    Keeps s t := by
  obtain ⟨⟨j, u⟩, h1, h2⟩ := bind_eq_ok.1 h
  simp at h2
  obtain ⟨_, rfl⟩ := h2
  have k := allocNode_keeps h1
  exact ⟨k.1, k.2, k.3, k.4, k.5, k.6, k.7, k.8, k.9, k.10⟩

theorem placeInternal_keeps {child : State → Except Stop (Nat × State)}
    (hc : ∀ {i : Nat} {s t : State}, child s = .ok (i, t) → Keeps s t) {i : Nat} {s t : State}
    (h : placeInternal child s = .ok (i, t)) : Keeps s t := by
  obtain ⟨⟨j, s1⟩, h1, h⟩ := bind_eq_ok.1 h
  obtain ⟨⟨l, s2⟩, h2, h⟩ := bind_eq_ok.1 h
  obtain ⟨⟨r, s3⟩, h3, h⟩ := bind_eq_ok.1 h
  obtain ⟨x, _, h⟩ := bind_eq_ok.1 h
  obtain ⟨s4, h4, h⟩ := bind_eq_ok.1 h
  simp at h
  obtain ⟨_, rfl⟩ := h
  exact (allocNode_keeps h1).trans ((hc h2).trans ((hc h3).trans (writeNode_keeps h4)))

theorem deserNode_keeps {fuel i : Nat} {s t : State} (h : deserNode fuel s = .ok (i, t)) :
    Keeps s t := by
  induction fuel generalizing i s t with
  | zero =>
    obtain ⟨_, _, h⟩ := bind_eq_ok.1 h
    simp [raiseFormat] at h
  | succ fuel ih =>
    obtain ⟨_, _, h⟩ := bind_eq_ok.1 h
    obtain ⟨⟨f, s1⟩, h1, h⟩ := bind_eq_ok.1 h
    simp only at h
    split at h
    · split at h
      · simp [raiseFormat] at h
      · obtain ⟨⟨v, s2⟩, h2, h⟩ := bind_eq_ok.1 h
        exact (readerGet_keeps h1).trans ((readerGetBits_keeps h2).trans (placeLeaf_keeps h))
    · exact (readerGet_keeps h1).trans (placeInternal_keeps ih h)

theorem headerField_ok {w : Word} {s t : State} (h : headerField w s = .ok t) :
    8 + w.toNat ≤ s.inLen ∧ t = { s with tdLen := w.toNat } := by
  unfold headerField raiseFormat at h
  split at h
  · simp at h
  · split at h
    · simp at h
    · split at h
      · simp at h
      · simp at h
        exact ⟨by omega, h.symm⟩

theorem checkPayload_ok {v p : Nat} {s t : State} (h : checkPayload v p s = .ok t) :
    v ≤ 8 * p ∧ p ≤ ceil8 v ∧ (s.tdLen = 0 → v = 0) ∧
      t = { s with vbits := v, payLen := p, payOff := 8 + s.tdLen, stage := .parsed } := by
  unfold checkPayload raiseFormat at h
  split at h
  · simp at h
  · split at h
    · simp at h
    · split at h
      · simp at h
      · rename_i h3
        simp at h
        refine ⟨by omega, by omega, ?_, h.symm⟩
        intro h0
        by_contra hv
        exact h3 ⟨h0, hv⟩

theorem metadataField_ok {v : Word} {s t : State} (h : metadataField v s = .ok t) :
    8 + s.tdLen ≤ s.inLen ∧ v.toNat ≤ 8 * (s.inLen - (8 + s.tdLen)) ∧
      s.inLen - (8 + s.tdLen) ≤ ceil8 v.toNat ∧ (s.tdLen = 0 → v.toNat = 0) ∧
      t = { s with
        vbits := v.toNat
        payLen := s.inLen - (8 + s.tdLen)
        payOff := 8 + s.tdLen
        stage := .parsed } := by
  unfold metadataField raiseFormat at h
  split at h
  · simp at h
  · exact ⟨by omega, checkPayload_ok h⟩

theorem parseTree_keeps {s t : State} (h : parseTree s = .ok t) : Keeps s t := by
  unfold parseTree at h
  split at h
  · obtain ⟨⟨r, u⟩, h1, h⟩ := bind_eq_ok.1 h
    simp only at h
    split at h
    · simp [raiseFormat] at h
    · simp at h
      subst h
      have k := deserNode_keeps h1
      exact ⟨k.1, k.2, k.3, k.4, k.5, k.6, k.7, k.8, k.9, k.10⟩
  · simp at h; subst h; exact ⟨rfl, rfl, rfl, rfl, rfl, rfl, rfl, rfl, rfl, rfl⟩

theorem parseBody_keeps {s t : State} (h : parseBody s = .ok t) : Keeps s t := by
  unfold parseBody at h
  split at h
  · simp [raiseFormat] at h
  · obtain ⟨w, _, h⟩ := bind_eq_ok.1 h
    obtain ⟨s1, h1, h⟩ := bind_eq_ok.1 h
    obtain ⟨s2, h2, h⟩ := bind_eq_ok.1 h
    obtain ⟨v, _, h⟩ := bind_eq_ok.1 h
    have e1 := (headerField_ok h1).2
    have e3 := (metadataField_ok ‹metadataField v s2 = _›).2.2.2.2
    subst e1
    subst e3
    have k := parseTree_keeps h2
    exact ⟨k.1, k.2, k.3, k.4, k.5, k.6, k.7, k.8, k.9, k.10⟩

theorem compressBody_keeps {s t : State} (h : compressBody s = .ok t) : Keeps s t := by
  obtain ⟨s1, h1, h⟩ := bind_eq_ok.1 h
  obtain ⟨s2, h2, h⟩ := bind_eq_ok.1 h
  obtain ⟨s3, h3, h⟩ := bind_eq_ok.1 h
  obtain ⟨s4, h4, h⟩ := bind_eq_ok.1 h
  exact (fcountBody_keeps h1).trans ((tbuildBody_keeps h2).trans ((cgenBody_keeps h3).trans
    ((packBody_keeps h4).trans (serialBody_keeps h))))

theorem decompressBody_keeps {s t : State} (h : decompressBody s = .ok t) : Keeps s t := by
  obtain ⟨s1, h1, h⟩ := bind_eq_ok.1 h
  exact (parseBody_keeps h1).trans (unpackBody_keeps h)

end Sys2Proof.Machine
end

