-- ==== Sys2Proof/Laws/Raise.lean ====
section
/-! SUPPORT. Which errors each operation of the sequencer can raise, and at which position
(60_exceptions R216): every raise that a body performs is listed here once. -/

namespace Sys2Proof.Machine

variable {c : ErrCode} {pos : Nat}

theorem memReadByte_raise {s : State} {n : BufName} {a : Nat} :
    memReadByte s n a ≠ .error (.raise c pos) := by
  rcases memReadByte_cases s n a with ⟨b, _, h⟩ | ⟨_, h⟩ <;> simp [h]

theorem memRead_raise {s : State} {n : BufName} {a k : Nat} :
    memRead s n a k ≠ .error (.raise c pos) := by
  rcases memRead_cases s n a k with ⟨b, _, _, h⟩ | ⟨_, h⟩ <;> simp [h]

theorem memWrite_raise {s : State} {n : BufName} {a : Nat} {bs : List Byte}
    (h : memWrite s n a bs = .error (.raise c pos)) : c = .cap ∧ pos = 0 := by
  rw [memWrite_eq] at h
  split at h
  · cases h
  · cases h; exact ⟨rfl, rfl⟩

theorem readNode_raise {s : State} {i : Nat} : readNode s i ≠ .error (.raise c pos) := by
  unfold readNode stopFault; split <;> simp

theorem writeNode_raise {s : State} {i : Nat} {x : Node} :
    writeNode s i x ≠ .error (.raise c pos) := by
  unfold writeNode stopFault; split <;> simp

theorem queuePopMin_raise {s : State} : queuePopMin s ≠ .error (.raise c pos) := by
  unfold queuePopMin stopFault; split <;> simp

theorem countLoop_raise {n i : Nat} {s : State} : countLoop n i s ≠ .error (.raise c pos) := by
  induction n generalizing i s with
  | zero => simp [countLoop]
  | succ n ih =>
    intro h
    rcases bind_eq_error.1 h with h | ⟨b, _, h⟩
    · exact memReadByte_raise h
    · exact ih h

theorem fcountBody_raise {s : State} : fcountBody s ≠ .error (.raise c pos) := by
  intro h
  rcases bind_eq_error.1 h with h | ⟨b, _, h⟩
  · exact countLoop_raise h
  · cases h

theorem leafLoop_raise {l : List Nat} {n : Nat} {s : State} :
    leafLoop l n s ≠ .error (.raise c pos) := by
  induction l generalizing n s with
  | nil => simp [leafLoop]
  | cons v rest ih =>
    intro h
    simp only [leafLoop] at h
    split at h
    · rcases bind_eq_error.1 h with h | ⟨b, _, h⟩
      · exact writeNode_raise h
      · exact ih h
    · exact ih h

theorem mergeLoop_raise {fuel : Nat} {s : State} : mergeLoop fuel s ≠ .error (.raise c pos) := by
  induction fuel generalizing s with
  | zero => simp [mergeLoop]
  | succ fuel ih =>
    intro h
    simp only [mergeLoop] at h
    split at h
    · cases h
    · rcases bind_eq_error.1 h with h | ⟨_, _, h⟩
      · exact queuePopMin_raise h
      rcases bind_eq_error.1 h with h | ⟨_, _, h⟩
      · exact queuePopMin_raise h
      rcases bind_eq_error.1 h with h | ⟨_, _, h⟩
      · exact readNode_raise h
      rcases bind_eq_error.1 h with h | ⟨_, _, h⟩
      · exact readNode_raise h
      rcases bind_eq_error.1 h with h | ⟨_, _, h⟩
      · exact writeNode_raise h
      exact ih h

theorem tbuildBody_raise {s : State} : tbuildBody s ≠ .error (.raise c pos) := by
  intro h
  rcases bind_eq_error.1 h with h | ⟨_, _, h⟩
  · exact leafLoop_raise h
  rcases bind_eq_error.1 h with h | ⟨_, _, h⟩
  · exact mergeLoop_raise h
  rcases bind_eq_error.1 h with h | ⟨_, _, h⟩
  · unfold takeRoot at h
    split at h
    · rcases bind_eq_error.1 h with h | ⟨_, _, h⟩
      · exact queuePopMin_raise h
      · cases h
    · cases h
  · cases h

theorem codeWalk_raise {fuel i : Nat} {path : List Bool} {s : State} :
    codeWalk fuel i path s ≠ .error (.raise c pos) := by
  induction fuel generalizing i path s with
  | zero => simp [codeWalk, stopFault]
  | succ fuel ih =>
    intro h
    rcases bind_eq_error.1 h with h | ⟨x, _, h⟩
    · exact readNode_raise h
    · split at h
      · cases h
      · rcases bind_eq_error.1 h with h | ⟨_, _, h⟩
        · exact ih h
        · exact ih h

theorem cgenBody_raise {s : State} : cgenBody s ≠ .error (.raise c pos) := by
  intro h
  rcases bind_eq_error.1 h with h | ⟨_, _, h⟩
  · unfold codeTree at h
    split at h
    · cases h
    · rcases bind_eq_error.1 h with h | ⟨x, _, h⟩
      · exact readNode_raise h
      · split at h
        · cases h
        · exact codeWalk_raise h
  · cases h

theorem writerSend_raise {s : State} (h : writerSend s = .error (.raise c pos)) :
    c = .cap ∧ pos = 0 := by
  rcases bind_eq_error.1 h with h | ⟨_, _, h⟩
  · exact memWrite_raise h
  · cases h

theorem writerPut_raise {b : Bool} {s : State} (h : writerPut b s = .error (.raise c pos)) :
    c = .cap ∧ pos = 0 := by
  simp only [writerPut] at h
  split at h
  · exact writerSend_raise h
  · cases h

theorem writerFlush_raise {s : State} (h : writerFlush s = .error (.raise c pos)) :
    c = .cap ∧ pos = 0 := by
  unfold writerFlush at h
  split at h
  · exact writerSend_raise h
  · cases h

theorem putBits_raise {l : List Bool} {s : State} (h : putBits l s = .error (.raise c pos)) :
    c = .cap ∧ pos = 0 := by
  induction l generalizing s with
  | nil => cases h
  | cons b l ih =>
    rcases bind_eq_error.1 h with h | ⟨_, _, h⟩
    · exact writerPut_raise h
    · exact ih h

theorem packLoop_raise {n i : Nat} {s : State} (h : packLoop n i s = .error (.raise c pos)) :
    c = .cap ∧ pos = 0 := by
  induction n generalizing i s with
  | zero => cases h
  | succ n ih =>
    rcases bind_eq_error.1 h with h | ⟨_, _, h⟩
    · exact (memReadByte_raise h).elim
    rcases bind_eq_error.1 h with h | ⟨_, _, h⟩
    · exact putBits_raise h
    · exact ih h

/-- PACK raises only CapacityError (43_bit_writer R150). -/
theorem packBody_raise {s : State} (h : packBody s = .error (.raise c pos)) : c = .cap ∧ pos = 0 := by
  rcases bind_eq_error.1 h with h | ⟨_, _, h⟩
  · exact packLoop_raise h
  rcases bind_eq_error.1 h with h | ⟨_, _, h⟩
  · exact writerFlush_raise h
  split at h
  · cases h; exact ⟨rfl, rfl⟩
  · cases h

theorem emitNode_raise {fuel i : Nat} {s : State} (h : emitNode fuel i s = .error (.raise c pos)) :
    c = .cap ∧ pos = 0 := by
  induction fuel generalizing i s with
  | zero => cases h
  | succ fuel ih =>
    rcases bind_eq_error.1 h with h | ⟨x, _, h⟩
    · exact (readNode_raise h).elim
    split at h
    · exact putBits_raise h
    · rcases bind_eq_error.1 h with h | ⟨_, _, h⟩
      · exact writerPut_raise h
      rcases bind_eq_error.1 h with h | ⟨_, _, h⟩
      · exact ih h
      · exact ih h

/-- SERIAL raises only CapacityError (45_container R175). -/
theorem serialBody_raise {s : State} (h : serialBody s = .error (.raise c pos)) :
    c = .cap ∧ pos = 0 := by
  rcases bind_eq_error.1 h with h | ⟨_, _, h⟩
  · rcases bind_eq_error.1 h with h | ⟨_, _, h⟩
    · unfold emitTree at h
      split at h
      · exact emitNode_raise h
      · cases h
    rcases bind_eq_error.1 h with h | ⟨_, _, h⟩
    · exact writerFlush_raise h
    · cases h
  · rcases bind_eq_error.1 h with h | ⟨_, _, h⟩
    · exact memWrite_raise h
    rcases bind_eq_error.1 h with h | ⟨_, _, h⟩
    · exact (memRead_raise h).elim
    rcases bind_eq_error.1 h with h | ⟨_, _, h⟩
    · exact memWrite_raise h
    rcases bind_eq_error.1 h with h | ⟨_, _, h⟩
    · exact memWrite_raise h
    rcases bind_eq_error.1 h with h | ⟨_, _, h⟩
    · exact (memRead_raise h).elim
    rcases bind_eq_error.1 h with h | ⟨_, _, h⟩
    · exact memWrite_raise h
    · cases h

theorem readerGet_raise {s : State} : readerGet s ≠ .error (.raise c pos) := by
  unfold readerGet stopFault
  split
  · intro h
    rcases bind_eq_error.1 h with h | ⟨_, _, h⟩
    · exact memReadByte_raise h
    · cases h
  · simp

theorem readerGetBits_raise {n v : Nat} {s : State} : readerGetBits n v s ≠ .error (.raise c pos) := by
  induction n generalizing v s with
  | zero => simp [readerGetBits]
  | succ n ih =>
    intro h
    rcases bind_eq_error.1 h with h | ⟨_, _, h⟩
    · exact readerGet_raise h
    · exact ih h

theorem walkLoop_raise {fuel cur : Nat} {s : State} (h : walkLoop fuel cur s = .error (.raise c pos)) :
    c = .cap ∧ pos = 0 := by
  induction fuel generalizing cur s with
  | zero => cases h
  | succ fuel ih =>
    simp only [walkLoop] at h
    split at h
    · cases h
    · rcases bind_eq_error.1 h with h | ⟨_, _, h⟩
      · exact (readerGet_raise h).elim
      rcases bind_eq_error.1 h with h | ⟨_, _, h⟩
      · exact (readNode_raise h).elim
      rcases bind_eq_error.1 h with h | ⟨_, _, h⟩
      · exact (readNode_raise h).elim
      split at h
      · rcases bind_eq_error.1 h with h | ⟨_, _, h⟩
        · exact memWrite_raise h
        · exact ih h
      · exact ih h

theorem repeatLoop_raise {n k : Nat} {sym : Byte} {s : State}
    (h : repeatLoop n k sym s = .error (.raise c pos)) : c = .cap ∧ pos = 0 := by
  induction n generalizing k s with
  | zero => cases h
  | succ n ih =>
    rcases bind_eq_error.1 h with h | ⟨_, _, h⟩
    · exact memWrite_raise h
    · exact ih h

/-- UNPACK raises ERR_MIDCODE at IN_LEN or CapacityError (44_bit_reader R163). -/
theorem unpackBody_raise {s : State} (h : unpackBody s = .error (.raise c pos)) :
    (c = .midcode ∧ pos = s.inLen) ∨ (c = .cap ∧ pos = 0) := by
  rcases bind_eq_error.1 h with h | ⟨_, _, h⟩
  · unfold unpackTree at h
    split at h
    · cases h
    rcases bind_eq_error.1 h with h | ⟨x, _, h⟩
    · exact (readNode_raise h).elim
    split at h
    · rcases bind_eq_error.1 h with h | ⟨_, _, h⟩
      · exact .inr (repeatLoop_raise h)
      · cases h
    · rcases bind_eq_error.1 h with h | ⟨⟨cur, u⟩, h1, h⟩
      · exact .inr (walkLoop_raise h)
      · simp only at h
        split at h
        · cases h; exact .inl ⟨rfl, (walkLoop_keeps h1).inLen⟩
        · cases h
  · cases h

theorem nodeDue_raise {s : State} (h : nodeDue s = .error (.raise c pos)) :
    (c = .treeTrunc ∧ pos = 4 + s.tdLen) ∨ (c = .treeOvf ∧ pos = 4 + s.br.pos / 8) := by
  unfold nodeDue raiseFormat at h
  split at h
  · cases h; exact .inl ⟨rfl, rfl⟩
  · split at h
    · cases h; exact .inr ⟨rfl, rfl⟩
    · cases h

end Sys2Proof.Machine
end

