-- ==== Sys2Proof/Laws/BitReader.lean ====
section
/-! SUPPORT. What the BitReader answers on the bits it holds (44_bit_reader R161, R162), and the
reading of one symbol of a tree description (45_container R182). -/

namespace Sys2Proof.Machine

/-! ### The bits held -/

theorem readerHolds_congr {s t : State} (hi : t.ib = s.ib) (hb : t.br.base = s.br.base) (k : Nat)
    (bits : List Bool) : readerHolds t k bits = readerHolds s k bits := by
  induction bits generalizing k with
  | nil => rfl
  | cons b rest ih => simp only [readerHolds, hi, hb, ih]

@[simp] theorem readerHolds_skipBits (s : State) (n k : Nat) (bits : List Bool) :
    readerHolds (skipBits n s) k bits = readerHolds s k bits :=
  readerHolds_congr (s := s) (t := skipBits n s) rfl rfl k bits

theorem readerHolds_append (s : State) (k : Nat) (x y : List Bool) :
    readerHolds s k (x ++ y) = true ↔
      readerHolds s k x = true ∧ readerHolds s (k + x.length) y = true := by
  induction x generalizing k with
  | nil => simp [readerHolds]
  | cons b rest ih => simp [readerHolds, ih, and_assoc, Nat.add_assoc, Nat.add_comm 1]

/-- The bits held at a place are determined by it. -/
theorem readerHolds_unique {s : State} {k : Nat} {x y : List Bool} (hl : x.length = y.length)
    (hx : readerHolds s k x = true) (hy : readerHolds s k y = true) : x = y := by
  induction x generalizing k y with
  | nil => cases y with
    | nil => rfl
    | cons _ _ => simp at hl
  | cons b rest ih =>
    cases y with
    | nil => simp at hl
    | cons c rest' =>
      simp only [readerHolds, Bool.and_eq_true, decide_eq_true_eq] at hx hy
      have h1 := hx.1.symm.trans hy.1
      simp at h1
      rw [h1, ih (by simpa using hl) hx.2 hy.2]

/-- The bits of the bytes a buffer holds are the bits held (20_memory R62). -/
theorem readerHolds_unpackBits {s : State} {d : List Byte} {j : Nat}
    (h : bufHolds s.ib (s.br.base + j) d = true) : readerHolds s (8 * j) (unpackBits d) = true := by
  induction d generalizing j with
  | nil => rfl
  | cons b d ih =>
    simp only [bufHolds, Bool.and_eq_true, decide_eq_true_eq] at h
    have e : ∀ k, k < 8 → (8 * j + k) / 8 = j := by omega
    have m : ∀ k, k < 8 → (8 * j + k) % 8 = k := by omega
    have := ih (j := j + 1) (by simpa [Nat.add_assoc] using h.2)
    simp only [unpackBits, List.flatMap_cons] at this ⊢
    rw [readerHolds_append]
    refine ⟨?_, by simpa [Nat.mul_add] using this⟩
    have e0 := e 0 (by omega); have e1 := e 1 (by omega); have e2 := e 2 (by omega)
    have e3 := e 3 (by omega); have e4 := e 4 (by omega); have e5 := e 5 (by omega)
    have e6 := e 6 (by omega); have e7 := e 7 (by omega)
    have m0 := m 0 (by omega); have m1 := m 1 (by omega); have m2 := m 2 (by omega)
    have m3 := m 3 (by omega); have m4 := m 4 (by omega); have m5 := m 5 (by omega)
    have m6 := m 6 (by omega); have m7 := m 7 (by omega)
    simp only [Nat.add_zero] at e0 m0
    simp [byteBits, readerHolds, Nat.add_assoc, e0, e1, e2, e3, e4, e5, e6, e7, m0, m1, m2, m3, m4,
      m5, m6, m7, h.1, bitOfByte]

/-! ### BR.GET (44_bit_reader R161) -/

theorem skipBits_skipBits (s : State) (n k : Nat) : skipBits k (skipBits n s) = skipBits (n + k) s := by
  simp [skipBits, Nat.add_assoc]

/-- BR.GET below the limit on a held bit answers it and moves by one. -/
theorem readerGet_holds {s : State} {b : Bool} {rest : List Bool}
    (h : readerHolds s s.br.pos (b :: rest) = true) (hl : s.br.pos < s.br.limit) :
    readerGet s = .ok (b, skipBits 1 s) := by
  simp only [readerHolds, Bool.and_eq_true, decide_eq_true_eq] at h
  unfold readerGet
  rw [if_pos hl]
  obtain ⟨y, hy, hb⟩ := Option.map_eq_some_iff.1 h.1
  have : memReadByte s .ib (s.br.base + s.br.pos / 8) = .ok y := memReadByte_ok.2 hy
  simp [this, hb, skipBits]

/-- BR.GET answers only below the limit, and then a bit that is held. -/
theorem readerGet_ok {s t : State} {b : Bool} (h : readerGet s = .ok (b, t)) :
    s.br.pos < s.br.limit ∧ readerHolds s s.br.pos [b] = true ∧ t = skipBits 1 s := by
  unfold readerGet at h
  split at h
  · obtain ⟨y, h1, h2⟩ := bind_eq_ok.1 h
    simp at h2
    obtain ⟨hb, rfl⟩ := h2
    refine ⟨‹_›, ?_, rfl⟩
    have : bufRead s.ib (s.br.base + s.br.pos / 8) = some y := memReadByte_ok.1 h1
    simp [readerHolds, this, hb]
  · simp [stopFault] at h

/-- `v <- 2 * v + BR.GET()` over a list of bits (45_container R182). -/
def bitsValue (v : Nat) (bits : List Bool) : Nat := bits.foldl (fun v b => 2 * v + b.toNat) v

theorem readerGetBits_holds {bits : List Bool} {v : Nat} {s : State}
    (h : readerHolds s s.br.pos bits = true) (hl : s.br.pos + bits.length ≤ s.br.limit) :
    readerGetBits bits.length v s = .ok (bitsValue v bits, skipBits bits.length s) := by
  induction bits generalizing v s with
  | nil => simp [readerGetBits, bitsValue, skipBits]
  | cons b rest ih =>
    simp only [List.length_cons] at hl
    have h1 := readerGet_holds h (by omega)
    have h2 : readerHolds (skipBits 1 s) (skipBits 1 s).br.pos rest = true := by
      rw [readerHolds_skipBits]
      simp only [readerHolds, Bool.and_eq_true] at h
      exact h.2
    have := ih (v := 2 * v + b.toNat) h2 (by simp [skipBits]; omega)
    simp only [List.length_cons, readerGetBits, h1, ok_bind, this, skipBits_skipBits, Nat.add_comm 1]
    rfl

theorem readerGetBits_ok {n v w : Nat} {s t : State} (h : readerGetBits n v s = .ok (w, t)) :
    ∃ bits, bits.length = n ∧ readerHolds s s.br.pos bits = true ∧
      (n ≠ 0 → s.br.pos + n ≤ s.br.limit) ∧ w = bitsValue v bits ∧ t = skipBits n s := by
  induction n generalizing v s with
  | zero =>
    simp [readerGetBits] at h
    obtain ⟨rfl, rfl⟩ := h
    exact ⟨[], rfl, rfl, by simp, rfl, rfl⟩
  | succ n ih =>
    obtain ⟨⟨b, u⟩, h1, h2⟩ := bind_eq_ok.1 h
    obtain ⟨hlt, hb, rfl⟩ := readerGet_ok h1
    obtain ⟨bits, hl, hh, hle, hw, ht⟩ := ih h2
    refine ⟨b :: bits, by simp [hl], ?_, ?_, hw, ?_⟩
    · rw [readerHolds_skipBits] at hh
      simp only [readerHolds, Bool.and_eq_true] at hb ⊢
      exact ⟨hb.1, hh⟩
    · intro _
      by_cases h0 : n = 0
      · omega
      · have := hle h0; simp [skipBits] at this; omega
    · rw [ht, skipBits_skipBits, Nat.add_comm]

/-- Eight bits read most significant first are the byte (45_container R182). -/
theorem bitsValue_byteBits (b : Byte) : BitVec.ofNat 8 (bitsValue 0 (byteBits b)) = b := by
  revert b; decide +kernel

theorem byteBits_bitsValue {bits : List Bool} (h : bits.length = 8) :
    byteBits (BitVec.ofNat 8 (bitsValue 0 bits)) = bits := by
  match bits, h with
  | [a, b, c, d, e, f, g, i], _ => revert a b c d e f g i; decide +kernel

end Sys2Proof.Machine
end

