-- ==== Sys2Proof/Laws/BitWriter.lean ====
section
/-! SUPPORT. What the BitWriter leaves in its sink (43_bit_writer R146 to R149): the bit string put so
far cut into bytes, the unfinished byte in ACC. -/

namespace Sys2Proof.Machine

/-! ### Bytes of a bit string -/

/-- The first eight bits of a list as a byte, missing bits being 0 (20_memory R62). -/
def headByte (l : List Bool) : Byte :=
  byteOfBits (l.getD 0 false) (l.getD 1 false) (l.getD 2 false) (l.getD 3 false) (l.getD 4 false)
    (l.getD 5 false) (l.getD 6 false) (l.getD 7 false)

/-- Byte `j` of a packed bit string. -/
def byteAt (bits : List Bool) (j : Nat) : Byte := headByte (bits.drop (8 * j))

theorem packBits_eq (bits : List Bool) :
    packBits bits = (List.range (ceil8 bits.length)).map (byteAt bits) := by
  simp [packBits, byteAt, headByte, List.getD_eq_getElem?_getD, List.getElem?_drop]

@[simp] theorem packBits_length (bits : List Bool) : (packBits bits).length = ceil8 bits.length := by
  simp [packBits]

/-- Putting one more bit into an unfinished byte (43_bit_writer R147). -/
theorem placeBit_headByte (l : List Bool) (b : Bool) (h : l.length < 8) :
    placeBit (headByte l) l.length b = headByte (l ++ [b]) := by
  match l, h with
  | [], _ => revert b; decide +kernel
  | [a0], _ => revert a0 b; decide +kernel
  | [a0, a1], _ => revert a0 a1 b; decide +kernel
  | [a0, a1, a2], _ => revert a0 a1 a2 b; decide +kernel
  | [a0, a1, a2, a3], _ => revert a0 a1 a2 a3 b; decide +kernel
  | [a0, a1, a2, a3, a4], _ => revert a0 a1 a2 a3 a4 b; decide +kernel
  | [a0, a1, a2, a3, a4, a5], _ => revert a0 a1 a2 a3 a4 a5 b; decide +kernel
  | [a0, a1, a2, a3, a4, a5, a6], _ => revert a0 a1 a2 a3 a4 a5 a6 b; decide +kernel

theorem headByte_append (l r : List Bool) (h : 8 ≤ l.length) : headByte (l ++ r) = headByte l := by
  have e : ∀ i, i < 8 → (l ++ r).getD i false = l.getD i false := by
    intro i hi
    simp [List.getD_eq_getElem?_getD, List.getElem?_append_left (show i < l.length by omega)]
  simp only [headByte, e 0 (by omega), e 1 (by omega), e 2 (by omega), e 3 (by omega),
    e 4 (by omega), e 5 (by omega), e 6 (by omega), e 7 (by omega)]

theorem byteAt_append {bits more : List Bool} {j : Nat} (h : 8 * j + 8 ≤ bits.length) :
    byteAt (bits ++ more) j = byteAt bits j := by
  unfold byteAt
  rw [List.drop_append_of_le_length (by omega)]
  exact headByte_append _ _ (by simp; omega)

theorem byteAt_end {bits : List Bool} {j : Nat} (h : bits.length ≤ 8 * j) : byteAt bits j = 0#8 := by
  unfold byteAt
  rw [List.drop_of_length_le h]
  rfl

theorem placeBit_byteAt {bits : List Bool} {j : Nat} (b : Bool) (h1 : 8 * j ≤ bits.length)
    (h2 : bits.length < 8 * j + 8) :
    placeBit (byteAt bits j) (bits.length - 8 * j) b = byteAt (bits ++ [b]) j := by
  unfold byteAt
  rw [List.drop_append_of_le_length h1, ← placeBit_headByte _ _ (by simp; omega), List.length_drop]

/-- The bits of a packed string start with the string. -/
theorem byteBits_headByte (l : List Bool) (h : 8 ≤ l.length) : byteBits (headByte l) = l.take 8 := by
  match l, h with
  | a0 :: a1 :: a2 :: a3 :: a4 :: a5 :: a6 :: a7 :: rest, _ =>
    simp [headByte, byteBits_byteOfBits]

/-! ### Sinks -/

theorem sinkBuffer_ne (k : Sink) : sinkBuffer k ≠ .ib ∧ sinkBuffer k ≠ .ob := by cases k <;> decide

theorem buffer_setBuffer (s : State) (n k : BufName) (m : Buf) :
    buffer (setBuffer s n m) k = if k = n then m else buffer s k := by
  cases n <;> cases k <;> rfl

/-! ### One bit string in the writer -/

/-- `t` is `s` after BW.INIT(k) and a BW.PUT for each bit: the whole bytes are in the sink, the rest in ACC. -/
structure Written (s t : State) (k : Sink) (bits : List Bool) : Prop where
  bw : t.bw = { sink := k, acc := byteAt bits (bits.length / 8), nb := bits.length % 8,
                wp := bits.length / 8, total := bits.length }
  bytes : ∀ j < bits.length / 8, bufRead (buffer t (sinkBuffer k)) j = some (byteAt bits j)
  outside : ∀ n a, ¬(n = sinkBuffer k ∧ a < bits.length / 8) →
    bufRead (buffer t n) a = bufRead (buffer s n) a
  others : ∀ n, n ≠ sinkBuffer k → buffer t n = buffer s n
  rest : t = { s with pb := t.pb, td := t.td, bw := t.bw }

theorem Written.cfg {s t : State} {k : Sink} {bits : List Bool} (h : Written s t k bits) :
    t.cfg = s.cfg := by rw [h.rest]

theorem written_init (s : State) (k : Sink) : Written s (writerInit k s) k [] := by
  refine ⟨?_, by simp, fun n a _ => ?_, fun n _ => ?_, rfl⟩
  · simp [writerInit, BitWriter.zero]; rfl
  · cases n <;> rfl
  · cases n <;> rfl

/-- Sending ACC writes it at WP of the sink, or raises CapacityError where the sink is full. -/
theorem writerSend_eq (s : State) :
    writerSend s =
      if s.bw.wp < capacity s.cfg (sinkBuffer s.bw.sink) then
        .ok { setBuffer s (sinkBuffer s.bw.sink)
              (bufWrite (buffer s (sinkBuffer s.bw.sink)) s.bw.wp s.bw.acc) with
          bw := { s.bw with wp := s.bw.wp + 1, acc := 0#8, nb := 0 } }
      else .error (.raise .cap 0) := by
  unfold writerSend
  rw [memWrite_eq]
  simp only [List.length_singleton, bufWriteList, Nat.lt_iff_add_one_le]
  split
  · simp only [ok_bind]
    cases hk : s.bw.sink <;> simp [setBuffer, sinkBuffer, hk]
  · rfl

theorem written_put {s t : State} {k : Sink} {bits : List Bool} (h : Written s t k bits) (b : Bool) :
    ((bits.length + 1) / 8 ≤ capacity s.cfg (sinkBuffer k) →
      ∃ u, writerPut b t = .ok u ∧ Written s u k (bits ++ [b])) ∧
    (capacity s.cfg (sinkBuffer k) < (bits.length + 1) / 8 →
      bits.length / 8 ≤ capacity s.cfg (sinkBuffer k) →
      writerPut b t = .error (.raise .cap 0)) := by
  have hp := placeBit_byteAt (bits := bits) (j := bits.length / 8) b (by omega) (by omega)
  rw [show bits.length - 8 * (bits.length / 8) = bits.length % 8 by omega] at hp
  have hbw := h.bw
  by_cases h8 : bits.length % 8 = 7
  · have hw : (bits.length + 1) / 8 = bits.length / 8 + 1 := by omega
    have e : writerPut b t = writerSend { t with bw := { t.bw with
        acc := placeBit t.bw.acc t.bw.nb b, nb := t.bw.nb + 1, total := t.bw.total + 1 } } := by
      simp only [writerPut, hbw, h8, if_true]
    rw [e, writerSend_eq, h.cfg]
    simp only [hbw, hp]
    rw [hw]
    refine ⟨fun hc => ?_, fun hc _ => if_neg (by omega)⟩
    rw [if_pos (by omega)]
    refine ⟨_, rfl, ?_, ?_, ?_, ?_, ?_⟩
    · have h0 : (bits.length + 1) % 8 = 0 := by omega
      rw [List.length_append, List.length_singleton, hw, h0,
        byteAt_end (bits := bits ++ [b]) (j := bits.length / 8 + 1) (by simp; omega)]
    · intro j hj
      rw [List.length_append, List.length_singleton, hw] at hj
      have : bufRead (bufWrite (buffer t (sinkBuffer k)) (bits.length / 8)
          (byteAt (bits ++ [b]) (bits.length / 8))) j = some (byteAt (bits ++ [b]) j) := by
        rw [bufRead_bufWrite]
        split
        · subst_vars; rfl
        · rw [h.bytes j (by omega), byteAt_append (by omega)]
      cases k <;> exact this
    · intro n a hna
      rw [List.length_append, List.length_singleton, hw] at hna
      have hn : n ≠ sinkBuffer k → bufRead (buffer t n) a = bufRead (buffer s n) a :=
        fun hn => h.outside n a (fun hh => hn hh.1)
      have hk : n = sinkBuffer k → bufRead (bufWrite (buffer t n) (bits.length / 8)
          (byteAt (bits ++ [b]) (bits.length / 8))) a = bufRead (buffer s n) a := by
        intro hk
        have : ¬ a < bits.length / 8 + 1 := fun ha => hna ⟨hk, ha⟩
        rw [bufRead_bufWrite_ne _ _ (by omega), h.outside n a (by omega)]
      cases k <;> cases n <;> first
        | exact hk rfl
        | exact hn (by decide)
    · intro n hn
      have := h.others n hn
      cases k <;> cases n <;> first
        | exact absurd rfl hn
        | exact this
    · cases k <;> (simp only [setBuffer, sinkBuffer]; rw [h.rest])
  · have hw : (bits.length + 1) / 8 = bits.length / 8 := by omega
    have hm : (bits.length + 1) % 8 = bits.length % 8 + 1 := by omega
    rw [hw]
    refine ⟨fun _ => ?_, fun h1 h2 => by omega⟩
    have e : writerPut b t = .ok { t with bw := { t.bw with
        acc := placeBit t.bw.acc t.bw.nb b, nb := t.bw.nb + 1, total := t.bw.total + 1 } } := by
      simp only [writerPut, hbw]
      rw [if_neg (by omega)]
    refine ⟨_, e, ?_, ?_, ?_, ?_, ?_⟩
    · simp only [hbw, hp, List.length_append, List.length_singleton, hw, hm]
    · intro j hj
      rw [List.length_append, List.length_singleton, hw] at hj
      rw [byteAt_append (by omega)]
      have := h.bytes j hj
      cases k <;> exact this
    · intro n a hna
      rw [List.length_append, List.length_singleton, hw] at hna
      have := h.outside n a hna
      cases n <;> exact this
    · intro n hn
      have := h.others n hn
      cases n <;> exact this
    · simp only
      rw [h.rest]

/-- A bit string put after another one (43_bit_writer R147). -/
theorem written_putBits {s : State} {k : Sink} (more : List Bool) : ∀ {t : State} {bits : List Bool},
    Written s t k bits → bits.length / 8 ≤ capacity s.cfg (sinkBuffer k) →
    ((bits.length + more.length) / 8 ≤ capacity s.cfg (sinkBuffer k) →
      ∃ u, putBits more t = .ok u ∧ Written s u k (bits ++ more)) ∧
    (capacity s.cfg (sinkBuffer k) < (bits.length + more.length) / 8 →
      putBits more t = .error (.raise .cap 0)) := by
  induction more with
  | nil =>
    intro t bits h hc
    exact ⟨fun _ => ⟨t, rfl, by simpa using h⟩, fun hh => by simp at hh; omega⟩
  | cons b more ih =>
    intro t bits h hc
    have hl : bits.length + (b :: more).length = (bits ++ [b]).length + more.length := by
      simp; omega
    have hl1 : (bits ++ [b]).length = bits.length + 1 := by simp
    by_cases hb : (bits.length + 1) / 8 ≤ capacity s.cfg (sinkBuffer k)
    · obtain ⟨u, hu, wu⟩ := (written_put h b).1 hb
      have := ih wu (by rw [hl1]; exact hb)
      simp only [putBits, hu, ok_bind]
      rw [hl]
      simpa using this
    · have hu := (written_put h b).2 (by omega) hc
      refine ⟨fun hh => ?_, fun _ => by simp only [putBits, hu, error_bind]⟩
      have : (bits.length + 1) / 8 ≤ (bits.length + (b :: more).length) / 8 :=
        Nat.div_le_div_right (by simp)
      omega

/-- BW.FLUSH ends a packed bit string (43_bit_writer R148, R149), or raises CapacityError. -/
theorem written_flush {s t : State} {k : Sink} {bits : List Bool} (h : Written s t k bits) :
    (ceil8 bits.length ≤ capacity s.cfg (sinkBuffer k) → ∃ u, writerFlush t = .ok u ∧
      u.bw = { sink := k, acc := 0#8, nb := 0, wp := ceil8 bits.length, total := bits.length } ∧
      bufHolds (buffer u (sinkBuffer k)) 0 (packBits bits) = true ∧
      (∀ n a, ¬(n = sinkBuffer k ∧ a < ceil8 bits.length) →
        bufRead (buffer u n) a = bufRead (buffer s n) a) ∧
      (∀ n, n ≠ sinkBuffer k → buffer u n = buffer s n) ∧
      u = { s with pb := u.pb, td := u.td, bw := u.bw }) ∧
    (capacity s.cfg (sinkBuffer k) < ceil8 bits.length →
      bits.length / 8 ≤ capacity s.cfg (sinkBuffer k) →
      writerFlush t = .error (.raise .cap 0)) := by
  have hbw := h.bw
  have holds : ∀ {m : Buf}, (∀ j < ceil8 bits.length, bufRead m j = some (byteAt bits j)) →
      bufHolds m 0 (packBits bits) = true := by
    intro m hm
    rw [bufHolds_iff]
    intro j hj
    rw [packBits_length] at hj
    simp [packBits_eq, hm j hj]
  by_cases h0 : bits.length % 8 = 0
  · have hc : ceil8 bits.length = bits.length / 8 := by unfold ceil8; omega
    have e : writerFlush t = .ok t := by
      simp [writerFlush, hbw, h0]
    rw [hc] at holds ⊢
    refine ⟨fun _ => ⟨t, e, ?_, holds h.bytes, h.outside, h.others, h.rest⟩, fun h1 h2 => by omega⟩
    rw [hbw, byteAt_end (by omega), h0]
  · have hc : ceil8 bits.length = bits.length / 8 + 1 := by unfold ceil8; omega
    have e : writerFlush t = writerSend t := by
      simp only [writerFlush, hbw]; rw [if_pos (by omega)]
    rw [e, writerSend_eq, h.cfg]
    rw [hc] at holds ⊢
    simp only [hbw]
    refine ⟨fun hh => ?_, fun h1 h2 => if_neg (by omega)⟩
    rw [if_pos (by omega)]
    refine ⟨_, rfl, rfl, ?_, ?_, ?_, ?_⟩
    · have : bufHolds (bufWrite (buffer t (sinkBuffer k)) (bits.length / 8)
          (byteAt bits (bits.length / 8))) 0 (packBits bits) = true := by
        refine holds fun j hj => ?_
        rw [bufRead_bufWrite]
        split
        · subst_vars; rfl
        · exact h.bytes j (by omega)
      cases k <;> exact this
    · intro n a hna
      have hn : n ≠ sinkBuffer k → bufRead (buffer t n) a = bufRead (buffer s n) a :=
        fun hn => h.outside n a (fun hh => hn hh.1)
      have hk : n = sinkBuffer k → bufRead (bufWrite (buffer t n) (bits.length / 8)
          (byteAt bits (bits.length / 8))) a = bufRead (buffer s n) a := by
        intro hk
        have : ¬ a < bits.length / 8 + 1 := fun ha => hna ⟨hk, ha⟩
        rw [bufRead_bufWrite_ne _ _ (by omega), h.outside n a (by omega)]
      cases k <;> cases n <;> first
        | exact hk rfl
        | exact hn (by decide)
    · intro n hn
      have := h.others n hn
      cases k <;> cases n <;> first
        | exact absurd rfl hn
        | exact this
    · cases k <;> (simp only [setBuffer, sinkBuffer]; rw [h.rest])

/-! ### Sequences of puts -/

theorem putBits_append (x y : List Bool) (s : State) :
    putBits (x ++ y) s = (putBits x s >>= putBits y) := by
  induction x generalizing s with
  | nil => rfl
  | cons b x ih =>
    simp only [List.cons_append, putBits]
    cases writerPut b s with
    | error e => rfl
    | ok u => simp only [ok_bind, ih]

/-- BW.INIT, the puts and BW.FLUSH as one (43_bit_writer R149). -/
theorem pack_eq (s : State) (k : Sink) (bits : List Bool) :
    (ceil8 bits.length ≤ capacity s.cfg (sinkBuffer k) →
      ∃ v u, putBits bits (writerInit k s) = .ok v ∧ writerFlush v = .ok u ∧
      u.bw = { sink := k, acc := 0#8, nb := 0, wp := ceil8 bits.length, total := bits.length } ∧
      bufHolds (buffer u (sinkBuffer k)) 0 (packBits bits) = true ∧
      (∀ n a, ¬(n = sinkBuffer k ∧ a < ceil8 bits.length) →
        bufRead (buffer u n) a = bufRead (buffer s n) a) ∧
      (∀ n, n ≠ sinkBuffer k → buffer u n = buffer s n) ∧
      u = { s with pb := u.pb, td := u.td, bw := u.bw }) ∧
    (capacity s.cfg (sinkBuffer k) < ceil8 bits.length →
      (putBits bits (writerInit k s) >>= writerFlush) = .error (.raise .cap 0)) := by
  obtain ⟨p1, p2⟩ := written_putBits bits (written_init s k) (by simp)
  simp only [List.length_nil, Nat.zero_add, List.nil_append] at p1 p2
  constructor
  · intro hc
    obtain ⟨v, hv, wv⟩ := p1 (by unfold ceil8 at hc; omega)
    obtain ⟨u, hu, h⟩ := (written_flush wv).1 hc
    exact ⟨v, u, hv, hu, h⟩
  · intro hc
    by_cases h8 : bits.length / 8 ≤ capacity s.cfg (sinkBuffer k)
    · obtain ⟨v, hv, wv⟩ := p1 h8
      rw [hv, ok_bind]
      exact (written_flush wv).2 hc h8
    · rw [p2 (by omega), error_bind]

/-- The code bits of the input, put one after the other (43_bit_writer R150). -/
theorem packLoop_eq (bs : List Byte) : ∀ {i : Nat} {s t : State}, t.ib = s.ib → t.ct = s.ct →
    bufHolds s.ib i bs = true → packLoop bs.length i t = putBits (bs.flatMap (readCT s)) t := by
  induction bs with
  | nil => intros; rfl
  | cons b bs ih =>
    intro i s t hi hc h
    simp only [bufHolds, Bool.and_eq_true, decide_eq_true_eq] at h
    have h1 : memReadByte t .ib i = .ok b := memReadByte_ok.2 (by simpa [buffer, hi] using h.1)
    have h2 : readCT t b = readCT s b := by unfold readCT; rw [hc]
    simp only [List.length_cons, packLoop, h1, ok_bind, h2, List.flatMap_cons, putBits_append]
    cases hp : putBits (readCT s b) t with
    | error e => rfl
    | ok u =>
      have k := putBits_keeps hp
      have kc : u.ct = t.ct := by
        have : ∀ {l : List Bool} {a c : State}, putBits l a = .ok c → c.ct = a.ct := by
          intro l
          induction l with
          | nil => intro a c h; cases h; rfl
          | cons b l ih =>
            intro a c h
            obtain ⟨v, h1, h2⟩ := bind_eq_ok.1 h
            rw [ih h2]
            simp only [writerPut] at h1
            split at h1
            · rw [writerSend_eq] at h1
              split at h1
              · cases h1; cases a.bw.sink <;> rfl
              · cases h1
            · cases h1; rfl
        exact this hp
      simp only [ok_bind]
      exact ih (k.ib.trans hi) (kc.trans hc) h.2

end Sys2Proof.Machine
end

