-- ==== Sys2Proof/Laws/Tables.lean ====
section
/-! SUPPORT. The table entries: reading after writing, in FT, CT and NODE (10_state R21, R22, R23). -/

namespace Sys2Proof.Machine

/-! ### Vectors -/

theorem getD_eq {α : Type} {n : Nat} (v : Vector α n) (i : Nat) (d : α) :
    v.getD i d = if h : i < n then v[i] else d := by
  obtain ⟨a, rfl⟩ := v
  simp [Vector.getD, Array.getD]

theorem getD_setIfInBounds {α : Type} {n : Nat} (v : Vector α n) (i j : Nat) (x d : α) (hi : i < n) :
    (v.setIfInBounds i x).getD j d = if j = i then x else v.getD j d := by
  simp only [getD_eq]
  by_cases hj : j < n
  · simp only [hj, dif_pos, Vector.getElem_setIfInBounds]
    by_cases h : i = j
    · simp [h]
    · simp [h, Ne.symm h]
  · have h : j ≠ i := by omega
    simp [hj, h]

theorem vector_ext_getD {α : Type} {n : Nat} {v w : Vector α n} (d : α)
    (h : ∀ i, i < n → v.getD i d = w.getD i d) : v = w := by
  ext i hi
  have := h i hi
  simpa [getD_eq, hi] using this

/-! ### FT and CT -/

@[simp] theorem readFT_writeFT (s : State) (a b : Byte) (n : Nat) :
    readFT (writeFT s a n) b = if b = a then n else readFT s b := by
  unfold readFT writeFT
  rw [getD_setIfInBounds _ _ _ _ _ a.isLt]
  by_cases h : b = a
  · simp [h]
  · have : b.toNat ≠ a.toNat := fun e => h (BitVec.eq_of_toNat_eq e)
    simp [h, this]

@[simp] theorem readCT_writeCT (s : State) (a b : Byte) (p : List Bool) :
    readCT (writeCT s a p) b = if b = a then p else readCT s b := by
  unfold readCT writeCT
  rw [getD_setIfInBounds _ _ _ _ _ a.isLt]
  by_cases h : b = a
  · simp [h]
  · have : b.toNat ≠ a.toNat := fun e => h (BitVec.eq_of_toNat_eq e)
    simp [h, this]

theorem ft_ext {s t : State} (h : ∀ sym, readFT s sym = readFT t sym) : s.ft = t.ft := by
  refine vector_ext_getD 0 fun i hi => ?_
  simpa [readFT, Nat.mod_eq_of_lt hi] using h (BitVec.ofNat 8 i)

theorem ct_ext {s t : State} (h : ∀ sym, readCT s sym = readCT t sym) : s.ct = t.ct := by
  refine vector_ext_getD [] fun i hi => ?_
  simpa [readCT, Nat.mod_eq_of_lt hi] using h (BitVec.ofNat 8 i)

/-- A table of zeros reads 0. -/
theorem readFT_zero {s : State} (h : s.ft = Vector.replicate 256 0) (sym : Byte) : readFT s sym = 0 := by
  have := sym.isLt
  simp [readFT, h, getD_eq]

theorem readCT_empty {s : State} (h : s.ct = Vector.replicate 256 []) (sym : Byte) :
    readCT s sym = [] := by
  have := sym.isLt
  simp [readCT, h, getD_eq]

/-- FT as the list of its entries in symbol order. -/
theorem ft_toList (s : State) : s.ft.toList = (List.range 256).map fun v => readFT s (BitVec.ofNat 8 v) := by
  apply List.ext_getElem
  · simp
  · intro i h1 h2
    simp at h1
    have : i % 256 = i := Nat.mod_eq_of_lt h1
    simp [readFT, this, getD_eq, h1]

/-! ### NODE -/

/-- A NODE write succeeds below 511, and then the entry reads as written and the others as before. -/
theorem writeNode_eq {s : State} {i : Nat} (x : Node) (hi : i < 511) :
    writeNode s i x = .ok { s with node := s.node.setIfInBounds i x } := by
  simp [writeNode, hi]

theorem nodeAt_set (s : State) (i k : Nat) (x : Node) (hi : i < 511) :
    nodeAt { s with node := s.node.setIfInBounds i x } k = if k = i then x else nodeAt s k :=
  getD_setIfInBounds s.node i k x _ hi

theorem nodeAt_congr {s t : State} (h : t.node = s.node) (k : Nat) : nodeAt t k = nodeAt s k := by
  unfold nodeAt; rw [h]

theorem node_ext {s t : State} (h : ∀ i, i < 511 → nodeAt s i = nodeAt t i) : s.node = t.node :=
  vector_ext_getD Node.zero h

theorem nodeAt_zero {s : State} (h : s.node = Vector.replicate 511 Node.zero) (k : Nat) :
    nodeAt s k = Node.zero := by
  simp [nodeAt, h, getD_eq]

theorem nodeAt_outside (s : State) {k : Nat} (h : 511 ≤ k) : nodeAt s k = Node.zero := by
  simp [nodeAt, getD_eq, h]

theorem readNode_eq {s : State} {i : Nat} (hi : i < 511) : readNode s i = .ok (nodeAt s i) := by
  simp [readNode, hi]

/-! ### Trees in the arena -/

theorem holdsTree_congr {s t : State} {i : Nat} {tr : Tree} (h : ∀ k, nodeAt t k = nodeAt s k) :
    holdsTree t i tr = holdsTree s i tr := by
  induction tr generalizing i with
  | leaf sym => simp only [holdsTree, h]
  | node l r ihl ihr => simp only [holdsTree, h, ihl, ihr]

theorem holdsTree_node_congr {s t : State} (h : t.node = s.node) (i : Nat) (tr : Tree) :
    holdsTree t i tr = holdsTree s i tr := holdsTree_congr (nodeAt_congr h)

theorem holdsRoot_congr {s t : State} (hn : t.node = s.node) (hk : t.nnode = s.nnode)
    (hr : t.root = s.root) (tr : Option Tree) : holdsRoot t tr = holdsRoot s tr := by
  cases tr <;> simp only [holdsRoot, hk, hr, holdsTree_node_congr hn]

/-- What a root index says of the tree it holds. -/
theorem holdsTree_lt {s : State} {i : Nat} {tr : Tree} (h : holdsTree s i tr = true) : i < 511 := by
  cases tr <;> simp [holdsTree] at h
  · exact h.1.1
  · exact h.1.1.1

theorem holdsTree_leaf {s : State} {i : Nat} {sym : Byte} :
    holdsTree s i (.leaf sym) = true ↔ i < 511 ∧ (nodeAt s i).kind = .leaf ∧ (nodeAt s i).sym = sym := by
  simp [holdsTree, and_assoc]

theorem holdsTree_node {s : State} {i : Nat} {l r : Tree} :
    holdsTree s i (.node l r) = true ↔ i < 511 ∧ (nodeAt s i).kind = .internal ∧
      holdsTree s (nodeAt s i).left l = true ∧ holdsTree s (nodeAt s i).right r = true := by
  simp [holdsTree, and_assoc]

/-- An index holds at most one tree. -/
theorem holdsTree_unique {s : State} {i : Nat} {x y : Tree} (hx : holdsTree s i x = true)
    (hy : holdsTree s i y = true) : x = y := by
  induction x generalizing i y with
  | leaf sym =>
    have := holdsTree_leaf.1 hx
    cases y with
    | leaf sym' => have h' := holdsTree_leaf.1 hy; rw [← this.2.2, ← h'.2.2]
    | node l r => have h' := holdsTree_node.1 hy; rw [this.2.1] at h'; simp at h'
  | node l r ihl ihr =>
    have := holdsTree_node.1 hx
    cases y with
    | leaf sym' => have h' := holdsTree_leaf.1 hy; rw [this.2.1] at h'; simp at h'
    | node l' r' =>
      have h' := holdsTree_node.1 hy
      rw [ihl this.2.2.1 h'.2.2.1, ihr this.2.2.2 h'.2.2.2]

theorem treeSize_pos (tr : Tree) : 0 < treeSize tr := by cases tr <;> simp only [treeSize] <;> omega

theorem treeLeaves_ne_nil (tr : Tree) : treeLeaves tr ≠ [] := by
  induction tr with
  | leaf s => simp [treeLeaves]
  | node l r hl hr => simp [treeLeaves, hl]

/-- A tree has one internal node fewer than leaves (10_state R22, 30_encoding R93). -/
theorem treeSize_leaves (tr : Tree) : treeSize tr + 1 = 2 * (treeLeaves tr).length := by
  induction tr with
  | leaf s => rfl
  | node l r hl hr => simp [treeSize, treeLeaves]; omega

/-- The size of a tree's description (30_encoding R93). -/
theorem treeBits_length (tr : Tree) : (treeBits tr).length + 1 = 10 * (treeLeaves tr).length := by
  induction tr with
  | leaf s => rfl
  | node l r hl hr => simp [treeBits, treeLeaves]; omega

theorem treeDepth_lt (tr : Tree) : treeDepth tr < (treeLeaves tr).length := by
  induction tr with
  | leaf s => simp [treeDepth, treeLeaves]
  | node l r hl hr => simp [treeDepth, treeLeaves]; omega

end Sys2Proof.Machine
end

