-- ==== Sys2Proof/Laws/Counting.lean ====
section
/-! SUPPORT. What the counting loop of FCOUNT leaves in FT (40_frequency_counter R111, R112). -/

namespace Sys2Proof.Machine

/-! ### The symbol values -/

/-- The 256 symbol values in ascending order. -/
def symbols : List Byte := (List.range 256).map (BitVec.ofNat 8)

theorem symbols_nodup : symbols.Nodup := by
  refine List.Nodup.map_on (fun x hx y hy h => ?_) List.nodup_range
  have := congrArg BitVec.toNat h
  simp only [List.mem_range] at hx hy
  simpa [Nat.mod_eq_of_lt hx, Nat.mod_eq_of_lt hy] using this

theorem mem_symbols (b : Byte) : b ∈ symbols :=
  List.mem_map.2 ⟨b.toNat, List.mem_range.2 b.isLt, by simp⟩

theorem presentSymbols_eq (s : State) :
    presentSymbols s = symbols.filter (fun sym => decide (0 < readFT s sym)) := rfl

theorem ft_toList_symbols (s : State) : s.ft.toList = symbols.map (readFT s) := by
  rw [ft_toList, symbols, List.map_map]
  rfl

/-- The counts of a list over distinct values that cover it sum to its length. -/
theorem sum_count {α : Type} [DecidableEq α] {l : List α} (hn : l.Nodup) {bs : List α}
    (h : ∀ b ∈ bs, b ∈ l) : (l.map (fun a => bs.count a)).sum = bs.length := by
  induction bs with
  | nil => simp
  | cons b bs ih =>
    have h1 := ih fun b hb => h b (List.mem_cons_of_mem _ hb)
    have h2 : (l.map (fun a => if b = a then 1 else 0)).sum = 1 := by
      have : (l.map (fun a => if b = a then 1 else 0)).sum = l.count b := by
        clear hn h ih h1
        induction l with
        | nil => rfl
        | cons a l ih =>
          rw [List.map_cons, List.sum_cons, ih, List.count_cons]
          by_cases hab : b = a
          · simp [hab, Nat.add_comm]
          · simp [hab, Ne.symm hab]
      rw [this, List.count_eq_one_of_mem hn (h b List.mem_cons_self)]
    have h3 : ∀ a, (b :: bs).count a = bs.count a + if b = a then 1 else 0 := by
      intro a; rw [List.count_cons]; simp
    simp only [h3, List.length_cons]
    rw [List.sum_map_add, h1, h2]

/-! ### FCOUNT's loop -/

/-- Counting `bs` adds the number of its occurrences to each entry (40_frequency_counter R111). -/
theorem countLoop_eq (bs : List Byte) : ∀ {i : Nat} {s : State}, bufHolds s.ib i bs = true →
    ∃ t, countLoop bs.length i s = .ok t ∧ (∀ sym, readFT t sym = readFT s sym + bs.count sym) ∧
      t = { s with ft := t.ft } := by
  induction bs with
  | nil => intro i s _; exact ⟨s, rfl, by simp, rfl⟩
  | cons b bs ih =>
    intro i s h
    simp only [bufHolds, Bool.and_eq_true, decide_eq_true_eq] at h
    have h1 : memReadByte s .ib i = .ok b := memReadByte_ok.2 h.1
    obtain ⟨t, h2, h3, h4⟩ := ih (i := i + 1) (s := writeFT s b (readFT s b + 1)) h.2
    refine ⟨t, by simp only [List.length_cons, countLoop, h1, ok_bind, h2], fun sym => ?_, ?_⟩
    · rw [h3, readFT_writeFT, List.count_cons]
      by_cases hs : sym = b
      · simp [hs]; omega
      · simp [hs, Ne.symm hs]
    · rw [h4]; rfl

/-- The loop stops in the fault of the first byte that holds no value (10_state R48). -/
theorem countLoop_fault {n k i : Nat} : ∀ {s : State}, k < n →
    (∀ j < k, (bufRead s.ib (i + j)).isSome = true) → bufRead s.ib (i + k) = none →
    countLoop n i s = .error (.fault (.readUnwritten .ib (i + k))) := by
  induction k generalizing n i with
  | zero =>
    intro s hk _ h
    obtain ⟨n, rfl⟩ : ∃ m, n = m + 1 := ⟨n - 1, by omega⟩
    rcases memReadByte_cases s .ib i with ⟨b, hb, _⟩ | ⟨_, he⟩
    · have h : bufRead s.ib i = none := h
      have hb : bufRead s.ib i = some b := hb
      rw [h] at hb; cases hb
    · simp only [countLoop, he, error_bind, Nat.add_zero]
  | succ k ih =>
    intro s hk hj h
    obtain ⟨n, rfl⟩ : ∃ m, n = m + 1 := ⟨n - 1, by omega⟩
    have h0 := hj 0 (by omega)
    rcases memReadByte_cases s .ib i with ⟨b, hb, he⟩ | ⟨hn, _⟩
    · have := ih (n := n) (i := i + 1) (s := writeFT s b (readFT s b + 1)) (by omega)
        (fun j hjk => by
          have := hj (j + 1) (by omega)
          rwa [show i + (j + 1) = i + 1 + j by omega] at this)
        (by rwa [show i + (k + 1) = i + 1 + k by omega] at h)
      simp only [countLoop, he, ok_bind, this]
      rw [show i + 1 + k = i + (k + 1) by omega]
    · have hn : bufRead s.ib i = none := hn
      rw [Nat.add_zero, hn] at h0
      cases h0

/-- The entries of a table that counts a list sum to its length, and the nonzero ones are its
distinct symbols (40_frequency_counter R112). -/
theorem counts_sum {s : State} {bs : List Byte} (h : ∀ sym, readFT s sym = bs.count sym) :
    s.ft.toList.sum = bs.length := by
  have e : readFT s = fun a => bs.count a := funext h
  rw [ft_toList_symbols, e]
  exact sum_count symbols_nodup fun b _ => mem_symbols b

theorem presentSymbols_perm {s : State} {bs : List Byte} (h : ∀ sym, readFT s sym = bs.count sym) :
    (presentSymbols s).Perm bs.dedup := by
  rw [presentSymbols_eq]
  refine (List.perm_ext_iff_of_nodup (symbols_nodup.filter _) (List.nodup_dedup _)).2 fun b => ?_
  simp [mem_symbols, h, List.count_pos_iff]

theorem countPresent_eq (s : State) : countPresent s = (presentSymbols s).length := by
  rw [countPresent, ft_toList_symbols, List.countP_map, presentSymbols_eq, List.countP_eq_length_filter]
  rfl

theorem presentSymbols_length_le (s : State) : (presentSymbols s).length ≤ 256 := by
  rw [presentSymbols_eq]
  exact (List.length_filter_le _ _).trans (by simp [symbols])

/-- The body of FCOUNT on a written input (40_frequency_counter R111). -/
theorem fcountBody_eq {s : State} {bs : List Byte} (h : s.hasInput bs = true)
    (hz : ∀ sym, readFT s sym = 0) :
    ∃ t, fcountBody s = .ok t ∧ (∀ sym, readFT t sym = bs.count sym) ∧ t.nsym = bs.dedup.length ∧
      t = { s with ft := t.ft, nsym := t.nsym, stage := .freq } := by
  simp only [State.hasInput, Bool.and_eq_true, decide_eq_true_eq] at h
  obtain ⟨t, h1, h2, h3⟩ := countLoop_eq bs h.2
  have hc : ∀ sym, readFT t sym = bs.count sym := fun sym => by rw [h2, hz]; simp
  refine ⟨{ t with nsym := countPresent t, stage := .freq }, ?_, hc, ?_, ?_⟩
  · simp only [fcountBody, h.1, h1, ok_bind]
  · simp only
    rw [countPresent_eq, (presentSymbols_perm hc).length_eq]
  · simp only
    rw [h3]

end Sys2Proof.Machine
end

