-- ==== Sys2Proof/Laws/Deserializer.lean ====
section
/-! SUPPORT. What DES.NODE does (45_container R182): on a description whose tree fits the arena it
rebuilds the tree, whatever it rebuilds stands in the bits it has read, and which errors it raises. -/

namespace Sys2Proof.Machine

/-! ### Allocation -/

theorem nodeDue_ok {s : State} : nodeDue s = .ok () ↔ s.br.pos < s.br.limit ∧ s.nnode < 511 := by
  unfold nodeDue readerRem raiseFormat Config.nodeMax
  split
  · simp; omega
  · split
    · simp; omega
    · simp; omega

/-- The state after the next arena entry has been filled (45_container R182). -/
def allocated (x : Node) (s : State) : State :=
  { s with node := s.node.setIfInBounds s.nnode x, nnode := s.nnode + 1 }

theorem allocNode_eq {x : Node} {s : State} (h : s.nnode < 511) :
    allocNode x s = .ok (s.nnode, allocated x s) := by
  simp [allocNode, writeNode_eq x h, allocated]

theorem nodeAt_allocated {x : Node} {s : State} (h : s.nnode < 511) (k : Nat) :
    nodeAt (allocated x s) k = if k = s.nnode then x else nodeAt s k := by
  simpa [allocated, nodeAt] using getD_setIfInBounds s.node s.nnode k x Node.zero h

/-! ### A tree in pre-order -/

theorem placedAt_congr {s t : State} {i : Nat} {tr : Tree}
    (h : ∀ k, i ≤ k → k < i + treeSize tr → nodeAt t k = nodeAt s k) :
    placedAt t i tr ↔ placedAt s i tr := by
  induction tr generalizing i with
  | leaf sym => simp only [placedAt, h i (Nat.le_refl _) (by simp [treeSize])]
  | node l r ihl ihr =>
    simp only [treeSize] at h
    have e := h i (Nat.le_refl _) (by omega)
    have el := ihl (i := i + 1) fun k h1 h2 => h k (by omega) (by omega)
    have er := ihr (i := i + 1 + treeSize l) fun k h1 h2 => h k (by omega) (by omega)
    simp only [placedAt, e, el, er]

theorem placedAt_holds {s : State} {i : Nat} {tr : Tree} (h : placedAt s i tr)
    (hi : i + treeSize tr ≤ 511) : holdsTree s i tr = true := by
  induction tr generalizing i with
  | leaf sym =>
    simp only [treeSize] at hi
    exact holdsTree_leaf.2 ⟨by omega, by rw [h]; rfl, by rw [h]; rfl⟩
  | node l r ihl ihr =>
    simp only [treeSize] at hi
    obtain ⟨h0, h1, h2⟩ := h
    refine holdsTree_node.2 ⟨by omega, by rw [h0]; rfl, ?_, ?_⟩ <;> rw [h0]
    · exact ihl (i := i + 1) h1 (by omega)
    · exact ihr (i := i + 1 + treeSize l) h2 (by omega)

/-- Every record of a placed tree has weight 0 and children within it; an internal node's left child
is the next index. -/
theorem placedAt_record {s : State} {i : Nat} {tr : Tree} (h : placedAt s i tr) (k : Nat)
    (h1 : i ≤ k) (h2 : k < i + treeSize tr) :
    (nodeAt s k).weight = 0 ∧ (nodeAt s k).left < i + treeSize tr ∧
      (nodeAt s k).right < i + treeSize tr ∧
      ((nodeAt s k).kind = .internal → (nodeAt s k).left = k + 1) := by
  induction tr generalizing i with
  | leaf sym =>
    simp only [treeSize] at h2 ⊢
    have : k = i := by omega
    subst this
    rw [h]
    exact ⟨rfl, by simp [leafRecord], by simp [leafRecord], by simp [leafRecord]⟩
  | node l r ihl ihr =>
    simp only [treeSize] at h2 ⊢
    obtain ⟨h0, hl, hr⟩ := h
    have := treeSize_pos l
    have := treeSize_pos r
    by_cases hk : k = i
    · subst hk; rw [h0]; simp only [internalRecord]; exact ⟨trivial, by omega, by omega, by simp⟩
    · by_cases hk' : k < i + 1 + treeSize l
      · obtain ⟨a, b, c, d⟩ := ihl hl (by omega) hk'
        exact ⟨a, by omega, by omega, d⟩
      · obtain ⟨a, b, c, d⟩ := ihr hr (by omega) (by omega)
        exact ⟨a, by omega, by omega, d⟩

/-- `t` is `s` after the tree has been placed in its arena from NNODE on and its bits have been read. -/
structure Rebuilt (s t : State) (tr : Tree) : Prop where
  placed : placedAt t s.nnode tr
  outside : ∀ k, k < s.nnode ∨ s.nnode + treeSize tr ≤ k → nodeAt t k = nodeAt s k
  rest : t = { s with
    node := t.node
    nnode := s.nnode + treeSize tr
    nsym := s.nsym + (treeLeaves tr).length
    br := { s.br with pos := s.br.pos + (treeBits tr).length } }

theorem Rebuilt.nnode {s t : State} {tr : Tree} (h : Rebuilt s t tr) :
    t.nnode = s.nnode + treeSize tr := by rw [h.rest]

theorem Rebuilt.nsym {s t : State} {tr : Tree} (h : Rebuilt s t tr) :
    t.nsym = s.nsym + (treeLeaves tr).length := by rw [h.rest]

theorem Rebuilt.br {s t : State} {tr : Tree} (h : Rebuilt s t tr) :
    t.br = { s.br with pos := s.br.pos + (treeBits tr).length } := by rw [h.rest]

theorem Rebuilt.ib {s t : State} {tr : Tree} (h : Rebuilt s t tr) : t.ib = s.ib := by rw [h.rest]

theorem Rebuilt.tdLen {s t : State} {tr : Tree} (h : Rebuilt s t tr) : t.tdLen = s.tdLen := by
  rw [h.rest]

theorem Rebuilt.reads {s t : State} {tr : Tree} (h : Rebuilt s t tr) (k : Nat) (bits : List Bool) :
    readerHolds t k bits = readerHolds s k bits :=
  readerHolds_congr h.ib (by rw [h.br]) k bits

/-- What is rebuilt is determined by the tree. -/
theorem Rebuilt.unique {s t u : State} {tr : Tree} (h : Rebuilt s t tr) (k : Rebuilt s u tr) : t = u := by
  have same : ∀ {i : Nat} {tr : Tree} {a b : State}, placedAt a i tr → placedAt b i tr →
      ∀ j, i ≤ j → j < i + treeSize tr → nodeAt a j = nodeAt b j := by
    intro i tr
    induction tr generalizing i with
    | leaf sym =>
      intro a b ha hb j h1 h2
      simp only [treeSize] at h2
      have : j = i := by omega
      subst this
      rw [ha, hb]
    | node l r ihl ihr =>
      intro a b ha hb j h1 h2
      simp only [treeSize] at h2
      by_cases hj : j = i
      · subst hj; rw [ha.1, hb.1]
      · by_cases hj' : j < i + 1 + treeSize l
        · exact ihl ha.2.1 hb.2.1 j (by omega) hj'
        · exact ihr ha.2.2 hb.2.2 j (by omega) (by omega)
  have e : t.node = u.node := node_ext fun j _ => by
    by_cases hj : s.nnode ≤ j ∧ j < s.nnode + treeSize tr
    · exact same h.placed k.placed j hj.1 hj.2
    · rw [h.outside j (by omega), k.outside j (by omega)]
  rw [h.rest, k.rest, e]

/-! ### One node -/

theorem placeLeaf_eq {s : State} (sym : Byte) (h : s.nnode < 511) :
    placeLeaf sym s = .ok (s.nnode,
      { allocated (leafRecord sym 0) s with nsym := s.nsym + 1 }) := by
  unfold placeLeaf
  rw [show (⟨.leaf, sym, 0, 0, 0⟩ : Node) = leafRecord sym 0 from rfl, allocNode_eq h]
  rfl

/-- A leaf placed after its nine bits is a tree rebuilt. -/
theorem rebuilt_leaf {s : State} (sym : Byte) (h : s.nnode < 511) :
    Rebuilt s { allocated (leafRecord sym 0) (skipBits 9 s) with nsym := s.nsym + 1 }
      (.leaf sym) := by
  have e : ∀ k, nodeAt { allocated (leafRecord sym 0) (skipBits 9 s) with nsym := s.nsym + 1 } k =
      if k = s.nnode then leafRecord sym 0 else nodeAt s k :=
    fun k => nodeAt_allocated (s := skipBits 9 s) h k
  refine ⟨?_, fun k hk => ?_, rfl⟩
  · simp [placedAt, e]
  · simp only [treeSize] at hk
    rw [e, if_neg (by omega)]

/-- An internal node linked to its subtrees (45_container R182). -/
def linked (i l r : Nat) (s : State) : State :=
  { s with node := s.node.setIfInBounds i { nodeAt s i with left := l, right := r } }

/-- The right child follows the left: two rebuilt subtrees and the link make a rebuilt tree. -/
theorem rebuilt_node {s a b : State} {l r : Tree} (hn : s.nnode + treeSize (.node l r) ≤ 511)
    (hl : Rebuilt (allocated Node.zero (skipBits 1 s)) a l) (hr : Rebuilt a b r) :
    Rebuilt s (linked s.nnode (s.nnode + 1) a.nnode b) (.node l r) := by
  simp only [treeSize] at hn
  have pl := treeSize_pos l
  have pr := treeSize_pos r
  have an : a.nnode = s.nnode + 1 + treeSize l := hl.nnode
  have hz : nodeAt b s.nnode = Node.zero := by
    rw [hr.outside _ (by omega), hl.outside _ (.inl (by simp [allocated])),
      nodeAt_allocated (s := skipBits 1 s) (by simp [skipBits]; omega)]
    simp
  have e : ∀ k, nodeAt (linked s.nnode (s.nnode + 1) a.nnode b) k =
      if k = s.nnode then internalRecord (s.nnode + 1) (s.nnode + 1 + treeSize l) 0
      else nodeAt b k := by
    intro k
    rw [linked, hz, an]
    exact getD_setIfInBounds b.node s.nnode k _ _ (by omega)
  refine ⟨⟨?_, ?_, ?_⟩, fun k hk => ?_, ?_⟩
  · rw [e]; simp
  · refine (placedAt_congr fun k h1 h2 => ?_).2 hl.placed
    have h1 : s.nnode + 1 ≤ k := h1
    have h2 : k < s.nnode + 1 + treeSize l := h2
    rw [e, if_neg (by omega), hr.outside _ (by omega)]
  · refine (placedAt_congr fun k h1 h2 => ?_).2 (an ▸ hr.placed)
    rw [e, if_neg (by omega)]
  · simp only [treeSize] at hk
    have hk' : k < s.nnode + 1 ∨ s.nnode + 1 + treeSize l ≤ k := by omega
    rw [e, if_neg (by omega), hr.outside _ (by omega), hl.outside _ hk',
      nodeAt_allocated (s := skipBits 1 s) (by simp [skipBits]; omega),
      if_neg (by simp [skipBits]; omega)]
    rfl
  · rw [linked, hr.rest, hl.rest]
    simp [allocated, skipBits, treeSize, treeLeaves, treeBits, Nat.add_assoc]
    omega

/-! ### DES.NODE -/

/-- DES.NODE on the unread bits of a tree that fits the arena rebuilds it (45_container R182). -/
theorem deserNode_tree (tr : Tree) : ∀ {fuel : Nat} {s : State}, 511 ≤ fuel + s.nnode →
    s.nnode + treeSize tr ≤ 511 → readerHolds s s.br.pos (treeBits tr) = true →
    s.br.pos + (treeBits tr).length ≤ s.br.limit →
    ∃ t, deserNode fuel s = .ok (s.nnode, t) ∧ Rebuilt s t tr := by
  induction tr with
  | leaf sym =>
    intro fuel s hf hn hh hl
    simp only [treeSize, treeBits, List.length_cons, byteBits_length] at hn hh hl
    obtain ⟨fuel, rfl⟩ : ∃ f, fuel = f + 1 := ⟨fuel - 1, by omega⟩
    refine ⟨_, ?_, rebuilt_leaf sym (by omega)⟩
    have hd : nodeDue s = .ok () := nodeDue_ok.2 ⟨by omega, by omega⟩
    have h1 := readerGet_holds hh (by omega)
    have h2 : readerHolds (skipBits 1 s) (skipBits 1 s).br.pos (byteBits sym) = true := by
      simp only [readerHolds, Bool.and_eq_true] at hh
      rw [readerHolds_skipBits]
      exact hh.2
    have h3 := readerGetBits_holds (v := 0) h2 (by simp [skipBits]; omega)
    rw [byteBits_length] at h3
    have h4 : ¬ readerRem (skipBits 1 s) < 8 := by simp [readerRem, skipBits]; omega
    have h5 := placeLeaf_eq (s := skipBits 9 s) sym (by simp [skipBits]; omega)
    simp only [deserNode, hd, ok_bind, h1, if_true, h4, if_false, h3, bitsValue_byteBits,
      skipBits_skipBits, h5]
    rfl
  | node l r ihl ihr =>
    intro fuel s hf hn hh hl
    have hn' := hn
    simp only [treeSize, treeBits, List.length_cons, List.length_append] at hn' hh hl
    have pl := treeSize_pos l
    have pr := treeSize_pos r
    obtain ⟨fuel, rfl⟩ : ∃ f, fuel = f + 1 := ⟨fuel - 1, by omega⟩
    have hd : nodeDue s = .ok () := nodeDue_ok.2 ⟨by omega, by omega⟩
    have h1 := readerGet_holds hh (by omega)
    have h2 : readerHolds s (s.br.pos + 1) (treeBits l ++ treeBits r) = true := by
      simp only [readerHolds, Bool.and_eq_true] at hh
      exact hh.2
    rw [readerHolds_append] at h2
    obtain ⟨a, ha, ra⟩ := ihl (fuel := fuel) (s := allocated Node.zero (skipBits 1 s))
      (by simp [allocated, skipBits]; omega) (by simp [allocated, skipBits]; omega)
      (by rw [readerHolds_congr (s := s) (t := allocated Node.zero (skipBits 1 s)) rfl rfl]
          exact h2.1)
      (by simp [allocated, skipBits]; omega)
    have an : a.nnode = s.nnode + 1 + treeSize l := ra.nnode
    have ap : a.br.pos = s.br.pos + 1 + (treeBits l).length := by rw [ra.br]; rfl
    have al : a.br.limit = s.br.limit := by rw [ra.br]; rfl
    obtain ⟨b, hb, rb⟩ := ihr (fuel := fuel) (s := a) (by omega) (by omega)
      (by rw [ra.reads, readerHolds_congr (s := s) (t := allocated Node.zero (skipBits 1 s)) rfl rfl,
            ap]
          exact h2.2) (by omega)
    refine ⟨_, ?_, rebuilt_node hn ra rb⟩
    have h3 := allocNode_eq (x := Node.zero) (s := skipBits 1 s) (by simp [skipBits]; omega)
    have h4 : readNode b s.nnode = .ok (nodeAt b s.nnode) := readNode_eq (by omega)
    have h5 := writeNode_eq (s := b) (i := s.nnode)
      { nodeAt b s.nnode with left := s.nnode + 1, right := a.nnode } (by omega)
    simp only [skipBits_nnode] at h3
    have ha' : deserNode fuel (allocated Node.zero (skipBits 1 s)) = .ok (s.nnode + 1, a) := ha
    simp only [deserNode, hd, ok_bind, h1, Bool.false_eq_true, if_false, placeInternal, h3, ha', hb,
      h4, h5]
    rfl

/-- Whatever DES.NODE rebuilds is a tree that stands in the bits it has read (45_container R182). -/
theorem deserNode_ok {fuel i : Nat} {s t : State} (h : deserNode fuel s = .ok (i, t)) :
    i = s.nnode ∧ ∃ tr, s.nnode + treeSize tr ≤ 511 ∧ readerHolds s s.br.pos (treeBits tr) = true ∧
      s.br.pos + (treeBits tr).length ≤ s.br.limit ∧ Rebuilt s t tr := by
  induction fuel generalizing i s t with
  | zero =>
    obtain ⟨_, _, h⟩ := bind_eq_ok.1 h
    simp [raiseFormat] at h
  | succ fuel ih =>
    obtain ⟨_, hd, h⟩ := bind_eq_ok.1 h
    obtain ⟨⟨f, s1⟩, h1, h⟩ := bind_eq_ok.1 h
    obtain ⟨hlt, hn⟩ := nodeDue_ok.1 hd
    obtain ⟨-, hf, rfl⟩ := readerGet_ok h1
    cases f
    · simp only [Bool.false_eq_true, if_false] at h
      obtain ⟨⟨j, s2⟩, h2, h⟩ := bind_eq_ok.1 h
      rw [allocNode_eq (s := skipBits 1 s) hn] at h2
      cases h2
      obtain ⟨⟨l', a⟩, h3, h⟩ := bind_eq_ok.1 h
      obtain ⟨⟨r', b⟩, h4, h⟩ := bind_eq_ok.1 h
      obtain ⟨x, h5, h⟩ := bind_eq_ok.1 h
      obtain ⟨c, h6, h⟩ := bind_eq_ok.1 h
      cases h
      obtain ⟨rfl, l, nl, hl, ll, rl⟩ := ih h3
      obtain ⟨rfl, r, nr, hr, lr, rr⟩ := ih h4
      have an : a.nnode = s.nnode + 1 + treeSize l := rl.nnode
      have ap : a.br.pos = s.br.pos + 1 + (treeBits l).length := by rw [rl.br]; rfl
      have al : a.br.limit = s.br.limit := by rw [rl.br]; rfl
      have hs : s.nnode + treeSize (.node l r) ≤ 511 := by simp only [treeSize]; omega
      refine ⟨rfl, .node l r, hs, ?_, ?_, ?_⟩
      · simp only [treeBits, readerHolds, Bool.and_eq_true] at hf ⊢
        refine ⟨hf.1, (readerHolds_append _ _ _ _).2 ⟨?_, ?_⟩⟩
        · rwa [readerHolds_congr (s := s) (t := allocated Node.zero (skipBits 1 s)) rfl rfl] at hl
        · rwa [rl.reads, readerHolds_congr (s := s) (t := allocated Node.zero (skipBits 1 s)) rfl rfl,
            ap] at hr
      · simp only [treeBits, List.length_cons, List.length_append]; omega
      · have := rebuilt_node hs rl rr
        rw [readNode_eq (i := (skipBits 1 s).nnode) hn] at h5
        cases h5
        rw [writeNode_eq (i := (skipBits 1 s).nnode) _ hn] at h6
        cases h6
        exact this
    · simp only [if_true] at h
      split at h
      · simp [raiseFormat] at h
      · rename_i hrem
        obtain ⟨⟨v, s2⟩, h2, h⟩ := bind_eq_ok.1 h
        obtain ⟨bits, hb, hh, hle, rfl, rfl⟩ := readerGetBits_ok h2
        have := hle (by omega)
        rw [skipBits_skipBits, placeLeaf_eq (s := skipBits 9 s) _ hn] at h
        cases h
        refine ⟨rfl, .leaf (BitVec.ofNat 8 (bitsValue 0 bits)), by simp [treeSize]; omega, ?_, ?_,
          rebuilt_leaf _ hn⟩
        · simp only [treeBits, byteBits_bitsValue hb, readerHolds, Bool.and_eq_true] at hf ⊢
          refine ⟨hf.1, ?_⟩
          rwa [readerHolds_skipBits] at hh
        · simp only [treeBits, List.length_cons, byteBits_length]
          simp [skipBits] at this
          omega

/-- The errors of DES.NODE: the block ends before the tree (at the block's end), or the arena is full
(at the byte that holds the node's flag) (45_container R182, 60_exceptions R216). -/
theorem deserNode_raise {c : ErrCode} {pos fuel : Nat} {s : State}
    (h : deserNode fuel s = .error (.raise c pos)) :
    (c = .treeTrunc ∧ pos = 4 + s.tdLen) ∨
      (c = .treeOvf ∧ ∃ p, s.br.pos ≤ p ∧ p < s.br.limit ∧ pos = 4 + p / 8) := by
  have due : ∀ {s : State}, nodeDue s = .error (.raise c pos) → (c = .treeTrunc ∧ pos = 4 + s.tdLen) ∨
      (c = .treeOvf ∧ ∃ p, s.br.pos ≤ p ∧ p < s.br.limit ∧ pos = 4 + p / 8) := by
    intro s h
    unfold nodeDue raiseFormat readerRem at h
    split at h
    · cases h; exact .inl ⟨rfl, rfl⟩
    · split at h
      · cases h; exact .inr ⟨rfl, _, Nat.le_refl _, by omega, rfl⟩
      · cases h
  induction fuel generalizing s with
  | zero =>
    rcases bind_eq_error.1 h with h | ⟨_, hd, h⟩
    · exact due h
    · obtain ⟨hlt, -⟩ := nodeDue_ok.1 hd
      cases h
      exact .inr ⟨rfl, _, Nat.le_refl _, hlt, rfl⟩
  | succ fuel ih =>
    rcases bind_eq_error.1 h with h | ⟨_, hd, h⟩
    · exact due h
    obtain ⟨hlt, hn⟩ := nodeDue_ok.1 hd
    rcases bind_eq_error.1 h with h | ⟨⟨f, s1⟩, h1, h⟩
    · exact (readerGet_raise h).elim
    obtain ⟨-, -, rfl⟩ := readerGet_ok h1
    cases f
    · simp only [Bool.false_eq_true, if_false] at h
      rcases bind_eq_error.1 h with h | ⟨⟨j, s2⟩, h2, h⟩
      · rw [allocNode_eq (s := skipBits 1 s) hn] at h; cases h
      rw [allocNode_eq (s := skipBits 1 s) hn] at h2
      cases h2
      rcases bind_eq_error.1 h with h | ⟨⟨l', a⟩, h3, h⟩
      · rcases ih h with ⟨h1, h2⟩ | ⟨h1, p, h2, h3, h4⟩
        · exact .inl ⟨h1, h2⟩
        · have h2 : s.br.pos + 1 ≤ p := h2
          exact .inr ⟨h1, p, by omega, h3, h4⟩
      obtain ⟨-, l, -, -, -, rl⟩ := deserNode_ok h3
      rcases bind_eq_error.1 h with h | ⟨⟨r', b⟩, h4, h⟩
      · have e : a.tdLen = s.tdLen := by rw [rl.tdLen]; rfl
        have e1 : a.br.pos = s.br.pos + 1 + (treeBits l).length := by rw [rl.br]; rfl
        have e2 : a.br.limit = s.br.limit := by rw [rl.br]; rfl
        rcases ih h with ⟨h1, h2⟩ | ⟨h1, p, h2, h3, h4⟩
        · exact .inl ⟨h1, by rw [h2, e]⟩
        · exact .inr ⟨h1, p, by omega, by omega, h4⟩
      rcases bind_eq_error.1 h with h | ⟨x, h5, h⟩
      · exact (readNode_raise h).elim
      rcases bind_eq_error.1 h with h | ⟨x, h5, h⟩
      · exact (writeNode_raise h).elim
      cases h
    · simp only [if_true] at h
      split at h
      · cases h; exact .inl ⟨rfl, rfl⟩
      · rcases bind_eq_error.1 h with h | ⟨⟨v, s2⟩, h2, h⟩
        · exact (readerGetBits_raise h).elim
        obtain ⟨bits, -, -, -, -, rfl⟩ := readerGetBits_ok h2
        rw [skipBits_skipBits, placeLeaf_eq (s := skipBits 9 s) _ hn] at h
        cases h

/-! ### A description that goes on past the arena -/

@[simp] theorem treePrefix_zero (tr : Tree) : treePrefix 0 tr = [] := by cases tr <;> rfl

/-- All nodes of a tree make its whole description. -/
theorem treePrefix_all {tr : Tree} : ∀ {n : Nat}, treeSize tr ≤ n → treePrefix n tr = treeBits tr := by
  induction tr with
  | leaf sym => intro n h; simp only [treeSize] at h; rw [treePrefix, if_neg (by omega), treeBits]
  | node l r ihl ihr =>
    intro n h
    simp only [treeSize] at h
    rw [treePrefix, if_neg (by omega), ihl (by omega), ihr (by omega), treeBits]

/-- Fewer nodes than the tree has leave some of its description out. -/
theorem treePrefix_length {tr : Tree} : ∀ {n : Nat}, n < treeSize tr →
    (treePrefix n tr).length < (treeBits tr).length := by
  induction tr with
  | leaf sym => intro n h; simp only [treeSize] at h; rw [treePrefix, if_pos (by omega)]; simp [treeBits]
  | node l r ihl ihr =>
    intro n h
    simp only [treeSize] at h
    rw [treePrefix]
    split
    · simp [treeBits]
    · simp only [treeBits, List.length_cons, List.length_append]
      by_cases hl : n - 1 < treeSize l
      · have := ihl hl
        rw [Nat.sub_eq_zero_of_le (Nat.le_of_lt hl), treePrefix_zero]
        simp only [List.length_nil]; omega
      · have := ihr (n := n - 1 - treeSize l) (by omega)
        rw [treePrefix_all (by omega)]
        omega

/-- The description of some nodes starts that of the tree. -/
theorem treePrefix_prefix (n : Nat) (tr : Tree) : treePrefix n tr <+: treeBits tr := by
  induction tr generalizing n with
  | leaf sym => rw [treePrefix, treeBits]; split <;> simp
  | node l r ihl ihr =>
    rw [treePrefix, treeBits]
    split
    · simp
    · refine List.cons_prefix_cons.2 ⟨rfl, ?_⟩
      by_cases hl : n - 1 < treeSize l
      · rw [Nat.sub_eq_zero_of_le (Nat.le_of_lt hl), treePrefix_zero, List.append_nil]
        exact (ihl _).trans (List.prefix_append _ _)
      · rw [treePrefix_all (by omega)]
        exact (List.prefix_append_right_inj _).2 (ihr _)

/-- No bit is left where a node is due. -/
theorem deserNode_noBit {fuel : Nat} {s : State} (h : s.br.pos = s.br.limit) :
    deserNode fuel s = .error (.raise .treeTrunc (4 + s.tdLen)) := by
  have : nodeDue s = .error (.raise .treeTrunc (4 + s.tdLen)) := by
    simp [nodeDue, readerRem, h, raiseFormat, treeBlockEnd]
  cases fuel <;> simp only [deserNode, this] <;> rfl

/-- The arena is full where a node is due and a bit is left. -/
theorem deserNode_full {fuel : Nat} {s : State} (h : s.br.pos < s.br.limit) (hn : 511 ≤ s.nnode) :
    deserNode fuel s = .error (.raise .treeOvf (4 + s.br.pos / 8)) := by
  have : nodeDue s = .error (.raise .treeOvf (4 + s.br.pos / 8)) := by
    rw [nodeDue, if_neg (by simp only [readerRem]; omega), if_pos hn]; rfl
  cases fuel <;> simp only [deserNode, this] <;> rfl

/-- An internal flag opens a node; its left subtree is read next. -/
theorem deserNode_internal {fuel : Nat} {s : State} {rest : List Bool}
    (hh : readerHolds s s.br.pos (false :: rest) = true) (hl : s.br.pos < s.br.limit)
    (hn : s.nnode < 511) :
    deserNode (fuel + 1) s = (do
      let (l, a) ← deserNode fuel (allocated Node.zero (skipBits 1 s))
      let (r, b) ← deserNode fuel a
      let x ← readNode b s.nnode
      let c ← writeNode b s.nnode { x with left := l, right := r }
      .ok (s.nnode, c)) := by
  have hd : nodeDue s = .ok () := nodeDue_ok.2 ⟨hl, hn⟩
  have h3 := allocNode_eq (x := Node.zero) (s := skipBits 1 s) hn
  simp only [deserNode, hd, ok_bind, readerGet_holds hh hl, Bool.false_eq_true, if_false,
    placeInternal, h3, skipBits_nnode]

/-- After a node has been opened the reader holds what it held from the next bit on. -/
theorem readerHolds_opened {s : State} {b : Bool} {rest : List Bool}
    (hh : readerHolds s s.br.pos (b :: rest) = true) :
    readerHolds (allocated Node.zero (skipBits 1 s)) (s.br.pos + 1) rest = true := by
  rw [readerHolds_congr (s := s) (t := allocated Node.zero (skipBits 1 s)) rfl rfl]
  simp only [readerHolds, Bool.and_eq_true] at hh
  exact hh.2

/-- On a block whose bits end before a tree is complete, within its nodes that fit the arena, DES.NODE
raises ERR_TREE_TRUNC at the block's end (45_container R182). -/
theorem deserNode_truncated (tr : Tree) : ∀ {fuel : Nat} {s : State} {bits : List Bool},
    511 ≤ fuel + s.nnode → s.nnode ≤ 511 → readerHolds s s.br.pos bits = true →
    s.br.pos + bits.length = s.br.limit → bits <+: treePrefix (511 - s.nnode) tr →
    bits.length < (treeBits tr).length →
    deserNode fuel s = .error (.raise .treeTrunc (4 + s.tdLen)) := by
  induction tr with
  | leaf sym =>
    intro fuel s bits hf hn hh he hp hlt
    cases bits with
    | nil => exact deserNode_noBit (by simpa using he)
    | cons b rest =>
      simp only [treeBits, List.length_cons, byteBits_length] at hlt he
      rw [treePrefix] at hp
      split at hp
      · simp at hp
      obtain ⟨rfl, -⟩ := List.cons_prefix_cons.1 hp
      obtain ⟨fuel, rfl⟩ : ∃ f, fuel = f + 1 := ⟨fuel - 1, by omega⟩
      have hd : nodeDue s = .ok () := nodeDue_ok.2 ⟨by omega, by omega⟩
      have h1 := readerGet_holds hh (by omega)
      have h4 : readerRem (skipBits 1 s) < 8 := by simp [readerRem, skipBits]; omega
      simp only [deserNode, hd, ok_bind, h1, if_true, h4]
      rfl
  | node l r ihl ihr =>
    intro fuel s bits hf hn hh he hp hlt
    cases bits with
    | nil => exact deserNode_noBit (by simpa using he)
    | cons b rest =>
      simp only [treeBits, List.length_cons, List.length_append] at hlt he
      rw [treePrefix] at hp
      split at hp
      · simp at hp
      obtain ⟨rfl, hq⟩ := List.cons_prefix_cons.1 hp
      obtain ⟨fuel, rfl⟩ : ∃ f, fuel = f + 1 := ⟨fuel - 1, by omega⟩
      rw [deserNode_internal hh (by omega) (by omega)]
      have h2 := readerHolds_opened hh
      have e : 511 - (s.nnode + 1) = 511 - s.nnode - 1 := by omega
      by_cases hc : rest.length < (treeBits l).length
      · have hp' : rest <+: treePrefix (511 - (s.nnode + 1)) l := by
          rw [e]
          by_cases hs : 511 - s.nnode - 1 < treeSize l
          · rwa [Nat.sub_eq_zero_of_le (Nat.le_of_lt hs), treePrefix_zero, List.append_nil] at hq
          · rw [treePrefix_all (by omega)] at hq ⊢
            exact List.prefix_of_prefix_length_le hq (List.prefix_append _ _) (by omega)
        have : deserNode fuel (allocated Node.zero (skipBits 1 s)) =
            .error (.raise .treeTrunc (4 + s.tdLen)) :=
          ihl (s := allocated Node.zero (skipBits 1 s)) (bits := rest)
            (by simp [allocated, skipBits]; omega) (by simp [allocated, skipBits]; omega) h2
            (by simp [allocated, skipBits]; omega) hp' hc
        rw [this]
        rfl
      · have hs : treeSize l ≤ 511 - s.nnode - 1 := by
          by_contra hs
          have := treePrefix_length (tr := l) (n := 511 - s.nnode - 1) (by omega)
          have := hq.length_le
          rw [show 511 - s.nnode - 1 - treeSize l = 0 by omega, treePrefix_zero, List.append_nil] at this
          omega
        rw [treePrefix_all hs] at hq
        obtain ⟨rest', rfl⟩ := List.prefix_of_prefix_length_le (List.prefix_append _ _) hq (by omega)
        rw [readerHolds_append] at h2
        rw [List.length_append] at he hlt hc
        have hq' := (List.prefix_append_right_inj _).1 hq
        obtain ⟨a, ha, ra⟩ := deserNode_tree l (fuel := fuel)
          (s := allocated Node.zero (skipBits 1 s))
          (by simp [allocated, skipBits]; omega) (by simp [allocated, skipBits]; omega)
          h2.1 (by simp [allocated, skipBits]; omega)
        have an : a.nnode = s.nnode + 1 + treeSize l := ra.nnode
        have ap : a.br.pos = s.br.pos + 1 + (treeBits l).length := by rw [ra.br]; rfl
        have al : a.br.limit = s.br.limit := by rw [ra.br]; rfl
        have et : a.tdLen = s.tdLen := by rw [ra.tdLen]; rfl
        have := ihr (fuel := fuel) (s := a) (bits := rest') (by omega) (by omega)
          (by rw [ra.reads, ap]; exact h2.2) (by omega)
          (by rw [an, show 511 - (s.nnode + 1 + treeSize l) = 511 - s.nnode - 1 - treeSize l by omega]; exact hq')
          (by omega)
        simp only [ha, ok_bind, this, et]
        rfl

/-- On a block that goes on after the nodes of a tree that fit the arena, DES.NODE raises ERR_TREE_OVF at
the byte of the next flag bit (45_container R182). -/
theorem deserNode_overflow (tr : Tree) : ∀ {fuel : Nat} {s : State},
    511 ≤ fuel + s.nnode → s.nnode ≤ 511 → 511 < s.nnode + treeSize tr →
    readerHolds s s.br.pos (treePrefix (511 - s.nnode) tr) = true →
    s.br.pos + (treePrefix (511 - s.nnode) tr).length < s.br.limit →
    deserNode fuel s = .error (.raise .treeOvf
      (4 + (s.br.pos + (treePrefix (511 - s.nnode) tr).length) / 8)) := by
  induction tr with
  | leaf sym =>
    intro fuel s hf hn hz hh hl
    simp only [treeSize] at hz
    have e : 511 - s.nnode = 0 := by omega
    rw [e, treePrefix_zero] at hl ⊢
    exact deserNode_full hl (by omega)
  | node l r ihl ihr =>
    intro fuel s hf hn hz hh hl
    simp only [treeSize] at hz
    by_cases hn0 : 511 - s.nnode = 0
    · rw [hn0, treePrefix_zero] at hl ⊢
      exact deserNode_full hl (by omega)
    rw [treePrefix, if_neg hn0] at hh hl ⊢
    obtain ⟨fuel, rfl⟩ : ∃ f, fuel = f + 1 := ⟨fuel - 1, by omega⟩
    rw [deserNode_internal hh (by omega) (by omega)]
    have h2 := readerHolds_opened hh
    have e : 511 - (s.nnode + 1) = 511 - s.nnode - 1 := by omega
    simp only [List.length_cons, List.length_append] at hl ⊢
    by_cases hs : 511 - s.nnode - 1 < treeSize l
    · have e0 : 511 - s.nnode - 1 - treeSize l = 0 := by omega
      rw [e0, treePrefix_zero] at hl h2 ⊢
      rw [List.append_nil] at h2
      simp only [List.length_nil, Nat.add_zero] at hl ⊢
      have := ihl (fuel := fuel) (s := allocated Node.zero (skipBits 1 s))
        (by simp [allocated, skipBits]; omega) (by simp [allocated, skipBits]; omega)
        (by simp [allocated, skipBits]; omega)
        (by simp only [allocated, skipBits, e]; exact h2)
        (by simp only [allocated, skipBits, e]; omega)
      rw [this]
      simp only [allocated, skipBits, e, error_bind, Nat.add_assoc,
        Nat.add_comm 1 (treePrefix (511 - s.nnode - 1) l).length]
    · rw [treePrefix_all (tr := l) (by omega)] at hl h2 ⊢
      rw [readerHolds_append] at h2
      obtain ⟨a, ha, ra⟩ := deserNode_tree l (fuel := fuel)
        (s := allocated Node.zero (skipBits 1 s))
        (by simp [allocated, skipBits]; omega) (by simp [allocated, skipBits]; omega)
        h2.1 (by simp [allocated, skipBits]; omega)
      have an : a.nnode = s.nnode + 1 + treeSize l := ra.nnode
      have ap : a.br.pos = s.br.pos + 1 + (treeBits l).length := by rw [ra.br]; rfl
      have al : a.br.limit = s.br.limit := by rw [ra.br]; rfl
      have er : 511 - a.nnode = 511 - s.nnode - 1 - treeSize l := by omega
      have := ihr (fuel := fuel) (s := a) (by omega) (by omega) (by omega)
        (by rw [ra.reads, ap, er]; exact h2.2) (by rw [er]; omega)
      rw [er, ap] at this
      simp only [ha, ok_bind, this, error_bind]
      congr 4
      omega

/-- How many nested calls are left does not matter while they cover the free arena entries (10_state R27). -/
theorem deserNode_fuel {fuel : Nat} : ∀ {f' : Nat} {s : State}, 511 ≤ fuel + s.nnode →
    511 ≤ f' + s.nnode → deserNode fuel s = deserNode f' s := by
  have full : ∀ {f' : Nat} {s : State}, 511 ≤ s.nnode → deserNode f' s = deserNode 0 s := by
    intro f' s hn
    have : ∃ e, nodeDue s = .error e := by
      cases h : nodeDue s with
      | error e => exact ⟨e, rfl⟩
      | ok u => have := (nodeDue_ok.1 h).2; omega
    obtain ⟨e, he⟩ := this
    cases f' with
    | zero => simp only [deserNode, he]
    | succ f' => simp only [deserNode, he]; rfl
  induction fuel with
  | zero => intro f' s h h'; exact (full (by omega)).symm
  | succ fuel ih =>
    intro f' s h h'
    by_cases hn : 511 ≤ s.nnode
    · rw [full hn, full (f' := f') hn]
    obtain ⟨f', rfl⟩ : ∃ k, f' = k + 1 := ⟨f' - 1, by omega⟩
    simp only [deserNode]
    cases nodeDue s with
    | error e => rfl
    | ok u =>
      simp only [ok_bind]
      cases h1 : readerGet s with
      | error e => rfl
      | ok p =>
        obtain ⟨b, s1⟩ := p
        obtain ⟨-, -, rfl⟩ := readerGet_ok h1
        cases b
        · simp only [ok_bind, Bool.false_eq_true, if_false, placeInternal]
          have h3 := allocNode_eq (x := Node.zero) (s := skipBits 1 s) (by simp [skipBits]; omega)
          rw [h3]
          simp only [ok_bind]
          rw [ih (f' := f') (s := allocated Node.zero (skipBits 1 s))
            (by simp [allocated, skipBits]; omega) (by simp [allocated, skipBits]; omega)]
          cases h4 : deserNode f' (allocated Node.zero (skipBits 1 s)) with
          | error e => rfl
          | ok p =>
            obtain ⟨j, a⟩ := p
            obtain ⟨-, l, -, -, -, rl⟩ := deserNode_ok h4
            have an : a.nnode = s.nnode + 1 + treeSize l := rl.nnode
            simp only [ok_bind]
            rw [ih (f' := f') (s := a) (by omega) (by omega)]
        · rfl

end Sys2Proof.Machine
end

