-- ==== Sys2Proof/Laws/HostScript.lean ====
section
/-! SUPPORT. What playing the host script of a call does (30_encoding R101, R102): the input stands in IB
and IN_LEN, derived state of a pipeline that was under way is cleared, and the command runs; and what
the host then takes from OB. -/

namespace Sys2Proof.Machine

/-! ### Steps of a script -/

/-- The state after the host has loaded an input: `WRIB 0, input` and `WRLEN` its length. -/
def loadInput (input : List Byte) (s : State) : State :=
  invalidate { s with ib := bufWriteList s.ib 0 input, inLen := input.length }

@[simp] theorem invalidate_cfg (s : State) : (invalidate s).cfg = s.cfg := by
  unfold invalidate; split <;> rfl
@[simp] theorem invalidate_ib (s : State) : (invalidate s).ib = s.ib := by
  unfold invalidate; split <;> rfl
@[simp] theorem invalidate_inLen (s : State) : (invalidate s).inLen = s.inLen := by
  unfold invalidate; split <;> rfl
@[simp] theorem invalidate_busy (s : State) : (invalidate s).busy = s.busy := by
  unfold invalidate; split <;> rfl
@[simp] theorem invalidate_host (s : State) : (invalidate s).host = s.host := by
  unfold invalidate; split <;> rfl

theorem invalidate_input (s : State) (m : Buf) (n : Nat) :
    invalidate { invalidate s with ib := m, inLen := n } =
      invalidate { s with ib := m, inLen := n } := by
  unfold invalidate
  cases h : midPipeline s.stage <;> simp only [h, if_true, Bool.false_eq_true, if_false] <;> rfl

theorem invalidate_length (s : State) (n : Nat) :
    invalidate { invalidate s with inLen := n } = invalidate { s with inLen := n } := by
  unfold invalidate
  cases h : midPipeline s.stage <;> simp only [h, if_true, Bool.false_eq_true, if_false] <;> rfl

/-- Playing a script is playing its first action and then the rest. -/
theorem playScript_cons (a : HostAction) (rest : List HostAction) (s : State) :
    playScript (a :: rest) s =
      match hostAct a (prependScript rest s) with
      | .next t => runSteps rest.length t
      | .fault f => .fault f
      | .refused r => .refused r := rfl

theorem hostAct_idle {a : HostAction} {s : State} (hb : s.busy = false) :
    hostAct a s = hostActIdle a s := by
  rw [hostAct, hb]; rfl

/-- WriteIB below IB_CAP with the host's actions still to come (10_state R50, R51). -/
theorem hostAct_writeIB {a : Nat} {b : Byte} {rest : List HostAction} {s : State}
    (hb : s.busy = false) (ha : a < s.cfg.ibCap.val) :
    hostAct (.writeIB a b) (prependScript rest s) =
      .next (prependScript rest (invalidate { s with ib := bufWrite s.ib a b })) := by
  have ha' : a < (prependScript rest s).cfg.ibCap.val := ha
  rw [hostAct_idle (s := prependScript rest s) hb, hostActIdle, writeIB, if_pos ha']
  unfold invalidate prependScript
  cases midPipeline s.stage <;> simp only [if_true, Bool.false_eq_true, if_false] <;> rfl

/-- WriteReg(IN_LEN, n) with the host's actions still to come (10_state R35, R51). -/
theorem hostAct_writeInLen {n : Nat} {rest : List HostAction} {s : State} (hb : s.busy = false)
    (hn : n < 2 ^ 32) :
    hostAct (scriptWRLEN n) (prependScript rest s) =
      .next (prependScript rest (invalidate { s with inLen := n })) := by
  have hv : (BitVec.ofNat 32 n).toNat = n := by simpa using hn
  rw [hostAct_idle (s := prependScript rest s) hb, scriptWRLEN, hostActIdle, writeReg,
    if_neg (by decide), if_pos rfl, writeInLen, hv]
  unfold invalidate prependScript
  cases midPipeline s.stage <;> simp only [if_true, Bool.false_eq_true, if_false] <;> rfl

/-- `WRIB` inside IB writes its bytes in order, and the rest of the script follows. -/
theorem playScript_WRIB (bs : List Byte) : ∀ {a : Nat} {s : State} (rest : List HostAction),
    s.busy = false → a + bs.length ≤ s.cfg.ibCap.val →
    playScript (scriptWRIB a bs ++ rest) s = playScript rest
      (if bs = [] then s else invalidate { s with ib := bufWriteList s.ib a bs }) := by
  induction bs with
  | nil => intro a s rest _ _; rfl
  | cons b bs ih =>
    intro a s rest hb hl
    simp only [List.length_cons] at hl
    rw [scriptWRIB, List.cons_append, playScript_cons, hostAct_writeIB hb (by omega)]
    refine (ih (a := a + 1) (s := invalidate { s with ib := bufWrite s.ib a b }) rest (by simpa using hb)
      (by simp only [invalidate_cfg]; omega)).trans ?_
    rw [if_neg (List.cons_ne_nil b bs)]
    congr 1
    split
    · rename_i h; subst h; rfl
    · have := invalidate_input { s with ib := bufWrite s.ib a b } (bufWriteList s.ib a (b :: bs)) s.inLen
      simpa [bufWriteList] using this

/-! ### A call (30_encoding R102) -/

/-- The script of a call loads the input and writes the command's code to CMD. -/
theorem playScript_call {code : Byte} {bs : List Byte} {s : State} (hb : s.busy = false)
    (hl : bs.length ≤ s.cfg.ibCap.val) :
    playScript (callScript code bs) s = writeCMD code (loadInput bs s) := by
  have hn : bs.length < 2 ^ 32 := by have := s.cfg.ibCap.isLt; omega
  rw [callScript, playScript_WRIB bs _ hb (by omega)]
  have hu : ∀ u : State, u.busy = false → playScript [scriptWRLEN bs.length, scriptCMD code] u =
      writeCMD code (invalidate { u with inLen := bs.length }) := by
    intro u hu
    rw [playScript_cons, hostAct_writeInLen hu hn]
    have hb' : (prependScript [] (invalidate { u with inLen := bs.length })).busy = false := by
      simpa [prependScript] using hu
    show (playScript [scriptCMD code] (invalidate { u with inLen := bs.length })) = _
    rw [playScript_cons, hostAct_idle hb', scriptCMD, hostActIdle, writeReg, if_pos rfl,
      BitVec.setWidth_setWidth_of_le _ (by decide), BitVec.setWidth_eq]
    show (match writeCMD code (invalidate { u with inLen := bs.length }) with
      | .next t => runSteps [].length t | .fault f => .fault f | .refused r => .refused r) = _
    cases writeCMD code (invalidate { u with inLen := bs.length }) <;> rfl
  split
  · rename_i h; subst h; exact hu s hb
  · rw [hu _ (by simpa using hb)]
    congr 1
    exact invalidate_length { s with ib := bufWriteList s.ib 0 bs } bs.length

theorem loadInput_busy (bs : List Byte) (s : State) : (loadInput bs s).busy = s.busy := by
  simp [loadInput]
theorem loadInput_cfg (bs : List Byte) (s : State) : (loadInput bs s).cfg = s.cfg := by
  simp [loadInput]
theorem loadInput_host (bs : List Byte) (s : State) : (loadInput bs s).host = s.host := by
  simp [loadInput]

/-- The input is loaded. -/
theorem loadInput_hasInput (bs : List Byte) (s : State) : (loadInput bs s).hasInput bs = true := by
  simp [loadInput, State.hasInput, bufHolds_bufWriteList]

/-- `compress` runs COMPRESS on the loaded input. -/
theorem compressFrom_eq {bs : List Byte} {s : State} (hb : s.busy = false)
    (hl : bs.length ≤ s.cfg.ibCap.val) :
    compressFrom s bs = callResult (exec .compress (loadInput bs s)) := by
  rw [compressFrom, playScript_call hb hl]; rfl

/-- `decompress` runs DECOMPRESS on the loaded input. -/
theorem decompressFrom_eq {bs : List Byte} {s : State} (hb : s.busy = false)
    (hl : bs.length ≤ s.cfg.ibCap.val) :
    decompressFrom s bs = callResult (exec .decompress (loadInput bs s)) := by
  rw [decompressFrom, playScript_call hb hl]; rfl

/-! ### What the host takes -/

/-- After a normal end the result is the bytes OB holds below OUT_LEN. -/
theorem stateResult_bytes {t : State} {out : List Byte} (he : t.err = false)
    (hl : t.outLen = out.length) (ho : bufHolds t.ob 0 out = true) : stateResult t = .bytes out := by
  have : memRead t .ob 0 out.length = .ok out := memRead_ok ho
  simp only [stateResult, he, Bool.false_eq_true, if_false, hl, this]

/-- After an error the result is its cause and position. -/
theorem stateResult_error {t : State} (he : t.err = true) :
    stateResult t = .error t.errCode t.errPos := by
  simp only [stateResult, he, if_true]

/-- Bytes are the result only where OB holds them below OUT_LEN. -/
theorem bytes_stateResult {t : State} {out : List Byte} (h : stateResult t = .bytes out) :
    t.err = false ∧ t.outLen = out.length ∧ bufHolds t.ob 0 out = true := by
  unfold stateResult at h
  split at h
  · cases h
  · rename_i he
    rcases memRead_cases t .ob 0 t.outLen with ⟨bs, h1, h2, h3⟩ | ⟨c, h3⟩ <;> rw [h3] at h <;> cases h
    exact ⟨by simpa using he, h1.symm, h2⟩

end Sys2Proof.Machine
end

