-- ==== Sys2Proof/Laws/Parse.lean ====
section
/-! SUPPORT. The steps of PARSE (45_container R180): reading a field, rebuilding the tree of a block
that holds a description, and what PARSE can answer. -/

namespace Sys2Proof.Machine

/-- The field whose bytes the input holds (30_encoding R80). -/
theorem readField32_holds {s : State} {a : Nat} {w : Word} (h : bufHolds s.ib a (be32 w) = true) :
    readField32 s a = .ok w := by
  simp only [be32, bufHolds, Bool.and_eq_true, decide_eq_true_eq, Nat.add_assoc] at h
  obtain ⟨h0, h1, h2, h3, -⟩ := h
  have e0 : memReadByte s .ib a = .ok _ := memReadByte_ok.2 h0
  have e1 : memReadByte s .ib (a + 1) = .ok _ := memReadByte_ok.2 h1
  have e2 : memReadByte s .ib (a + 2) = .ok _ := memReadByte_ok.2 h2
  have e3 : memReadByte s .ib (a + 3) = .ok _ := memReadByte_ok.2 h3
  simp only [readField32, e0, e1, e2, e3, ok_bind, unbe32_be32]

/-- A field read stands in the input. -/
theorem readField32_ok {s : State} {a : Nat} {w : Word} (h : readField32 s a = .ok w) :
    bufHolds s.ib a (be32 w) = true := by
  obtain ⟨b0, h0, h⟩ := bind_eq_ok.1 h
  obtain ⟨b1, h1, h⟩ := bind_eq_ok.1 h
  obtain ⟨b2, h2, h⟩ := bind_eq_ok.1 h
  obtain ⟨b3, h3, h⟩ := bind_eq_ok.1 h
  cases h
  have e0 := memReadByte_ok.1 h0
  have e1 := memReadByte_ok.1 h1
  have e2 := memReadByte_ok.1 h2
  have e3 := memReadByte_ok.1 h3
  simp only [buffer] at e0 e1 e2 e3
  simp [be32_unbe32, bufHolds, Nat.add_assoc, e0, e1, e2, e3]

theorem readField32_raise {c : ErrCode} {pos : Nat} {s : State} {a : Nat} :
    readField32 s a ≠ .error (.raise c pos) := by
  intro h
  rcases bind_eq_error.1 h with h | ⟨_, _, h⟩
  · exact memReadByte_raise h
  rcases bind_eq_error.1 h with h | ⟨_, _, h⟩
  · exact memReadByte_raise h
  rcases bind_eq_error.1 h with h | ⟨_, _, h⟩
  · exact memReadByte_raise h
  rcases bind_eq_error.1 h with h | ⟨_, _, h⟩
  · exact memReadByte_raise h
  cases h

@[simp] theorem unpackBits_length (d : List Byte) : (unpackBits d).length = 8 * d.length := by
  induction d with
  | nil => rfl
  | cons b d ih =>
    simp only [unpackBits, List.flatMap_cons, List.length_append, byteBits_length,
      List.length_cons] at ih ⊢
    omega

/-- The reader of a tree block holds the bits of the block's bytes. -/
theorem readerHolds_block {s : State} {d : List Byte} {base limit : Nat}
    (h : bufHolds s.ib base d = true) :
    readerHolds (readerInit base limit s) (readerInit base limit s).br.pos (unpackBits d) = true :=
  readerHolds_unpackBits (s := readerInit base limit s) (j := 0) (by simpa [readerInit] using h)

theorem readerHolds_prefix {s : State} {k : Nat} {x y : List Bool} (hp : x <+: y)
    (h : readerHolds s k y = true) : readerHolds s k x = true := by
  obtain ⟨z, rfl⟩ := hp
  exact ((readerHolds_append _ _ _ _).1 h).1

/-- A tree block that holds a description, padded to its last byte by any bits, is rebuilt
(45_container R180, R182). -/
theorem parseTree_holds {s : State} {tr : Tree} {d : List Byte} (hn : s.nnode = 0)
    (hz : treeSize tr ≤ 511) (hd : d.length = s.tdLen) (hlen : d.length = ceil8 (treeBits tr).length)
    (hp : treeBits tr <+: unpackBits d) (hb : bufHolds s.ib 4 d = true) :
    ∃ t, Rebuilt (readerInit 4 (8 * s.tdLen) s) t tr ∧
      parseTree s = .ok { t with root := 0, tdBits := (treeBits tr).length } := by
  have hh := readerHolds_prefix hp (readerHolds_block (limit := 8 * s.tdLen) hb)
  have hl := hp.length_le
  rw [unpackBits_length, hd] at hl
  obtain ⟨t, h1, h2⟩ := deserNode_tree tr (fuel := parseDepth)
    (s := readerInit 4 (8 * s.tdLen) s) (by simp [parseDepth])
    (by simp only [readerInit, hn]; omega) hh (by simp only [readerInit]; omega)
  refine ⟨t, h2, ?_⟩
  have hpos : 0 < s.tdLen := by
    rw [← hd, hlen]; have := treeBits_length tr; have := treeLeaves_ne_nil tr
    have : 0 < (treeLeaves tr).length := List.length_pos_iff.2 this
    unfold ceil8; omega
  have e : t.br.pos = (treeBits tr).length := by rw [h2.br]; simp [readerInit]
  have e2 : t.tdLen = s.tdLen := h2.tdLen
  have e3 : (readerInit 4 (8 * s.tdLen) s).nnode = 0 := hn
  rw [e3] at h1
  simp only [parseTree, hpos, if_true, h1, ok_bind, e, e2, ← hlen, hd, ne_eq, not_true_eq_false,
    if_false]

/-- PARSE up to the valid-bit count, on an input that holds the header, the description of a tree of at
most 256 leaves (or none) padded to its bytes, and the count (45_container R180, R186). -/
theorem parseBody_holds {s : State} {tr : Option Tree} {d : List Byte} {v : Word}
    (hnn : s.nnode = 0) (hns : s.nsym = 0) (hr : s.root = 0) (ht : s.tdBits = 0)
    (h256 : ∀ x ∈ tr, (treeLeaves x).length ≤ 256) (hd : d.length = ceil8 (rootBits tr).length)
    (hp : rootBits tr <+: unpackBits d)
    (hb : bufHolds s.ib 0 (be32 (BitVec.ofNat 32 d.length) ++ d ++ be32 v) = true)
    (hl : 8 + d.length ≤ s.inLen) :
    ∃ t, parseBody s = metadataField v t ∧ t.nnode = (tr.map treeSize).getD 0 ∧ holdsRoot t tr = true ∧
      t.nsym = ((tr.map treeLeaves).getD []).length ∧ (∀ x ∈ tr, placedAt t 0 x) ∧
      (∀ k, t.nnode ≤ k → nodeAt t k = nodeAt s k) ∧ t.root = 0 ∧
      t = { s with node := t.node, nnode := t.nnode, nsym := t.nsym, br := t.br, tdBits := (rootBits tr).length, tdLen := d.length } := by
  rw [List.append_assoc, bufHolds_append, bufHolds_append] at hb
  simp only [be32_length, Nat.zero_add] at hb
  obtain ⟨hb1, hb2, hb3⟩ := hb
  have hdl : d.length ≤ 320 := by
    rw [hd]
    cases tr with
    | none => simp [rootBits, ceil8]
    | some x =>
      have := h256 x rfl; have := treeBits_length x
      simp only [rootBits]; unfold ceil8; omega
  have hmod : (BitVec.ofNat 32 d.length).toNat = d.length := by simp; omega
  have h4 : ¬ s.inLen < 4 := by omega
  have hhdr : headerField (BitVec.ofNat 32 d.length) s = .ok { s with tdLen := d.length } := by
    simp only [headerField, hmod]
    rw [if_neg h4, if_neg (by omega), if_neg (by omega)]
  have hstart : parseBody s = (do
      let s ← parseTree { s with tdLen := d.length }
      let v ← readField32 s (4 + s.tdLen)
      metadataField v s) := by
    simp only [parseBody, h4, if_false, readField32_holds hb1, ok_bind, hhdr]
  cases tr with
  | none =>
    have hd0 : d.length = 0 := by simpa [rootBits, ceil8] using hd
    have : parseTree { s with tdLen := d.length } = .ok { s with tdLen := d.length } := by
      simp [parseTree, hd0]
    refine ⟨{ s with tdLen := d.length }, ?_, ?_⟩
    · rw [hstart, this]
      simp only [ok_bind]
      rw [readField32_holds (w := v) (by simpa using hb3)]
      rfl
    · simp [hnn, hns, hr, ht, holdsRoot, rootBits]
      exact fun k => rfl
  | some x =>
    have hx := h256 x rfl
    have hz := treeSize_leaves x
    obtain ⟨t, ht1, ht2⟩ := parseTree_holds (s := { s with tdLen := d.length }) (tr := x) (d := d) hnn (by omega) rfl hd hp hb2
    have hin : (readerInit 4 (8 * d.length) { s with tdLen := d.length }).nnode = 0 := hnn
    have hns' : (readerInit 4 (8 * d.length) { s with tdLen := d.length }).nsym = 0 := hns
    have pl := ht1.placed
    have nn := ht1.nnode
    have ns := ht1.nsym
    rw [hin] at pl nn
    rw [hns'] at ns
    have := treeSize_pos x
    refine ⟨{ t with root := 0, tdBits := (treeBits x).length }, ?_, ?_, ?_, ?_, ?_, ?_, ?_, ?_⟩
    · rw [hstart, ht2]
      simp only [ok_bind]
      have e1 : t.tdLen = d.length := ht1.tdLen
      have e2 : t.ib = s.ib := ht1.ib
      rw [e1, readField32_holds (w := v) (by simpa [e2] using hb3)]
      rfl
    · simp [nn]
    · have := placedAt_holds pl (by omega)
      simp only [holdsRoot, nn, Bool.and_eq_true, decide_eq_true_eq]
      refine ⟨by omega, ?_⟩
      simp only [Nat.zero_add] at this ⊢; exact (holdsTree_node_congr (s := t) (t := { t with nnode := treeSize x, root := 0, tdBits := (treeBits x).length }) rfl _ _).trans this
    · simp [ns]
    · intro y hy
      cases hy
      exact (placedAt_congr (s := t) (t := { t with root := 0, tdBits := (treeBits x).length })
        fun k _ _ => rfl).2 pl
    · intro k hk
      exact ht1.outside k (by rw [hin]; right; simp only at hk; omega)
    · rfl
    · simp only; rw [ht1.rest]; simp [readerInit, hr, rootBits]

end Sys2Proof.Machine
end

