-- ==== Sys2Proof/Laws/Serializer.lean ====
section
/-! SUPPORT. The serializer (45_container R175, R176): SER.EMIT puts the description of a tree, and the
assembly of the container in OB. -/

namespace Sys2Proof.Machine

theorem writerPut_tables {b : Bool} {s t : State} (h : writerPut b s = .ok t) :
    t = { s with pb := t.pb, td := t.td, bw := t.bw } := by
  simp only [writerPut] at h
  split at h
  · rw [writerSend_eq] at h
    split at h
    · cases h; cases s.bw.sink <;> rfl
    · cases h
  · cases h; rfl

theorem putBits_tables {bits : List Bool} {s t : State} (h : putBits bits s = .ok t) :
    t = { s with pb := t.pb, td := t.td, bw := t.bw } := by
  induction bits generalizing s with
  | nil => cases h; rfl
  | cons b bits ih =>
    obtain ⟨u, h1, h2⟩ := bind_eq_ok.1 h
    rw [ih h2]
    have := writerPut_tables h1
    rw [this]

/-- SER.EMIT on a tree puts the bits of its description (45_container R176, 30_encoding R89). -/
theorem emitNode_eq (tr : Tree) : ∀ {fuel i : Nat} {s : State}, treeDepth tr < fuel →
    holdsTree s i tr = true → emitNode fuel i s = putBits (treeBits tr) s := by
  induction tr with
  | leaf sym =>
    intro fuel i s hf h
    obtain ⟨fuel, rfl⟩ : ∃ f, fuel = f + 1 := ⟨fuel - 1, by omega⟩
    obtain ⟨hi, hk, hs⟩ := holdsTree_leaf.1 h
    simp only [emitNode, readNode_eq hi, ok_bind, hk, hs, treeBits]
  | node l r ihl ihr =>
    intro fuel i s hf h
    simp only [treeDepth] at hf
    obtain ⟨fuel, rfl⟩ : ∃ f, fuel = f + 1 := ⟨fuel - 1, by omega⟩
    obtain ⟨hi, hk, hl, hr⟩ := holdsTree_node.1 h
    simp only [emitNode, readNode_eq hi, ok_bind, hk, treeBits, putBits]
    cases h1 : writerPut false s with
    | error e => rfl
    | ok a =>
      have na : a.node = s.node := by rw [writerPut_tables h1]
      simp only [ok_bind, putBits_append]
      rw [ihl (by omega) ((holdsTree_node_congr na _ _).trans hl)]
      cases h2 : putBits (treeBits l) a with
      | error e => rfl
      | ok b =>
        have nb : b.node = s.node := by rw [putBits_tables h2]; exact na
        simp only [ok_bind]
        exact ihr (by omega) ((holdsTree_node_congr nb _ _).trans hr)

/-- Part 1 of SERIAL on the tree of the arena (45_container R175). -/
theorem describeTree_eq {s : State} {tr : Option Tree} (h : holdsRoot s tr = true)
    (hd : ∀ x ∈ tr, treeDepth x ≤ 255) (hb : ceil8 (rootBits tr).length ≤ 320) :
    ∃ u, describeTree s = .ok u ∧ u.tdBits = (rootBits tr).length ∧ u.tdLen = ceil8 u.tdBits ∧
      u.bw = { sink := .td, acc := 0#8, nb := 0, wp := u.tdLen, total := u.tdBits } ∧
      bufHolds u.td 0 (packBits (rootBits tr)) = true ∧
      (∀ a, u.tdLen ≤ a → bufRead u.td a = bufRead s.td a) ∧
      u = { s with td := u.td, bw := u.bw, tdBits := u.tdBits, tdLen := u.tdLen } := by
  obtain ⟨v, u, hv, hu, h1, h2, h3, h5, h4⟩ := (pack_eq s .td (rootBits tr)).1 hb
  have e : emitTree (writerInit .td s) = .ok v := by
    cases tr with
    | none =>
      simp only [holdsRoot, decide_eq_true_eq] at h
      simp only [rootBits, putBits] at hv
      simp [emitTree, writerInit, h] at hv ⊢
      exact hv
    | some x =>
      simp only [holdsRoot, Bool.and_eq_true, decide_eq_true_eq] at h
      have h0 : 0 < (writerInit .td s).nnode := Nat.pos_of_ne_zero h.1
      have := hd x rfl
      have hx : holdsTree (writerInit .td s) (writerInit .td s).root x = true :=
        (holdsTree_node_congr (s := s) (t := writerInit .td s) rfl _ _).trans h.2
      rw [emitTree, if_pos h0, emitNode_eq x (by simp [stackDepth]; omega) hx]
      exact hv
  refine ⟨{ u with tdBits := u.bw.total, tdLen := u.bw.wp }, ?_, ?_, ?_, ?_, h2, ?_, ?_⟩
  · simp only [describeTree, e, ok_bind, hu]
  · simp [h1]
  · simp [h1]
  · simp [h1]
  · intro a ha
    simp only [h1] at ha
    exact h3 .td a (by simp [sinkBuffer]; exact ha)
  · have : u.pb = s.pb := h5 .pb (by decide)
    simp only
    rw [h4]
    simp [this]

/-- Part 2 of SERIAL: the four blocks in OB (45_container R175, R178). -/
theorem assemble_eq {s : State} {d p : List Byte} (hd : d.length = s.tdLen) (hp : p.length = s.payLen)
    (htd : bufHolds s.td 0 d = true) (hpb : bufHolds s.pb 0 p = true)
    (hc : 8 + s.tdLen + s.payLen ≤ s.cfg.obCap) :
    ∃ u, assemble s = .ok u ∧ u.payOff = 8 + s.tdLen ∧ u.outLen = 8 + s.tdLen + s.payLen ∧
      bufHolds u.ob 0 (fieldBytes s.tdLen ++ d ++ fieldBytes s.vbits ++ p) = true ∧
      (∀ a, u.outLen ≤ a → bufRead u.ob a = bufRead s.ob a) ∧
      u = { s with ob := u.ob, payOff := u.payOff, outLen := u.outLen, stage := .cdone } := by
  have fl : ∀ v, (fieldBytes v).length = 4 := fun v => rfl
  have w1 : memWrite s .ob 0 (fieldBytes s.tdLen) =
      .ok { s with ob := bufWriteList s.ob 0 (fieldBytes s.tdLen) } := by
    rw [memWrite_eq, if_pos (by simp only [capacity, fl]; omega)]; rfl
  have r1 : memRead { s with ob := bufWriteList s.ob 0 (fieldBytes s.tdLen) } .td 0 s.tdLen = .ok d := by
    rw [← hd]; exact memRead_ok htd
  let o1 := bufWriteList s.ob 0 (fieldBytes s.tdLen)
  have w2 : memWrite { s with ob := o1 } .ob 4 d = .ok { s with ob := bufWriteList o1 4 d } := by
    rw [memWrite_eq, if_pos (by simp only [capacity]; omega)]; rfl
  let o2 := bufWriteList o1 4 d
  have w3 : memWrite { s with ob := o2 } .ob (4 + s.tdLen) (fieldBytes s.vbits) =
      .ok { s with ob := bufWriteList o2 (4 + s.tdLen) (fieldBytes s.vbits) } := by
    rw [memWrite_eq, if_pos (by simp only [capacity, fl]; omega)]; rfl
  let o3 := bufWriteList o2 (4 + s.tdLen) (fieldBytes s.vbits)
  have r2 : memRead { s with ob := o3, payOff := 8 + s.tdLen } .pb 0 s.payLen = .ok p := by
    rw [← hp]; exact memRead_ok hpb
  have w4 : memWrite { s with ob := o3, payOff := 8 + s.tdLen } .ob (8 + s.tdLen) p =
      .ok { s with ob := bufWriteList o3 (8 + s.tdLen) p, payOff := 8 + s.tdLen } := by
    rw [memWrite_eq, if_pos (by simp only [capacity]; omega)]; rfl
  have keep : ∀ {m : Buf} {a b : Nat} {x y : List Byte}, bufHolds m a x = true →
      a + x.length ≤ b → bufHolds (bufWriteList m b y) a x = true := by
    intro m a b x y h hle
    rw [← h]
    exact bufHolds_congr fun c h1 h2 => bufRead_bufWriteList_outside _ _ _ _ (by omega)
  have a1 : bufHolds o1 0 (fieldBytes s.tdLen) = true := bufHolds_bufWriteList _ _ _
  have a2 : bufHolds o2 4 d = true := bufHolds_bufWriteList _ _ _
  have a3 : bufHolds o3 (4 + s.tdLen) (fieldBytes s.vbits) = true := bufHolds_bufWriteList _ _ _
  refine ⟨{ s with
    ob := bufWriteList o3 (8 + s.tdLen) p
    payOff := 8 + s.tdLen
    outLen := 8 + s.tdLen + s.payLen
    stage := .cdone }, ?_, rfl, rfl, ?_, ?_, rfl⟩
  · simp only [assemble, w1, ok_bind, r1]
    rw [show bufWriteList s.ob 0 (fieldBytes s.tdLen) = o1 from rfl, w2, ok_bind]
    rw [show bufWriteList o1 4 d = o2 from rfl]
    simp only [w3, ok_bind]
    rw [show bufWriteList o2 (4 + s.tdLen) (fieldBytes s.vbits) = o3 from rfl]
    simp only [r2, ok_bind, w4]
  · rw [bufHolds_append, bufHolds_append, bufHolds_append]
    simp only [List.length_append, fl, hd, Nat.zero_add]
    refine ⟨⟨⟨?_, ?_⟩, ?_⟩, ?_⟩
    · exact keep (keep (keep a1 (by simp only [fl]; omega)) (by simp only [fl]; omega)) (by simp only [fl]; omega)
    · exact keep (keep a2 (by omega)) (by omega)
    · exact keep a3 (by simp only [fl]; omega)
    · rw [show 4 + s.tdLen + 4 = 8 + s.tdLen by omega]
      exact bufHolds_bufWriteList _ _ _
  · intro a ha
    simp only at ha ⊢
    rw [bufRead_bufWriteList_outside _ _ _ _ (by omega),
      bufRead_bufWriteList_outside _ _ _ _ (by simp only [fl]; omega),
      bufRead_bufWriteList_outside _ _ _ _ (by omega),
      bufRead_bufWriteList_outside _ _ _ _ (by simp only [fl]; omega)]

end Sys2Proof.Machine
end

