-- ==== Sys2Proof/Laws/Queue.lean ====
section
/-! SUPPORT. The priority queue (41_tree_builder R121, R125, R126): its key order is total, PUSH adds a
member and keeps the set strictly rising, POPMIN takes the member with the lowest key. -/

namespace Sys2Proof.Machine

/-! ### The key order -/

theorem keyBefore_iff {s : State} {i j : Nat} : keyBefore s i j = true ↔ keyLess s i j := by
  simp [keyBefore]

theorem keyLess_trans {s : State} {i j k : Nat} (h1 : keyLess s i j) (h2 : keyLess s j k) :
    keyLess s i k := by
  unfold keyLess at *
  omega

theorem keyLess_irrefl {s : State} {i : Nat} : ¬ keyLess s i i := by
  unfold keyLess; omega

theorem keyLess_total (s : State) (i j : Nat) : keyLess s i j ∨ i = j ∨ keyLess s j i := by
  unfold keyLess; omega

theorem keyLess_weight {s : State} {i j : Nat} (h : keyLess s i j) :
    (nodeAt s i).weight ≤ (nodeAt s j).weight := by
  unfold keyLess at h; omega

theorem keyLess_congr {s t : State} {i j : Nat} (hi : nodeAt t i = nodeAt s i)
    (hj : nodeAt t j = nodeAt s j) : keyLess t i j ↔ keyLess s i j := by
  unfold keyLess; rw [hi, hj]

/-! ### PQ.PUSH -/

theorem mem_setInsert {i j : Nat} {l : List Nat} : j ∈ setInsert i l ↔ j = i ∨ j ∈ l := by
  induction l with
  | nil => simp [setInsert]
  | cons k l ih =>
    simp only [setInsert]
    split
    · simp
    · split
      · subst_vars; simp
      · simp [ih, or_left_comm]

theorem setInsert_rising {i : Nat} {l : List Nat} (h : l.Pairwise (· < ·)) :
    (setInsert i l).Pairwise (· < ·) := by
  induction l with
  | nil => simp [setInsert]
  | cons k l ih =>
    have h' := List.pairwise_cons.1 h
    simp only [setInsert]
    split
    · rename_i hik
      refine List.pairwise_cons.2 ⟨fun j hj => ?_, h⟩
      rcases List.mem_cons.1 hj with rfl | hj
      · exact hik
      · exact Nat.lt_trans hik (h'.1 j hj)
    · split
      · exact h
      · rename_i h1 h2
        refine List.pairwise_cons.2 ⟨fun j hj => ?_, ih h'.2⟩
        rcases mem_setInsert.1 hj with rfl | hj
        · omega
        · exact h'.1 j hj

/-- The newest arena entry goes to the end (41_tree_builder R121). -/
theorem setInsert_last {i : Nat} {l : List Nat} (h : ∀ j ∈ l, j < i) : setInsert i l = l ++ [i] := by
  induction l with
  | nil => rfl
  | cons k l ih =>
    have hk := h k List.mem_cons_self
    simp only [setInsert]
    rw [if_neg (by omega), if_neg (by omega), ih fun j hj => h j (List.mem_cons_of_mem _ hj)]
    rfl

/-! ### PQ.POPMIN -/

/-- The lowest member is a member with the lowest key. -/
theorem lowestKey_spec {s : State} {l : List Nat} (h : l ≠ []) :
    ∃ m, lowestKey s l = some m ∧ m ∈ l ∧ ∀ j ∈ l, j = m ∨ keyLess s m j := by
  induction l with
  | nil => exact absurd rfl h
  | cons i l ih =>
    by_cases hl : l = []
    · subst hl
      exact ⟨i, rfl, by simp, by simp⟩
    · obtain ⟨m, h1, h2, h3⟩ := ih hl
      simp only [lowestKey, h1]
      by_cases hk : keyBefore s m i = true
      · refine ⟨m, by simp [hk], List.mem_cons_of_mem _ h2, fun j hj => ?_⟩
        rcases List.mem_cons.1 hj with rfl | hj
        · exact .inr (keyBefore_iff.1 hk)
        · exact h3 j hj
      · refine ⟨i, by simp [hk], List.mem_cons_self, fun j hj => ?_⟩
        have hk' : i = m ∨ keyLess s i m := by
          rcases keyLess_total s i m with h | h | h
          · exact .inr h
          · exact .inl h
          · exact absurd (keyBefore_iff.2 h) hk
        rcases List.mem_cons.1 hj with rfl | hj
        · exact .inl rfl
        · rcases h3 j hj with rfl | h
          · rcases hk' with h | h
            · exact .inl h.symm
            · exact .inr h
          · rcases hk' with rfl | h'
            · exact .inr h
            · exact .inr (keyLess_trans h' h)

/-- POPMIN on a queue with members (41_tree_builder R126). -/
theorem queuePopMin_eq {s : State} (h : s.pq ≠ []) :
    ∃ m, m ∈ s.pq ∧ (∀ j ∈ s.pq, j = m ∨ keyLess s m j) ∧
      queuePopMin s = .ok (m, { s with pq := s.pq.erase m }) := by
  obtain ⟨m, h1, h2, h3⟩ := lowestKey_spec (s := s) h
  exact ⟨m, h2, h3, by simp [queuePopMin, h1]⟩

end Sys2Proof.Machine
end

