-- ==== Sys2Proof/Laws/TreeBuilder.lean ====
section
/-! SUPPORT. The Huffman tree builder (41_tree_builder R122, R124): what its leaf loop leaves, and the
invariant of its merge loop: the queue holds the roots of a forest over the present symbols. -/

namespace Sys2Proof.Machine

/-! ### Weights of trees -/

/-- The weight of a tree whose leaves weigh `w`. -/
def treeWeight (w : Byte → Nat) : Tree → Nat
  | .leaf sym => w sym
  | .node l r => treeWeight w l + treeWeight w r

/-- The sum of the weights of the internal nodes: the bits the codes of the tree take. -/
def treeCost (w : Byte → Nat) : Tree → Nat
  | .leaf _ => 0
  | .node l r => treeCost w l + treeCost w r + (treeWeight w l + treeWeight w r)

theorem treeWeight_leaves (w : Byte → Nat) (tr : Tree) :
    treeWeight w tr = ((treeLeaves tr).map w).sum := by
  induction tr with
  | leaf s => simp [treeWeight, treeLeaves]
  | node l r ihl ihr => simp [treeWeight, treeLeaves, ihl, ihr]

/-- Weight times code length, summed over the leaves (41_tree_builder R123). -/
theorem treeCost_codes (w : Byte → Nat) (tr : Tree) (path : List Bool) :
    ((treeCodes path tr).map fun c => w c.1 * c.2.length).sum =
      path.length * treeWeight w tr + treeCost w tr := by
  induction tr generalizing path with
  | leaf s => simp [treeCodes, treeWeight, treeCost, Nat.mul_comm]
  | node l r ihl ihr =>
    simp only [treeCodes, List.map_append, List.sum_append, ihl, ihr, List.length_append,
      List.length_singleton, treeWeight, treeCost]
    ring

/-! ### The leaf loop -/

theorem erase_rising {l : List Nat} (h : l.Pairwise (· < ·)) (a : Nat) :
    (l.erase a).Pairwise (· < ·) := h.sublist List.erase_sublist

/-- The leaf loop allocates a leaf for each present symbol of its list, in order, and queues it. -/
theorem leafLoop_eq (l : List Nat) : ∀ {n : Nat} {s : State}, s.pq = List.range n →
    n + l.length ≤ 511 →
    ∃ t, leafLoop l n s =
        .ok (n + (l.filter fun v => decide (0 < readFT s (BitVec.ofNat 8 v))).length, t) ∧
      t.pq = List.range (n + (l.filter fun v => decide (0 < readFT s (BitVec.ofNat 8 v))).length) ∧
      (∀ k, k < n ∨ n + (l.filter fun v => decide (0 < readFT s (BitVec.ofNat 8 v))).length ≤ k →
        nodeAt t k = nodeAt s k) ∧
      (∀ (k : Nat) (h : k < (l.filter fun v => decide (0 < readFT s (BitVec.ofNat 8 v))).length),
        nodeAt t (n + k) = leafRecord
          (BitVec.ofNat 8 (l.filter fun v => decide (0 < readFT s (BitVec.ofNat 8 v)))[k])
          (readFT s (BitVec.ofNat 8 (l.filter fun v => decide (0 < readFT s (BitVec.ofNat 8 v)))[k]))) ∧
      t = { s with node := t.node, pq := t.pq } := by
  induction l with
  | nil =>
    intro n s hq hn
    exact ⟨s, by simp [leafLoop], by simpa using hq, fun _ _ => rfl, by simp, rfl⟩
  | cons v l ih =>
    intro n s hq hn
    simp only [List.length_cons] at hn
    by_cases hv : 0 < readFT s (BitVec.ofNat 8 v)
    · let x := leafRecord (BitVec.ofNat 8 v) (readFT s (BitVec.ofNat 8 v))
      let s1 : State := { s with node := s.node.setIfInBounds n x }
      have hw : writeNode s n x = .ok s1 := writeNode_eq x (by omega)
      have hq1 : (queuePush n s1).pq = List.range (n + 1) := by
        show setInsert n s.pq = _
        rw [hq, setInsert_last (by simp), List.range_succ]
      have hft : ∀ b, readFT (queuePush n s1) b = readFT s b := fun _ => rfl
      obtain ⟨t, h1, h2, h3, h4, h5⟩ := ih (n := n + 1) (s := queuePush n s1) hq1 (by omega)
      simp only [hft] at h1 h2 h3 h4
      have hf : (v :: l).filter (fun v => decide (0 < readFT s (BitVec.ofNat 8 v))) =
          v :: l.filter (fun v => decide (0 < readFT s (BitVec.ofNat 8 v))) := by
        simp [hv]
      have hn1 : ∀ k, nodeAt (queuePush n s1) k = if k = n then x else nodeAt s k :=
        fun k => nodeAt_set s n k x (by omega)
      rw [hf]
      simp only [List.length_cons]
      have ec : ∀ m, n + 1 + m = n + (m + 1) := by intro m; omega
      refine ⟨t, ?_, ?_, ?_, ?_, ?_⟩
      · simp only [leafLoop, hv, if_true]
        rw [show writeNode s n (leafRecord (BitVec.ofNat 8 v) (readFT s (BitVec.ofNat 8 v))) = .ok s1
          from hw, ok_bind, h1, ec]
      · rw [h2, ec]
      · intro k hk
        rw [h3 k (by omega), hn1, if_neg (by omega)]
      · intro k hk
        cases k with
        | zero =>
          rw [Nat.add_zero, h3 n (by omega), hn1, if_pos rfl]
          rfl
        | succ k =>
          have := h4 k (by omega)
          rw [ec] at this
          simpa using this
      · rw [h5]
        rfl
    · obtain ⟨t, h⟩ := ih (n := n) (s := s) hq (by omega)
      have hf : (v :: l).filter (fun v => decide (0 < readFT s (BitVec.ofNat 8 v))) =
          l.filter (fun v => decide (0 < readFT s (BitVec.ofNat 8 v))) := by
        simp [hv]
      rw [hf]
      refine ⟨t, ?_, h.2⟩
      simp only [leafLoop, hv, if_false]
      exact h.1

/-- What the leaf loop of TBUILD leaves: the leaves of the present symbols, all of them queued. -/
theorem leafLoop_present {s : State} (hq : s.pq = []) :
    ∃ t, leafLoop (List.range 256) 0 s = .ok ((presentSymbols s).length, t) ∧
      t.pq = List.range (presentSymbols s).length ∧
      (∀ k, (presentSymbols s).length ≤ k → nodeAt t k = nodeAt s k) ∧
      (∀ (k : Nat) (h : k < (presentSymbols s).length),
        nodeAt t k = leafRecord (presentSymbols s)[k] (readFT s (presentSymbols s)[k])) ∧
      t = { s with node := t.node, pq := t.pq } := by
  have hp : presentSymbols s = ((List.range 256).filter
      fun v => decide (0 < readFT s (BitVec.ofNat 8 v))).map (BitVec.ofNat 8) := by
    unfold presentSymbols
    rw [List.filter_map]
    rfl
  obtain ⟨t, h1, h2, h3, h4, h5⟩ := leafLoop_eq (List.range 256) (n := 0) (s := s) hq (by simp)
  simp only [Nat.zero_add] at h1 h2 h3 h4
  have hl : (presentSymbols s).length = ((List.range 256).filter
      fun v => decide (0 < readFT s (BitVec.ofNat 8 v))).length := by rw [hp, List.length_map]
  refine ⟨t, by rw [hl]; exact h1, by rw [hl]; exact h2, fun k hk => h3 k (.inr (by omega)), ?_, h5⟩
  intro k hk
  rw [h4 k (by omega)]
  simp only [hp, List.getElem_map]

/-! ### The bound on the bits (46_codec R206) -/

/-- Charging one merged member to a chosen part of the queue. -/
theorem charge_one {w : Nat → Nat} {b : Nat} {U V R : List Nat} (h : (U ++ V).Perm (b :: R))
    (hw : ∀ z ∈ R, w b ≤ w z) (hU : 1 ≤ U.length) :
    ∃ U' V' : List Nat, (U' ++ V').Perm R ∧ U'.length + 1 = U.length ∧ w b + (U'.map w).sum ≤ (U.map w).sum := by
  by_cases hb : b ∈ U
  · have p := List.perm_cons_erase hb
    refine ⟨U.erase b, V, ?_, ?_, ?_⟩
    · exact (List.perm_cons b).1 ((p.append_right V).symm.trans h)
    · have := p.length_eq; simp at this; omega
    · have := (p.map w).sum_eq; simp at this; omega
  · have hbV : b ∈ V := by
      have : b ∈ U ++ V := h.mem_iff.2 List.mem_cons_self
      exact (List.mem_append.1 this).resolve_left hb
    have p := List.perm_cons_erase hbV
    have q : (U ++ V.erase b).Perm R := by
      have : (U ++ b :: V.erase b).Perm (b :: R) := (p.append_left U).symm.trans h
      exact (List.perm_cons b).1 (List.perm_middle.symm.trans this)
    cases U with
    | nil => simp at hU
    | cons x U =>
      have hx : w b ≤ w x := hw x (q.mem_iff.1 (by simp))
      refine ⟨U, x :: V.erase b, List.perm_middle.trans q, by simp, by simp; omega⟩

/-- Charging a merge to two members of a chosen part of the queue. -/
theorem charge_two {w : Nat → Nat} {a b : Nat} {U V R : List Nat} (h : (U ++ V).Perm (a :: b :: R))
    (hw : ∀ z ∈ R, w a ≤ w z ∧ w b ≤ w z) (hU : 2 ≤ U.length) :
    ∃ U' V' : List Nat, (U' ++ V').Perm R ∧ U'.length + 2 = U.length ∧
      w a + w b + (U'.map w).sum ≤ (U.map w).sum := by
  by_cases ha : a ∈ U
  · have p := List.perm_cons_erase ha
    have hl := p.length_eq
    have hs := (p.map w).sum_eq
    simp only [List.length_cons, List.map_cons, List.sum_cons] at hl hs
    obtain ⟨U', V', h1, h2, h3⟩ := charge_one (U := U.erase a) (V := V)
      ((List.perm_cons a).1 ((p.append_right V).symm.trans h)) (fun z hz => (hw z hz).2) (by omega)
    exact ⟨U', V', h1, by omega, by omega⟩
  · have haV : a ∈ V := by
      have : a ∈ U ++ V := h.mem_iff.2 List.mem_cons_self
      exact (List.mem_append.1 this).resolve_left ha
    have p := List.perm_cons_erase haV
    have q : (U ++ V.erase a).Perm (b :: R) := by
      have : (U ++ a :: V.erase a).Perm (a :: b :: R) := (p.append_left U).symm.trans h
      exact (List.perm_cons a).1 (List.perm_middle.symm.trans this)
    obtain ⟨U', V', h1, h2, h3⟩ := charge_one q (fun z hz => (hw z hz).2) (by omega)
    cases U' with
    | nil => simp at h2; omega
    | cons x U' =>
      have hx : w a ≤ w x := (hw x (h1.mem_iff.1 (by simp))).1
      simp only [List.length_cons, List.map_cons, List.sum_cons] at h2 h3
      exact ⟨U', x :: V', List.perm_middle.trans h1, by omega, by omega⟩

/-- The state of the charging: `r` halvings of the queue are still to come, `c` bits are spent, and
what is not yet charged in the current halving is left over of its total `N`. -/
def Bounded (w : Nat → Nat) (pq : List Nat) (c N : Nat) : Prop :=
  ∃ U V r, pq.Perm (U ++ V) ∧ 1 ≤ r ∧ r ≤ 8 ∧ pq.length - U.length / 2 ≤ 2 ^ (r - 1) ∧
    c + (U.map w).sum ≤ (9 - r) * N

theorem bounded_start (w : Nat → Nat) {pq : List Nat} (h : pq.length ≤ 256) :
    Bounded w pq 0 (pq.map w).sum :=
  ⟨pq, [], 8, by simp, by omega, by omega, by simp; omega, by simp⟩

theorem bounded_end {w : Nat → Nat} {pq : List Nat} {c N : Nat} (h : Bounded w pq c N) : c ≤ 8 * N := by
  obtain ⟨U, V, r, -, h1, h2, -, h3⟩ := h
  have : (9 - r) * N ≤ 8 * N := Nat.mul_le_mul_right N (by omega)
  omega

/-- A merge of the two lowest members keeps the bound. -/
theorem bounded_merge {w w' : Nat → Nat} {pq R : List Nat} {a b k c N : Nat} (h : Bounded w pq c N)
    (hp : pq.Perm (a :: b :: R)) (hw : ∀ z ∈ R, w a ≤ w z ∧ w b ≤ w z) (hN : (pq.map w).sum = N)
    (hw' : ∀ z ∈ R, w' z = w z) : Bounded w' (R ++ [k]) (c + (w a + w b)) N := by
  have hl := hp.length_eq
  simp only [List.length_cons] at hl
  -- the halving in which this merge is charged
  obtain ⟨U, V, r, h0, h1, h2, h3, h4, hU⟩ : ∃ U V r, pq.Perm (U ++ V) ∧ 1 ≤ r ∧ r ≤ 8 ∧
      pq.length - U.length / 2 ≤ 2 ^ (r - 1) ∧ c + (U.map w).sum ≤ (9 - r) * N ∧ 2 ≤ U.length := by
    obtain ⟨U, V, r, h0, h1, h2, h3, h4⟩ := h
    by_cases hU : 2 ≤ U.length
    · exact ⟨U, V, r, h0, h1, h2, h3, h4, hU⟩
    · have hlen : pq.length ≤ 2 ^ (r - 1) := by omega
      have hr : 2 ≤ r := by
        by_contra hr
        have : r = 1 := by omega
        subst this
        simp at hlen
        omega
      obtain ⟨q, rfl⟩ : ∃ q, r = q + 2 := ⟨r - 2, by omega⟩
      refine ⟨pq, [], q + 1, by simp, by omega, by omega, ?_, ?_, by omega⟩
      · have : (2 : Nat) ^ (q + 2 - 1) = 2 * 2 ^ (q + 1 - 1) := by
          rw [show q + 2 - 1 = (q + 1 - 1) + 1 by omega, Nat.pow_succ]; omega
        omega
      · rw [hN]
        have : (9 - (q + 1)) * N = (9 - (q + 2)) * N + N := by
          rw [show 9 - (q + 1) = (9 - (q + 2)) + 1 by omega, Nat.add_mul, Nat.one_mul]
        omega
  obtain ⟨U', V', g1, g2, g3⟩ := charge_two (h0.symm.trans hp) hw hU
  have e : U'.map w' = U'.map w := List.map_congr_left fun z hz =>
    hw' z (g1.mem_iff.1 (List.mem_append_left _ hz))
  refine ⟨U', V' ++ [k], r, ?_, h1, h2, ?_, by rw [e]; omega⟩
  · rw [← List.append_assoc]
    exact (g1.symm.append_right [k])
  · simp only [List.length_append, List.length_singleton]
    omega

/-! ### The merge loop -/

/-- The children of the internal nodes made so far. -/
def childList (s : State) (n : Nat) : List Nat :=
  ((List.range s.nnode).drop n).flatMap fun k => [(nodeAt s k).left, (nodeAt s k).right]

/-- The invariant of the merge loop over the state `s0` after the leaf loop, with `n` leaves of the
symbols `P` weighing `w`; `f` gives the tree that each arena entry holds. -/
structure Merging (s0 s : State) (n : Nat) (P : List Byte) (w : Byte → Nat) (f : Nat → Tree) :
    Prop where
  rising : s.pq.Pairwise (· < ·)
  ge : n ≤ s.nnode
  count : s.nnode + s.pq.length = 2 * n
  trees : ∀ j < s.nnode, holdsTree s j (f j) = true ∧ (nodeAt s j).weight = treeWeight w (f j)
  children : (childList s n ++ s.pq).Perm (List.range s.nnode)
  leaves : (s.pq.flatMap fun j => treeLeaves (f j)).Perm P
  sizes : (s.pq.map fun j => treeSize (f j)).sum = s.nnode
  bound : Bounded (fun j => (nodeAt s j).weight) s.pq (s.pq.map fun j => treeCost w (f j)).sum
    (P.map w).sum
  leafKind : ∀ k < n, (nodeAt s k).kind = .leaf
  records : ∀ k, n ≤ k → k < s.nnode → (nodeAt s k).left < k ∧ (nodeAt s k).right < k ∧
    keyLess s (nodeAt s k).left (nodeAt s k).right ∧
    nodeAt s k = internalRecord (nodeAt s k).left (nodeAt s k).right
      ((nodeAt s (nodeAt s k).left).weight + (nodeAt s (nodeAt s k).right).weight)
  lowest : ∀ k, n ≤ k → k < s.nnode → ∀ j < k,
    (∀ m, n ≤ m → m < k → (nodeAt s m).left ≠ j ∧ (nodeAt s m).right ≠ j) →
    j = (nodeAt s k).left ∨ j = (nodeAt s k).right ∨ keyLess s (nodeAt s k).right j
  outside : ∀ k, k < n ∨ s.nnode ≤ k → nodeAt s k = nodeAt s0 k
  rest : s = { s0 with node := s.node, pq := s.pq, nnode := s.nnode }

/-- A tree below an index stands wherever the entries below the index are the same. -/
theorem holdsTree_below {s t : State} {m : Nat} (hc : ∀ k < m, (nodeAt s k).kind = .internal →
    (nodeAt s k).left < k ∧ (nodeAt s k).right < k) (he : ∀ k < m, nodeAt t k = nodeAt s k)
    {tr : Tree} : ∀ {j : Nat}, j < m → holdsTree s j tr = true → holdsTree t j tr = true := by
  induction tr with
  | leaf sym =>
    intro j hj h
    exact holdsTree_leaf.2 (by rw [he j hj]; exact holdsTree_leaf.1 h)
  | node l r ihl ihr =>
    intro j hj h
    obtain ⟨h1, h2, h3, h4⟩ := holdsTree_node.1 h
    have := hc j hj h2
    refine holdsTree_node.2 ⟨h1, by rw [he j hj]; exact h2, ?_, ?_⟩ <;> rw [he j hj]
    · exact ihl (by omega) h3
    · exact ihr (by omega) h4

theorem Merging.total {s0 s : State} {n : Nat} {P : List Byte} {w : Byte → Nat} {f : Nat → Tree}
    (h : Merging s0 s n P w f) : (s.pq.map fun j => (nodeAt s j).weight).sum = (P.map w).sum := by
  have lt : ∀ j ∈ s.pq, j < s.nnode := fun j hj =>
    List.mem_range.1 (h.children.mem_iff.1 (List.mem_append_right _ hj))
  have e : s.pq.map (fun j => (nodeAt s j).weight) =
      s.pq.map fun j => ((treeLeaves (f j)).map w).sum :=
    List.map_congr_left fun j hj => by rw [(h.trees j (lt j hj)).2, treeWeight_leaves]
  rw [e, ← (h.leaves.map w).sum_eq, List.map_flatMap]
  generalize s.pq = l
  induction l with
  | nil => rfl
  | cons j l ih => simp [ih]

/-- One merge keeps the invariant (41_tree_builder R122). -/
theorem merging_step {s0 s : State} {n : Nat} {P : List Byte} {w : Byte → Nat} {f : Nat → Tree}
    (h : Merging s0 s n P w f) (hn : n ≤ 256) (hq : 2 ≤ s.pq.length) (fuel : Nat) :
    ∃ t f', Merging s0 t n P w f' ∧ t.pq.length + 1 = s.pq.length ∧
      mergeLoop (fuel + 1) s = mergeLoop fuel t := by
  have hk : s.nnode < 511 := by have := h.count; omega
  have lt : ∀ j ∈ s.pq, j < s.nnode := fun j hj =>
    List.mem_range.1 (h.children.mem_iff.1 (List.mem_append_right _ hj))
  -- the two lowest members
  obtain ⟨a, ha, hamin, pa⟩ := queuePopMin_eq (s := s) (by intro h0; rw [h0] at hq; simp at hq)
  have p1 := List.perm_cons_erase ha
  have l1 := p1.length_eq
  simp only [List.length_cons] at l1
  let s1 : State := { s with pq := s.pq.erase a }
  obtain ⟨b, hb, hbmin, pb⟩ := queuePopMin_eq (s := s1) (by
    intro h0
    have : s.pq.erase a = [] := h0
    rw [this] at l1
    simp at l1
    omega)
  have hb : b ∈ s.pq.erase a := hb
  have hbmin : ∀ j ∈ s.pq.erase a, j = b ∨ keyLess s b j := hbmin
  have p2 := List.perm_cons_erase hb
  have nd : s.pq.Nodup := h.rising.imp fun hlt => Nat.ne_of_lt hlt
  have hab : b ≠ a := fun e => by
    have := (List.Nodup.mem_erase_iff nd).1 hb
    exact this.1 e
  have hbq : b ∈ s.pq := List.mem_of_mem_erase hb
  let R := (s.pq.erase a).erase b
  have pq2 : s.pq.Perm (a :: b :: R) := p1.trans (p2.cons a)
  have lR := pq2.length_eq
  simp only [List.length_cons] at lR
  have hkab : keyLess s a b := (hamin b hbq).resolve_left hab
  have memR : ∀ j ∈ R, j ∈ s.pq ∧ keyLess s b j := by
    intro j hj
    have hj1 : j ∈ s.pq.erase a := List.mem_of_mem_erase hj
    have nd1 : (s.pq.erase a).Nodup := nd.erase a
    exact ⟨List.mem_of_mem_erase hj1,
      (hbmin j hj1).resolve_left ((List.Nodup.mem_erase_iff nd1).1 hj).1⟩
  have ltR : ∀ j ∈ R, j < s.nnode := fun j hj => lt j (memR j hj).1
  have hak := lt a ha
  have hbk := lt b hbq
  -- the new node
  let x := internalRecord a b ((nodeAt s a).weight + (nodeAt s b).weight)
  let t : State := { s with
    node := s.node.setIfInBounds s.nnode x
    pq := R ++ [s.nnode]
    nnode := s.nnode + 1 }
  have hnode : ∀ k, nodeAt t k = if k = s.nnode then x else nodeAt s k :=
    fun k => nodeAt_set s s.nnode k x hk
  have hnew : nodeAt t s.nnode = x := by rw [hnode, if_pos rfl]
  have hold : ∀ k, k ≠ s.nnode → nodeAt t k = nodeAt s k := fun k hne => by rw [hnode, if_neg hne]
  have hne : ∀ {k}, k < s.nnode → k ≠ s.nnode := fun hlt => Nat.ne_of_lt hlt
  let f' : Nat → Tree := fun j => if j = s.nnode then .node (f a) (f b) else f j
  have hf' : ∀ j, j < s.nnode → f' j = f j := fun j hj => if_neg (hne hj)
  have hfn : f' s.nnode = .node (f a) (f b) := if_pos rfl
  have rangeDrop : (List.range (s.nnode + 1)).drop n = (List.range s.nnode).drop n ++ [s.nnode] := by
    rw [List.range_succ, List.drop_append_of_le_length (by simpa using h.ge)]
  have inner : ∀ k < s.nnode, (nodeAt s k).kind = .internal →
      (nodeAt s k).left < k ∧ (nodeAt s k).right < k := by
    intro k hk hi
    by_cases hkn : k < n
    · rw [h.leafKind k hkn] at hi; cases hi
    · have := h.records k (by omega) hk; exact ⟨this.1, this.2.1⟩
  have same : ∀ {tr : Tree} {j : Nat}, j < s.nnode → holdsTree s j tr = true →
      holdsTree t j tr = true :=
    fun hj ht => holdsTree_below inner (fun k hk => hold k (hne hk)) hj ht
  have wa := h.trees a hak
  have wb := h.trees b hbk
  have mapR : ∀ {β : Type} (g : Tree → β), (R.map fun j => g (f' j)) = R.map fun j => g (f j) :=
    fun g => List.map_congr_left fun j hj => by rw [hf' j (ltR j hj)]
  have sumS : ∀ g : Tree → Nat, (s.pq.map fun j => g (f j)).sum =
      g (f a) + (g (f b) + (R.map fun j => g (f j)).sum) := fun g => by
    rw [(pq2.map fun j => g (f j)).sum_eq]; simp
  have sumT : ∀ g : Tree → Nat, (t.pq.map fun j => g (f' j)).sum =
      (R.map fun j => g (f j)).sum + g (.node (f a) (f b)) := fun g => by
    show ((R ++ [s.nnode]).map fun j => g (f' j)).sum = _
    rw [List.map_append, List.sum_append, mapR, List.map_cons, List.map_nil, hfn]
    simp
  refine ⟨t, f', ?_, ?_, ?_⟩
  · constructor
    case rising =>
      show (R ++ [s.nnode]).Pairwise (· < ·)
      refine List.pairwise_append.2 ⟨erase_rising (erase_rising h.rising a) b, by simp, ?_⟩
      intro j hj k hk
      rw [List.mem_singleton.1 hk]
      exact ltR j hj
    case ge => show n ≤ s.nnode + 1; have := h.ge; omega
    case count =>
      show s.nnode + 1 + (R ++ [s.nnode]).length = 2 * n
      have := h.count
      simp only [List.length_append, List.length_singleton]
      omega
    case trees =>
      intro j hj
      by_cases hjn : j = s.nnode
      · subst hjn
        rw [hfn, hnew]
        refine ⟨holdsTree_node.2 ⟨hk, by rw [hnew]; rfl, ?_, ?_⟩, ?_⟩
        · rw [hnew]; exact same hak wa.1
        · rw [hnew]; exact same hbk wb.1
        · show (nodeAt s a).weight + (nodeAt s b).weight = _
          rw [wa.2, wb.2]
          rfl
      · have hj : j < s.nnode + 1 := hj
        have hj' : j < s.nnode := by omega
        rw [hf' j hj', hold j hjn]
        exact ⟨same hj' (h.trees j hj').1, (h.trees j hj').2⟩
    case children =>
      have hc : childList t n = childList s n ++ [a, b] := by
        show ((List.range (s.nnode + 1)).drop n).flatMap _ = _
        rw [rangeDrop, List.flatMap_append]
        congr 1
        · refine List.flatMap_congr fun k hk' => ?_
          have : k ∈ List.range s.nnode := List.mem_of_mem_drop hk'
          rw [hold k (hne (List.mem_range.1 this))]
        · simp [hnew, x, internalRecord]
      show (childList t n ++ (R ++ [s.nnode])).Perm (List.range (s.nnode + 1))
      rw [hc, List.range_succ, ← List.append_assoc]
      refine List.Perm.append_right _ ?_
      refine List.Perm.trans ?_ h.children
      rw [List.append_assoc]
      exact List.Perm.append_left _ pq2.symm
    case leaves =>
      show ((R ++ [s.nnode]).flatMap fun j => treeLeaves (f' j)).Perm P
      refine List.Perm.trans ?_ h.leaves
      have e1 : (R.flatMap fun j => treeLeaves (f' j)) = R.flatMap fun j => treeLeaves (f j) :=
        List.flatMap_congr fun j hj => by rw [hf' j (ltR j hj)]
      rw [List.flatMap_append, e1, List.flatMap_cons, List.flatMap_nil, hfn, List.append_nil]
      refine List.Perm.trans ?_ (pq2.flatMap_right _).symm
      rw [List.flatMap_cons, List.flatMap_cons, ← List.append_assoc]
      exact List.perm_append_comm
    case sizes =>
      have e1 := sumS treeSize
      have e2 := sumT treeSize
      have := h.sizes
      show (t.pq.map fun j => treeSize (f' j)).sum = s.nnode + 1
      simp only [treeSize] at e2
      omega
    case bound =>
      have hw : ∀ z ∈ R, (nodeAt s a).weight ≤ (nodeAt s z).weight ∧
          (nodeAt s b).weight ≤ (nodeAt s z).weight := by
        intro z hz
        have := keyLess_weight (memR z hz).2
        have := keyLess_weight hkab
        omega
      have hb' := bounded_merge (k := s.nnode) (w' := fun j => (nodeAt t j).weight) h.bound pq2 hw
        h.total fun z hz => by rw [hold z (hne (ltR z hz))]
      have e1 := sumS (treeCost w)
      have e2 := sumT (treeCost w)
      simp only [treeCost, ← wa.2, ← wb.2] at e2
      have ec : (t.pq.map fun j => treeCost w (f' j)).sum =
          (s.pq.map fun j => treeCost w (f j)).sum +
            ((nodeAt s a).weight + (nodeAt s b).weight) := by omega
      rw [ec]
      exact hb'
    case leafKind =>
      intro k hkn
      rw [hold k (by have := h.ge; omega)]
      exact h.leafKind k hkn
    case records =>
      intro k hkn hk'
      have hk' : k < s.nnode + 1 := hk'
      by_cases hkk : k = s.nnode
      · subst hkk
        rw [hnew]
        refine ⟨hak, hbk, ?_, ?_⟩
        · exact (keyLess_congr (hold a (hne hak)) (hold b (hne hbk))).2 hkab
        · show x = internalRecord a b ((nodeAt t a).weight + (nodeAt t b).weight)
          rw [hold a (hne hak), hold b (hne hbk)]
      · obtain ⟨r1, r2, r3, r4⟩ := h.records k hkn (by omega)
        rw [hold k hkk]
        refine ⟨r1, r2, ?_, ?_⟩
        · exact (keyLess_congr (hold _ (by omega)) (hold _ (by omega))).2 r3
        · rw [hold _ (by omega : (nodeAt s k).left ≠ s.nnode),
            hold _ (by omega : (nodeAt s k).right ≠ s.nnode)]
          exact r4
    case lowest =>
      intro k hkn hk' j hj hnc
      have hk' : k < s.nnode + 1 := hk'
      by_cases hkk : k = s.nnode
      · subst hkk
        have hjc : j ∉ childList s n := by
          intro hm
          obtain ⟨m, hm1, hm2⟩ := List.mem_flatMap.1 hm
          have hm3 : m < s.nnode := List.mem_range.1 (List.mem_of_mem_drop hm1)
          have hm4 : n ≤ m := by
            rw [List.mem_iff_getElem] at hm1
            obtain ⟨i, hi, rfl⟩ := hm1
            simp
          have := hnc m hm4 hm3
          rw [hold m (hne hm3)] at this
          simp at hm2
          rcases hm2 with h | h
          · exact this.1 h.symm
          · exact this.2 h.symm
        have hjq : j ∈ s.pq := by
          have : j ∈ childList s n ++ s.pq := h.children.mem_iff.2 (List.mem_range.2 hj)
          exact (List.mem_append.1 this).resolve_left hjc
        rw [hnew]
        show j = a ∨ j = b ∨ keyLess t b j
        rcases List.mem_cons.1 (pq2.mem_iff.1 hjq) with h1 | h1
        · exact .inl h1
        · rcases List.mem_cons.1 h1 with h1 | h1
          · exact .inr (.inl h1)
          · exact .inr (.inr ((keyLess_congr (hold b (hne hbk)) (hold j (hne hj))).2 (memR j h1).2))
      · have hr := h.records k hkn (by omega)
        have := h.lowest k hkn (by omega) j hj fun m hm1 hm2 => by
          have := hnc m hm1 hm2
          rwa [hold m (by omega)] at this
        rw [hold k hkk]
        rcases this with h1 | h1 | h1
        · exact .inl h1
        · exact .inr (.inl h1)
        · exact .inr (.inr ((keyLess_congr (hold _ (by omega)) (hold _ (by omega))).2 h1))
    case outside =>
      intro k hk'
      have hk' : k < n ∨ s.nnode + 1 ≤ k := hk'
      have := h.ge
      rw [hold k (by omega)]
      exact h.outside k (by omega)
    case rest => show t = _; rw [show t = { s with node := t.node, pq := t.pq, nnode := t.nnode } from rfl, h.rest]
  · show (R ++ [s.nnode]).length + 1 = _
    simp only [List.length_append, List.length_singleton]
    omega
  · have hq' : ¬ s.pq.length ≤ 1 := by omega
    have ra : ∀ u : State, u.node = s.node → readNode u a = .ok (nodeAt s a) := fun u hu => by
      rw [readNode_eq (by omega), nodeAt_congr hu]
    have rb : ∀ u : State, u.node = s.node → readNode u b = .ok (nodeAt s b) := fun u hu => by
      rw [readNode_eq (by omega), nodeAt_congr hu]
    let s2 : State := { s with pq := R }
    have pb' : queuePopMin s1 = .ok (b, s2) := pb
    have hw : writeNode s2 s2.nnode x = .ok { s2 with node := s2.node.setIfInBounds s2.nnode x } :=
      writeNode_eq x hk
    simp only [mergeLoop, hq', if_false, pa, ok_bind]
    rw [show ({ s with pq := s.pq.erase a } : State) = s1 from rfl, pb']
    simp only [ok_bind]
    rw [ra s2 rfl, ok_bind, rb s2 rfl, ok_bind]
    rw [show internalRecord a b ((nodeAt s a).weight + (nodeAt s b).weight) = x from rfl, hw, ok_bind]
    have : setInsert s.nnode R = R ++ [s.nnode] := setInsert_last ltR
    simp only [queuePush, s2, this]
    rfl

/-- The merge loop runs until at most one member is queued. -/
theorem mergeLoop_eq {s0 : State} {n : Nat} {P : List Byte} {w : Byte → Nat} (hn : n ≤ 256)
    (fuel : Nat) : ∀ {s : State} {f : Nat → Tree}, Merging s0 s n P w f → s.pq.length ≤ fuel →
    ∃ t f', mergeLoop fuel s = .ok t ∧ Merging s0 t n P w f' ∧ t.pq.length ≤ 1 := by
  induction fuel with
  | zero => intro s f h hq; exact ⟨s, f, rfl, h, by omega⟩
  | succ fuel ih =>
    intro s f h hq
    by_cases h1 : s.pq.length ≤ 1
    · exact ⟨s, f, by simp only [mergeLoop, h1, if_true], h, h1⟩
    · obtain ⟨t, f', h2, h3, h4⟩ := merging_step h hn (by omega) fuel
      rw [h4]
      exact ih h2 (by omega)

/-- The invariant holds where the merge loop starts. -/
theorem merging_start {s s1 : State} (hp : s1.pq = List.range (presentSymbols s).length)
    (hl : ∀ (k : Nat) (h : k < (presentSymbols s).length),
      nodeAt s1 k = leafRecord (presentSymbols s)[k] (readFT s (presentSymbols s)[k])) :
    Merging s1 { s1 with nnode := (presentSymbols s).length } (presentSymbols s).length
      (presentSymbols s) (readFT s) fun j => .leaf ((presentSymbols s).getD j 0#8) := by
  have hlen := presentSymbols_length_le s
  have hmap : (List.range (presentSymbols s).length).map (fun j => (presentSymbols s).getD j 0#8) =
      presentSymbols s := by
    apply List.ext_getElem
    · simp
    · intro i h1 h2
      simp [List.getD_eq_getElem?_getD, h2]
  constructor
  case rising => show s1.pq.Pairwise _; rw [hp]; exact List.pairwise_lt_range
  case ge => exact Nat.le_refl _
  case count =>
    show (presentSymbols s).length + s1.pq.length = _
    rw [hp, List.length_range]
    omega
  case trees =>
    intro j hj
    have hj : j < (presentSymbols s).length := hj
    have e : (presentSymbols s).getD j 0#8 = (presentSymbols s)[j] := by
      simp [List.getD_eq_getElem?_getD, hj]
    have hn : nodeAt { s1 with nnode := (presentSymbols s).length } j =
        leafRecord (presentSymbols s)[j] (readFT s (presentSymbols s)[j]) := hl j hj
    rw [e, hn]
    exact ⟨holdsTree_leaf.2 ⟨by omega, by rw [hn]; rfl, by rw [hn]; rfl⟩, rfl⟩
  case children =>
    show (((List.range (presentSymbols s).length).drop _).flatMap _ ++ s1.pq).Perm _
    rw [hp, List.drop_of_length_le (by simp)]
    exact List.Perm.refl _
  case leaves =>
    show (s1.pq.flatMap fun j => [(presentSymbols s).getD j 0#8]).Perm _
    rw [hp, ← List.map_eq_flatMap, hmap]
  case sizes =>
    show (s1.pq.map fun j => 1).sum = _
    rw [hp]
    simp
  case bound =>
    show Bounded (fun j => (nodeAt s1 j).weight) s1.pq (s1.pq.map fun j => 0).sum _
    have e0 : (s1.pq.map fun _ => 0).sum = 0 := by simp
    have ew : (s1.pq.map fun j => (nodeAt s1 j).weight) = (presentSymbols s).map (readFT s) := by
      rw [hp]
      apply List.ext_getElem
      · simp
      · intro i h1 h2
        simp at h1
        simp [hl i h1, leafRecord]
    rw [e0, ← ew]
    exact bounded_start _ (by rw [hp]; simpa using hlen)
  case leafKind =>
    intro k hk
    have : nodeAt { s1 with nnode := (presentSymbols s).length } k = _ := hl k hk
    rw [this]
    rfl
  case records => intro k h1 h2; have h2 : k < (presentSymbols s).length := h2; omega
  case lowest => intro k h1 h2; have h2 : k < (presentSymbols s).length := h2; omega
  case outside => intro k _; rfl
  case rest => rfl

theorem mem_childList {s : State} {n j : Nat} (h : j ∈ childList s n) :
    ∃ m, n ≤ m ∧ m < s.nnode ∧ (j = (nodeAt s m).left ∨ j = (nodeAt s m).right) := by
  obtain ⟨m, h1, h2⟩ := List.mem_flatMap.1 h
  refine ⟨m, ?_, List.mem_range.1 (List.mem_of_mem_drop h1), by simpa using h2⟩
  rw [List.mem_iff_getElem] at h1
  obtain ⟨i, hi, rfl⟩ := h1
  simp

/-- Where the merge loop ends, the queue holds the last entry, or nothing if there is no symbol. -/
theorem merging_done {s0 s : State} {n : Nat} {P : List Byte} {w : Byte → Nat} {f : Nat → Tree}
    (h : Merging s0 s n P w f) (hq : s.pq.length ≤ 1) :
    (n = 0 ∧ s.nnode = 0 ∧ s.pq = []) ∨ (0 < n ∧ s.nnode = 2 * n - 1 ∧ s.pq = [2 * n - 2]) := by
  have hc := h.count
  have hs := h.sizes
  match hpq : s.pq with
  | [] =>
    rw [hpq] at hc hs
    simp at hc hs
    exact .inl ⟨by omega, hs.symm, rfl⟩
  | [r] =>
    rw [hpq] at hc
    simp only [List.length_singleton] at hc
    have hn : 0 < n := by omega
    refine .inr ⟨hn, by omega, ?_⟩
    have hm : s.nnode - 1 ∈ childList s n ++ s.pq :=
      h.children.mem_iff.2 (List.mem_range.2 (by omega))
    rcases List.mem_append.1 hm with hm | hm
    · obtain ⟨m, h1, h2, h3⟩ := mem_childList hm
      have := h.records m h1 h2
      omega
    · rw [hpq, List.mem_singleton] at hm
      rw [show r = 2 * n - 2 by omega]
  | _ :: _ :: _ => rw [hpq] at hq; simp at hq

/-- What the body of TBUILD leaves (41_tree_builder R122, R124): the arena of the ended merge loop `v`,
over the leaves `u`. -/
structure Built (s t u v : State) (f : Nat → Tree) : Prop where
  merging : Merging u v (presentSymbols s).length (presentSymbols s) (readFT s) f
  leavesAt : ∀ (k : Nat) (h : k < (presentSymbols s).length),
    nodeAt u k = leafRecord (presentSymbols s)[k] (readFT s (presentSymbols s)[k])
  above : ∀ k, (presentSymbols s).length ≤ k → nodeAt u k = nodeAt s k
  node : t.node = v.node
  done : v.pq.length ≤ 1
  nnode : t.nnode = v.nnode
  root : t.root = 2 * (presentSymbols s).length - 2
  rest : t = { s with node := t.node, nnode := t.nnode, root := t.root, stage := .tree }

theorem tbuildBody_eq {s : State} (hq : s.pq = []) :
    ∃ t u v f, tbuildBody s = .ok t ∧ Built s t u v f := by
  obtain ⟨u, h1, h2, h3, h4, h5⟩ := leafLoop_present hq
  have hlen := presentSymbols_length_le s
  obtain ⟨v, f, h6, h7, h8⟩ := mergeLoop_eq hlen u.pq.length (merging_start h2 h4) (Nat.le_refl _)
  have hu : u = { s with node := u.node, pq := u.pq } := h5
  have hv : v = { s with node := v.node, pq := v.pq, nnode := v.nnode } := by
    rw [h7.rest]
    simp only
    rw [hu]
  have htake : takeRoot v = .ok { v with pq := [], root := 2 * (presentSymbols s).length - 2 } := by
    rcases merging_done h7 h8 with ⟨g1, g2, g3⟩ | ⟨g1, g2, g3⟩
    · have : ¬ v.pq.length = 1 := by simp [g3]
      simp only [takeRoot, this, if_false, g1]
      rw [← g3]
    · have hone : v.pq.length = 1 := by simp [g3]
      obtain ⟨m, hm, -, hpop⟩ := queuePopMin_eq (s := v) (by simp [g3])
      rw [g3, List.mem_singleton] at hm
      subst hm
      simp only [takeRoot, hone, if_true, hpop, ok_bind]
      simp [g3]
  refine ⟨{ v with pq := [], root := 2 * (presentSymbols s).length - 2, stage := .tree }, u, v, f, ?_,
    h7, h4, h3, rfl, h8, rfl, rfl, ?_⟩
  · have h6' : mergeLoop u.pq.length { u with nnode := (presentSymbols s).length } = .ok v := h6
    simp only [tbuildBody, h1, ok_bind, h6', htake]
  · simp only
    rw [hv, ← hq]

/-- The tree that TBUILD leaves at the root: its leaves are the present symbols, it has every node, and
its codes take at most 8 bits a counted symbol (41_tree_builder R124, 46_codec R206). -/
theorem built_tree {s t u v : State} {f : Nat → Tree} (h : Built s t u v f)
    (hne : presentSymbols s ≠ []) :
    t.nnode = 2 * (presentSymbols s).length - 1 ∧ 0 < (presentSymbols s).length ∧
      holdsTree t t.root (f t.root) = true ∧ (treeLeaves (f t.root)).Perm (presentSymbols s) ∧
      treeSize (f t.root) = t.nnode ∧
      (nodeAt t t.root).weight = ((presentSymbols s).map (readFT s)).sum ∧
      treeCost (readFT s) (f t.root) ≤ 8 * ((presentSymbols s).map (readFT s)).sum ∧
      v.pq = [t.root] := by
  have hpos : 0 < (presentSymbols s).length := List.length_pos_iff.2 hne
  rcases merging_done h.merging h.done with ⟨g1, -, -⟩ | ⟨-, g2, g3⟩
  · omega
  rw [← h.root] at g3
  have m := h.merging
  have hr : t.root < v.nnode := by rw [h.root, g2]; omega
  have ht := m.trees t.root hr
  have hl := m.leaves
  have hz := m.sizes
  have hb := bounded_end m.bound
  have hw := m.total
  rw [g3] at hl hz hb hw
  simp only [List.flatMap_cons, List.flatMap_nil, List.append_nil, List.map_cons, List.map_nil,
    List.sum_cons, List.sum_nil, Nat.add_zero] at hl hz hb hw
  refine ⟨by rw [h.nnode, g2], hpos, (holdsTree_node_congr h.node _ _).trans ht.1, hl, ?_, ?_, hb, g3⟩
  · rw [hz, h.nnode]
  · rw [nodeAt_congr h.node]; exact hw

/-- Without a present symbol TBUILD leaves an empty arena (41_tree_builder R127). -/
theorem built_empty {s t u v : State} {f : Nat → Tree} (h : Built s t u v f)
    (he : presentSymbols s = []) : t.nnode = 0 ∧ t.root = 0 := by
  have h0 : (presentSymbols s).length = 0 := by rw [he]; rfl
  rcases merging_done h.merging h.done with ⟨-, g2, -⟩ | ⟨g1, -, -⟩
  · exact ⟨by rw [h.nnode, g2], by rw [h.root, h0]⟩
  · omega

end Sys2Proof.Machine
end

