-- ==== Sys2Proof/Laws/InputOnly.lean ====
section
/-! SUPPORT. COMPRESS and DECOMPRESS read no byte of IB at or above IN_LEN and nothing of the host's side
(46_codec R207): with another IB that agrees below IN_LEN, and another host's side, their bodies end alike. -/

namespace Sys2Proof.Machine

/-- The state with another IB and another host's side. -/
def reseat (m : Buf) (p : HostPort) (s : State) : State := { s with ib := m, host := p }

/-- The two buffers agree on the input. -/
abbrev SameInput (m : Buf) (s : State) : Prop := ∀ a < s.inLen, bufRead m a = bufRead s.ib a

/-- Sequencing commutes with what both parts commute with. -/
theorem bind_map {α α' β β' ε : Type} {x : Except ε α} {x' : Except ε α'} {f : α → α'}
    {g : α → Except ε β} {g' : α' → Except ε β'} {k : β → β'} (hx : x' = x.map f)
    (hg : ∀ a, x = .ok a → g' (f a) = (g a).map k) : (x' >>= g') = (x >>= g).map k := by
  cases x with
  | error e => subst hx; rfl
  | ok a => subst hx; exact hg a rfl

variable {m : Buf} {p : HostPort}

/-- As `bind_map`, where the first part answers the same. -/
theorem bind_same {α β β' ε : Type} {x : Except ε α} {g : α → Except ε β} {g' : α → Except ε β'}
    {k : β → β'} (hg : ∀ a, x = .ok a → g' a = (g a).map k) : (x >>= g') = (x >>= g).map k := by
  cases x with
  | error e => rfl
  | ok a => exact hg a rfl

/-- What an operation returns beside its state is the same. -/
abbrev reseatRet (m : Buf) (p : HostPort) {α : Type} (x : α × State) : α × State :=
  (x.1, reseat m p x.2)

theorem memReadByte_input {s : State} {a : Nat} (h : SameInput m s) (ha : a < s.inLen) :
    memReadByte (reseat m p s) .ib a = memReadByte s .ib a := by
  simp only [memReadByte, buffer, reseat, h a ha]

theorem memWrite_reseat {s : State} {n : BufName} (hn : n ≠ .ib) (a : Nat) (bs : List Byte) :
    memWrite (reseat m p s) n a bs = (memWrite s n a bs).map (reseat m p) := by
  cases n with
  | ib => exact absurd rfl hn
  | _ => unfold memWrite; rw [apply_ite (Except.map (reseat m p))]; rfl

theorem writeNode_reseat (s : State) (i : Nat) (x : Node) :
    writeNode (reseat m p s) i x = (writeNode s i x).map (reseat m p) := by
  unfold writeNode; rw [apply_ite (Except.map (reseat m p))]; rfl

theorem sinkBuffer_ne_ib (k : Sink) : sinkBuffer k ≠ .ib := by cases k <;> simp [sinkBuffer]

/-! ### The frequency counter and the tree builder -/

theorem countLoop_reseat {n : Nat} : ∀ {i : Nat} {s : State}, SameInput m s → i + n ≤ s.inLen →
    countLoop n i (reseat m p s) = (countLoop n i s).map (reseat m p) := by
  induction n with
  | zero => intro i s _ _; rfl
  | succ n ih =>
    intro i s h hi
    simp only [countLoop, memReadByte_input h (show i < s.inLen by omega)]
    exact bind_same fun b _ => ih (s := writeFT s b (readFT s b + 1)) h (by simp only [writeFT]; omega)

theorem fcountBody_reseat {s : State} (h : SameInput m s) :
    fcountBody (reseat m p s) = (fcountBody s).map (reseat m p) :=
  bind_map (countLoop_reseat h (Nat.le_of_eq (Nat.zero_add _))) fun _ _ => rfl

theorem leafLoop_reseat (vs : List Nat) : ∀ (n : Nat) (s : State),
    leafLoop vs n (reseat m p s) = (leafLoop vs n s).map (reseatRet m p) := by
  induction vs with
  | nil => intro n s; rfl
  | cons v vs ih =>
    intro n s
    simp only [leafLoop]
    rw [show readFT (reseat m p s) (BitVec.ofNat 8 v) = readFT s (BitVec.ofNat 8 v) from rfl]
    split
    · exact bind_map (writeNode_reseat s _ _) fun t _ => ih (n + 1) (queuePush n t)
    · exact ih n s

theorem lowestKey_reseat (s : State) (l : List Nat) : lowestKey (reseat m p s) l = lowestKey s l := by
  induction l with
  | nil => rfl
  | cons i l ih => simp only [lowestKey, ih]; rfl

theorem queuePopMin_reseat (s : State) :
    queuePopMin (reseat m p s) = (queuePopMin s).map (reseatRet m p) := by
  unfold queuePopMin
  rw [show (reseat m p s).pq = s.pq from rfl, lowestKey_reseat]
  cases lowestKey s s.pq <;> rfl

theorem mergeLoop_reseat (fuel : Nat) : ∀ s : State,
    mergeLoop fuel (reseat m p s) = (mergeLoop fuel s).map (reseat m p) := by
  induction fuel with
  | zero => intro s; rfl
  | succ fuel ih =>
    intro s
    simp only [mergeLoop]
    rw [show (reseat m p s).pq = s.pq from rfl]
    split
    · rfl
    · refine bind_map (queuePopMin_reseat s) fun x _ => bind_map (queuePopMin_reseat x.2) fun y _ => ?_
      refine bind_same (x := readNode y.2 x.1) fun na _ => bind_same (x := readNode y.2 y.1) fun nb _ => ?_
      exact bind_map (writeNode_reseat y.2 _ _) fun t _ =>
        ih { queuePush t.nnode t with nnode := t.nnode + 1 }

theorem takeRoot_reseat (s : State) : takeRoot (reseat m p s) = (takeRoot s).map (reseat m p) := by
  unfold takeRoot
  rw [show (reseat m p s).pq = s.pq from rfl]
  split
  · exact bind_map (queuePopMin_reseat s) fun _ _ => rfl
  · rfl

theorem tbuildBody_reseat (s : State) : tbuildBody (reseat m p s) = (tbuildBody s).map (reseat m p) :=
  bind_map (leafLoop_reseat _ 0 s) fun x _ =>
    bind_map (mergeLoop_reseat x.2.pq.length { x.2 with nnode := x.1 }) fun t _ =>
      bind_map (takeRoot_reseat t) fun _ _ => rfl

/-! ### The code table -/

theorem codeWalk_reseat (fuel : Nat) : ∀ (i : Nat) (path : List Bool) (s : State),
    codeWalk fuel i path (reseat m p s) = (codeWalk fuel i path s).map (reseat m p) := by
  induction fuel with
  | zero => intro i path s; rfl
  | succ fuel ih =>
    intro i path s
    refine bind_same (x := readNode s i) fun x _ => ?_
    cases x.kind with
    | leaf => rfl
    | internal => exact bind_map (ih x.left _ s) fun t _ => ih x.right _ t

theorem codeTree_reseat (s : State) : codeTree (reseat m p s) = (codeTree s).map (reseat m p) := by
  unfold codeTree
  rw [show (reseat m p s).nnode = s.nnode from rfl]
  split
  · rfl
  · refine bind_same (x := readNode s s.root) fun x _ => ?_
    cases x.kind with
    | leaf => rfl
    | internal => exact codeWalk_reseat _ _ _ s

theorem cgenBody_reseat (s : State) : cgenBody (reseat m p s) = (cgenBody s).map (reseat m p) :=
  bind_map (codeTree_reseat s) fun _ _ => rfl

/-! ### The writer -/

theorem writerSend_reseat (s : State) : writerSend (reseat m p s) = (writerSend s).map (reseat m p) :=
  bind_map (memWrite_reseat (sinkBuffer_ne_ib _) _ _) fun _ _ => rfl

theorem writerPut_reseat (b : Bool) (s : State) :
    writerPut b (reseat m p s) = (writerPut b s).map (reseat m p) := by
  simp only [writerPut]
  rw [show (reseat m p s).bw = s.bw from rfl]
  split
  · exact writerSend_reseat { s with bw := _ }
  · rfl

theorem writerFlush_reseat (s : State) : writerFlush (reseat m p s) = (writerFlush s).map (reseat m p) := by
  unfold writerFlush
  rw [show (reseat m p s).bw = s.bw from rfl]
  split
  · exact writerSend_reseat s
  · rfl

theorem putBits_reseat (bits : List Bool) : ∀ s : State,
    putBits bits (reseat m p s) = (putBits bits s).map (reseat m p) := by
  induction bits with
  | nil => intro s; rfl
  | cons b bits ih => intro s; exact bind_map (writerPut_reseat b s) fun t _ => ih t

theorem packLoop_reseat {n : Nat} : ∀ {i : Nat} {s : State}, SameInput m s → i + n ≤ s.inLen →
    packLoop n i (reseat m p s) = (packLoop n i s).map (reseat m p) := by
  induction n with
  | zero => intro i s _ _; rfl
  | succ n ih =>
    intro i s h hi
    simp only [packLoop, memReadByte_input h (show i < s.inLen by omega)]
    refine bind_same fun b _ => bind_map (putBits_reseat _ s) fun t ht => ?_
    have k := putBits_keeps ht
    exact ih (by simpa [SameInput, k.ib, k.inLen] using h) (by rw [k.inLen]; omega)

theorem packBody_reseat {s : State} (h : SameInput m s) :
    packBody (reseat m p s) = (packBody s).map (reseat m p) := by
  have e := packLoop_reseat (m := m) (p := p) (n := s.inLen) (i := 0) (s := writerInit .pb s) h
    (Nat.le_of_eq (Nat.zero_add _))
  refine bind_map e fun t _ => bind_map (writerFlush_reseat t) fun u _ => ?_
  rw [apply_ite (Except.map (reseat m p))]
  rfl

/-! ### The serializer -/

theorem emitNode_reseat (fuel : Nat) : ∀ (i : Nat) (s : State),
    emitNode fuel i (reseat m p s) = (emitNode fuel i s).map (reseat m p) := by
  induction fuel with
  | zero => intro i s; rfl
  | succ fuel ih =>
    intro i s
    refine bind_same (x := readNode s i) fun x _ => ?_
    cases x.kind with
    | leaf => exact putBits_reseat _ s
    | internal =>
      exact bind_map (writerPut_reseat false s) fun t _ =>
        bind_map (ih x.left t) fun u _ => ih x.right u

theorem describeTree_reseat (s : State) :
    describeTree (reseat m p s) = (describeTree s).map (reseat m p) := by
  have e : emitTree (writerInit .td (reseat m p s)) =
      (emitTree (writerInit .td s)).map (reseat m p) := by
    unfold emitTree
    rw [show (writerInit .td (reseat m p s)).nnode = (writerInit .td s).nnode from rfl]
    split
    · exact emitNode_reseat _ _ (writerInit .td s)
    · rfl
  exact bind_map e fun t _ => bind_map (writerFlush_reseat t) fun _ _ => rfl

theorem memRead_reseat (s : State) {n : BufName} (hn : n ≠ .ib) : ∀ (k a : Nat),
    memRead (reseat m p s) n a k = memRead s n a k := by
  have hb : buffer (reseat m p s) n = buffer s n := by
    cases n with
    | ib => exact absurd rfl hn
    | _ => rfl
  intro k
  induction k with
  | zero => intro a; rfl
  | succ k ih => intro a; simp only [memRead, memReadByte, hb, ih]

theorem assemble_reseat (s : State) : assemble (reseat m p s) = (assemble s).map (reseat m p) := by
  refine bind_map (memWrite_reseat (by simp) 0 _) fun t _ => ?_
  rw [memRead_reseat t (by simp)]
  refine bind_same fun d _ => bind_map (memWrite_reseat (by simp) 4 d) fun u _ => ?_
  refine bind_map (memWrite_reseat (s := u) (by simp) (4 + u.tdLen) _) fun v _ => ?_
  have e := memRead_reseat (m := m) (p := p) { v with payOff := 8 + v.tdLen } (n := .pb) (by simp)
    v.payLen 0
  refine Eq.trans (congrArg (· >>= _) e) (bind_same fun q _ => ?_)
  exact bind_map (memWrite_reseat (s := { v with payOff := 8 + v.tdLen }) (by simp) _ q) fun _ _ => rfl

theorem serialBody_reseat (s : State) : serialBody (reseat m p s) = (serialBody s).map (reseat m p) :=
  bind_map (describeTree_reseat s) fun t _ => assemble_reseat t

/-- The body of COMPRESS depends on the input alone. -/
theorem compressBody_reseat {s : State} (h : SameInput m s) :
    compressBody (reseat m p s) = (compressBody s).map (reseat m p) := by
  refine bind_map (fcountBody_reseat h) fun t1 h1 => bind_map (tbuildBody_reseat t1) fun t2 h2 =>
    bind_map (cgenBody_reseat t2) fun t3 h3 => ?_
  have k := ((fcountBody_keeps h1).trans (tbuildBody_keeps h2)).trans (cgenBody_keeps h3)
  exact bind_map (packBody_reseat (by simpa [SameInput, k.ib, k.inLen] using h)) fun t4 _ =>
    serialBody_reseat t4

/-! ### The reader -/

/-- The reader reads within the input. -/
abbrev ReaderInside (s : State) : Prop := s.br.base + ceil8 s.br.limit ≤ s.inLen

theorem readerGet_reseat {s : State} (h : SameInput m s) (hr : ReaderInside s) :
    readerGet (reseat m p s) = (readerGet s).map (reseatRet m p) := by
  unfold readerGet
  rw [show (reseat m p s).br = s.br from rfl]
  split
  · rename_i hlt
    rw [memReadByte_input h (by unfold ReaderInside ceil8 at hr; omega)]
    exact bind_same fun b _ => rfl
  · rfl

theorem readerGetBits_reseat {n : Nat} : ∀ {v : Nat} {s : State}, SameInput m s → ReaderInside s →
    readerGetBits n v (reseat m p s) = (readerGetBits n v s).map (reseatRet m p) := by
  induction n with
  | zero => intro v s _ _; rfl
  | succ n ih =>
    intro v s h hr
    refine bind_map (readerGet_reseat h hr) fun x hx => ?_
    obtain ⟨b, t⟩ := x
    obtain ⟨-, -, rfl⟩ := readerGet_ok hx
    exact ih (s := skipBits 1 s) h hr

theorem nodeDue_reseat (s : State) : nodeDue (reseat m p s) = nodeDue s := rfl

theorem allocNode_reseat (x : Node) (s : State) :
    allocNode x (reseat m p s) = (allocNode x s).map (reseatRet m p) :=
  bind_map (writeNode_reseat s s.nnode x) fun _ _ => rfl

theorem deserNode_reseat (fuel : Nat) : ∀ {s : State}, SameInput m s → ReaderInside s →
    deserNode fuel (reseat m p s) = (deserNode fuel s).map (reseatRet m p) := by
  induction fuel with
  | zero => intro s _ _; exact bind_same (x := nodeDue s) fun _ _ => rfl
  | succ fuel ih =>
    intro s h hr
    refine bind_same (x := nodeDue s) fun _ _ => bind_map (readerGet_reseat h hr) fun x hx => ?_
    obtain ⟨b, t⟩ := x
    obtain ⟨-, -, rfl⟩ := readerGet_ok hx
    cases b
    · refine bind_map (allocNode_reseat Node.zero (skipBits 1 s)) fun x hx => ?_
      obtain ⟨i, t⟩ := x
      obtain ⟨u, hu, ht⟩ := bind_eq_ok.1 hx
      cases ht
      obtain ⟨-, rfl⟩ := writeNode_ok.1 hu
      refine bind_map (ih (s := allocated Node.zero (skipBits 1 s)) h hr) fun y hy => ?_
      obtain ⟨l, a⟩ := y
      obtain ⟨-, tr, -, -, -, ra⟩ := deserNode_ok hy
      have k := deserNode_keeps hy
      refine bind_map (ih (s := a) (by simpa [SameInput, k.ib, k.inLen] using h)
        (by unfold ReaderInside; rw [k.inLen, ra.br]; exact hr)) fun z _ => ?_
      refine bind_same (x := readNode z.2 _) fun w _ => ?_
      exact bind_map (writeNode_reseat z.2 _ _) fun _ _ => rfl
    · simp only [if_true]
      rw [show readerRem (reseatRet m p (true, skipBits 1 s)).2 = readerRem (skipBits 1 s) from rfl]
      split
      · rfl
      · refine bind_map (readerGetBits_reseat (s := skipBits 1 s) h hr) fun x _ => ?_
        exact bind_map (allocNode_reseat _ x.2) fun _ _ => rfl

/-! ### PARSE -/

theorem readField32_reseat {s : State} {a : Nat} (h : SameInput m s) (ha : a + 4 ≤ s.inLen) :
    readField32 (reseat m p s) a = readField32 s a := by
  simp only [readField32, memReadByte_input h (show a < s.inLen by omega),
    memReadByte_input h (show a + 1 < s.inLen by omega),
    memReadByte_input h (show a + 2 < s.inLen by omega),
    memReadByte_input h (show a + 3 < s.inLen by omega)]

theorem headerField_reseat (w : Word) (s : State) :
    headerField w (reseat m p s) = (headerField w s).map (reseat m p) := by
  unfold headerField
  rw [show (reseat m p s).inLen = s.inLen from rfl]
  split
  · rfl
  split
  · rfl
  split <;> rfl

theorem metadataField_reseat (w : Word) (s : State) :
    metadataField w (reseat m p s) = (metadataField w s).map (reseat m p) := by
  unfold metadataField checkPayload
  rw [show (reseat m p s).inLen = s.inLen from rfl, show (reseat m p s).tdLen = s.tdLen from rfl]
  split
  · rfl
  split
  · rfl
  split
  · rfl
  split <;> rfl

theorem parseTree_reseat {s : State} (h : SameInput m s) (hl : 4 + s.tdLen ≤ s.inLen) :
    parseTree (reseat m p s) = (parseTree s).map (reseat m p) := by
  unfold parseTree
  rw [show (reseat m p s).tdLen = s.tdLen from rfl]
  split
  · have e := deserNode_reseat (m := m) (p := p) parseDepth (s := readerInit 4 (8 * s.tdLen) s) h
      (by simp only [ReaderInside, readerInit, ceil8]; omega)
    refine bind_map e fun x _ => ?_
    rw [apply_ite (Except.map (reseat m p))]
    rfl
  · rfl

theorem parseTree_tdLen {s t : State} (h : parseTree s = .ok t) : t.tdLen = s.tdLen := by
  unfold parseTree at h
  split at h
  · obtain ⟨⟨r, u⟩, h1, h⟩ := bind_eq_ok.1 h
    obtain ⟨-, tr, -, -, -, e⟩ := deserNode_ok h1
    simp only at h
    split at h
    · cases h
    · cases h; exact e.tdLen
  · cases h; rfl

theorem parseBody_reseat {s : State} (h : SameInput m s) :
    parseBody (reseat m p s) = (parseBody s).map (reseat m p) := by
  unfold parseBody
  rw [show (reseat m p s).inLen = s.inLen from rfl]
  split
  · rfl
  · rw [readField32_reseat h (by omega)]
    refine bind_same fun w _ => bind_map (headerField_reseat w s) fun t ht => ?_
    obtain ⟨hl, rfl⟩ := headerField_ok ht
    refine bind_map (parseTree_reseat (s := { s with tdLen := w.toNat }) h (by simp only; omega))
      fun u hu => ?_
    have k := parseTree_keeps hu
    have ku : u.tdLen = w.toNat := parseTree_tdLen hu
    have ki : u.inLen = s.inLen := k.inLen
    refine Eq.trans (congrArg (· >>= _) (readField32_reseat (s := u) (a := 4 + u.tdLen)
      (by simpa [SameInput, k.ib, k.inLen] using h) (by omega))) ?_
    exact bind_same fun v _ => metadataField_reseat v u

/-! ### UNPACK -/

theorem walkLoop_reseat (fuel : Nat) : ∀ {cur : Nat} {s : State}, SameInput m s → ReaderInside s →
    walkLoop fuel cur (reseat m p s) = (walkLoop fuel cur s).map (reseatRet m p) := by
  induction fuel with
  | zero => intro cur s _ _; rfl
  | succ fuel ih =>
    intro cur s h hr
    simp only [walkLoop]
    rw [show readerRem (reseat m p s) = readerRem s from rfl]
    split
    · rfl
    · refine bind_map (readerGet_reseat h hr) fun x hx => ?_
      obtain ⟨b, t⟩ := x
      obtain ⟨-, -, rfl⟩ := readerGet_ok hx
      refine bind_same (x := readNode (skipBits 1 s) cur) fun x _ => ?_
      refine bind_same (x := readNode (skipBits 1 s) (if b then x.right else x.left)) fun y _ => ?_
      cases y.kind with
      | leaf =>
        refine bind_map (memWrite_reseat (s := skipBits 1 s) (by simp) _ _) fun t ht => ?_
        have k := memWrite_keeps (by simp) ht
        have kb : t.br = (skipBits 1 s).br := by
          simp only [memWrite] at ht
          split at ht <;> cases ht
          rfl
        exact ih (s := { t with outLen := t.outLen + 1 }) (by simpa [SameInput, k.ib, k.inLen] using h)
          (by simp only [ReaderInside, kb, k.inLen]; exact hr)
      | internal => exact ih (s := skipBits 1 s) h hr

theorem treeWalk_reseat {s : State} (h : SameInput m s) (hl : s.payOff + ceil8 s.vbits ≤ s.inLen) :
    treeWalk (reseat m p s) = (treeWalk s).map (reseat m p) := by
  have e := walkLoop_reseat (m := m) (p := p) s.vbits (cur := s.root)
    (s := readerInit s.payOff s.vbits s) h hl
  refine bind_map e fun x _ => ?_
  rw [apply_ite (Except.map (reseat m p))]
  rfl

theorem repeatLoop_reseat (n : Nat) : ∀ (k : Nat) (sym : Byte) (s : State),
    repeatLoop n k sym (reseat m p s) = (repeatLoop n k sym s).map (reseat m p) := by
  induction n with
  | zero => intro k sym s; rfl
  | succ n ih =>
    intro k sym s
    exact bind_map (memWrite_reseat (by simp) k [sym]) fun t _ => ih (k + 1) sym t

theorem unpackTree_reseat {s : State} (h : SameInput m s) (hl : s.payOff + ceil8 s.vbits ≤ s.inLen) :
    unpackTree (reseat m p s) = (unpackTree s).map (reseat m p) := by
  unfold unpackTree
  rw [show (reseat m p s).nnode = s.nnode from rfl]
  split
  · rfl
  · refine bind_same (x := readNode s s.root) fun x _ => ?_
    cases x.kind with
    | leaf => exact bind_map (repeatLoop_reseat s.vbits 0 x.sym s) fun _ _ => rfl
    | internal => exact treeWalk_reseat h hl

theorem unpackBody_reseat {s : State} (h : SameInput m s) (hl : s.payOff + ceil8 s.vbits ≤ s.inLen) :
    unpackBody (reseat m p s) = (unpackBody s).map (reseat m p) :=
  bind_map (unpackTree_reseat (s := { s with outLen := 0 }) h hl) fun _ _ => rfl

/-! ### The two commands -/

/-- What the host takes from a call does not depend on IB or its own side. -/
theorem stateResult_reseat (t : State) : stateResult (reseat m p t) = stateResult t := by
  unfold stateResult
  rw [show memRead (reseat m p t) .ob 0 (reseat m p t).outLen = memRead t .ob 0 t.outLen from
    memRead_reseat t (by simp) _ _]
  rfl

/-- PARSE leaves a payload that lies within the input. -/
theorem parseBody_payload {s t : State} (h : parseBody s = .ok t) :
    t.payOff + ceil8 t.vbits ≤ t.inLen := by
  unfold parseBody at h
  split at h
  · cases h
  · obtain ⟨_, _, h⟩ := bind_eq_ok.1 h
    obtain ⟨_, _, h⟩ := bind_eq_ok.1 h
    obtain ⟨_, _, h⟩ := bind_eq_ok.1 h
    obtain ⟨_, _, h⟩ := bind_eq_ok.1 h
    obtain ⟨h1, h2, -, -, rfl⟩ := metadataField_ok h
    simp only [ceil8]
    omega

/-- The body of DECOMPRESS depends on the input alone. -/
theorem decompressBody_reseat {s : State} (h : SameInput m s) :
    decompressBody (reseat m p s) = (decompressBody s).map (reseat m p) := by
  refine bind_map (parseBody_reseat h) fun t ht => ?_
  have k := parseBody_keeps ht
  exact unpackBody_reseat (by simpa [SameInput, k.ib, k.inLen] using h) (parseBody_payload ht)

/-- A command that depends on the input alone ends alike where another IB holds the same input
(46_codec R207). -/
theorem wholeCommand_reseat {body : State → Except Stop State}
    (hbody : ∀ (m : Buf) (p : HostPort) (s : State), SameInput m s →
      body (reseat m p s) = (body s).map (reseat m p))
    {s s' : State} (hb : s.busy = false) (hb' : s'.busy = false) (hc : s'.cfg = s.cfg)
    (hi : s'.inLen = s.inLen) (h : SameInput s'.ib s) :
    (∀ t, wholeCommand true body s = .next t →
      wholeCommand true body s' = .next { t with ib := s'.ib, host := s'.host }) ∧
    ∀ f, wholeCommand true body s = .fault f → wholeCommand true body s' = .fault f := by
  have e : clearDerived (startCommand s') = reseat s'.ib s'.host (clearDerived (startCommand s)) := by
    simp only [clearDerived, startCommand, reseat, hc, hi]
  have ee : ∀ c pos, errorEntry (startCommand s') c pos =
      { errorEntry (startCommand s) c pos with ib := s'.ib, host := s'.host } := by
    intro c pos
    simp only [errorEntry, clearDerived, startCommand, hc, hi]
  by_cases hl : s.inLen ≤ s.cfg.ibCap.val
  · rw [wholeCommand_eq hb fun _ => hl, wholeCommand_eq hb' fun _ => by rw [hc, hi]; exact hl, e,
      hbody _ _ (clearDerived (startCommand s)) h]
    cases body (clearDerived (startCommand s)) with
    | ok u =>
      refine ⟨fun t ht => ?_, fun f hf => (by cases hf)⟩
      cases ht; rfl
    | error r =>
      cases r with
      | raise c pos =>
        refine ⟨fun t ht => ?_, fun f hf => (by cases hf)⟩
        cases ht
        exact congrArg Host.Outcome.next (ee c pos)
      | fault g =>
        refine ⟨fun t ht => (by cases ht), fun f hf => ?_⟩
        cases hf; rfl
  · have g : ∀ u : State, u.busy = false → u.cfg.ibCap.val < u.inLen →
        wholeCommand true body u = .next (errorEntry (startCommand u) .len 0) := by
      intro u hu hlu
      rw [wholeCommand, hu, if_neg (by decide), if_pos (by simpa using hlu)]
    rw [g s hb (by omega), g s' hb' (by rw [hc, hi]; omega)]
    refine ⟨fun t ht => ?_, fun f hf => (by cases hf)⟩
    cases ht
    exact congrArg Host.Outcome.next (ee .len 0)

end Sys2Proof.Machine
end

