-- ==== Sys2Proof/Laws/Invariant.lean ====
section
/-! SUPPORT. What each body of a command keeps of the machine's invariant (Safety.lean): the buffers
canonical and within their capacities and lengths, every register within its width, and what its
stage says of the derived state. -/

namespace Sys2Proof.Machine

/-! ### Buffers -/

/-- A buffer is canonical and lies below a bound. -/
abbrev BufOk (m : Buf) (n : Nat) : Prop := Memory.wf m = true ∧ bufBelow m n = true

theorem bufOk_nil (n : Nat) : BufOk [] n := ⟨rfl, rfl⟩

theorem bufOk_write {m : Buf} {n a : Nat} (b : Byte) (h : BufOk m n) (ha : a ≤ n) :
    BufOk (bufWrite m a b) (max n (a + 1)) :=
  ⟨wf_bufWrite m a b h.1, bufBelow_bufWrite a b (bufBelow_mono h.2 (by omega)) (by omega)⟩

/-- What the commands keep between each other, the flags apart. -/
structure Sane (s : State) : Prop where
  ib : BufOk s.ib s.cfg.ibCap.val
  ob : BufOk s.ob s.outLen ∧ bufBelow s.ob s.cfg.obCap = true
  pb : BufOk s.pb s.payLen ∧ bufBelow s.pb s.cfg.pbCap = true
  td : BufOk s.td s.tdLen ∧ bufBelow s.td Config.tdCap = true
  pq : s.pq = []
  fits : s.fits
  stage : s.stageOk

theorem sane_of_invariant {s : State} (h : s.invariant) : Sane s := by
  obtain ⟨⟨m1, m2, m3, m4, m5, m6, m7, m8⟩, ⟨q1, q2, q3, q4, q5⟩, he, hc, hf, hs⟩ := h
  exact ⟨⟨m1, m5⟩, ⟨⟨m2, q3⟩, m6⟩, ⟨⟨m3, q4⟩, m7⟩, ⟨⟨m4, q5⟩, m8⟩, q2, hf, hs⟩

theorem invariant_of_sane {s : State} (h : Sane s) (hb : s.busy = false) (he : s.errorsOk)
    (hc : s.clearOk) : s.invariant :=
  ⟨⟨h.ib.1, h.ob.1.1, h.pb.1.1, h.td.1.1, h.ib.2, h.ob.2, h.pb.2, h.td.2⟩,
    ⟨hb, h.pq, h.ob.1.2, h.pb.1.2, h.td.1.2⟩, he, hc, h.fits, h.stage⟩

/-- Nothing derived is sane, whatever the input and the flags are. -/
theorem sane_clear {s : State} (hib : BufOk s.ib s.cfg.ibCap.val) (hin : s.inLen < 2 ^ 32)
    (hp : s.errPos < 2 ^ 32) : Sane (clearDerived s) := by
  refine ⟨hib, ⟨bufOk_nil _, rfl⟩, ⟨bufOk_nil _, rfl⟩, ⟨bufOk_nil _, rfl⟩, rfl, ?_, ?_⟩
  · refine ⟨fun sym => ?_, fun i => ?_, fun sym => ?_, ?_⟩
    · rw [readFT_zero rfl]; decide
    · rw [nodeAt_zero rfl]; decide
    · rw [readCT_empty rfl]; decide
    · refine ⟨?_, ?_, ?_, ?_, ?_, ?_, hp, hin, ?_, ?_, ?_, ?_, ?_, ?_, ?_, ?_, ?_⟩ <;>
        exact Nat.two_pow_pos _
  · refine ⟨fun h => (by cases h), fun _ _ => rfl, fun _ _ => rfl, fun _ => rfl, fun i _ => ?_⟩
    rw [nodeAt_zero rfl]

/-! ### FCOUNT -/

theorem countLoop_reads {n i : Nat} {s t : State} (h : countLoop n i s = .ok t) :
    ∃ bs : List Byte, bs.length = n ∧ bufHolds s.ib i bs = true := by
  induction n generalizing i s with
  | zero => exact ⟨[], rfl, rfl⟩
  | succ n ih =>
    obtain ⟨b, h1, h2⟩ := bind_eq_ok.1 h
    obtain ⟨bs, h3, h4⟩ := ih h2
    have : bufRead s.ib i = some b := memReadByte_ok.1 h1
    exact ⟨b :: bs, by simp [h3], by simp only [bufHolds, this]; simpa using h4⟩

theorem clear_zero {s : State} (h : s.derivedClear) :
    s.ft = Vector.replicate 256 0 ∧ s.nnode = 0 ∧ s.nsym = 0 ∧ s.root = 0 ∧ s.tdBits = 0 ∧
      s.ob = [] ∧ s.pb = [] ∧ s.td = [] := by
  rw [← h]; exact ⟨rfl, rfl, rfl, rfl, rfl, rfl, rfl, rfl⟩

theorem fcountBody_sane {s u : State} (h : Sane s) (hc : s.derivedClear)
    (hl : s.inLen ≤ s.cfg.ibCap.val) (hu : fcountBody s = .ok u) : Sane u ∧ u.stage = .freq := by
  obtain ⟨z1, z2, -, -, -, z6, z7, z8⟩ := clear_zero hc
  obtain ⟨t, h1, -⟩ := bind_eq_ok.1 hu
  obtain ⟨bs, hb1, hb2⟩ := countLoop_reads h1
  have hin : s.hasInput bs = true := by simp [State.hasInput, hb1, hb2]
  obtain ⟨v, h3, h4, h5, h6⟩ := fcountBody_eq hin (readFT_zero z1)
  rw [hu] at h3
  cases h3
  have hcap : s.cfg.ibCap.val < 2 ^ 29 := s.cfg.ibCap.isLt
  obtain ⟨f1, f2, f3, f4, f5, f6, f7, f8, f9, f10, f11, f12, f13, f14, f15, f16, f17, f18, f19, f20⟩ :=
    h.fits
  obtain ⟨g1, g2, g3, g4, g5⟩ := h.stage
  have hft : ∀ sym, readFT u sym < 2 ^ 32 := fun sym => by
    rw [h4]
    have := List.count_le_length (a := sym) (l := bs)
    omega
  have hns : u.nsym < 2 ^ 9 := by
    rw [h5, ← (presentSymbols_perm h4).length_eq]
    have := presentSymbols_length_le u
    omega
  have hsum : u.ft.toList.sum = s.inLen := by rw [counts_sum h4, hb1]
  rw [h6]
  refine ⟨⟨h.ib, h.ob, h.pb, h.td, h.pq, ?_, ?_⟩, rfl⟩
  · exact ⟨hft, f2, f3, f4, f5, f6, f7, f8, f9, f10, f11, f12, hns, f14, f15, f16, f17, f18, f19, f20⟩
  · exact ⟨fun _ => ⟨hsum, hl, z2⟩, fun _ _ => z6, fun _ _ => z7, fun _ => z8, g5⟩

/-! ### TBUILD -/

theorem sum_present (s : State) : ((presentSymbols s).map (readFT s)).sum = s.ft.toList.sum := by
  rw [ft_toList_symbols, presentSymbols_eq]
  induction symbols with
  | nil => rfl
  | cons a l ih =>
    by_cases h : 0 < readFT s a
    · simp [h, ih]
    · simp [h, ih]; omega

/-- No node weighs more than all counts together (41_tree_builder R122). -/
theorem built_weight {s t u v : State} {f : Nat → Tree} (h : Built s t u v f) (j : Nat)
    (hj : j < v.nnode) : (nodeAt v j).weight ≤ s.ft.toList.sum := by
  have m := h.merging
  by_cases he : presentSymbols s = []
  · have := (built_empty h he).1
    rw [h.nnode] at this
    omega
  obtain ⟨b1, b2, -, -, -, b6, -, b8⟩ := built_tree h he
  rw [sum_present, nodeAt_congr h.node] at b6
  have hr := h.root
  have hn := h.nnode
  induction hk : v.nnode - j using Nat.strong_induction_on generalizing j with
  | _ k ih =>
    have hm : j ∈ childList v (presentSymbols s).length ++ v.pq :=
      m.children.mem_iff.2 (List.mem_range.2 hj)
    rcases List.mem_append.1 hm with hm | hm
    · obtain ⟨q, h1, h2, h3⟩ := mem_childList hm
      obtain ⟨r1, r2, -, r4⟩ := m.records q h1 h2
      have hq := ih (v.nnode - q) (by omega) q h2 rfl
      have hw : (nodeAt v q).weight =
          (nodeAt v (nodeAt v q).left).weight + (nodeAt v (nodeAt v q).right).weight :=
        congrArg Node.weight r4
      rcases h3 with rfl | rfl <;> omega
    · rw [b8, List.mem_singleton] at hm
      subst hm
      exact Nat.le_of_eq b6

theorem tbuildBody_sane {s w : State} (h : Sane s) (hs : s.stage = .freq)
    (hw : tbuildBody s = .ok w) : Sane w ∧ w.stage = .tree := by
  obtain ⟨t, u, v, f, h1, b⟩ := tbuildBody_eq h.pq
  rw [hw] at h1
  cases h1
  obtain ⟨f1, f2, f3, f4, f5, f6, f7, f8, f9, f10, f11, f12, f13, f14, f15, f16, f17, f18, f19, f20⟩ :=
    h.fits
  obtain ⟨g1, g2, g3, g4, g5⟩ := h.stage
  obtain ⟨k1, k2, k3⟩ := g1 hs
  have hcap : s.cfg.ibCap.val < 2 ^ 29 := s.cfg.ibCap.isLt
  have hlen := presentSymbols_length_le s
  have hvn : v.nnode = 2 * (presentSymbols s).length - 1 := by
    rcases merging_done b.merging b.done with ⟨g1, g2, -⟩ | ⟨-, g2, -⟩ <;> omega
  have m := b.merging
  have nt : ∀ k, nodeAt w k = nodeAt v k := fun k => nodeAt_congr b.node k
  have above : ∀ k, v.nnode ≤ k → nodeAt w k = nodeAt s k := fun k hk => by
    rw [nt, m.outside k (.inr hk), b.above k (le_trans m.ge hk)]
  have hrec : ∀ i : Fin 511, (nodeAt w i.val).left < 2 ^ 9 ∧ (nodeAt w i.val).right < 2 ^ 9 ∧
      (nodeAt w i.val).weight < 2 ^ 32 := by
    intro i
    by_cases hi : i.val < v.nnode
    · have hwt := built_weight b i.val hi
      rw [nt]
      refine ⟨?_, ?_, by omega⟩
      · by_cases hl : i.val < (presentSymbols s).length
        · rw [m.outside _ (.inl hl), b.leavesAt _ hl]; simp [leafRecord]
        · have := (m.records i.val (by omega) hi).1; omega
      · by_cases hl : i.val < (presentSymbols s).length
        · rw [m.outside _ (.inl hl), b.leavesAt _ hl]; simp [leafRecord]
        · have := (m.records i.val (by omega) hi).2.1; omega
    · rw [above _ (by omega)]
      exact f2 i
  have hz : ∀ i : Fin 511, w.nnode ≤ i.val → nodeAt w i.val = Node.zero := fun i hi => by
    rw [b.nnode] at hi
    rw [above _ hi]
    exact g5 i (by omega)
  have hn : w.nnode < 2 ^ 10 := by rw [b.nnode]; omega
  have hr : w.root < 2 ^ 9 := by rw [b.root]; omega
  have ho : s.ob = [] := g2 (by simp [hs]) (by simp [hs])
  have hp : s.pb = [] := g3 (by simp [hs]) (by simp [hs])
  have ht : s.td = [] := g4 (by simp [hs])
  rw [b.rest]
  refine ⟨⟨h.ib, h.ob, h.pb, h.td, h.pq, ?_, ?_⟩, rfl⟩
  · exact ⟨f1, hrec, f3, f4, f5, f6, f7, f8, f9, f10, f11, f12, f13, hn, hr, f16, f17, f18, f19, f20⟩
  · exact ⟨fun h => (by cases h), fun _ _ => ho, fun _ _ => hp, fun _ => ht, hz⟩

/-! ### CGEN -/

/-- CG.WALK changes CT only, and every code it writes has at most 255 bits (42_code_table R136). -/
theorem codeWalk_ok {fuel i : Nat} : ∀ {path : List Bool} {s u : State}, path.length + fuel ≤ 256 →
    codeWalk fuel i path s = .ok u → u = { s with ct := u.ct } ∧
      ((∀ sym, (readCT s sym).length < 2 ^ 8) → ∀ sym, (readCT u sym).length < 2 ^ 8) := by
  induction fuel generalizing i with
  | zero => intro path s u _ h; cases h
  | succ fuel ih =>
    intro path s u hf h
    obtain ⟨x, _, h⟩ := bind_eq_ok.1 h
    split at h
    · cases h
      refine ⟨rfl, fun hs sym => ?_⟩
      rw [readCT_writeCT]
      split
      · omega
      · exact hs sym
    · obtain ⟨a, h1, h2⟩ := bind_eq_ok.1 h
      obtain ⟨a1, a2⟩ := ih (by simp; omega) h1
      obtain ⟨b1, b2⟩ := ih (by simp; omega) h2
      exact ⟨by rw [b1, a1], fun hs => b2 (a2 hs)⟩

theorem cgenBody_sane {s u : State} (h : Sane s) (hs : s.stage = .tree) (hu : cgenBody s = .ok u) :
    Sane u ∧ u.stage = .code := by
  obtain ⟨f1, f2, f3, f4, f5, f6, f7, f8, f9, f10, f11, f12, f13, f14, f15, f16, f17, f18, f19, f20⟩ :=
    h.fits
  obtain ⟨g1, g2, g3, g4, g5⟩ := h.stage
  obtain ⟨t, h1, h2⟩ := bind_eq_ok.1 hu
  have key : t = { s with ct := t.ct } ∧ ∀ sym, (readCT t sym).length < 2 ^ 8 := by
    unfold codeTree at h1
    split at h1
    · cases h1; exact ⟨rfl, f3⟩
    · obtain ⟨x, _, h1⟩ := bind_eq_ok.1 h1
      split at h1
      · cases h1
        refine ⟨rfl, fun sym => ?_⟩
        rw [readCT_writeCT]
        split
        · decide
        · exact f3 sym
      · obtain ⟨a, b⟩ := codeWalk_ok (by simp [stackDepth]) h1
        exact ⟨a, b f3⟩
  cases h2
  have hct := key.2
  have ho : s.ob = [] := g2 (by simp [hs]) (by simp [hs])
  have hp : s.pb = [] := g3 (by simp [hs]) (by simp [hs])
  have ht : s.td = [] := g4 (by simp [hs])
  rw [key.1]
  refine ⟨⟨h.ib, h.ob, h.pb, h.td, h.pq, ?_, ?_⟩, rfl⟩
  · exact ⟨f1, f2, hct, f4, f5, f6, f7, f8, f9, f10, f11, f12, f13, f14, f15, f16, f17, f18, f19, f20⟩
  · exact ⟨fun h => (by cases h), fun _ _ => ho, fun _ _ => hp, fun _ => ht, g5⟩

/-! ### The BitWriter -/

/-- The writer of a sink: what it has sent is the sink's content, whatever is being put. -/
structure WriterOk (s : State) : Prop where
  nb : s.bw.nb < 8
  total : s.bw.total = 8 * s.bw.wp + s.bw.nb
  wp : s.bw.wp ≤ capacity s.cfg (sinkBuffer s.bw.sink)
  sink : BufOk (buffer s (sinkBuffer s.bw.sink)) s.bw.wp

/-- Only the writer and its sink differ. -/
structure WritesOnly (s t : State) : Prop where
  rest : t = { s with pb := t.pb, td := t.td, bw := t.bw }
  sink : t.bw.sink = s.bw.sink
  other : ∀ n, n ≠ sinkBuffer s.bw.sink → buffer t n = buffer s n

theorem WritesOnly.refl (s : State) : WritesOnly s s := ⟨rfl, rfl, fun _ _ => rfl⟩

theorem WritesOnly.trans {s t u : State} (h : WritesOnly s t) (k : WritesOnly t u) :
    WritesOnly s u :=
  ⟨by rw [k.rest, h.rest], k.sink.trans h.sink, fun n hn =>
    (k.other n (by rw [h.sink]; exact hn)).trans (h.other n hn)⟩

theorem writerSend_ok {s t : State} (h : writerSend s = .ok t) :
    WritesOnly s t ∧ (BufOk (buffer s (sinkBuffer s.bw.sink)) s.bw.wp →
      BufOk (buffer t (sinkBuffer t.bw.sink)) t.bw.wp) ∧ t.bw.nb = 0 ∧ t.bw.wp = s.bw.wp + 1 ∧
      t.bw.total = s.bw.total ∧ t.bw.wp ≤ capacity s.cfg (sinkBuffer s.bw.sink) := by
  rw [writerSend_eq] at h
  split at h
  · rename_i hc
    cases h
    have hb := fun h => bufOk_write s.bw.acc (a := s.bw.wp) (n := s.bw.wp)
      (m := buffer s (sinkBuffer s.bw.sink)) h (Nat.le_refl _)
    rw [show max s.bw.wp (s.bw.wp + 1) = s.bw.wp + 1 by omega] at hb
    refine ⟨⟨?_, ?_, ?_⟩, ?_, rfl, ?_, ?_, ?_⟩
    · cases s.bw.sink <;> rfl
    · cases hk : s.bw.sink <;> simp [setBuffer, sinkBuffer, hk]
    · intro n hn
      cases hk : s.bw.sink <;> rw [hk] at hn <;> cases n <;> first
        | exact absurd rfl hn
        | rfl
    · intro h
      have := hb h
      cases hk : s.bw.sink <;> rw [hk] at this <;> simpa [setBuffer, sinkBuffer, hk, buffer] using this
    · cases hk : s.bw.sink <;> rfl
    · cases hk : s.bw.sink <;> rfl
    · cases hk : s.bw.sink <;> rw [hk] at hc <;> exact hc
  · cases h

theorem writerPut_ok {b : Bool} {s t : State} (h : writerPut b s = .ok t) (hs : WriterOk s) :
    WriterOk t ∧ WritesOnly s t := by
  simp only [writerPut] at h
  have hn := hs.nb
  have ht := hs.total
  split at h
  · rename_i h8
    obtain ⟨a, b, c, d, e, f⟩ := writerSend_ok h
    have d : t.bw.wp = s.bw.wp + 1 := d
    have e : t.bw.total = s.bw.total + 1 := e
    have h8 : s.bw.nb + 1 = 8 := h8
    refine ⟨⟨by omega, by omega, ?_, b hs.sink⟩, ?_⟩
    · have : t.cfg = s.cfg := by rw [a.rest]
      rw [this, a.sink]
      exact f
    · refine ⟨?_, a.sink, fun n hn => (a.other n hn).trans ?_⟩
      · rw [a.rest]
      · cases n <;> rfl
  · cases h
    rename_i h8
    refine ⟨⟨by simp only; omega, by simp only; omega, hs.wp, ?_⟩, rfl, rfl, fun n _ => ?_⟩
    · have := hs.sink
      cases hk : s.bw.sink <;> rw [hk] at this <;> exact this
    · cases n <;> rfl

theorem putBits_ok {bits : List Bool} {s t : State} (h : putBits bits s = .ok t) (hs : WriterOk s) :
    WriterOk t ∧ WritesOnly s t := by
  induction bits generalizing s with
  | nil => cases h; exact ⟨hs, WritesOnly.refl _⟩
  | cons b bits ih =>
    obtain ⟨u, h1, h2⟩ := bind_eq_ok.1 h
    obtain ⟨a1, a2⟩ := writerPut_ok h1 hs
    obtain ⟨b1, b2⟩ := ih h2 a1
    exact ⟨b1, a2.trans b2⟩

/-- The writer after BW.FLUSH: on a byte boundary, every put bit in the sink. -/
structure Flushed (s : State) : Prop where
  nb : s.bw.nb = 0
  total : s.bw.total ≤ 8 * s.bw.wp
  wp : s.bw.wp ≤ capacity s.cfg (sinkBuffer s.bw.sink)
  sink : BufOk (buffer s (sinkBuffer s.bw.sink)) s.bw.wp

theorem writerFlush_ok {s t : State} (h : writerFlush s = .ok t) (hs : WriterOk s) :
    Flushed t ∧ WritesOnly s t := by
  have hn := hs.nb
  have ht := hs.total
  unfold writerFlush at h
  split at h
  · obtain ⟨a, b, c, d, e, f⟩ := writerSend_ok h
    refine ⟨⟨c, by omega, ?_, b hs.sink⟩, a⟩
    have : t.cfg = s.cfg := by rw [a.rest]
    rw [this, a.sink]
    exact f
  · cases h
    exact ⟨⟨by omega, by omega, hs.wp, hs.sink⟩, WritesOnly.refl _⟩

theorem writerInit_ok {s : State} {k : Sink} (h : buffer s (sinkBuffer k) = []) :
    WriterOk (writerInit k s) := by
  refine ⟨by simp [writerInit, BitWriter.zero], rfl, Nat.zero_le _, ?_⟩
  have : buffer (writerInit k s) (sinkBuffer k) = [] := by cases k <;> exact h
  show BufOk (buffer (writerInit k s) (sinkBuffer k)) 0
  rw [this]
  exact bufOk_nil 0

/-! ### PACK -/

theorem packLoop_ok {n i : Nat} {s t : State} (h : packLoop n i s = .ok t) (hs : WriterOk s) :
    WriterOk t ∧ WritesOnly s t := by
  induction n generalizing i s with
  | zero => cases h; exact ⟨hs, WritesOnly.refl _⟩
  | succ n ih =>
    obtain ⟨b, _, h⟩ := bind_eq_ok.1 h
    obtain ⟨u, h1, h2⟩ := bind_eq_ok.1 h
    obtain ⟨a1, a2⟩ := putBits_ok h1 hs
    obtain ⟨b1, b2⟩ := ih h2 a1
    exact ⟨b1, a2.trans b2⟩

theorem packBody_sane {s u : State} (h : Sane s) (hs : s.stage = .code) (hu : packBody s = .ok u) :
    Sane u ∧ u.stage = .packed := by
  obtain ⟨f1, f2, f3, f4, f5, f6, f7, f8, f9, f10, f11, f12, f13, f14, f15, f16, f17, f18, f19, f20⟩ :=
    h.fits
  obtain ⟨g1, g2, g3, g4, g5⟩ := h.stage
  have hcap : s.cfg.ibCap.val < 2 ^ 29 := s.cfg.ibCap.isLt
  have ho : s.ob = [] := g2 (by simp [hs]) (by simp [hs])
  have hp : s.pb = [] := g3 (by simp [hs]) (by simp [hs])
  have ht : s.td = [] := g4 (by simp [hs])
  obtain ⟨v, h1, hu⟩ := bind_eq_ok.1 hu
  obtain ⟨w, h2, hu⟩ := bind_eq_ok.1 hu
  obtain ⟨a1, a2⟩ := packLoop_ok h1 (writerInit_ok (k := .pb) hp)
  obtain ⟨b1, b2⟩ := writerFlush_ok h2 a1
  have c := a2.trans b2
  have hsink : w.bw.sink = .pb := c.sink
  have htd : w.td = s.td := c.other .td (show BufName.td ≠ sinkBuffer Sink.pb by decide)
  have hw : w = { s with pb := w.pb, bw := w.bw } := by
    have := c.rest
    rw [htd] at this
    exact this
  have hwp := b1.wp
  have hsk := b1.sink
  rw [hsink] at hwp hsk
  have hcfg : w.cfg = s.cfg := by rw [hw]
  have hwp : w.bw.wp ≤ s.cfg.pbCap := by rw [← hcfg]; exact hwp
  have hsk : BufOk w.pb w.bw.wp := hsk
  have htot := b1.total
  have hnb := b1.nb
  have hpb : s.cfg.pbCap = s.cfg.ibCap.val := rfl
  split at hu
  · cases hu
  · rename_i hle
    cases hu
    have hbelow : bufBelow w.pb s.cfg.pbCap = true := bufBelow_mono hsk.2 hwp
    have e1 : w.bw.nb < 2 ^ 3 := by omega
    have e2 : w.bw.wp < 2 ^ 33 := by omega
    have e3 : w.bw.total < 2 ^ 40 := by omega
    have e4 : w.bw.total < 2 ^ 32 := by omega
    have e5 : w.bw.wp < 2 ^ 32 := by omega
    rw [hw]
    refine ⟨⟨h.ib, h.ob, ⟨hsk, hbelow⟩, h.td, h.pq, ?_, ?_⟩, rfl⟩
    · exact ⟨f1, f2, f3, e1, e2, e3, f7, f8, f9, f10, f11, f12, f13, f14, f15, f16, f17, e4, e5, f20⟩
    · exact ⟨fun h => (by cases h), fun _ _ => ho, fun h => absurd rfl h, fun _ => ht, g5⟩

/-! ### SERIAL -/

theorem emitNode_ok {fuel i : Nat} {s t : State} (h : emitNode fuel i s = .ok t) (hs : WriterOk s) :
    WriterOk t ∧ WritesOnly s t := by
  induction fuel generalizing i s t with
  | zero => cases h
  | succ fuel ih =>
    obtain ⟨x, _, h⟩ := bind_eq_ok.1 h
    split at h
    · exact putBits_ok h hs
    · obtain ⟨a, h1, h⟩ := bind_eq_ok.1 h
      obtain ⟨b, h2, h3⟩ := bind_eq_ok.1 h
      obtain ⟨a1, a2⟩ := writerPut_ok h1 hs
      obtain ⟨b1, b2⟩ := ih h2 a1
      obtain ⟨c1, c2⟩ := ih h3 b1
      exact ⟨c1, a2.trans (b2.trans c2)⟩

/-- The container fits where it was written, and nothing lies above it (45_container R175). -/
theorem assemble_ok {s u : State} (h : assemble s = .ok u) (hd : s.ob = []) :
    BufOk u.ob u.outLen ∧ u.outLen ≤ s.cfg.obCap ∧ u.outLen = 8 + s.tdLen + s.payLen ∧
      u = { s with ob := u.ob, payOff := 8 + s.tdLen, outLen := u.outLen, stage := .cdone } := by
  have wr : ∀ {a b : State} {n : Nat} {x : List Byte} {m : Nat}, memWrite a .ob n x = .ok b →
      BufOk a.ob m → BufOk b.ob (max m (n + x.length)) ∧ n + x.length ≤ a.cfg.obCap ∧
        b = { a with ob := b.ob } := by
    intro a b n x m h hm
    rw [memWrite_eq] at h
    split at h
    · rename_i hc
      cases h
      exact ⟨⟨wf_bufWriteList _ _ _ hm.1,
        bufBelow_bufWriteList _ (bufBelow_mono hm.2 (by omega)) (by omega)⟩, hc, rfl⟩
    · cases h
  have fl : ∀ v, (fieldBytes v).length = 4 := fun v => rfl
  obtain ⟨s1, h1, h⟩ := bind_eq_ok.1 h
  obtain ⟨d, hd1, h⟩ := bind_eq_ok.1 h
  obtain ⟨s2, h2, h⟩ := bind_eq_ok.1 h
  obtain ⟨s3, h3, h⟩ := bind_eq_ok.1 h
  obtain ⟨p, hp1, h⟩ := bind_eq_ok.1 h
  obtain ⟨s4, h4, h⟩ := bind_eq_ok.1 h
  cases h
  obtain ⟨a1, a2, a3⟩ := wr h1 (m := 0) (by rw [hd]; exact bufOk_nil 0)
  have t1 : s1.tdLen = s.tdLen := by rw [a3]
  have hdl : d.length = s.tdLen := by
    rcases memRead_cases s1 .td 0 s1.tdLen with ⟨bs, hl, -, hr⟩ | ⟨c, hr⟩
    · rw [hr] at hd1; cases hd1; rw [hl, t1]
    · rw [hr] at hd1; cases hd1
  obtain ⟨b1, b2, b3⟩ := wr h2 a1
  have t2 : s2.tdLen = s.tdLen := by rw [b3, t1]
  obtain ⟨c1, c2, c3⟩ := wr h3 b1
  have t3 : s3.tdLen = s.tdLen := by rw [c3, t2]
  have p3 : s3.payLen = s.payLen := by rw [c3, b3, a3]
  have k3 : s3.cfg = s.cfg := by rw [c3, b3, a3]
  have hpl : p.length = s.payLen := by
    rcases memRead_cases { s3 with payOff := 8 + s3.tdLen } .pb 0 s3.payLen with
      ⟨bs, hl, -, hr⟩ | ⟨c, hr⟩
    · rw [hr] at hp1; cases hp1; rw [hl, p3]
    · rw [hr] at hp1; cases hp1
  obtain ⟨e1, e2, e3⟩ := wr h4 (m := max (max (max 0 (0 + (fieldBytes s.tdLen).length))
    (4 + d.length)) (4 + s2.tdLen + (fieldBytes s2.vbits).length)) c1
  have o4 : s4.payOff = 8 + s.tdLen := by rw [e3, ← t3]
  have p4 : s4.payLen = s.payLen := by rw [e3, ← p3]
  simp only [fl, hdl, hpl, t2, t3] at e1 e2
  rw [k3] at e2
  refine ⟨?_, ?_, ?_, ?_⟩
  · simp only [o4, p4]
    rwa [show max (max (max (max 0 (0 + 4)) (4 + s.tdLen)) (4 + s.tdLen + 4))
      (8 + s.tdLen + s.payLen) = 8 + s.tdLen + s.payLen by omega] at e1
  · simp only [o4, p4]; exact e2
  · simp only [o4, p4]
  · simp only
    rw [e3, c3, b3, a3]

theorem serialBody_sane {s u : State} (h : Sane s) (hs : s.stage = .packed)
    (hu : serialBody s = .ok u) : Sane u ∧ u.stage = .cdone := by
  obtain ⟨f1, f2, f3, f4, f5, f6, f7, f8, f9, f10, f11, f12, f13, f14, f15, f16, f17, f18, f19, f20⟩ :=
    h.fits
  obtain ⟨g1, g2, g3, g4, g5⟩ := h.stage
  have hcap : s.cfg.ibCap.val < 2 ^ 29 := s.cfg.ibCap.isLt
  have ho : s.ob = [] := g2 (by simp [hs]) (by simp [hs])
  have ht : s.td = [] := g4 (by simp [hs])
  obtain ⟨t, h1, h2⟩ := bind_eq_ok.1 hu
  obtain ⟨v, h3, h1⟩ := bind_eq_ok.1 h1
  obtain ⟨w, h4, h1⟩ := bind_eq_ok.1 h1
  cases h1
  have ve : WriterOk v ∧ WritesOnly (writerInit .td s) v := by
    unfold emitTree at h3
    split at h3
    · exact emitNode_ok h3 (writerInit_ok (k := .td) ht)
    · cases h3; exact ⟨writerInit_ok (k := .td) ht, WritesOnly.refl _⟩
  obtain ⟨b1, b2⟩ := writerFlush_ok h4 ve.1
  have c := ve.2.trans b2
  have hsink : w.bw.sink = .td := c.sink
  have hpb : w.pb = s.pb := c.other .pb (show BufName.pb ≠ sinkBuffer Sink.td by decide)
  have hw : w = { s with td := w.td, bw := w.bw } := by
    have := c.rest
    rw [hpb] at this
    exact this
  have hwp := b1.wp
  have hsk := b1.sink
  rw [hsink] at hwp hsk
  have hwp : w.bw.wp ≤ 320 := hwp
  have hsk : BufOk w.td w.bw.wp := hsk
  have htot := b1.total
  have hnb := b1.nb
  have hwob : w.ob = [] := by rw [hw]; exact ho
  obtain ⟨e1, e2, e3, e4⟩ := assemble_ok h2 hwob
  have k1 : w.payLen = s.payLen := by rw [hw]
  have k2 : w.cfg = s.cfg := by rw [hw]
  have e3 : u.outLen = 8 + w.bw.wp + w.payLen := e3
  have e2 : u.outLen ≤ s.cfg.obCap := by rw [← k2]; exact e2
  have hoc : s.cfg.obCap < 2 ^ 32 := by unfold Config.obCap; omega
  have htd : bufBelow w.td Config.tdCap = true := bufBelow_mono hsk.2 hwp
  have hob : bufBelow u.ob s.cfg.obCap = true := bufBelow_mono e1.2 e2
  have n1 : w.bw.nb < 2 ^ 3 := by omega
  have n2 : w.bw.wp < 2 ^ 33 := by omega
  have n3 : w.bw.total < 2 ^ 40 := by omega
  have n4 : u.outLen < 2 ^ 32 := by omega
  have n5 : w.bw.total < 2 ^ 12 := by omega
  have n6 : w.bw.wp < 2 ^ 32 := by omega
  have n7 : 8 + w.bw.wp < 2 ^ 32 := by omega
  rw [e4, hw]
  refine ⟨⟨h.ib, ⟨e1, hob⟩, h.pb, ⟨hsk, htd⟩, h.pq, ?_, ?_⟩, rfl⟩
  · exact ⟨f1, f2, f3, n1, n2, n3, f7, f8, f9, f10, f11, n4, f13, f14, f15, n5, n6, f18, f19, n7⟩
  · exact ⟨fun h => (by cases h), fun h => absurd rfl h, fun _ h => absurd rfl h,
      fun h => absurd rfl h, g5⟩

/-! ### PARSE -/

theorem parseBody_sane {s u : State} (h : Sane s) (hc : s.derivedClear)
    (hl : s.inLen ≤ s.cfg.ibCap.val) (hu : parseBody s = .ok u) : Sane u ∧ u.stage = .parsed := by
  obtain ⟨z1, z2, z3, z4, z5, z6, z7, z8⟩ := clear_zero hc
  obtain ⟨f1, f2, f3, f4, f5, f6, f7, f8, f9, f10, f11, f12, f13, f14, f15, f16, f17, f18, f19, f20⟩ :=
    h.fits
  obtain ⟨g1, g2, g3, g4, g5⟩ := h.stage
  have hcap : s.cfg.ibCap.val < 2 ^ 29 := s.cfg.ibCap.isLt
  unfold parseBody at hu
  split at hu
  · cases hu
  obtain ⟨wt, _, hu1⟩ := bind_eq_ok.1 hu
  obtain ⟨s1, h1, hu2⟩ := bind_eq_ok.1 hu1
  obtain ⟨s2, h2, hu3⟩ := bind_eq_ok.1 hu2
  obtain ⟨wv, _, hu4⟩ := bind_eq_ok.1 hu3
  obtain ⟨a1, rfl⟩ := headerField_ok h1
  obtain ⟨b1, b2, b3, b4, b5⟩ := metadataField_ok hu4
  have hwv := wv.isLt
  -- what the tree block leaves
  obtain ⟨c1, c2, c3, c4, c5, c6, c7, c8⟩ : s2 = { s with
        node := s2.node, nnode := s2.nnode, nsym := s2.nsym, br := s2.br, root := s2.root
        tdBits := s2.tdBits, tdLen := wt.toNat } ∧
      (∀ i : Fin 511, (nodeAt s2 i.val).left < 2 ^ 9 ∧ (nodeAt s2 i.val).right < 2 ^ 9 ∧
        (nodeAt s2 i.val).weight < 2 ^ 32) ∧ s2.nnode < 2 ^ 10 ∧ s2.nsym < 2 ^ 9 ∧
      s2.root < 2 ^ 9 ∧ s2.tdBits < 2 ^ 12 ∧
      (s2.br.base < 2 ^ 32 ∧ s2.br.limit < 2 ^ 33 ∧ s2.br.pos < 2 ^ 33) ∧
      (∀ i : Fin 511, s2.nnode ≤ i.val → nodeAt s2 i.val = Node.zero) := by
    unfold parseTree at h2
    split at h2
    · obtain ⟨⟨r, t⟩, h3, h2⟩ := bind_eq_ok.1 h2
      simp only at h2
      split at h2
      · cases h2
      cases h2
      obtain ⟨e1, tr, e2, e3, e4, e5⟩ := deserNode_ok h3
      have q1 : t.nnode = 0 + treeSize tr := by rw [e5.nnode]; show s.nnode + _ = _; rw [z2]
      have q2 : t.nsym = 0 + (treeLeaves tr).length := by
        rw [e5.nsym]; show s.nsym + _ = _; rw [z3]
      have q3 : t.br = { base := 4, limit := 8 * wt.toNat, pos := 0 + (treeBits tr).length } := by
        rw [e5.br]; rfl
      have q4 : r = 0 := by rw [e1]; exact z2
      have q5 : 0 + treeSize tr ≤ 511 := by rw [← z2]; exact e2
      have q6 := treeSize_leaves tr
      have q7 := treeBits_length tr
      have q8 : 0 + (treeBits tr).length ≤ 8 * wt.toNat := e4
      have pl : placedAt t 0 tr := by rw [← z2]; exact e5.placed
      have out : ∀ k, 0 + treeSize tr ≤ k → nodeAt t k = nodeAt s k := fun k hk =>
        e5.outside k (.inr (by show s.nnode + _ ≤ k; omega))
      refine ⟨?_, ?_, ?_, ?_, ?_, ?_, ?_, ?_⟩
      · simp only
        rw [e5.rest]
        rfl
      · intro i
        by_cases hi : i.val < 0 + treeSize tr
        · obtain ⟨p1, p2, p3, -⟩ := placedAt_record pl i.val (Nat.zero_le _) hi
          show (nodeAt t i.val).left < _ ∧ (nodeAt t i.val).right < _ ∧ (nodeAt t i.val).weight < _
          omega
        · show (nodeAt t i.val).left < _ ∧ (nodeAt t i.val).right < _ ∧ (nodeAt t i.val).weight < _
          rw [out i.val (by omega)]
          exact f2 i
      · simp only; omega
      · simp only; omega
      · simp only; omega
      · simp only [q3]; omega
      · simp only [q3]; omega
      · intro i hi
        simp only [q1] at hi
        exact (out i.val hi).trans (g5 i (by omega))
    · cases h2
      exact ⟨rfl, f2, f14, f13, f15, f16, ⟨f7, f8, f9⟩, g5⟩
  have t2 : s2.tdLen = wt.toNat := by rw [c1]
  have i2 : s2.inLen = s.inLen := by rw [c1]
  rw [t2, i2] at b1 b2 b3 b5
  have n1 : wt.toNat < 2 ^ 32 := by omega
  have n2 : s.inLen - (8 + wt.toNat) < 2 ^ 32 := by omega
  have n3 : 8 + wt.toNat < 2 ^ 32 := by omega
  have n4 : wv.toNat < 2 ^ 32 := by omega
  have pb0 : s.pb = [] := z7
  rw [b5, c1]
  refine ⟨⟨h.ib, h.ob, ?_, ?_, h.pq, ?_, ?_⟩, rfl⟩
  · show BufOk s.pb _ ∧ _
    rw [z7]
    exact ⟨bufOk_nil _, rfl⟩
  · show BufOk s.td _ ∧ _
    rw [z8]
    exact ⟨bufOk_nil _, rfl⟩
  · exact ⟨f1, c2, f3, f4, f5, f6, c7.1, c7.2.1, c7.2.2, f10, f11, f12, c4, c3, c5, c6, n1, n4, n2, n3⟩
  · exact ⟨fun h => (by cases h), fun _ _ => z6, fun _ _ => z7, fun _ => z8, c8⟩

/-! ### What PARSE can raise -/

/-- Every error of PARSE is a FormatError at a position of the container (45_container R182 to R185). -/
theorem parseBody_raise {c : ErrCode} {pos : Nat} {s : State} (h : parseBody s = .error (.raise c pos)) :
    isFormatError c = true ∧ pos ≤ s.inLen := by
  unfold parseBody at h
  split at h
  · cases h; exact ⟨rfl, by omega⟩
  rename_i h4
  rcases bind_eq_error.1 h with h | ⟨t, _, h⟩
  · exact absurd h readField32_raise
  rcases bind_eq_error.1 h with h | ⟨s1, h1, h⟩
  · unfold headerField at h
    split at h
    · cases h; exact ⟨rfl, by omega⟩
    split at h
    · cases h; exact ⟨rfl, by omega⟩
    split at h
    · cases h; exact ⟨rfl, by omega⟩
    · cases h
  obtain ⟨a1, rfl⟩ := headerField_ok h1
  rcases bind_eq_error.1 h with h | ⟨s2, h2, h⟩
  · unfold parseTree at h
    split at h
    · rcases bind_eq_error.1 h with h | ⟨⟨r, t'⟩, h3, h⟩
      · rcases deserNode_raise h with ⟨hc, h5⟩ | ⟨hc, p, h5, h', h''⟩ <;> subst hc
        · have h5 : pos = 4 + t.toNat := h5
          exact ⟨rfl, by omega⟩
        · have h' : p < 8 * t.toNat := h'
          exact ⟨rfl, by omega⟩
      · simp only at h
        obtain ⟨e1, tr, e2, e3, e4, e5⟩ := deserNode_ok h3
        have e4 : 0 + (treeBits tr).length ≤ 8 * t.toNat := e4
        have q3 : t'.br = { base := 4, limit := 8 * t.toNat, pos := 0 + (treeBits tr).length } := by
          rw [e5.br]; rfl
        split at h
        · cases h; refine ⟨rfl, ?_⟩
          rw [q3]; simp only [ceil8]; omega
        · cases h
    · cases h
  have t2 : s2.tdLen = t.toNat ∧ s2.inLen = s.inLen := by
    unfold parseTree at h2
    split at h2
    · obtain ⟨⟨r, t'⟩, h3, h2⟩ := bind_eq_ok.1 h2
      obtain ⟨e1, tr, e2, e3, e4, e5⟩ := deserNode_ok h3
      simp only at h2
      split at h2
      · cases h2
      · cases h2
        exact ⟨e5.tdLen, by show t'.inLen = _; rw [e5.rest]; rfl⟩
    · cases h2; exact ⟨rfl, rfl⟩
  rcases bind_eq_error.1 h with h | ⟨v, h3, h⟩
  · exact absurd h readField32_raise
  unfold metadataField checkPayload at h
  rw [t2.1, t2.2] at h
  split at h
  · cases h; exact ⟨rfl, by omega⟩
  split at h
  · cases h; exact ⟨rfl, by omega⟩
  split at h
  · cases h; exact ⟨rfl, by omega⟩
  split at h
  · cases h; exact ⟨rfl, by omega⟩
  · cases h

/-! ### UNPACK -/

/-- The walk sends its symbols to OUT_LEN and nothing lies above it (44_bit_reader R165). -/
theorem walkLoop_ok {fuel cur c : Nat} {s t : State} (h : walkLoop fuel cur s = .ok (c, t))
    (ho : BufOk s.ob s.outLen) (hc : s.outLen ≤ s.cfg.obCap) (hp : s.br.pos ≤ s.br.limit) :
    BufOk t.ob t.outLen ∧ t.outLen ≤ s.cfg.obCap ∧ t.br.base = s.br.base ∧
      t.br.limit = s.br.limit ∧ t.br.pos ≤ s.br.limit ∧
      t = { s with ob := t.ob, outLen := t.outLen, br := t.br } := by
  induction fuel generalizing cur s with
  | zero => cases h; exact ⟨ho, hc, rfl, rfl, hp, rfl⟩
  | succ fuel ih =>
    simp only [walkLoop] at h
    split at h
    · cases h; exact ⟨ho, hc, rfl, rfl, hp, rfl⟩
    · obtain ⟨⟨b, s1⟩, h1, h⟩ := bind_eq_ok.1 h
      obtain ⟨x, _, h⟩ := bind_eq_ok.1 h
      obtain ⟨y, _, h⟩ := bind_eq_ok.1 h
      obtain ⟨hlt, -, rfl⟩ := readerGet_ok h1
      split at h
      · obtain ⟨s2, h2, h3⟩ := bind_eq_ok.1 h
        rw [memWrite_eq] at h2
        split at h2
        · rename_i hcap
          cases h2
          have hcap : s.outLen + 1 ≤ s.cfg.obCap := hcap
          have hw := bufOk_write y.sym (a := s.outLen) ho (Nat.le_refl _)
          rw [show max s.outLen (s.outLen + 1) = s.outLen + 1 by omega] at hw
          obtain ⟨r1, r2, r3, r4, r5, r6⟩ := ih h3 hw hcap (show s.br.pos + 1 ≤ s.br.limit by omega)
          exact ⟨r1, r2, r3, r4, r5, by rw [r6]; rfl⟩
        · cases h2
      · obtain ⟨r1, r2, r3, r4, r5, r6⟩ := ih h ho hc (show s.br.pos + 1 ≤ s.br.limit by omega)
        exact ⟨r1, r2, r3, r4, r5, by rw [r6]; rfl⟩

theorem repeatLoop_ok {n k : Nat} {sym : Byte} {s t : State} (h : repeatLoop n k sym s = .ok t)
    (ho : BufOk s.ob k) (hc : k ≤ s.cfg.obCap) :
    BufOk t.ob (k + n) ∧ k + n ≤ s.cfg.obCap ∧ t = { s with ob := t.ob } := by
  induction n generalizing k s with
  | zero => cases h; exact ⟨ho, hc, rfl⟩
  | succ n ih =>
    obtain ⟨u, h1, h2⟩ := bind_eq_ok.1 h
    rw [memWrite_eq] at h1
    split at h1
    · rename_i hcap
      cases h1
      have hcap : k + 1 ≤ s.cfg.obCap := hcap
      have hw := bufOk_write sym (a := k) ho (Nat.le_refl _)
      rw [show max k (k + 1) = k + 1 by omega] at hw
      obtain ⟨r1, r2, r3⟩ := ih h2 hw hcap
      rw [show k + 1 + n = k + (n + 1) by omega] at r1 r2
      exact ⟨r1, r2, by rw [r3]; rfl⟩
    · cases h1

theorem unpackBody_sane {s u : State} (h : Sane s) (hs : s.stage = .parsed)
    (hu : unpackBody s = .ok u) : Sane u ∧ u.stage = .ddone := by
  obtain ⟨f1, f2, f3, f4, f5, f6, f7, f8, f9, f10, f11, f12, f13, f14, f15, f16, f17, f18, f19, f20⟩ :=
    h.fits
  obtain ⟨g1, g2, g3, g4, g5⟩ := h.stage
  have hcap : s.cfg.ibCap.val < 2 ^ 29 := s.cfg.ibCap.isLt
  have ho : s.ob = [] := g2 (by simp [hs]) (by simp [hs])
  have hp : s.pb = [] := g3 (by simp [hs]) (by simp [hs])
  have ht : s.td = [] := g4 (by simp [hs])
  have hoc : s.cfg.obCap < 2 ^ 32 := by unfold Config.obCap; omega
  have ho0 : BufOk s.ob 0 := by rw [ho]; exact bufOk_nil 0
  obtain ⟨t, h1, h2⟩ := bind_eq_ok.1 hu
  cases h2
  obtain ⟨e1, e2, e3, e4⟩ : BufOk t.ob t.outLen ∧ t.outLen ≤ s.cfg.obCap ∧
      (t.br.base < 2 ^ 32 ∧ t.br.limit < 2 ^ 33 ∧ t.br.pos < 2 ^ 33) ∧
      t = { s with ob := t.ob, outLen := t.outLen, br := t.br } := by
    unfold unpackTree at h1
    split at h1
    · cases h1; exact ⟨ho0, Nat.zero_le _, ⟨f7, f8, f9⟩, rfl⟩
    obtain ⟨x, _, h1⟩ := bind_eq_ok.1 h1
    split at h1
    · obtain ⟨v, h3, h4⟩ := bind_eq_ok.1 h1
      cases h4
      obtain ⟨r1, r2, r3⟩ := repeatLoop_ok h3 ho0 (Nat.zero_le _)
      rw [Nat.zero_add] at r1 r2
      have k1 : v.br = s.br := by rw [r3]
      have k2 : v.vbits = s.vbits := by rw [r3]
      refine ⟨?_, ?_, ?_, ?_⟩
      · show BufOk v.ob v.vbits; rw [k2]; exact r1
      · show v.vbits ≤ _; rw [k2]; exact r2
      · rw [k1]; exact ⟨f7, f8, f9⟩
      · simp only; rw [r3]
    · obtain ⟨⟨c, v⟩, h3, h4⟩ := bind_eq_ok.1 h1
      simp only at h4
      split at h4
      · cases h4
      cases h4
      obtain ⟨r1, r2, r3, r4, r5, r6⟩ := walkLoop_ok h3 ho0 (Nat.zero_le _) (Nat.zero_le _)
      have r3 : t.br.base = s.payOff := r3
      have r4 : t.br.limit = s.vbits := r4
      have r5 : t.br.pos ≤ s.vbits := r5
      exact ⟨r1, r2, by omega, by rw [r6]; rfl⟩
  have n1 : t.outLen < 2 ^ 32 := by omega
  have hob : bufBelow t.ob s.cfg.obCap = true := bufBelow_mono e1.2 e2
  rw [e4]
  refine ⟨⟨h.ib, ⟨e1, hob⟩, h.pb, h.td, h.pq, ?_, ?_⟩, rfl⟩
  · exact ⟨f1, f2, f3, f4, f5, f6, e3.1, e3.2.1, e3.2.2, f10, f11, n1, f13, f14, f15, f16, f17, f18,
      f19, f20⟩
  · exact ⟨fun h => (by cases h), fun _ h => absurd rfl h, fun _ _ => hp, fun _ => ht, g5⟩

end Sys2Proof.Machine
end

