-- ==== Sys2Proof/Laws/PerInstr.lean ====
section
/-! SUPPORT. A statement about every instruction of the opcode table: how many bits its encoding has
(30_encoding R80, R87, R88, R90, R96, R98). -/

namespace Sys2Proof.Laws.EncodingLength

/-- The bits of the format each row has: 8 for a command, 32 for a container field, 1 and 9 for the
node codes, none for a micro-operation. -/
def width : Instr → Nat
  | .nop | .clear | .fcount | .tbuild | .cgen | .pack | .serial | .parse | .unpack | .compress
  | .decompress => 8
  | .pqPush _ | .pqPopMin | .cgWalk _ _ | .bwInit _ | .bwPut _ | .bwFlush | .brInit _ _ | .brRem
  | .brGet | .serEmit _ | .desNode | .clearDerived => 0
  | .hdrT _ | .metaV _ => 32
  | .treeInternal => 1
  | .treeLeaf _ => 9

/-- The encoding has the width of its row. -/
def Statement (i : Instr) : Prop := (encode i).length = width i

theorem nop : Statement .nop := rfl
theorem clear : Statement .clear := rfl
theorem fcount : Statement .fcount := rfl
theorem tbuild : Statement .tbuild := rfl
theorem cgen : Statement .cgen := rfl
theorem pack : Statement .pack := rfl
theorem serial : Statement .serial := rfl
theorem parse : Statement .parse := rfl
theorem unpack : Statement .unpack := rfl
theorem compress : Statement .compress := rfl
theorem decompress : Statement .decompress := rfl
theorem pqPush (i : Nat) : Statement (.pqPush i) := rfl
theorem pqPopMin : Statement .pqPopMin := rfl
theorem cgWalk (i : Nat) (path : List Bool) : Statement (.cgWalk i path) := rfl
theorem bwInit (sink : Sink) : Statement (.bwInit sink) := rfl
theorem bwPut (b : Bool) : Statement (.bwPut b) := rfl
theorem bwFlush : Statement .bwFlush := rfl
theorem brInit (base limit : Nat) : Statement (.brInit base limit) := rfl
theorem brRem : Statement .brRem := rfl
theorem brGet : Statement .brGet := rfl
theorem serEmit (i : Nat) : Statement (.serEmit i) := rfl
theorem desNode : Statement .desNode := rfl
theorem clearDerived : Statement .clearDerived := rfl
theorem hdrT (t : Word) : Statement (.hdrT t) := rfl
theorem metaV (v : Word) : Statement (.metaV v) := rfl
theorem treeInternal : Statement .treeInternal := rfl
theorem treeLeaf (s : Byte) : Statement (.treeLeaf s) := rfl

end Sys2Proof.Laws.EncodingLength
end

