-- ==== Sys2Proof/Laws/Walk.lean ====
section
/-! SUPPORT. The walks over a tree of the arena: the code-table walk (42_code_table R136) and the
bit-by-bit walk of UNPACK (44_bit_reader R165), with the repetition of a lone symbol (R166). -/

namespace Sys2Proof.Machine

/-! ### CG.WALK -/

theorem writeCodes_append (s : State) (x y : List (Byte × List Bool)) :
    writeCodes s (x ++ y) = writeCodes (writeCodes s x) y := by
  induction x generalizing s with
  | nil => rfl
  | cons c x ih => obtain ⟨a, p⟩ := c; exact ih _

/-- Writing codes changes CT only. -/
theorem writeCodes_rest (s : State) (x : List (Byte × List Bool)) :
    writeCodes s x = { s with ct := (writeCodes s x).ct } := by
  induction x generalizing s with
  | nil => rfl
  | cons c x ih => obtain ⟨a, p⟩ := c; rw [writeCodes, ih]; rfl

/-- CG.WALK on a tree that its stack can hold writes the codes of its leaves (42_code_table R136). -/
theorem codeWalk_eq (tr : Tree) : ∀ {fuel i : Nat} {path : List Bool} {s : State},
    treeDepth tr < fuel → holdsTree s i tr = true →
    codeWalk fuel i path s = .ok (writeCodes s (treeCodes path tr)) := by
  induction tr with
  | leaf sym =>
    intro fuel i path s hf h
    obtain ⟨fuel, rfl⟩ : ∃ f, fuel = f + 1 := ⟨fuel - 1, by omega⟩
    obtain ⟨hi, hk, hs⟩ := holdsTree_leaf.1 h
    simp only [codeWalk, readNode_eq hi, ok_bind, hk, hs, treeCodes, writeCodes]
  | node l r ihl ihr =>
    intro fuel i path s hf h
    simp only [treeDepth] at hf
    obtain ⟨fuel, rfl⟩ : ∃ f, fuel = f + 1 := ⟨fuel - 1, by omega⟩
    obtain ⟨hi, hk, hl, hr⟩ := holdsTree_node.1 h
    have hn : (writeCodes s (treeCodes (path ++ [false]) l)).node = s.node := by rw [writeCodes_rest]
    simp only [codeWalk, readNode_eq hi, ok_bind, hk, treeCodes, writeCodes_append]
    rw [ihl (by omega) hl, ok_bind]
    exact ihr (by omega) ((holdsTree_node_congr hn _ _).trans hr)

/-- What a symbol reads after a list of codes has been written, if no symbol occurs twice. -/
theorem readCT_writeCodes {x : List (Byte × List Bool)} (hx : (x.map Prod.fst).Nodup) (s : State) :
    (∀ c ∈ x, readCT (writeCodes s x) c.1 = c.2) ∧
      ∀ sym, sym ∉ x.map Prod.fst → readCT (writeCodes s x) sym = readCT s sym := by
  induction x generalizing s with
  | nil => exact ⟨by simp, fun _ _ => rfl⟩
  | cons c x ih =>
    obtain ⟨a, p⟩ := c
    rw [List.map_cons, List.nodup_cons] at hx
    obtain ⟨h1, h2⟩ := ih hx.2 (writeCT s a p)
    constructor
    · intro c hc
      rcases List.mem_cons.1 hc with rfl | hc
      · simp only [writeCodes]
        rw [h2 _ hx.1]
        simp
      · exact h1 c hc
    · intro sym hs
      simp only [List.map_cons, List.mem_cons, not_or] at hs
      simp only [writeCodes]
      rw [h2 _ hs.2]
      simp [hs.1]

theorem treeCodes_symbols (tr : Tree) (path : List Bool) :
    (treeCodes path tr).map Prod.fst = treeLeaves tr := by
  induction tr generalizing path with
  | leaf s => rfl
  | node l r ihl ihr => simp [treeCodes, treeLeaves, ihl, ihr]

/-- Every code of a tree extends the path it is reached by. -/
theorem treeCodes_prefix {tr : Tree} {path : List Bool} {c : Byte × List Bool}
    (h : c ∈ treeCodes path tr) : path <+: c.2 := by
  induction tr generalizing path with
  | leaf s => simp [treeCodes] at h; subst h; exact List.prefix_refl _
  | node l r ihl ihr =>
    simp only [treeCodes, List.mem_append] at h
    rcases h with h | h
    · exact (List.prefix_append _ _).trans (ihl h)
    · exact (List.prefix_append _ _).trans (ihr h)

/-- The longest code of a tree is as long as the tree is deep. -/
theorem treeCodes_length {tr : Tree} {path : List Bool} {c : Byte × List Bool}
    (h : c ∈ treeCodes path tr) : c.2.length ≤ path.length + treeDepth tr := by
  induction tr generalizing path with
  | leaf s => simp [treeCodes] at h; subst h; simp
  | node l r ihl ihr =>
    simp only [treeCodes, List.mem_append] at h
    simp only [treeDepth]
    rcases h with h | h
    · have := ihl h; simp at this; omega
    · have := ihr h; simp at this; omega

/-- No code of a tree is a prefix of the code of another leaf (42_code_table R139). -/
theorem treeCodes_prefixFree {tr : Tree} {path : List Bool} (hn : (treeLeaves tr).Nodup)
    {c d : Byte × List Bool} (hc : c ∈ treeCodes path tr) (hd : d ∈ treeCodes path tr)
    (h : c.1 ≠ d.1) : ¬ c.2 <+: d.2 := by
  induction tr generalizing path with
  | leaf s => simp [treeCodes] at hc hd; subst hc; subst hd; exact absurd rfl h
  | node l r ihl ihr =>
    simp only [treeLeaves] at hn
    have hn' := List.nodup_append.1 hn
    simp only [treeCodes, List.mem_append] at hc hd
    have cross : ∀ {x y : Bool} {p q : List Bool}, x ≠ y → path ++ [x] <+: p → path ++ [y] <+: q →
        ¬ p <+: q := by
      intro x y p q hxy h1 h2 h3
      have := List.prefix_of_prefix_length_le (h1.trans h3) h2 (by simp)
      have := List.IsPrefix.eq_of_length this (by simp)
      simp at this
      exact hxy this
    rcases hc with hc | hc <;> rcases hd with hd | hd
    · exact ihl hn'.1 hc hd
    · exact cross (by decide) (treeCodes_prefix hc) (treeCodes_prefix hd)
    · exact cross (by decide) (treeCodes_prefix hc) (treeCodes_prefix hd)
    · exact ihr hn'.2.1 hc hd

/-! ### UNPACK's walk (44_bit_reader R165) -/

/-- The walk on the unread bits of the payload: where they decode, the symbols are in OB and the walk
ends at the root; where they end inside a code it ends elsewhere. -/
theorem walkLoop_eq {tr : Tree} (bits : List Bool) : ∀ {c : Tree} {cur fuel : Nat} {s : State},
    (∃ l r, c = .node l r) → (∃ l r, tr = .node l r) → holdsTree s cur c = true →
    holdsTree s s.root tr = true → (cur = s.root ↔ c = tr) → treeSize c ≤ treeSize tr →
    readerHolds s s.br.pos bits = true → s.br.pos + bits.length = s.br.limit →
    bits.length ≤ fuel → s.outLen + bits.length ≤ s.cfg.obCap →
    (∀ out, treeDecode tr c bits = some out →
      walkLoop fuel cur s = .ok (s.root, { s with
        ob := bufWriteList s.ob s.outLen out
        outLen := s.outLen + out.length
        br := { s.br with pos := s.br.limit } })) ∧
    (treeDecode tr c bits = none →
      ∃ cur' t, walkLoop fuel cur s = .ok (cur', t) ∧ cur' ≠ t.root) := by
  induction bits with
  | nil =>
    intro c cur fuel s hc htr hcur hroot hiff hsz hh hl hf ho
    have hl : s.br.pos = s.br.limit := by simpa using hl
    have e : walkLoop fuel cur s = .ok (cur, s) := by
      cases fuel <;> simp [walkLoop, readerRem, hl]
    by_cases h : c = tr
    · have hd : treeDecode tr c [] = some [] := by cases c <;> simp [treeDecode, h]
      refine ⟨fun out ho => ?_, fun hn => by rw [hd] at hn; cases hn⟩
      rw [hd] at ho
      cases ho
      rw [e, hiff.2 h]
      rw [← hl]
      rfl
    · have hd : treeDecode tr c [] = none := by cases c <;> simp [treeDecode, h]
      refine ⟨fun out ho => ?_, fun _ => ⟨cur, s, e, fun hh => h (hiff.1 hh)⟩⟩
      rw [hd] at ho
      cases ho
  | cons b bits ih =>
    intro c cur fuel s hc htr hcur hroot hiff hsz hh hl hf ho
    simp only [List.length_cons] at hl hf ho
    obtain ⟨l, r, rfl⟩ := hc
    obtain ⟨fuel, rfl⟩ : ∃ f, fuel = f + 1 := ⟨fuel - 1, by omega⟩
    have hg := readerGet_holds hh (by omega)
    have hrem : ¬ readerRem s = 0 := by unfold readerRem; omega
    obtain ⟨hi, hk, hcl, hcr⟩ := holdsTree_node.1 hcur
    have hh' : readerHolds (skipBits 1 s) (skipBits 1 s).br.pos bits = true := by
      rw [readerHolds_skipBits]
      simp only [readerHolds, Bool.and_eq_true] at hh
      exact hh.2
    have rn : ∀ {k : Nat}, k < 511 → readNode (skipBits 1 s) k = .ok (nodeAt s k) := fun h => readNode_eq h
    -- the child the bit selects
    obtain ⟨child, j, hchild, hj, hjt, hsize⟩ : ∃ child j, (if b then r else l) = child ∧
        (if b then (nodeAt s cur).right else (nodeAt s cur).left) = j ∧ holdsTree s j child = true ∧
        treeSize child < treeSize (.node l r) := by
      cases b
      · exact ⟨l, _, rfl, rfl, hcl, by simp only [treeSize]; omega⟩
      · exact ⟨r, _, rfl, rfl, hcr, by simp only [treeSize]; omega⟩
    have hj' := holdsTree_lt hjt
    simp only [walkLoop, hrem, if_false, hg, ok_bind, rn hi, hj, rn hj', treeDecode, hchild]
    cases child with
    | leaf sym =>
      obtain ⟨-, hkj, hsj⟩ := holdsTree_leaf.1 hjt
      simp only [hkj, hsj]
      have hw : memWrite (skipBits 1 s) .ob (skipBits 1 s).outLen [sym] =
          .ok { skipBits 1 s with ob := bufWrite s.ob s.outLen sym } := by
        rw [memWrite_eq, if_pos (by simp [capacity, skipBits]; omega)]
        rfl
      rw [hw]
      simp only [ok_bind]
      let s2 : State := { skipBits 1 s with
        ob := bufWrite s.ob s.outLen sym
        outLen := s.outLen + 1 }
      have hn : s2.node = s.node := rfl
      obtain ⟨a, b⟩ := ih (c := tr) (cur := s2.root) (fuel := fuel) (s := s2) htr htr
        ((holdsTree_node_congr hn _ _).trans hroot) ((holdsTree_node_congr hn _ _).trans hroot)
        (by simp) (Nat.le_refl _) ((readerHolds_congr (s := skipBits 1 s) (t := s2) rfl rfl _ _).trans hh')
        (show s.br.pos + 1 + bits.length = s.br.limit by omega) (by omega)
        (show s.outLen + 1 + bits.length ≤ s.cfg.obCap by omega)
      constructor
      · intro out hout
        obtain ⟨out', h1, rfl⟩ := Option.map_eq_some_iff.1 hout
        have := a out' h1
        refine Eq.trans this ?_
        simp [s2, skipBits, bufWriteList, Nat.add_assoc, Nat.add_comm 1]
      · intro hnone
        exact b (Option.map_eq_none_iff.1 hnone)
    | node l' r' =>
      obtain ⟨-, hkj, -, -⟩ := holdsTree_node.1 hjt
      simp only [hkj]
      have hne : Tree.node l' r' ≠ tr := by
        intro h; rw [h] at hsize; omega
      have hjr : j ≠ s.root := by
        intro h
        rw [h] at hjt
        exact hne (holdsTree_unique hjt hroot)
      exact ih (c := .node l' r') (cur := j) (fuel := fuel) (s := skipBits 1 s) ⟨l', r', rfl⟩ htr
        ((holdsTree_node_congr (s := s) (t := skipBits 1 s) rfl _ _).trans hjt)
        ((holdsTree_node_congr (s := s) (t := skipBits 1 s) rfl _ _).trans hroot)
        ⟨fun h => absurd h hjr, fun h => absurd h hne⟩ (by omega) hh'
        (show s.br.pos + 1 + bits.length = s.br.limit by omega) (by omega)
        (show s.outLen + bits.length ≤ s.cfg.obCap by omega)

/-- The repetition of a lone symbol (44_bit_reader R166). -/
theorem repeatLoop_eq (n : Nat) : ∀ {k : Nat} {sym : Byte} {s : State}, k + n ≤ s.cfg.obCap →
    repeatLoop n k sym s = .ok { s with ob := bufWriteList s.ob k (List.replicate n sym) } := by
  induction n with
  | zero => intros; rfl
  | succ n ih =>
    intro k sym s h
    have hw : memWrite s .ob k [sym] = .ok { s with ob := bufWrite s.ob k sym } := by
      rw [memWrite_eq, if_pos (by simp [capacity]; omega)]
      rfl
    simp only [repeatLoop, hw, ok_bind]
    exact ih (s := { s with ob := bufWrite s.ob k sym }) (show k + 1 + n ≤ s.cfg.obCap by omega)

/-- The body of UNPACK (44_bit_reader R163): where the valid bits decode, the symbols are in OB; where
they end inside a code, it raises ERR_MIDCODE at IN_LEN. -/
theorem unpackBody_eq {s : State} {tr : Option Tree} {bits : List Bool}
    (hr : holdsRoot s tr = true) (hv : s.vbits ≤ s.cfg.obCap)
    (hb : (∃ l r, tr = some (.node l r)) → bits.length = s.vbits ∧
      readerHolds (readerInit s.payOff s.vbits s) 0 bits = true) :
    (∀ out, rootOutput s.vbits bits tr = some out →
      ∃ u, unpackBody s = .ok u ∧ u.outLen = out.length ∧ u.ob = bufWriteList s.ob 0 out ∧
        u = { s with ob := u.ob, outLen := u.outLen, br := u.br, stage := .ddone }) ∧
    (rootOutput s.vbits bits tr = none →
      unpackBody s = .error (.raise .midcode s.inLen)) := by
  let s0 : State := { s with outLen := 0 }
  have eb : unpackBody s = (unpackTree s0 >>= fun s => .ok { s with stage := .ddone }) := rfl
  rw [eb]
  cases tr with
  | none =>
    simp only [holdsRoot, decide_eq_true_eq] at hr
    have : unpackTree s0 = .ok s0 := by simp [unpackTree, s0, hr]
    rw [this]
    refine ⟨fun out ho => ?_, fun hn => by cases hn⟩
    cases ho
    exact ⟨_, rfl, rfl, rfl, rfl⟩
  | some x =>
    simp only [holdsRoot, Bool.and_eq_true, decide_eq_true_eq] at hr
    obtain ⟨hn, hx⟩ := hr
    have hn0 : s0.nnode ≠ 0 := hn
    have rn : readNode s0 s0.root = .ok (nodeAt s s.root) := readNode_eq (holdsTree_lt hx)
    cases x with
    | leaf sym =>
      obtain ⟨_, hk, hsy⟩ := holdsTree_leaf.1 hx
      have hrep := repeatLoop_eq s.vbits (k := 0) (sym := sym) (s := s0)
        (show 0 + s.vbits ≤ s.cfg.obCap by omega)
      have : unpackTree s0 = .ok { s0 with
          ob := bufWriteList s.ob 0 (List.replicate s.vbits sym), outLen := s.vbits } := by
        simp only [unpackTree, hn0, if_false, rn, ok_bind, hk, hsy, singleSymbol]
        rw [show s0.vbits = s.vbits from rfl, hrep]
        rfl
      rw [this]
      refine ⟨fun out ho => ?_, fun hn => by cases hn⟩
      cases ho
      exact ⟨_, rfl, by simp, rfl, rfl⟩
    | node l r =>
      obtain ⟨hbl, hbh⟩ := hb ⟨l, r, rfl⟩
      obtain ⟨_, hk, _⟩ := holdsTree_node.1 hx
      let s1 := readerInit s0.payOff s0.vbits s0
      have hx1 : holdsTree s1 s0.root (.node l r) = true :=
        (holdsTree_node_congr (s := s) (t := s1) rfl _ _).trans hx
      obtain ⟨w1, w2⟩ := walkLoop_eq (tr := .node l r) bits (c := .node l r) (cur := s0.root)
        (fuel := s0.vbits) (s := s1) ⟨l, r, rfl⟩ ⟨l, r, rfl⟩ hx1 hx1 (by simp [s1, readerInit])
        (Nat.le_refl _)
        ((readerHolds_congr (s := readerInit s.payOff s.vbits s) (t := s1) rfl rfl _ _).trans hbh)
        (show 0 + bits.length = s.vbits by omega) (Nat.le_of_eq hbl)
        (show 0 + bits.length ≤ s.cfg.obCap by omega)
      have eu : unpackTree s0 = treeWalk s0 := by
        simp only [unpackTree, hn0, if_false, rn, ok_bind, hk]
      rw [eu]
      constructor
      · intro out ho
        have ew : treeWalk s0 = .ok { s1 with
            ob := bufWriteList s1.ob s1.outLen out
            outLen := s1.outLen + out.length
            br := { s1.br with pos := s1.br.limit } } := by
          unfold treeWalk
          rw [w1 out ho]
          simp only [ok_bind]
          exact if_neg (by simp [s1, readerInit])
        rw [ew]
        exact ⟨_, rfl, by simp [s1, s0, readerInit], rfl, rfl⟩
      · intro hnone
        obtain ⟨cur', t, h1, h2⟩ := w2 hnone
        have ew : treeWalk s0 = .error (.raise .midcode s.inLen) := by
          unfold treeWalk
          rw [h1]
          simp only [ok_bind, h2, ne_eq, not_false_eq_true, if_true, raiseFormat]
          rw [(walkLoop_keeps h1).inLen]
          rfl
        rw [ew]
        rfl

end Sys2Proof.Machine
end

