-- ==== Sys2Proof/Laws/RoundTrip.lean ====
section
/-! SUPPORT. Packed bits unpack to themselves (20_memory R62, 43_bit_writer R149), and the codes of a
tree decode to their symbols (44_bit_reader R168). -/

namespace Sys2Proof.Machine

theorem packBits_nil : packBits [] = [] := rfl

theorem packBits_step {bits : List Bool} (h : bits ≠ []) :
    packBits bits = headByte bits :: packBits (bits.drop 8) := by
  have hl : 0 < bits.length := List.length_pos_iff.2 h
  have hc : ceil8 bits.length = ceil8 (bits.drop 8).length + 1 := by
    rw [List.length_drop]; unfold ceil8; omega
  rw [packBits_eq, packBits_eq, hc, List.range_succ_eq_map, List.map_cons, List.map_map]
  congr 1
  refine List.map_congr_left fun j _ => ?_
  simp only [Function.comp, byteAt, List.drop_drop]
  congr 2
  omega

/-- Fewer than eight bits start the byte they are put in. -/
theorem short_prefix (l : List Bool) (h : l.length < 8) : l <+: byteBits (headByte l) := by
  match l, h with
  | [], _ => exact List.nil_prefix
  | [a0], _ => revert a0; decide +kernel
  | [a0, a1], _ => revert a0 a1; decide +kernel
  | [a0, a1, a2], _ => revert a0 a1 a2; decide +kernel
  | [a0, a1, a2, a3], _ => revert a0 a1 a2 a3; decide +kernel
  | [a0, a1, a2, a3, a4], _ => revert a0 a1 a2 a3 a4; decide +kernel
  | [a0, a1, a2, a3, a4, a5], _ => revert a0 a1 a2 a3 a4 a5; decide +kernel
  | [a0, a1, a2, a3, a4, a5, a6], _ => revert a0 a1 a2 a3 a4 a5 a6; decide +kernel

/-- The bits of a packed bit string start with the string; the padding follows. -/
theorem unpackBits_packBits (bits : List Bool) : bits <+: unpackBits (packBits bits) := by
  induction h : bits.length using Nat.strong_induction_on generalizing bits with
  | _ n ih =>
    by_cases h0 : bits = []
    · subst h0; exact List.nil_prefix
    rw [packBits_step h0]
    have hu : unpackBits (headByte bits :: packBits (bits.drop 8)) =
        byteBits (headByte bits) ++ unpackBits (packBits (bits.drop 8)) := rfl
    rw [hu]
    by_cases h8 : 8 ≤ bits.length
    · rw [byteBits_headByte bits h8]
      have := ih (bits.drop 8).length (by rw [List.length_drop]; omega) (bits.drop 8) rfl
      have := (List.prefix_append_right_inj (bits.take 8)).2 this
      rwa [List.take_append_drop] at this
    · refine List.IsPrefix.trans ?_ (List.prefix_append _ _)
      exact short_prefix bits (by omega)

theorem take_unpackBits_packBits (bits : List Bool) :
    (unpackBits (packBits bits)).take bits.length = bits :=
  (List.prefix_iff_eq_take.1 (unpackBits_packBits bits)).symm

/-- The codes below a path are the codes from the root with the path in front. -/
theorem treeCodes_path (tr : Tree) (path : List Bool) :
    treeCodes path tr = (treeCodes [] tr).map fun c => (c.1, path ++ c.2) := by
  induction tr generalizing path with
  | leaf s => simp [treeCodes]
  | node l r ihl ihr =>
    simp only [treeCodes, List.nil_append, List.map_append]
    rw [ihl (path ++ [false]), ihr (path ++ [true]), ihl [false], ihr [true], List.map_map,
      List.map_map]
    simp [Function.comp_def]

/-- The walk over the code of a leaf answers its symbol and goes on at the root (44_bit_reader R165). -/
theorem treeDecode_code {root : Tree} (rest : List Bool) (cur : Tree) :
    (∃ l r, cur = .node l r) → ∀ c ∈ treeCodes [] cur,
      treeDecode root cur (c.2 ++ rest) = (treeDecode root root rest).map (c.1 :: ·) := by
  induction cur with
  | leaf s => rintro ⟨l, r, h⟩; cases h
  | node l r ihl ihr =>
    rintro - c hc
    have step : ∀ (b : Bool) (child : Tree), (if b then r else l) = child →
        ((∃ l r, child = .node l r) → ∀ c ∈ treeCodes [] child, treeDecode root child (c.2 ++ rest) =
          (treeDecode root root rest).map (c.1 :: ·)) →
        ∀ c ∈ treeCodes [b] child, treeDecode root (.node l r) (c.2 ++ rest) =
          (treeDecode root root rest).map (c.1 :: ·) := by
      intro b child hb ih c hc
      rw [treeCodes_path] at hc
      obtain ⟨c', hc', rfl⟩ := List.mem_map.1 hc
      simp only [List.cons_append, treeDecode, hb]
      cases child with
      | leaf sym =>
        simp [treeCodes] at hc'
        subst hc'
        rfl
      | node l' r' => exact ih ⟨l', r', rfl⟩ c' hc'
    simp only [treeCodes, List.nil_append, List.mem_append] at hc
    rcases hc with hc | hc
    · exact step false l rfl ihl c hc
    · exact step true r rfl ihr c hc

/-- Coded symbols decode to themselves (44_bit_reader R168). -/
theorem treeDecode_codes {l r : Tree} {code : Byte → List Bool}
    (h : ∀ c ∈ treeCodes [] (.node l r), code c.1 = c.2) (bs : List Byte)
    (hb : ∀ b ∈ bs, b ∈ treeLeaves (.node l r)) :
    treeDecode (.node l r) (.node l r) (bs.flatMap code) = some bs := by
  induction bs with
  | nil => simp [treeDecode]
  | cons b bs ih =>
    have h1 := ih fun x hx => hb x (List.mem_cons_of_mem _ hx)
    have h2 := hb b List.mem_cons_self
    rw [← treeCodes_symbols _ []] at h2
    obtain ⟨c, hc, rfl⟩ := List.mem_map.1 h2
    rw [List.flatMap_cons, h c hc, treeDecode_code _ _ ⟨l, r, rfl⟩ c hc, h1]
    rfl

end Sys2Proof.Machine
end

