-- ==== Sys2Proof/Tests/Slice0.lean ====
section
/-! SUPPORT. The model's own tests: the operand checks refuse ill-formed terms, words written out from
30_encoding decode to what they stand for, single steps give the values of 95_test_vectors (V-…), and
every statement with hypotheses has a state that meets them. -/

namespace Sys2Proof.Tests

open Sys2Proof.Machine

-- One theorem at a time: each pending one holds a thread's whole stack.
set_option Elab.async false

/-! ### Small states -/

/-- After reset, with an instance of 16 input bytes (95_test_vectors 2.8). -/
def tiny : State := State.initial { ibCap := ⟨16, by decide⟩ }

/-- An input the host has written, in a stage. -/
def withInput (bs : List Byte) (st : Stage := .clear) : State :=
  { State.reset with ib := bufWriteList [] 0 bs, inLen := bs.length, stage := st }

/-- An input longer than the 16 bytes of the instance. -/
def oversize : State := { tiny with inLen := 17 }

/-- A leaf and an internal record of the vectors' notation, without weights. -/
def leafAt (sym : Byte) : Node := leafRecord sym 0

def innerAt (l r : Nat) : Node := internalRecord l r 0

/-- The state with these records at the start of the arena and a root. -/
def withArena (s : State) (records : List Node) (root : Nat) : State :=
  { s with
    node := records.zipIdx.foldl (fun v x => v.setIfInBounds x.2 x.1) s.node
    nnode := records.length
    root := root }

/-- The state with these entries in the frequency table. -/
def withCounts (s : State) (entries : List (Byte × Nat)) : State :=
  entries.foldl (fun s e => writeFT s e.1 e.2) s

/-- V-T9, the counts of `abracadabra`. -/
def counted : State :=
  withCounts { State.reset with stage := .freq }
    [(0x61#8, 5), (0x62#8, 2), (0x63#8, 1), (0x64#8, 1), (0x72#8, 2)]

/-- The arena of V-T9 in stage TREE. -/
def built : State :=
  withArena { State.reset with stage := .tree }
    [leafRecord 0x61#8 5, leafRecord 0x62#8 2, leafRecord 0x63#8 1, leafRecord 0x64#8 1,
      leafRecord 0x72#8 2, internalRecord 2 3 2, internalRecord 1 4 4, internalRecord 5 6 6,
      internalRecord 0 7 11] 8

/-- The lone leaf of V-T2 in stage TREE. -/
def lone : State := withArena { State.reset with stage := .tree } [leafRecord 0x61#8 1] 0

/-- The input `aabc` with the codes of V-C5 in stage CODE. -/
def coded : State :=
  writeCodes (withInput [0x61#8, 0x61#8, 0x62#8, 0x63#8] .code)
    [(0x61#8, [false]), (0x62#8, [true, false]), (0x63#8, [true, true])]

/-- The tree and the payload of `ab` in stage PACKED. -/
def packed : State :=
  { withArena { State.reset with stage := .packed }
      [leafRecord 0x61#8 1, leafRecord 0x62#8 1, internalRecord 0 1 2] 2 with
    pb := [(0, 0x40#8)], vbits := 2, payLen := 1 }

/-- The container of `ab` (V-E6). -/
def abBytes : List Byte :=
  [0x00#8, 0x00#8, 0x00#8, 0x03#8, 0x58#8, 0x6C#8, 0x40#8, 0x00#8, 0x00#8, 0x00#8, 0x02#8, 0x40#8]

/-- The container of `aabc` (V-E9). -/
def aabcBytes : List Byte :=
  [0x00#8, 0x00#8, 0x00#8, 0x04#8, 0x58#8, 0x56#8, 0x2B#8, 0x18#8, 0x00#8, 0x00#8, 0x00#8, 0x06#8, 0x2C#8]

/-- V-P40: `ab` after PARSE, in stage PARSED. -/
def parsed : State :=
  { withArena (withInput abBytes .parsed) [innerAt 1 2, leafAt 0x61#8, leafAt 0x62#8] 0 with
    nsym := 2, tdBits := 19, tdLen := 3, vbits := 2, payLen := 1, payOff := 11 }

/-- The tree description of `ab` under the reader, nothing allocated. -/
def describing : State :=
  { withInput abBytes with tdLen := 3, br := { base := 4, limit := 24, pos := 0 } }

/-- The tree of `ab`. -/
def abTree : Machine.Tree := .node (.leaf 0x61#8) (.leaf 0x62#8)

/-- The tree of `aabc` (V-T5). -/
def aabcTree : Machine.Tree := .node (.leaf 0x61#8) (.node (.leaf 0x62#8) (.leaf 0x63#8))

/-- The next state has the property. -/
def next (o : Outcome) (p : State → Bool) : Bool :=
  match o with
  | .next t => p t
  | _ => false

/-- The model fault. -/
def faults (o : Outcome) (f : Fault) : Bool :=
  match o with
  | .fault g => decide (g = f)
  | _ => false

/-- `ERR nn @p` of 95_test_vectors: the registers an error leaves. -/
def errs (o : Outcome) (code : Byte) (pos : Nat) : Bool :=
  next o fun t => decide (statusWord t = 0x06#8) && decide (errValue t.errCode = code) &&
    decide (t.errPos = pos) && decide (t.outLen = 0)

/-- The normal end with a STATUS. -/
def ends (o : Outcome) (status : Byte) (p : State → Bool) : Bool :=
  next o fun t => decide (statusWord t = status) && p t

/-! ### Ill-formed operands (WellFormed) -/

theorem test_illformed_push : (Instr.pqPush 511).wellFormed = false := by decide
theorem test_illformed_walk_index : (Instr.cgWalk 511 []).wellFormed = false := by decide
theorem test_illformed_walk_path :
    (Instr.cgWalk 0 (List.replicate 256 true)).wellFormed = false := by decide +kernel
theorem test_illformed_reader_base : (Instr.brInit (2 ^ 32) 0).wellFormed = false := by decide
theorem test_illformed_reader_limit : (Instr.brInit 0 (2 ^ 33)).wellFormed = false := by decide
theorem test_illformed_emit : (Instr.serEmit 511).wellFormed = false := by decide
theorem test_wellformed_limits :
    (Instr.pqPush 510).wellFormed = true ∧ (Instr.serEmit 510).wellFormed = true ∧
      (Instr.cgWalk 510 (List.replicate 255 true)).wellFormed = true ∧
      (Instr.brInit (2 ^ 32 - 1) (2 ^ 33 - 1)).wellFormed = true := by decide +kernel

/-! ### Words written out from 30_encoding -/

/-- R96: the eleven command codes, most significant bit first. -/
theorem test_decode_commands :
    decode .command [false, false, false, false, false, false, false, false] = .ok (.nop, []) ∧
    decode .command [false, false, false, false, false, false, false, true] = .ok (.clear, []) ∧
    decode .command [false, false, false, false, false, false, true, false] = .ok (.fcount, []) ∧
    decode .command [false, false, false, false, false, false, true, true] = .ok (.tbuild, []) ∧
    decode .command [false, false, false, false, false, true, false, false] = .ok (.cgen, []) ∧
    decode .command [false, false, false, false, false, true, false, true] = .ok (.pack, []) ∧
    decode .command [false, false, false, false, false, true, true, false] = .ok (.serial, []) ∧
    decode .command [false, false, false, false, false, true, true, true] = .ok (.parse, []) ∧
    decode .command [false, false, false, false, true, false, false, false] = .ok (.unpack, []) ∧
    decode .command [false, false, false, true, false, false, false, false] = .ok (.compress, []) ∧
    decode .command [false, false, false, true, false, false, false, true] = .ok (.decompress, []) :=
  ⟨rfl, rfl, rfl, rfl, rfl, rfl, rfl, rfl, rfl, rfl, rfl⟩

/-- R97: the reserved codes at the edges of their ranges. -/
theorem test_decode_reserved :
    decodeCommand 0x09#8 = .error (.reservedCode 0x09#8) ∧
    decodeCommand 0x0F#8 = .error (.reservedCode 0x0F#8) ∧
    decodeCommand 0x12#8 = .error (.reservedCode 0x12#8) ∧
    decodeCommand 0xFF#8 = .error (.reservedCode 0xFF#8) := by decide +kernel

/-- R80, R87, R88: `00 00 01 40` is 320 and `80 00 00 01` has its top bit in the first byte. -/
theorem test_decode_fields :
    decode .header (unpackBits [0x00#8, 0x00#8, 0x01#8, 0x40#8]) = .ok (.hdrT 320#32, []) ∧
    decode .payloadMetadata (unpackBits [0x80#8, 0x00#8, 0x00#8, 0x01#8]) =
      .ok (.metaV 2147483649#32, []) := by decide +kernel

/-- R90: the flag first, then `s7` down to `s0`; V-E6 `0 1 01100001 …`. -/
theorem test_decode_nodes :
    decode .treeNode [false] = .ok (.treeInternal, []) ∧
    decode .treeNode [true, false, true, true, false, false, false, true, false] =
      .ok (.treeLeaf 0x62#8, []) ∧
    decode .treeNode [true, false, true, true, false, false, false, true] = .error .truncated := by
  decide +kernel

/-- The table's numbering (log 16). -/
theorem test_decode_table :
    decodeTableWord 8 0x11 = some .decompress ∧ decodeTableWord 8 0x0A = none ∧
    decodeTableWord 16 0x161 = some (.treeLeaf 0x61#8) ∧ decodeTableWord 32 7 = some (.hdrT 7#32) ∧
    decodeTableWord 0 0 = none := by decide +kernel

/-! ### One step of each instruction -/

/-- V-H13, V-H11. -/
theorem test_nop :
    exec .nop State.reset = .next State.reset ∧
    exec .nop (errorEntry State.reset .vbits 11) = .next (errorEntry State.reset .vbits 11) :=
  ⟨rfl, rfl⟩

/-- V-H12 (the error is acknowledged), V-H10 (no length test). -/
theorem test_clear :
    ends (exec .clear (errorEntry State.reset .vbits 11)) 0x02#8
      (fun t => decide (t.errCode = .none) && decide (t.errPos = 0)) = true ∧
    ends (exec .clear oversize) 0x02#8 (fun t => decide (t.inLen = 17)) = true := by decide +kernel

/-- V-F3. -/
theorem test_fcount :
    ends (exec .fcount (withInput [0x61#8, 0x62#8, 0x72#8, 0x61#8, 0x63#8, 0x61#8, 0x64#8, 0x61#8,
        0x62#8, 0x72#8, 0x61#8])) 0x12#8
      (fun t => decide (t.nsym = 5) && decide (readFT t 0x61#8 = 5) && decide (readFT t 0x62#8 = 2) &&
        decide (readFT t 0x63#8 = 1) && decide (readFT t 0x72#8 = 2)) = true := by decide +kernel

/-- V-F5: a byte at IN_LEN is not read; V-F6: the wrong stage. -/
theorem test_fcount_edges :
    ends (exec .fcount { withInput [0x61#8, 0x62#8, 0x63#8] with inLen := 2 }) 0x12#8
      (fun t => decide (readFT t 0x62#8 = 1) && decide (readFT t 0x63#8 = 0)) = true ∧
    errs (exec .fcount (withInput [0x61#8] .freq)) 0x11#8 0 = true := by decide +kernel

/-- V-T9: the leaves go before an internal node of the same weight. -/
theorem test_tbuild :
    ends (exec .tbuild counted) 0x22#8 (fun t => decide (t.nnode = 9) && decide (t.root = 8) &&
      decide (nodeAt t 4 = leafRecord 0x72#8 2) && decide (nodeAt t 5 = internalRecord 2 3 2) &&
      decide (nodeAt t 6 = internalRecord 1 4 4) && decide (nodeAt t 7 = internalRecord 5 6 6) &&
      decide (nodeAt t 8 = internalRecord 0 7 11)) = true := by decide +kernel

/-- V-T1 and V-T2. -/
theorem test_tbuild_edges :
    ends (exec .tbuild { State.reset with stage := .freq }) 0x22#8
      (fun t => decide (t.nnode = 0) && decide (t.root = 0)) = true ∧
    ends (exec .tbuild (withCounts { State.reset with stage := .freq } [(0x61#8, 1)])) 0x22#8
      (fun t => decide (t.nnode = 1) && decide (nodeAt t 0 = leafRecord 0x61#8 1)) = true := by
  decide +kernel

/-- V-C9. -/
theorem test_cgen :
    ends (exec .cgen built) 0x32#8 (fun t => decide (readCT t 0x61#8 = [false]) &&
      decide (readCT t 0x62#8 = [true, true, false]) && decide (readCT t 0x63#8 = [true, false, false]) &&
      decide (readCT t 0x64#8 = [true, false, true]) && decide (readCT t 0x72#8 = [true, true, true])) =
        true := by decide +kernel

/-- V-C2: the lone leaf. -/
theorem test_cgen_lone :
    ends (exec .cgen lone) 0x32#8 (fun t => decide (readCT t 0x61#8 = [false])) = true := by
  decide +kernel

/-- V-W14. -/
theorem test_pack :
    ends (exec .pack coded) 0x42#8 (fun t => decide (t.vbits = 6) && decide (t.payLen = 1) &&
      decide (t.pb = [(0, 0x2C#8)])) = true := by decide +kernel

/-- V-W9: nine zero bits fill two bytes. -/
theorem test_pack_two_bytes :
    ends (exec .pack (writeCT (withInput (List.replicate 9 0xFF#8) .code) 0xFF#8 [false])) 0x42#8
      (fun t => decide (t.vbits = 9) && decide (t.pb = [(0, 0x00#8), (1, 0x00#8)])) = true := by
  decide +kernel

/-- V-E6. -/
theorem test_serial :
    ends (exec .serial packed) 0x52#8 (fun t => decide (t.tdBits = 19) && decide (t.tdLen = 3) &&
      decide (t.payOff = 11) && decide (t.outLen = 12) && bufHolds t.ob 0 abBytes) = true := by
  decide +kernel

/-- V-E1. -/
theorem test_serial_empty :
    ends (exec .serial { State.reset with stage := .packed }) 0x52#8 (fun t => decide (t.outLen = 8) &&
      bufHolds t.ob 0 (List.replicate 8 0x00#8)) = true := by decide +kernel

/-- V-P42, and V-P43 where the root's right child follows the three nodes of its left subtree. -/
theorem test_parse :
    ends (exec .parse (withInput aabcBytes)) 0x62#8 (fun t => decide (t.nsym = 3) &&
      decide (t.nnode = 5) && decide (nodeAt t 0 = innerAt 1 2) && decide (nodeAt t 1 = leafAt 0x61#8) &&
      decide (nodeAt t 2 = innerAt 3 4) && decide (nodeAt t 4 = leafAt 0x63#8) &&
      decide (t.tdBits = 29) && decide (t.vbits = 6) && decide (t.payOff = 12)) = true ∧
    ends (exec .parse (withInput [0x00#8, 0x00#8, 0x00#8, 0x05#8, 0x2C#8, 0x36#8, 0x25#8, 0x8E#8, 0xC8#8,
        0x00#8, 0x00#8, 0x00#8, 0x08#8, 0x1B#8])) 0x62#8 (fun t => decide (nodeAt t 0 = innerAt 1 4) &&
      decide (nodeAt t 1 = innerAt 2 3) && decide (nodeAt t 4 = innerAt 5 6) &&
      decide (nodeAt t 6 = leafAt 0x64#8)) = true := by decide +kernel

/-- V-P14 (surplus tree byte), V-P12 (the block ends inside the tree), V-P33 (the 512th flag bit exists)
and V-P32 (the block ends after 504 internal nodes). -/
theorem test_parse_errors :
    errs (exec .parse (withInput [0x00#8, 0x00#8, 0x00#8, 0x04#8, 0x58#8, 0x6C#8, 0x40#8, 0x00#8, 0x00#8,
      0x00#8, 0x00#8, 0x02#8, 0x40#8])) 0x04#8 7 = true ∧
    errs (exec .parse (withInput [0x00#8, 0x00#8, 0x00#8, 0x01#8, 0x00#8, 0x00#8, 0x00#8, 0x00#8,
      0x00#8])) 0x02#8 5 = true ∧
    errs (exec .parse (withInput ([0x00#8, 0x00#8, 0x00#8, 0x40#8] ++ List.replicate 68 0x00#8)))
      0x03#8 67 = true ∧
    errs (exec .parse (withInput ([0x00#8, 0x00#8, 0x00#8, 0x3F#8] ++ List.replicate 67 0x00#8)))
      0x02#8 67 = true := by decide +kernel

/-- `ab` back from its container (V-E6). -/
theorem test_unpack :
    ends (exec .unpack parsed) 0x72#8 (fun t => decide (t.outLen = 2) &&
      decide (t.ob = [(0, 0x61#8), (1, 0x62#8)])) = true := by decide +kernel

/-- V-P20 as UNPACK meets it: one bit `1` leaves the walk below the root. -/
theorem test_unpack_midcode :
    errs (exec .unpack
      { withArena (withInput [0x00#8, 0x00#8, 0x00#8, 0x04#8, 0x58#8, 0x56#8, 0x2B#8, 0x18#8, 0x00#8, 0x00#8,
          0x00#8, 0x01#8, 0x80#8] .parsed)
          [innerAt 1 2, leafAt 0x61#8, innerAt 3 4, leafAt 0x62#8, leafAt 0x63#8] 0 with
        vbits := 1, payLen := 1, payOff := 12 }) 0x08#8 13 = true := by decide +kernel

/-- Program 1's container bytes for `ab` (V-E6), and the frame's length test (V-H7). -/
theorem test_compress :
    ends (exec .compress (withInput [0x61#8, 0x62#8])) 0x52#8 (fun t => decide (t.outLen = 12) &&
      bufHolds t.ob 0 abBytes && decide (t.vbits = 2)) = true := by decide +kernel

theorem test_compress_oversize : errs (exec .compress oversize) 0x12#8 0 = true := by decide +kernel

/-- Program 3: `aabc`, and V-P1. -/
theorem test_decompress :
    ends (exec .decompress (withInput aabcBytes)) 0x72#8 (fun t => decide (t.outLen = 4) &&
      bufHolds t.ob 0 [0x61#8, 0x61#8, 0x62#8, 0x63#8]) = true := by decide +kernel

theorem test_decompress_empty : errs (exec .decompress State.reset) 0x01#8 0 = true := by decide +kernel

/-- V-T9's queue with the leaves b and r of weight 2 queued: PUSH 5, then the lowest key is (2, 1). -/
theorem test_queue :
    next (exec (.pqPush 5) { built with pq := [0, 1, 4] }) (fun t => decide (t.pq = [0, 1, 4, 5])) = true ∧
    next (exec .pqPopMin { built with pq := [0, 1, 4, 5] }) (fun t => decide (t.ret = some 1) &&
      decide (t.pq = [0, 4, 5])) = true := by decide +kernel

/-- V-C9 below ROOT's right child: the path is a prefix of every code. -/
theorem test_walk :
    next (exec (.cgWalk 7 [true]) built) (fun t => decide (readCT t 0x63#8 = [true, false, false]) &&
      decide (readCT t 0x61#8 = [])) = true := by decide +kernel

/-- V-W2, V-W4 (the eighth bit), V-W3 (the padding is not counted). -/
theorem test_writer :
    next (exec (.bwPut true) State.reset) (fun t => decide (t.bw = { sink := .pb, acc := 0x80#8, nb := 1
                                                                     wp := 0, total := 1 })) = true ∧
    next (exec (.bwPut true) { State.reset with bw := { sink := .td, acc := 0x1A#8, nb := 7, wp := 0
                                                        total := 7 } })
      (fun t => decide (t.td = [(0, 0x1B#8)]) && decide (t.bw = { sink := .td, acc := 0x00#8, nb := 0
                                                                  wp := 1, total := 8 })) = true ∧
    next (exec .bwFlush { State.reset with bw := { sink := .pb, acc := 0xA0#8, nb := 3, wp := 0
                                                   total := 3 } })
      (fun t => decide (t.pb = [(0, 0xA0#8)]) && decide (t.bw.wp = 1) && decide (t.bw.total = 3)) =
        true := by decide +kernel

/-- BW.INIT(TD) drops what was left of the other sink. -/
theorem test_writer_init :
    next (exec (.bwInit .td) { State.reset with bw := { sink := .pb, acc := 0xA0#8, nb := 3, wp := 7
                                                        total := 59 } })
      (fun t => decide (t.bw = { sink := .td, acc := 0x00#8, nb := 0, wp := 0, total := 0 })) = true := by
  decide +kernel

/-- V-R1's byte and V-R3's edge: bit 7 of the second byte at POS 8, REM at the end. -/
theorem test_reader :
    next (exec .brGet { withInput [0x00#8, 0x00#8, 0x00#8, 0x00#8, 0xA5#8] with
      br := { base := 4, limit := 8, pos := 2 } })
      (fun t => decide (t.ret = some 1) && decide (t.br.pos = 3)) = true ∧
    next (exec .brGet { withInput [0x6E#8, 0x8A#8, 0xDC#8] with br := { base := 0, limit := 23, pos := 8 } })
      (fun t => decide (t.ret = some 1)) = true ∧
    next (exec .brRem { State.reset with br := { base := 4, limit := 8, pos := 8 } })
      (fun t => decide (t.ret = some 0)) = true ∧
    next (exec (.brInit 15 23) State.reset) (fun t => decide (t.br = { base := 15, limit := 23, pos := 0 })) =
      true := by decide +kernel

/-- V-E6: the description of `ab` is 19 bits, `58 6C` and three bits of `40`. -/
theorem test_emit :
    next (exec (.serEmit 2) packed) (fun t => decide (t.bw.total = 19) &&
      decide (t.pb = [(0, 0x58#8), (1, 0x6C#8)]) && decide (t.bw.acc = 0x40#8)) = true := by decide +kernel

/-- V-P40: DES.NODE on the description of `ab`. -/
theorem test_desnode :
    next (exec .desNode describing) (fun t => decide (t.ret = some 0) && decide (t.nnode = 3) &&
      decide (nodeAt t 0 = innerAt 1 2) && decide (nodeAt t 2 = leafAt 0x62#8) &&
      decide (t.br.pos = 19) && decide (t.nsym = 2)) = true := by decide +kernel

/-- V-P33's test order: the arena is full and a bit is left. -/
theorem test_desnode_overflow :
    errs (exec .desNode { describing with nnode := 511, br := { base := 4, limit := 512, pos := 511 } })
      0x03#8 67 = true := by decide +kernel

/-- R47: ClearDerived keeps the flags (V-H14: DONE keeps its value). -/
theorem test_clearDerived :
    next (exec .clearDerived { counted with done := true, nsym := 5 }) (fun t =>
      decide (statusWord t = 0x02#8) && decide (t.nsym = 0) && decide (readFT t 0x61#8 = 0)) = true := by
  decide +kernel

/-- V-P19: `4 + T` does not wrap; V-P4 and the first legal length. -/
theorem test_header :
    errs (exec (.hdrT 0xFFFFFFFF#32) { State.reset with inLen := 8 }) 0x01#8 4 = true ∧
    errs (exec (.hdrT 3#32) { State.reset with inLen := 7 }) 0x01#8 7 = true ∧
    next (exec (.hdrT 3#32) { State.reset with inLen := 11 }) (fun t => decide (t.tdLen = 3)) = true := by
  decide +kernel

/-- V-P7, V-P8, V-P17 and V-P10, on the metadata field alone. -/
theorem test_metadata :
    errs (exec (.metaV 9#32) { State.reset with inLen := 12, tdLen := 3 }) 0x05#8 7 = true ∧
    errs (exec (.metaV 2#32) { State.reset with inLen := 13, tdLen := 3 }) 0x06#8 12 = true ∧
    errs (exec (.metaV 1#32) { State.reset with inLen := 9, tdLen := 0 }) 0x07#8 4 = true ∧
    ends (exec (.metaV 0#32) { State.reset with inLen := 11, tdLen := 3 }) 0x60#8
      (fun t => decide (t.payOff = 11)) = true := by decide +kernel

/-- V-P40's first and second node, as node codes. -/
theorem test_node_codes :
    next (exec .treeInternal describing) (fun t => decide (t.nnode = 3) &&
      decide (nodeAt t 0 = innerAt 1 2)) = true ∧
    next (exec (.treeLeaf 0x61#8) { describing with
      nnode := 1, br := { base := 4, limit := 24, pos := 1 } }) (fun t => decide (t.ret = some 1) &&
        decide (nodeAt t 1 = leafAt 0x61#8) && decide (t.br.pos = 10)) = true := by decide +kernel

/-! ### The host -/

/-- V-H2 and V-H3: a reserved code, the result discarded. -/
theorem test_badcmd :
    errs (step { State.reset with
      stage := .cdone, outLen := 18, host := { script := [.writeReg 0#8 0x80#32], replies := [] } })
      0x10#8 0 = true := by decide +kernel

/-- V-H14's last action and V-H16. -/
theorem test_invalidate :
    next (step { counted with
      done := true, nsym := 2, host := { script := [.writeIB 0 0x63#8], replies := [] } })
      (fun t => decide (statusWord t = 0x02#8) && decide (t.nsym = 0) &&
        decide (bufRead t.ib 0 = some 0x63#8)) = true ∧
    next (step { State.reset with
      done := true, stage := .cdone, outLen := 18
      host := { script := [.writeReg 4#8 1#32], replies := [] } })
      (fun t => decide (statusWord t = 0x52#8) && decide (t.outLen = 18) && decide (t.inLen = 1)) =
        true := by decide +kernel

/-- V-H18 and V-H19. -/
theorem test_host_reads :
    next (step { State.reset with
      stage := .cdone, outLen := 18, ob := [(17, 0xDC#8)]
      host := { script := [.readOB 17], replies := [] } })
      (fun t => decide (t.host.replies = [.byte 0xDC#8])) = true ∧
    next (step { State.reset with
      outLen := 18, host := { script := [.readOB 18], replies := [] } })
      (fun t => decide (t.host.replies = [.refused])) = true ∧
    next (step { State.reset with host := { script := [.writeReg 5#8 5#32], replies := [] } })
      (fun t => decide (t.outLen = 0)) = true := by decide +kernel

/-- 30_encoding R102 with V-E6 and V-E1, from reset and from the middle of another call's pipeline. -/
theorem test_compress_call :
    compress Config.standard [0x61#8, 0x62#8] = .bytes abBytes ∧
    compress Config.standard [] = .bytes (List.replicate 8 0x00#8) ∧
    compressFrom counted [0x61#8, 0x62#8] = .bytes abBytes := by decide +kernel

/-- V-E9 back, V-P1 and V-P7, the last from a state that still holds a result. -/
theorem test_decompress_call :
    decompress Config.standard aabcBytes = .bytes [0x61#8, 0x61#8, 0x62#8, 0x63#8] ∧
    decompress Config.standard [] = .error .eob 0 ∧
    decompressFrom { packed with stage := .cdone, outLen := 18, done := true }
      (abBytes.set 10 0x09#8) = .error .vbits 7 := by decide +kernel

/-- V-H20: `IB[1]` holds no value. -/
theorem test_unwritten :
    faults (exec .compress { withInput [0x61#8] with inLen := 2 }) (.readUnwritten .ib 1) = true := by
  decide +kernel

/-! ### Every statement's hypotheses can be met

One theorem for each statement with hypotheses, or for each of its clauses: a state and operands that
meet them together, at an end of each range. -/

/-- What a next state with a property is. -/
theorem next_exists {o : Outcome} {p : State → Bool} (h : next o p = true) :
    ∃ t, o = .next t ∧ p t = true := by
  cases o with
  | next t => exact ⟨t, rfl, h⟩
  | fault f => cases h
  | refused r => cases h

/-- The host's next action. -/
def acting (s : State) (a : HostAction) : State := { s with host := { script := [a], replies := [] } }

/-- Sixteen input bytes in an instance of sixteen. -/
def filled : State := { tiny with ib := bufWriteList [] 0 (List.replicate 16 0x41#8), inLen := 16 }

/-- A left-deep tree of `n + 1` leaves, the symbols counting up from the right. -/
def chainTree : Nat → Machine.Tree
  | 0 => .leaf 0x00#8
  | n + 1 => .node (chainTree n) (.leaf (BitVec.ofNat 8 (n + 1)))

theorem chainTree_depth (n : Nat) : treeDepth (chainTree n) = n := by
  induction n with
  | zero => rfl
  | succ n ih => simp only [chainTree, treeDepth, ih]; omega

theorem chainTree_bits (n : Nat) : (treeBits (chainTree n)).length = 10 * n + 9 := by
  induction n with
  | zero => rfl
  | succ n ih => simp [chainTree, treeBits, ih]; omega

/-- The record of index `i` in the arena of `chainTree 255`. -/
def deepRecord (i : Nat) : Node :=
  if i < 255 then innerAt (i + 1) (510 - i) else leafAt (BitVec.ofNat 8 (i - 255))

/-- The deepest tree the arena holds: 256 leaves, depth 255 (V-P30). -/
def deep : State :=
  { State.reset with
    node := Vector.ofFn fun i => deepRecord i.val, nnode := 511, stage := .tree }

theorem nodeAt_deep {i : Nat} (h : i < 511) : nodeAt deep i = deepRecord i := by
  simp [nodeAt, deep, Vector.getD, h]

theorem holdsTree_deep (n : Nat) (h : n ≤ 255) : holdsTree deep (255 - n) (chainTree n) = true := by
  induction n with
  | zero => simp [holdsTree, chainTree, nodeAt_deep, deepRecord, leafAt, leafRecord, Config.nodeMax]
  | succ n ih =>
    have hl := ih (by omega)
    have hr : nodeAt deep (255 - (n + 1)) = innerAt (255 - n) (256 + n) := by
      rw [nodeAt_deep (by omega), deepRecord, if_pos (by omega)]
      congr 1 <;> omega
    have hs : nodeAt deep (256 + n) = leafAt (BitVec.ofNat 8 (n + 1)) := by
      rw [nodeAt_deep (by omega), deepRecord, if_neg (by omega), show 256 + n - 255 = n + 1 by omega]
    have ha : 255 - (n + 1) < Config.nodeMax := by simp only [Config.nodeMax]; omega
    have hb : 256 + n < Config.nodeMax := by simp only [Config.nodeMax]; omega
    simp only [holdsTree, chainTree, hr, innerAt, internalRecord, hl, hs, leafAt, leafRecord, ha, hb,
      decide_true, Bool.and_true]

/-- The tree of `built`. -/
def builtTree : Machine.Tree :=
  .node (.leaf 0x61#8)
    (.node (.node (.leaf 0x63#8) (.leaf 0x64#8)) (.node (.leaf 0x62#8) (.leaf 0x72#8)))

theorem witness_encodeThenDecode : (Instr.treeLeaf 0xFF#8).place = some .treeNode := rfl

theorem witness_decodedBits :
    decode .treeNode [true, true, true, true, true, true, true, true, true, false] =
      .ok (.treeLeaf 0xFF#8, [false]) := rfl

theorem witness_stepRunsDecodedCommand :
    (acting State.reset (.writeReg 0#8 0x10#32)).busy = false ∧
    (acting State.reset (.writeReg 0#8 0x10#32)).host.script = [.writeReg 0#8 0x10#32] ∧
    decodeCommand ((0x10#32 : Word).setWidth 8) = .ok .compress := ⟨rfl, rfl, rfl⟩

theorem witness_reservedCode :
    ∀ v ∈ [0x09#32, 0x0F#32, 0x12#32, 0xFF#32],
      (acting State.reset (.writeReg 0#8 v)).busy = false ∧
      (acting State.reset (.writeReg 0#8 v)).host.script = [.writeReg 0#8 v] ∧
      (0x09 ≤ (v.setWidth 8 : Byte).toNat ∧ (v.setWidth 8 : Byte).toNat ≤ 0x0F ∨
        0x12 ≤ (v.setWidth 8 : Byte).toNat) := by
  intro v hv
  refine ⟨rfl, rfl, ?_⟩
  simp only [List.mem_cons, List.not_mem_nil, or_false] at hv
  rcases hv with rfl | rfl | rfl | rfl <;> decide

theorem witness_waitsAndRuns :
    State.reset.host.script = [] ∧ decodeCommand (BitVec.ofNat 8 0x11) = .ok .decompress := ⟨rfl, rfl⟩

/-- At the root's flag and at the second node's. -/
theorem witness_desNodeRunsDecodedNode :
    readerHolds describing 0 (treeBits abTree) = true ∧ 0 + (treeBits abTree).length ≤ 24 ∧
    decode .treeNode (treeBits abTree) = .ok (.treeInternal, (treeBits abTree).drop 1) ∧
    readerHolds describing 1 ((treeBits abTree).drop 1) = true ∧
    decode .treeNode ((treeBits abTree).drop 1) = .ok (.treeLeaf 0x61#8, (treeBits abTree).drop 10) :=
  ⟨by decide +kernel, by decide, rfl, by decide +kernel, rfl⟩

theorem witness_instructionsKeepInput : ∃ t, exec .clear (withInput [0x61#8]) = .next t := ⟨_, rfl⟩

/-- A command that ends normally and one that ends in the error entry. -/
theorem witness_commandsEnd :
    isCommand .clear = true ∧ Instr.clear ≠ .nop ∧ State.reset.busy = false ∧
    (∃ t, exec .clear State.reset = .next t) ∧
    isCommand .compress = true ∧ Instr.compress ≠ .nop ∧ oversize.busy = false ∧
    ∃ t, exec .compress oversize = .next t :=
  ⟨rfl, by decide, rfl, ⟨_, rfl⟩, rfl, by decide, rfl, ⟨_, rfl⟩⟩

/-- The length test passes at the capacity, or is not made (V-H9). -/
theorem witness_wrongStage :
    requiredStage .unpack = some .parsed ∧ filled.busy = false ∧ filled.stage ≠ .parsed ∧
    (readsInput .unpack = true → filled.inLen ≤ filled.cfg.ibCap.val) ∧
    requiredStage .tbuild = some .freq ∧ oversize.stage ≠ .freq ∧
    (readsInput .tbuild = true → oversize.inLen ≤ oversize.cfg.ibCap.val) := by
  refine ⟨rfl, rfl, by decide, fun _ => by decide, rfl, by decide, fun h => (by cases h)⟩

theorem witness_oversize :
    readsInput .unpack = true ∧ oversize.busy = false ∧ oversize.cfg.ibCap.val < oversize.inLen := by
  decide

theorem witness_busy :
    isCommand .fcount = true ∧ ({ State.reset with busy := true } : State).busy = true := ⟨rfl, rfl⟩

theorem witness_clear : (errorEntry State.reset .vbits 11).busy = false := rfl

/-- An input that fills the instance. -/
theorem witness_fcountCounts :
    filled.busy = false ∧ filled.stage = .clear ∧ (∀ sym, readFT filled sym = 0) ∧
    filled.hasInput (List.replicate 16 0x41#8) = true ∧
    (List.replicate 16 0x41#8).length ≤ filled.cfg.ibCap.val :=
  ⟨rfl, rfl, readFT_zero rfl, by decide +kernel, by decide⟩

/-- Two orders of one input. -/
theorem witness_fcountFacts :
    (∀ bs ∈ [[0x61#8, 0x62#8], [0x62#8, 0x61#8]], (withInput bs).busy = false ∧
      (withInput bs).stage = .clear ∧ (withInput bs).derivedClear ∧ (withInput bs).hasInput bs = true ∧
      next (exec .fcount (withInput bs)) (fun t => !t.err) = true) ∧
    [0x61#8, 0x62#8].Perm [0x62#8, 0x61#8] := by
  refine ⟨fun bs h => ⟨rfl, rfl, rfl, ?_, ?_⟩, List.Perm.swap _ _ _⟩ <;> revert bs <;> decide +kernel

theorem witness_unwritten :
    ∃ s : State, s.busy = false ∧ s.inLen ≤ s.cfg.ibCap.val ∧ 1 < s.inLen ∧
      (∀ j < 1, (bufRead s.ib j).isSome = true) ∧ bufRead s.ib 1 = none ∧ s.stage = .clear :=
  ⟨{ withInput [0x61#8] with inLen := 2 }, rfl, by decide +kernel, by decide, by decide, by decide, rfl⟩

theorem witness_tbuildArena :
    counted.busy = false ∧ counted.stage = .freq ∧ counted.pq = [] ∧
    (presentSymbols counted).length = 5 := by decide +kernel

/-- The second merge of V-T9, and the entry `NODE[5]` it leaves queued. -/
theorem witness_tbuildMerges :
    ∃ t, exec .tbuild counted = .next t ∧ (presentSymbols counted).length ≤ 6 ∧ 6 < t.nnode ∧
      ∀ m, (presentSymbols counted).length ≤ m → m < 6 →
        (nodeAt t m).left ≠ 5 ∧ (nodeAt t m).right ≠ 5 := by
  have hn : (presentSymbols counted).length = 5 := by decide +kernel
  obtain ⟨t, h1, h2⟩ := next_exists (o := exec .tbuild counted)
    (p := fun t => decide (6 < t.nnode) && decide ((nodeAt t 5).left ≠ 5) &&
      decide ((nodeAt t 5).right ≠ 5)) (by decide +kernel)
  simp only [Bool.and_eq_true, decide_eq_true_eq] at h2
  refine ⟨t, h1, by omega, h2.1.1, fun m hm hm' => ?_⟩
  rw [hn] at hm
  obtain rfl : m = 5 := by omega
  exact ⟨h2.1.2, h2.2⟩

theorem witness_tbuildTree :
    counted.busy = false ∧ counted.stage = .freq ∧ counted.pq = [] ∧ presentSymbols counted ≠ [] ∧
    ∃ t, exec .tbuild counted = .next t := by
  refine ⟨rfl, rfl, rfl, by decide +kernel, ?_⟩
  obtain ⟨t, h, -⟩ := next_exists (o := exec .tbuild counted) (p := fun _ => true) (by decide +kernel)
  exact ⟨t, h⟩

/-- The tree of V-T9 and another over its symbols. -/
theorem witness_tbuildOptimal :
    (∃ t, exec .tbuild counted = .next t ∧ holdsRoot t (some builtTree) = true) ∧
    (treeLeaves (.node (.node (.leaf 0x61#8) (.leaf 0x62#8))
      (.node (.leaf 0x63#8) (.node (.leaf 0x64#8) (.leaf 0x72#8))))).Perm (presentSymbols counted) :=
  ⟨next_exists (o := exec .tbuild counted) (p := fun t => holdsRoot t (some builtTree)) (by decide +kernel),
    by decide +kernel⟩

theorem witness_popMin : ({ built with pq := [0] } : State).pq ≠ [] := by decide

theorem witness_push : 510 < 511 := by decide

/-- A subtree below a path, and the longest path at a leaf. -/
theorem witness_codeWalk :
    holdsTree built 5 (.node (.leaf 0x63#8) (.leaf 0x64#8)) = true ∧
    [true, false].length + treeDepth (.node (.leaf 0x63#8) (.leaf 0x64#8)) ≤ 255 ∧
    holdsTree built 0 (.leaf 0x61#8) = true ∧
    (List.replicate 255 true).length + treeDepth (.leaf 0x61#8) ≤ 255 := by decide +kernel

/-- No tree, a lone leaf, and the deepest tree. -/
theorem witness_cgen :
    (∃ s : State, s.busy = false ∧ s.stage = .tree ∧ s.nnode = 0) ∧
    (lone.busy = false ∧ lone.stage = .tree ∧ holdsRoot lone (some (.leaf 0x61#8)) = true) ∧
    deep.busy = false ∧ deep.stage = .tree ∧ holdsRoot deep (some (chainTree 255)) = true ∧
    (∃ l r, chainTree 255 = .node l r) ∧ treeDepth (chainTree 255) ≤ 255 := by
  refine ⟨⟨{ State.reset with stage := .tree }, rfl, rfl, rfl⟩, ⟨rfl, rfl, by decide +kernel⟩, rfl, rfl, ?_,
    ⟨_, _, rfl⟩, by rw [chainTree_depth]⟩
  have h := holdsTree_deep 255 (Nat.le_refl _)
  simp only [holdsRoot, Bool.and_eq_true]
  exact ⟨by decide, h⟩

theorem witness_prefixFree :
    built.busy = false ∧ built.stage = .tree ∧ (∀ sym, readCT built sym = []) ∧
    holdsRoot built (some builtTree) = true ∧ (treeLeaves builtTree).Nodup ∧ treeDepth builtTree ≤ 255 ∧
    ∃ t, exec .cgen built = .next t := by
  refine ⟨rfl, rfl, readCT_empty rfl, by decide +kernel, by decide, by decide, ?_⟩
  obtain ⟨t, h, -⟩ := next_exists (o := exec .cgen built) (p := fun _ => true) (by decide +kernel)
  exact ⟨t, h⟩

/-- The seventh bit of a byte; the last byte of TD; a full TD. -/
theorem witness_writerPut :
    (∃ s : State, s.bw.nb < 7 ∧ s.bw.regular) ∧
    (∃ s : State, s.bw.nb = 7 ∧ s.bw.wp < capacity s.cfg (sinkBuffer s.bw.sink) ∧ s.bw.regular) ∧
    ∃ s : State, s.bw.nb = 7 ∧ capacity s.cfg (sinkBuffer s.bw.sink) ≤ s.bw.wp ∧ s.bw.regular :=
  ⟨⟨{ State.reset with bw := { sink := .td, acc := 0xFC#8, nb := 6, wp := 0, total := 6 } }, by decide⟩,
    ⟨{ State.reset with bw := { sink := .td, acc := 0xFE#8, nb := 7, wp := 319, total := 2559 } }, by decide⟩,
    ⟨{ State.reset with bw := { sink := .td, acc := 0xFE#8, nb := 7, wp := 320, total := 2567 } }, by decide⟩⟩

/-- A byte boundary; one bit and seven bits of a byte, in the last byte of TD; a full TD. -/
theorem witness_writerFlush :
    State.reset.bw.nb = 0 ∧
    (∃ s : State, s.bw.nb = 1 ∧ s.bw.wp < capacity s.cfg (sinkBuffer s.bw.sink) ∧ s.bw.regular) ∧
    (∃ s : State, s.bw.nb = 7 ∧ s.bw.wp < capacity s.cfg (sinkBuffer s.bw.sink) ∧ s.bw.regular) ∧
    ∃ s : State, 0 < s.bw.nb ∧ capacity s.cfg (sinkBuffer s.bw.sink) ≤ s.bw.wp :=
  ⟨rfl, ⟨{ State.reset with bw := { sink := .td, acc := 0x80#8, nb := 1, wp := 319, total := 2553 } },
      by decide⟩,
    ⟨{ State.reset with bw := { sink := .td, acc := 0xFE#8, nb := 7, wp := 319, total := 2559 } },
      by decide⟩,
    ⟨{ State.reset with bw := { sink := .td, acc := 0x80#8, nb := 1, wp := 320, total := 2561 } },
      by decide⟩⟩

/-- A bit string that fills TD. -/
theorem witness_writerPacks :
    ceil8 (List.replicate 2560 true).length ≤ capacity State.reset.cfg (sinkBuffer .td) := by
  rw [List.length_replicate]
  decide

/-- V-W14 with its room, and a code of nine bits in an instance of one byte. -/
theorem witness_pack :
    (coded.busy = false ∧ coded.stage = .code ∧
      coded.hasInput [0x61#8, 0x61#8, 0x62#8, 0x63#8] = true ∧
      ceil8 ([0x61#8, 0x61#8, 0x62#8, 0x63#8].flatMap (readCT coded)).length ≤ coded.cfg.pbCap) ∧
    ∃ s : State, s.busy = false ∧ s.stage = .code ∧ s.hasInput [0x61#8] = true ∧
      1 ≤ s.cfg.ibCap.val ∧ s.cfg.pbCap < ceil8 ([0x61#8].flatMap (readCT s)).length := by
  refine ⟨by decide +kernel,
    writeCT { State.initial { ibCap := ⟨1, by decide⟩ } with
      ib := [(0, 0x61#8)], inLen := 1, stage := .code } 0x61#8 (List.replicate 9 true), ?_⟩
  decide +kernel

/-- The last bit below a limit. -/
theorem witness_reader :
    ∃ s : State, s.br.pos < s.br.limit ∧ bufRead s.ib (s.br.base + s.br.pos / 8) = some 0xA5#8 :=
  ⟨{ withInput [0x00#8, 0xA5#8] with br := { base := 1, limit := 8, pos := 7 } }, by decide, by decide⟩

theorem witness_microStops :
    State.reset.pq = [] ∧ State.reset.br.limit ≤ State.reset.br.pos ∧
    (∃ s : State, s.br.pos < s.br.limit ∧ bufRead s.ib (s.br.base + s.br.pos / 8) = none) ∧
    511 ≤ 511 ∧ (List.replicate 255 true).length ≤ 255 :=
  ⟨rfl, by decide, ⟨{ State.reset with br := { base := 4, limit := 8, pos := 7 } }, by decide, by decide⟩,
    by decide, by decide +kernel⟩

/-- Room to the bit. -/
theorem witness_emit :
    ∃ s : State, holdsTree s 2 abTree = true ∧ treeDepth abTree ≤ 255 ∧ s.bw.nb < 8 ∧
      8 * s.bw.wp + s.bw.nb + (treeBits abTree).length = 8 * capacity s.cfg (sinkBuffer s.bw.sink) :=
  ⟨{ packed with bw := { sink := .td, acc := 0#8, nb := 5, wp := 317, total := 2541 } },
    by decide +kernel⟩

/-- With a tree and without; the deepest tree's description still fits TD. -/
theorem witness_serial :
    (packed.busy = false ∧ packed.stage = .packed ∧ holdsRoot packed (some abTree) = true ∧
      packed.payLen = [0x40#8].length ∧ bufHolds packed.pb 0 [0x40#8] = true ∧
      packed.payLen ≤ packed.cfg.pbCap) ∧
    holdsRoot { State.reset with stage := .packed } none = true ∧
    treeDepth (chainTree 255) = 255 ∧ (rootBits (some (chainTree 255))).length ≤ 2560 := by
  refine ⟨by decide +kernel, by decide, chainTree_depth 255, ?_⟩
  show (treeBits (chainTree 255)).length ≤ 2560
  rw [chainTree_bits]
  decide

/-- A container length, for the field checks. -/
def lengthOf (n : Nat) (t : Nat := 0) : State := { State.reset with inLen := n, tdLen := t }

/-- A container of 3, 4, `4 + T`, `7 + T` and `8 + T` bytes. -/
theorem witness_header :
    (lengthOf 3).inLen < 4 ∧
    (4 ≤ (lengthOf 4).inLen ∧ (lengthOf 4).inLen < 4 + (1#32 : Word).toNat) ∧
    (4 + (3#32 : Word).toNat ≤ (lengthOf 7).inLen ∧ 4 ≤ (lengthOf 7).inLen ∧
      (lengthOf 7).inLen < 8 + (3#32 : Word).toNat) ∧
    (4 + (3#32 : Word).toNat ≤ (lengthOf 10).inLen ∧ (lengthOf 10).inLen < 8 + (3#32 : Word).toNat) ∧
    8 + (3#32 : Word).toNat ≤ (lengthOf 11).inLen := by decide

/-- V-P7, V-P8, V-P17, V-P10 and the empty container. -/
theorem witness_metadata :
    ((lengthOf 12 3).inLen = 8 + (lengthOf 12 3).tdLen + 1 ∧ 8 * 1 < (9#32 : Word).toNat) ∧
    ((lengthOf 13 3).inLen = 8 + (lengthOf 13 3).tdLen + 2 ∧ (2#32 : Word).toNat ≤ 8 * 2 ∧
      ceil8 (2#32 : Word).toNat < 2) ∧
    ((lengthOf 9).inLen = 8 + (lengthOf 9).tdLen + 1 ∧ (1#32 : Word).toNat ≤ 8 * 1 ∧
      1 ≤ ceil8 (1#32 : Word).toNat ∧ (lengthOf 9).tdLen = 0 ∧ (1#32 : Word).toNat ≠ 0) ∧
    ((lengthOf 11 3).inLen = 8 + (lengthOf 11 3).tdLen + 0 ∧ (0#32 : Word).toNat ≤ 8 * 0 ∧
      0 ≤ ceil8 (0#32 : Word).toNat ∧ ¬((lengthOf 11 3).tdLen = 0 ∧ (0#32 : Word).toNat ≠ 0)) ∧
    ((lengthOf 8).inLen = 8 + (lengthOf 8).tdLen + 0 ∧
      ¬((lengthOf 8).tdLen = 0 ∧ (0#32 : Word).toNat ≠ 0)) := by decide

/-- The last arena entry, the last nine bits. -/
theorem witness_leafCode :
    ∃ s : State, s.nnode < 511 ∧ s.br.pos + 9 ≤ s.br.limit :=
  ⟨{ State.reset with nnode := 510, br := { base := 4, limit := 16, pos := 7 } }, by decide, by decide⟩

/-- The last three arena entries, a block that ends with the tree. -/
theorem witness_nodesRebuildTree :
    ∃ s : State, s.nnode + treeSize abTree = 511 ∧
      readerHolds s s.br.pos (treeBits abTree) = true ∧
      s.br.pos + (treeBits abTree).length = s.br.limit :=
  ⟨{ describing with nnode := 508, br := { base := 4, limit := 19, pos := 0 } }, by decide +kernel⟩

/-- No bit left; a full arena; a leaf flag with seven bits after it (V-P13). -/
theorem witness_desNodeRejects :
    (∃ s : State, s.br.limit ≤ s.br.pos) ∧
    (∃ s : State, s.br.pos < s.br.limit ∧ 511 ≤ s.nnode) ∧
    ∃ s : State, s.br.pos < s.br.limit ∧ s.nnode < 511 ∧ readerHolds s s.br.pos [true] = true ∧
      s.br.limit < s.br.pos + 9 :=
  ⟨⟨State.reset, by decide⟩, ⟨{ describing with nnode := 511 }, by decide⟩,
    ⟨{ withInput [0x00#8, 0x00#8, 0x00#8, 0x01#8, 0x80#8] with br := { base := 4, limit := 8, pos := 0 } },
      by decide +kernel⟩⟩

/-- What PARSE's statement asks of an input: a header, a description, a count and `p` payload bytes. -/
def parseInput (bs : List Byte) (tr : Option Machine.Tree) (d : List Byte) (v : Word) (p : Nat) : Bool :=
  let s := withInput bs
  decide (s.busy = false) && decide (s.stage = .clear) && decide (s.inLen ≤ s.cfg.ibCap.val) &&
    decide (d.length = ceil8 (rootBits tr).length) && (rootBits tr).isPrefixOf (unpackBits d) &&
    bufHolds s.ib 0 (be32 (BitVec.ofNat 32 d.length) ++ d ++ be32 v) &&
    decide (s.inLen = 8 + d.length + p)

/-- V-P7, V-P8, V-P17, V-P15 (padding that is not zero) and the empty container. -/
theorem witness_parse :
    (∀ bs, (withInput bs).derivedClear) ∧ (treeLeaves abTree).length ≤ 256 ∧
    parseInput [0x00#8, 0x00#8, 0x00#8, 0x03#8, 0x58#8, 0x6C#8, 0x40#8, 0x00#8, 0x00#8, 0x00#8, 0x09#8,
      0x40#8] (some abTree) [0x58#8, 0x6C#8, 0x40#8] 9#32 1 = true ∧
    parseInput (abBytes ++ [0x00#8]) (some abTree) [0x58#8, 0x6C#8, 0x40#8] 2#32 2 = true ∧
    parseInput [0x00#8, 0x00#8, 0x00#8, 0x00#8, 0x00#8, 0x00#8, 0x00#8, 0x01#8, 0x00#8] none [] 1#32 1 = true ∧
    parseInput [0x00#8, 0x00#8, 0x00#8, 0x03#8, 0x58#8, 0x6C#8, 0x5F#8, 0x00#8, 0x00#8, 0x00#8, 0x02#8,
      0x40#8] (some abTree) [0x58#8, 0x6C#8, 0x5F#8] 2#32 1 = true ∧
    parseInput (List.replicate 8 0x00#8) none [] 0#32 0 = true := by
  refine ⟨fun _ => rfl, by decide, ?_⟩
  decide +kernel

/-- V-P2, V-P3 and V-P5. -/
theorem witness_parseMissing :
    (withInput [0x00#8, 0x00#8, 0x00#8]).inLen < 4 ∧
    (bufHolds (withInput (abBytes.take 6)).ib 0 (be32 3#32) = true ∧ 4 ≤ (withInput (abBytes.take 6)).inLen ∧
      (withInput (abBytes.take 6)).inLen < 4 + (3#32 : Word).toNat) ∧
    (bufHolds (withInput (abBytes.take 10)).ib 0 (be32 3#32) = true ∧
      4 + (3#32 : Word).toNat ≤ (withInput (abBytes.take 10)).inLen ∧
      (withInput (abBytes.take 10)).inLen < 8 + (3#32 : Word).toNat) := by decide +kernel

theorem chainTree_size (n : Nat) : treeSize (chainTree n) = 2 * n + 1 := by
  induction n with
  | zero => rfl
  | succ n ih => simp only [chainTree, treeSize, ih]; omega

/-- The first nodes of a left-deep tree in pre-order are its internal ones. -/
theorem chainTree_prefix {k : Nat} : ∀ {n : Nat}, n ≤ k →
    treePrefix n (chainTree k) = List.replicate n false := by
  induction k with
  | zero =>
    intro n h
    obtain rfl : n = 0 := by omega
    rfl
  | succ k ih =>
    intro n h
    cases n with
    | zero => rfl
    | succ n =>
      rw [chainTree, treePrefix, if_neg (by omega), Nat.add_sub_cancel, ih (by omega), chainTree_size,
        Nat.sub_eq_zero_of_le (by omega), treePrefix_zero, List.append_nil, List.replicate_succ]

/-- After the internal nodes of a left-deep tree its leaves follow, nine bits each. -/
theorem chainTree_prefix_length {k m : Nat} (h : m ≤ k) :
    (treePrefix (k + m) (chainTree k)).length = k + 9 * m := by
  induction k with
  | zero =>
    obtain rfl : m = 0 := by omega
    rfl
  | succ k ih =>
    rw [chainTree, treePrefix, if_neg (by omega), chainTree_size, show k + 1 + m - 1 = k + m by omega,
      Nat.sub_eq_zero_of_le (by omega), treePrefix_zero, List.append_nil, List.length_cons]
    by_cases hm : m = k + 1
    · subst hm
      rw [treePrefix_all (by rw [chainTree_size]; omega), chainTree_bits]
      omega
    · rw [ih (by omega)]
      omega

/-- V-P14, V-P11, V-P33, V-P32, and the first tree too large, V-P29. -/
theorem witness_parseWrong :
    (∀ bs, (withInput bs).derivedClear) ∧ treeSize abTree ≤ 511 ∧
    (treeBits abTree <+: unpackBits [0x58#8, 0x6C#8, 0x40#8, 0x00#8] ∧
      ceil8 (treeBits abTree).length < [0x58#8, 0x6C#8, 0x40#8, 0x00#8].length) ∧
    (unpackBits [0x58#8, 0x6C#8] <+: treePrefix 511 abTree ∧
      8 * [0x58#8, 0x6C#8].length < (treeBits abTree).length) ∧
    (511 < treeSize (chainTree 511) ∧
      treePrefix 511 (chainTree 511) <+: unpackBits (List.replicate 64 0x00#8) ∧
      (treePrefix 511 (chainTree 511)).length < 8 * (List.replicate 64 (0x00#8 : Byte)).length) ∧
    (unpackBits (List.replicate 63 0x00#8) <+: treePrefix 511 (chainTree 511) ∧
      8 * (List.replicate 63 (0x00#8 : Byte)).length < (treeBits (chainTree 511)).length) ∧
    (treeSize (chainTree 256) = 513 ∧ (treePrefix 511 (chainTree 256)).length = 2551 ∧
      treePrefix 511 (chainTree 256) <+: unpackBits (packBits (treeBits (chainTree 256)))) ∧
    bufHolds (withInput [0x00#8, 0x00#8, 0x00#8, 0x04#8, 0x58#8, 0x6C#8, 0x40#8, 0x00#8, 0x00#8, 0x00#8,
      0x00#8, 0x02#8, 0x40#8]).ib 0 (be32 4#32 ++ [0x58#8, 0x6C#8, 0x40#8, 0x00#8]) = true ∧
    bufHolds (withInput [0x00#8, 0x00#8, 0x00#8, 0x02#8, 0x58#8, 0x6C#8, 0x00#8, 0x00#8, 0x00#8, 0x02#8,
      0x40#8]).ib 0 (be32 2#32 ++ [0x58#8, 0x6C#8]) = true := by
  refine ⟨fun _ => rfl, by decide +kernel, by decide +kernel, by decide +kernel, ?_, ?_, ?_,
    by decide +kernel, by decide +kernel⟩
  · rw [chainTree_prefix (Nat.le_refl 511), chainTree_size]
    decide +kernel
  · rw [chainTree_prefix (Nat.le_refl 511), chainTree_bits]
    decide +kernel
  · exact ⟨chainTree_size 256, chainTree_prefix_length (k := 256) (m := 255) (by decide),
      (treePrefix_prefix _ _).trans (unpackBits_packBits _)⟩

/-- A walk that ends at the root, one that does not, a lone leaf, no tree. -/
theorem witness_unpack :
    (parsed.busy = false ∧ parsed.stage = .parsed ∧ parsed.inLen ≤ parsed.cfg.ibCap.val ∧
      holdsRoot parsed (some abTree) = true ∧ parsed.vbits ≤ parsed.cfg.obCap ∧
      [false, true].length = parsed.vbits ∧
      readerHolds { parsed with br := { base := parsed.payOff, limit := parsed.vbits, pos := 0 } } 0
        [false, true] = true ∧
      rootOutput parsed.vbits [false, true] (some abTree) = some [0x61#8, 0x62#8]) ∧
    rootOutput 1 [true] (some aabcTree) = none ∧
    (holdsRoot { lone with stage := .parsed, vbits := 3 } (some (.leaf 0x61#8)) = true ∧
      rootOutput 3 [] (some (.leaf 0x61#8)) = some [0x61#8, 0x61#8, 0x61#8]) ∧
    (holdsRoot { State.reset with stage := .parsed } none = true ∧ rootOutput 0 [] none = some []) := by
  decide +kernel

/-- An input that fills the instance. -/
theorem witness_compressNeverFails :
    filled.busy = false ∧ filled.hasInput (List.replicate 16 0x41#8) = true ∧
    (List.replicate 16 0x41#8).length ≤ filled.cfg.ibCap.val := by decide +kernel

/-- COMPRESS of `ab` ends without error, with the bytes of V-E6 in OB. -/
theorem compress_ab :
    ∃ t, exec .compress (withInput [0x61#8, 0x62#8]) = .next t ∧ t.err = false ∧ 1 ≤ t.payLen ∧
      abBytes.length = t.outLen ∧ bufHolds t.ob 0 abBytes = true := by
  obtain ⟨t, h1, h2⟩ := next_exists (o := exec .compress (withInput [0x61#8, 0x62#8]))
    (p := fun t => decide (t.err = false) && decide (1 ≤ t.payLen) && decide (abBytes.length = t.outLen) &&
      bufHolds t.ob 0 abBytes) (by decide +kernel)
  simp only [Bool.and_eq_true, decide_eq_true_eq] at h2
  exact ⟨t, h1, h2.1.1.1, h2.1.1.2, h2.1.2, h2.2⟩

theorem witness_compressContainer :
    (withInput [0x61#8, 0x62#8]).busy = false ∧ (withInput [0x61#8, 0x62#8]).hasInput [0x61#8, 0x62#8] = true ∧
    ∃ t, exec .compress (withInput [0x61#8, 0x62#8]) = .next t ∧ t.err = false := by
  obtain ⟨t, h1, h2, -⟩ := compress_ab
  exact ⟨rfl, by decide +kernel, t, h1, h2⟩

theorem witness_decompressDecodes :
    (treeLeaves abTree).length ≤ 256 ∧
    [0x58#8, 0x6C#8, 0x40#8].length = ceil8 (rootBits (some abTree)).length ∧
    rootBits (some abTree) <+: unpackBits [0x58#8, 0x6C#8, 0x40#8] ∧ [0x40#8].length = ceil8 2 ∧
    (withInput abBytes).hasInput (containerBytes [0x58#8, 0x6C#8, 0x40#8] 2 [0x40#8]) = true ∧
    (containerBytes [0x58#8, 0x6C#8, 0x40#8] 2 [0x40#8]).length ≤ (withInput abBytes).cfg.ibCap.val ∧
    rootOutput 2 ((unpackBits [0x40#8]).take 2) (some abTree) = some [0x61#8, 0x62#8] := by decide +kernel

/-- The second instance has just the twelve bytes the container needs. -/
theorem witness_decompressInverts :
    ∃ t s' : State, exec .compress (withInput [0x61#8, 0x62#8]) = .next t ∧ t.err = false ∧
      abBytes.length = t.outLen ∧ bufHolds t.ob 0 abBytes = true ∧
      s'.busy = false ∧ s'.hasInput abBytes = true ∧ abBytes.length ≤ s'.cfg.ibCap.val := by
  obtain ⟨t, h1, h2, h3, h4, h5⟩ := compress_ab
  exact ⟨t, { State.initial { ibCap := ⟨12, by decide⟩ } with ib := bufWriteList [] 0 abBytes, inLen := 12 },
    h1, h2, h4, h5, by decide +kernel⟩

theorem witness_truncated :
    ∃ t, exec .compress (withInput [0x61#8, 0x62#8]) = .next t ∧ t.err = false ∧ 1 ≤ t.payLen ∧
      abBytes.length = t.outLen ∧ bufHolds t.ob 0 abBytes = true ∧
      (withInput abBytes.dropLast).hasInput abBytes.dropLast = true := by
  obtain ⟨t, h1, h2, h3, h4, h5⟩ := compress_ab
  exact ⟨t, h1, h2, h3, h4, h5, by decide +kernel⟩

/-- Other registers, tables, stage and a byte above IN_LEN. -/
theorem witness_codecDependsOnInput :
    ∃ s s' : State, s.busy = false ∧ s'.busy = false ∧ s'.cfg = s.cfg ∧ s'.inLen = s.inLen ∧
      s'.stage ≠ s.stage ∧ (∀ a < s.inLen, bufRead s'.ib a = bufRead s.ib a) ∧
      bufRead s'.ib s.inLen ≠ bufRead s.ib s.inLen ∧ (∃ t, exec .compress s = .next t) := by
  obtain ⟨t, h, -⟩ := compress_ab
  refine ⟨withInput [0x61#8, 0x62#8],
    { withInput [0x61#8, 0x62#8, 0x63#8] .cdone with inLen := 2, nnode := 7, err := true },
    rfl, rfl, rfl, rfl, by decide, ?_, by decide, t, h⟩
  decide

/-- Calls that fill the instance and that carry no byte, from the middle of a pipeline. -/
theorem witness_calls :
    (∀ bs ∈ [List.replicate 16 0x41#8, []], bs.length ≤ tiny.cfg.ibCap.val ∧
      next (playScript (callScript 0x10#8 bs) { tiny with stage := .tree }) (fun t => t.hasInput bs) = true) ∧
    ({ tiny with stage := .tree } : State).busy = false ∧
    (∃ out, compress tiny.cfg [0x61#8, 0x62#8] = .bytes out ∧ out.length ≤ tiny.cfg.ibCap.val) :=
  ⟨by decide +kernel, rfl, abBytes, by decide +kernel⟩

/-- The encode pipeline, the decode pipeline, and a PARSE that raises. -/
theorem witness_unitCommands :
    (∀ bs, (withInput bs).busy = false ∧ (withInput bs).derivedClear) ∧
    next (runInstrs [.fcount, .tbuild, .cgen, .pack, .serial] (withInput [0x61#8, 0x62#8]))
      (fun t => !t.err) = true ∧
    next (runInstrs [.parse, .unpack] (withInput abBytes)) (fun t => decide (t.errCode ≠ .seq)) = true ∧
    next (exec .parse (withInput (abBytes.take 6))) (fun t => t.err) = true := by
  refine ⟨fun _ => ⟨rfl, rfl⟩, ?_⟩
  decide +kernel

/-- An input to be compressed by the next step, in an instance just large enough. -/
theorem witness_invariant :
    (acting filled (.writeReg 0#8 0x10#32)).memoryOk ∧ (acting filled (.writeReg 0#8 0x10#32)).invariant ∧
    ∃ t, step (acting filled (.writeReg 0#8 0x10#32)) = .next t := by
  have h : (acting filled (.writeReg 0#8 0x10#32)).invariant := by
    refine invariant_of_sane ?_ rfl (by decide) (fun _ => rfl)
    exact sane_clear (s := acting filled (.writeReg 0#8 0x10#32)) (by decide +kernel) (by decide) (by decide)
  refine ⟨h.1, h, ?_⟩
  obtain ⟨t, ht, -⟩ := next_exists (o := step (acting filled (.writeReg 0#8 0x10#32)))
    (p := fun _ => true) (by decide +kernel)
  exact ⟨t, ht⟩

/-- The last byte of IB and the first there is not; stages on both sides; the neighbours of IN_LEN. -/
theorem witness_hostWrites :
    ((acting tiny (.writeIB 15 0x61#8)).busy = false ∧
      (acting tiny (.writeIB 15 0x61#8)).host.script = [.writeIB 15 0x61#8] ∧
      15 < (acting tiny (.writeIB 15 0x61#8)).cfg.ibCap.val) ∧
    ((acting tiny (.writeIB 16 0x61#8)).host.script = [.writeIB 16 0x61#8] ∧
      (acting tiny (.writeIB 16 0x61#8)).cfg.ibCap.val ≤ 16) ∧
    ((acting counted (.writeReg 4#8 0xFFFFFFFF#32)).busy = false ∧
      (acting counted (.writeReg 4#8 0xFFFFFFFF#32)).stage = .freq ∧
      (acting counted (.writeReg 4#8 0xFFFFFFFF#32)).host.script = [.writeReg 4#8 0xFFFFFFFF#32]) ∧
    ((3#8 : Byte) ≠ 0#8 ∧ (3#8 : Byte) ≠ 4#8 ∧ (255#8 : Byte) ≠ 0#8 ∧ (255#8 : Byte) ≠ 4#8 ∧
      (acting tiny (.writeReg 255#8 1#32)).host.script = [.writeReg 255#8 1#32]) := by decide +kernel

/-- OB below OUT_LEN and at it, IB at its last byte, the last arena entry. -/
theorem witness_hostReads :
    (∃ s : State, s.busy = false ∧ s.host.script = [.readOB 17] ∧ 17 < s.outLen ∧
      bufRead s.ob 17 = some 0xDC#8) ∧
    (∃ s : State, s.busy = false ∧ s.host.script = [.readOB 18] ∧ s.outLen ≤ 18) ∧
    (∃ s : State, s.busy = false ∧ s.host.script = [.readIB 15] ∧ 15 < s.cfg.ibCap.val ∧
      bufRead s.ib 15 = some 0x41#8) ∧
    ∃ s : State, s.busy = false ∧ s.host.script = [.readNODE 510] ∧ 510 ≤ 510 :=
  ⟨⟨{ acting State.reset (.readOB 17) with outLen := 18, ob := [(17, 0xDC#8)] },
      rfl, rfl, by decide, by decide⟩,
    ⟨{ acting State.reset (.readOB 18) with outLen := 18 }, rfl, rfl, by decide⟩,
    ⟨acting filled (.readIB 15), rfl, rfl, by decide, by decide +kernel⟩,
    ⟨acting built (.readNODE 510), rfl, rfl, by decide⟩⟩

/-- Registers that fit, OUT_LEN at the top of its range; the reserved numbers. -/
theorem witness_registerMap :
    ({ State.reset with outLen := 2 ^ 32 - 1 } : State).fits ∧ 14 ≤ (14#8 : Byte).toNat ∧
    14 ≤ (255#8 : Byte).toNat := by
  refine ⟨?_, by decide, by decide⟩
  obtain ⟨f1, f2, f3, f4, f5, f6, f7, f8, f9, f10, f11, -, f13, f14, f15, f16, f17, f18, f19, f20⟩ :=
    (sane_clear (s := State.reset) (bufOk_nil _) (by decide) (by decide)).fits
  exact ⟨f1, f2, f3, f4, f5, f6, f7, f8, f9, f10, f11, by decide, f13, f14, f15, f16, f17, f18, f19, f20⟩

theorem witness_busyHost :
    ({ acting State.reset (.writeReg 0#8 1#32) with busy := true } : State).busy = true ∧
    (acting State.reset (.readReg 1#8)).host.script = [.readReg 1#8] ∧
    HostAction.writeReg 1#8 0#32 ≠ .reset ∧ (∀ v, HostAction.writeReg 1#8 0#32 ≠ .writeReg 0#8 v) ∧
    HostAction.writeReg 1#8 0#32 ≠ .readReg 1#8 :=
  ⟨rfl, rfl, by simp, by simp, by simp⟩

theorem witness_resetAction : (acting counted .reset).host.script = [.reset] := rfl

end Sys2Proof.Tests
end

section
/-! SUPPORT. Every step keeps the invariant of the machine (00_scope R6, 10_state R22 to R45). What each
body of a command keeps stands in Laws/Invariant.lean; here the error entry, the command frame and the
host's actions are put around the bodies. -/

namespace Sys2Proof.Machine

/-! ### The host's side and the flags -/

/-- The host's side is no part of the block (log 2). -/
theorem invariant_withHost {s : State} (h : s.invariant) (p : HostPort) :
    ({ s with host := p } : State).invariant := by
  obtain ⟨hm, hq, he, hc, hf, hg⟩ := h
  exact ⟨hm, hq, he, fun hs => congrArg (fun u : State => { u with host := p }) (hc hs), hf, hg⟩

theorem answer_invariant {s : State} (h : s.invariant) (r : Reply) : (answer s r).invariant :=
  invariant_withHost h _

theorem inLen_lt_of_sane {s : State} (h : Sane s) : s.inLen < 2 ^ 32 := by
  obtain ⟨-, -, -, -, -, -, -, -, -, -, hin, -⟩ := h.fits
  exact hin

theorem startCommand_sane {s : State} (h : Sane s) : Sane (startCommand s) := by
  obtain ⟨f1, f2, f3, f4, f5, f6, f7, f8, f9, -, f11⟩ := h.fits
  exact ⟨h.ib, h.ob, h.pb, h.td, h.pq,
    ⟨f1, f2, f3, f4, f5, f6, f7, f8, f9, Nat.two_pow_pos 32, f11⟩, h.stage⟩

theorem endCommand_sane {s : State} (h : Sane s) : Sane (endCommand s) :=
  ⟨h.ib, h.ob, h.pb, h.td, h.pq, h.fits, h.stage⟩

theorem startCommand_derivedClear {s : State} (h : s.derivedClear) :
    (startCommand s).derivedClear :=
  congrArg startCommand h

theorem clearDerived_startCommand_keeps (s : State) :
    Keeps (startCommand s) (clearDerived (startCommand s)) :=
  ⟨rfl, rfl, rfl, rfl, rfl, rfl, rfl, rfl, rfl, rfl⟩

/-! ### ClearDerived and the error entry -/

/-- ClearDerived leaves the invariant, once the flags agree and no command executes. -/
theorem clearDerived_invariant {s : State} (hib : BufOk s.ib s.cfg.ibCap.val)
    (hin : s.inLen < 2 ^ 32) (hp : s.errPos < 2 ^ 32) (hb : s.busy = false)
    (he : (clearDerived s).errorsOk) : (clearDerived s).invariant :=
  invariant_of_sane (sane_clear hib hin hp) hb he fun _ => clearDerived_clearDerived s

/-- Reset leaves the invariant in every state (10_state R49). -/
theorem resetBlock_invariant (s : State) : (resetBlock s).invariant :=
  clearDerived_invariant
    (s := { s with ib := [], inLen := 0, busy := false, done := false, err := false,
                   errCode := .none, errPos := 0 })
    (bufOk_nil _) (Nat.two_pow_pos 32) (Nat.two_pow_pos 32) rfl (by simp [State.errorsOk])

/-- What a `raise` may record: a cause, and a position other than 0 only for a FormatError, within
the input of `n` bytes (10_state R33, R34). -/
def RaiseOk (n : Nat) (c : ErrCode) (pos : Nat) : Prop :=
  (c ≠ .none ∧ pos = 0) ∨ (isFormatError c = true ∧ pos ≤ n)

theorem RaiseOk.of_cap {n : Nat} {c : ErrCode} {pos : Nat} (h : c = .cap ∧ pos = 0) :
    RaiseOk n c pos :=
  .inl ⟨by simp [h.1], h.2⟩

theorem RaiseOk.cause {n : Nat} {c : ErrCode} {pos : Nat} (h : RaiseOk n c pos) : c ≠ .none := by
  rcases h with ⟨hc, -⟩ | ⟨hf, -⟩
  · exact hc
  · rintro rfl; cases hf

theorem RaiseOk.format {n : Nat} {c : ErrCode} {pos : Nat} (h : RaiseOk n c pos) (hp : pos ≠ 0) :
    isFormatError c = true := by
  rcases h with ⟨-, h0⟩ | ⟨hf, -⟩
  · exact absurd h0 hp
  · exact hf

theorem RaiseOk.pos_le {n : Nat} {c : ErrCode} {pos : Nat} (h : RaiseOk n c pos) : pos ≤ n := by
  rcases h with ⟨-, h0⟩ | ⟨-, hn⟩ <;> omega

/-- The error entry is ClearDerived with the flags of an error (60_exceptions R222). -/
theorem errorEntry_invariant {s : State} {c : ErrCode} {pos : Nat} (h : Sane s)
    (hr : RaiseOk s.inLen c pos) : (errorEntry s c pos).invariant := by
  have hin := inLen_lt_of_sane h
  exact clearDerived_invariant
    (s := { s with errCode := c, errPos := pos, err := true, busy := false, done := true })
    h.ib hin (lt_of_le_of_lt hr.pos_le hin) rfl
    ⟨⟨fun _ => hr.cause, fun _ => rfl⟩, fun _ => ⟨rfl, rfl⟩, hr.format⟩

/-! ### The bodies -/

/-- A body that ends in stage `st` with the invariant's state facts kept, or raises an error the
error registers can hold. -/
structure BodyOk (body : State → Except Stop State) (s : State) (st : Stage) : Prop where
  sane : ∀ {u}, body s = .ok u → Sane u ∧ u.stage = st
  keeps : ∀ {u}, body s = .ok u → Keeps s u
  raises : ∀ {c pos}, body s = .error (.raise c pos) → RaiseOk s.inLen c pos

/-- One body after the other. -/
theorem BodyOk.andThen {f g : State → Except Stop State} {s : State} {st st' : Stage}
    (hf : BodyOk f s st) (hg : ∀ u, Sane u → u.stage = st → BodyOk g u st') :
    BodyOk (fun s => f s >>= g) s st' where
  sane h := by
    obtain ⟨u, h1, h2⟩ := bind_eq_ok.1 h
    obtain ⟨hu, hst⟩ := hf.sane h1
    exact (hg u hu hst).sane h2
  keeps h := by
    obtain ⟨u, h1, h2⟩ := bind_eq_ok.1 h
    obtain ⟨hu, hst⟩ := hf.sane h1
    exact (hf.keeps h1).trans ((hg u hu hst).keeps h2)
  raises h := by
    rcases bind_eq_error.1 h with h | ⟨u, h1, h2⟩
    · exact hf.raises h
    · obtain ⟨hu, hst⟩ := hf.sane h1
      rw [← (hf.keeps h1).inLen]
      exact (hg u hu hst).raises h2

section
variable {s : State}

theorem fcountBody_ok (h : Sane s) (hc : s.derivedClear) (hl : s.inLen ≤ s.cfg.ibCap.val) :
    BodyOk fcountBody s .freq :=
  ⟨fcountBody_sane h hc hl, fcountBody_keeps, fun hr => absurd hr fcountBody_raise⟩

theorem tbuildBody_ok (h : Sane s) (hs : s.stage = .freq) : BodyOk tbuildBody s .tree :=
  ⟨tbuildBody_sane h hs, tbuildBody_keeps, fun hr => absurd hr tbuildBody_raise⟩

theorem cgenBody_ok (h : Sane s) (hs : s.stage = .tree) : BodyOk cgenBody s .code :=
  ⟨cgenBody_sane h hs, cgenBody_keeps, fun hr => absurd hr cgenBody_raise⟩

theorem packBody_ok (h : Sane s) (hs : s.stage = .code) : BodyOk packBody s .packed :=
  ⟨packBody_sane h hs, packBody_keeps, fun hr => .of_cap (packBody_raise hr)⟩

theorem serialBody_ok (h : Sane s) (hs : s.stage = .packed) : BodyOk serialBody s .cdone :=
  ⟨serialBody_sane h hs, serialBody_keeps, fun hr => .of_cap (serialBody_raise hr)⟩

theorem parseBody_ok (h : Sane s) (hc : s.derivedClear) (hl : s.inLen ≤ s.cfg.ibCap.val) :
    BodyOk parseBody s .parsed :=
  ⟨parseBody_sane h hc hl, parseBody_keeps, fun hr => .inr (parseBody_raise hr)⟩

theorem unpackBody_ok (h : Sane s) (hs : s.stage = .parsed) : BodyOk unpackBody s .ddone where
  sane := unpackBody_sane h hs
  keeps := unpackBody_keeps
  raises hr := by
    rcases unpackBody_raise hr with ⟨rfl, hp⟩ | hcap
    · exact .inr ⟨rfl, hp.le⟩
    · exact .of_cap hcap

theorem compressBody_ok (h : Sane s) (hc : s.derivedClear) (hl : s.inLen ≤ s.cfg.ibCap.val) :
    BodyOk compressBody s .cdone :=
  (fcountBody_ok h hc hl).andThen fun _ h1 s1 => (tbuildBody_ok h1 s1).andThen fun _ h2 s2 =>
    (cgenBody_ok h2 s2).andThen fun _ h3 s3 => (packBody_ok h3 s3).andThen fun _ h4 s4 =>
      serialBody_ok h4 s4

theorem decompressBody_ok (h : Sane s) (hc : s.derivedClear) (hl : s.inLen ≤ s.cfg.ibCap.val) :
    BodyOk decompressBody s .ddone :=
  (parseBody_ok h hc hl).andThen fun _ h1 s1 => unpackBody_ok h1 s1

/-! ### The command frame (60_exceptions R221) -/

/-- The normal end of a command: the start has cleared the error registers. -/
theorem endCommand_invariant {u : State} (h : Sane u) (hk : Keeps (startCommand s) u)
    (hc : u.clearOk) : (endCommand u).invariant := by
  have herr : u.err = false := hk.err
  have hcode : u.errCode = .none := hk.errCode
  have hpos : u.errPos = 0 := hk.errPos
  exact invariant_of_sane (endCommand_sane h) rfl (by simp [State.errorsOk, herr, hcode, hpos])
    fun hs => congrArg endCommand (hc hs)

/-- A body run by the frame ends the command in the invariant, normally or by an error entry. -/
theorem BodyOk.ends_invariant {body : State → Except Stop State} {r t : State} {st : Stage}
    (hs : Sane s) (hk : Keeps (startCommand s) r) (hst : st ≠ .clear) (hb : BodyOk body r st)
    (h : (∃ u, body r = .ok u ∧ t = endCommand u) ∨
      ∃ c pos, body r = .error (.raise c pos) ∧ t = errorEntry s c pos) : t.invariant := by
  rcases h with ⟨u, hu, rfl⟩ | ⟨c, pos, hr, rfl⟩
  · obtain ⟨hsane, hstage⟩ := hb.sane hu
    exact endCommand_invariant hsane (hk.trans (hb.keeps hu))
      fun hclear => absurd (hstage.symm.trans hclear) hst
  · have hin : r.inLen = s.inLen := hk.inLen
    exact errorEntry_invariant hs (hin ▸ hb.raises hr)

variable {t : State} (hi : s.invariant)
include hi

theorem unitCommand_invariant {io : Bool} {st st' : Stage} {body : State → Except Stop State}
    (hst : st' ≠ .clear)
    (hb : (io = true → s.inLen ≤ s.cfg.ibCap.val) → s.stage = st →
      BodyOk body (startCommand s) st')
    (h : unitCommand io st body s = .next t) : t.invariant := by
  have hs := sane_of_invariant hi
  rcases unitCommand_next h with ⟨-, rfl⟩ | ⟨-, ⟨-, -, rfl⟩ | ⟨-, -, rfl⟩ | ⟨hl, hstage, hend⟩⟩
  · exact hi
  · exact errorEntry_invariant hs (.inl ⟨by decide, rfl⟩)
  · exact errorEntry_invariant hs (.inl ⟨by decide, rfl⟩)
  · exact (hb hl hstage).ends_invariant hs (.refl _) hst hend

theorem wholeCommand_invariant {st : Stage} {body : State → Except Stop State} (hst : st ≠ .clear)
    (hb : s.inLen ≤ s.cfg.ibCap.val → BodyOk body (clearDerived (startCommand s)) st)
    (h : wholeCommand true body s = .next t) : t.invariant := by
  have hs := sane_of_invariant hi
  rcases wholeCommand_next h with ⟨-, rfl⟩ | ⟨-, ⟨-, -, rfl⟩ | ⟨hl, hend⟩⟩
  · exact hi
  · exact errorEntry_invariant hs (.inl ⟨by decide, rfl⟩)
  · exact (hb (hl rfl)).ends_invariant hs (clearDerived_startCommand_keeps s) hst hend

theorem clearedStart_sane : Sane (clearDerived (startCommand s)) :=
  have hs := startCommand_sane (sane_of_invariant hi)
  sane_clear hs.ib (inLen_lt_of_sane hs) (Nat.two_pow_pos 32)

theorem execClear_invariant (h : execClear s = .next t) : t.invariant := by
  rcases wholeCommand_next h with ⟨-, rfl⟩ | ⟨-, ⟨hio, -⟩ | ⟨-, ⟨u, hu, rfl⟩ | ⟨c, pos, hr, -⟩⟩⟩
  · exact hi
  · cases hio
  · cases hu
    exact endCommand_invariant (clearedStart_sane hi) (clearDerived_startCommand_keeps s)
      fun _ => clearDerived_clearDerived _
  · cases hr

/-- Every command keeps the invariant. -/
theorem execCommand_invariant {i : Instr} (hcmd : isCommand i = true) (h : exec i s = .next t) :
    t.invariant := by
  have hs := startCommand_sane (sane_of_invariant hi)
  have hz := clearedStart_sane hi
  have ⟨_, _, _, hclear, _, _⟩ := hi
  have hclear := fun hst => startCommand_derivedClear (hclear hst)
  cases i with
  | nop => cases h; exact hi
  | clear => exact execClear_invariant hi h
  | fcount =>
    exact unitCommand_invariant hi (by decide)
      (fun hl hst => fcountBody_ok hs (hclear hst) (hl rfl)) h
  | tbuild => exact unitCommand_invariant hi (by decide) (fun _ => tbuildBody_ok hs) h
  | cgen => exact unitCommand_invariant hi (by decide) (fun _ => cgenBody_ok hs) h
  | pack => exact unitCommand_invariant hi (by decide) (fun _ => packBody_ok hs) h
  | serial => exact unitCommand_invariant hi (by decide) (fun _ => serialBody_ok hs) h
  | parse =>
    exact unitCommand_invariant hi (by decide)
      (fun hl hst => parseBody_ok hs (hclear hst) (hl rfl)) h
  | unpack => exact unitCommand_invariant hi (by decide) (fun _ => unpackBody_ok hs) h
  | compress =>
    exact wholeCommand_invariant hi (by decide)
      (compressBody_ok hz (clearDerived_clearDerived _)) h
  | decompress =>
    exact wholeCommand_invariant hi (by decide)
      (decompressBody_ok hz (clearDerived_clearDerived _)) h
  | _ => cases hcmd

end

/-! ### The host's actions (10_state R50, R51) -/

/-- Every defined command code names a command (30_encoding R96). -/
theorem isCommand_of_decodeCommand {c : Byte} {i : Instr} (h : decodeCommand c = .ok i) :
    isCommand i = true := by
  unfold decodeCommand at h
  repeat' split at h
  all_goals cases h
  all_goals rfl

section
variable {s t : State} (hi : s.invariant)
include hi

theorem badCommand_invariant : (badCommand s).invariant := by
  unfold badCommand
  split
  · exact hi
  · exact errorEntry_invariant (startCommand_sane (sane_of_invariant hi)) (.inl ⟨by decide, rfl⟩)

theorem writeCMD_invariant {c : Byte} (h : writeCMD c s = .next t) : t.invariant := by
  unfold writeCMD at h
  split at h
  · next i hd => exact execCommand_invariant hi (isCommand_of_decodeCommand hd) h
  · cases h; exact badCommand_invariant hi

/-- A change of the input is followed by ClearDerived, or stands in a stage that says nothing of the
input (10_state R51). -/
theorem invalidate_invariant {m : Buf} {n : Nat} (hm : BufOk m s.cfg.ibCap.val)
    (hn : n < 2 ^ 32) : (invalidate { s with ib := m, inLen := n }).invariant := by
  obtain ⟨⟨-, m2, m3, m4, -, m6⟩, hq, ⟨e1, e2, e3⟩, hc, hf, ⟨-, hg⟩⟩ := hi
  obtain ⟨f1, f2, f3, f4, f5, f6, f7, f8, f9, hp, -, f12⟩ := hf
  unfold invalidate
  split
  · exact clearDerived_invariant hm hn hp hq.1 ⟨e1, fun he => ⟨rfl, (e2 he).2⟩, e3⟩
  · next hmid =>
    have hfreq : s.stage ≠ .freq := fun hs => hmid (by simp [hs, midPipeline])
    exact ⟨⟨hm.1, m2, m3, m4, hm.2, m6⟩, hq, ⟨e1, e2, e3⟩,
      fun hs => congrArg (fun u : State => { u with ib := m, inLen := n }) (hc hs),
      ⟨f1, f2, f3, f4, f5, f6, f7, f8, f9, hp, hn, f12⟩, fun hs => absurd hs hfreq, hg⟩

theorem writeIB_invariant (a : Nat) (b : Byte) : (writeIB a b s).invariant := by
  have hs := sane_of_invariant hi
  unfold writeIB
  split
  · next ha =>
    have hw := bufOk_write b hs.ib ha.le
    rw [Nat.max_eq_left ha] at hw
    exact invalidate_invariant hi hw (inLen_lt_of_sane hs)
  · exact answer_invariant hi _

theorem writeInLen_invariant (v : Word) : (writeInLen v s).invariant :=
  invalidate_invariant hi (sane_of_invariant hi).ib v.isLt

theorem writeReg_invariant {r : Byte} {v : Word} (h : writeReg r v s = .next t) : t.invariant := by
  unfold writeReg at h
  split at h
  · exact writeCMD_invariant hi h
  split at h
  · cases h; exact writeInLen_invariant hi v
  · cases h; exact hi

theorem hostReadOB_invariant {a : Nat} (h : hostReadOB a s = .next t) : t.invariant := by
  unfold hostReadOB at h
  split at h
  · split at h <;> cases h
    exact answer_invariant hi _
  · cases h; exact answer_invariant hi _

theorem hostReadIB_invariant {a : Nat} (h : hostReadIB a s = .next t) : t.invariant := by
  unfold hostReadIB at h
  split at h
  · split at h <;> cases h
    exact answer_invariant hi _
  · cases h; exact answer_invariant hi _

theorem hostReadNODE_invariant (i : Nat) : (hostReadNODE i s).invariant := by
  unfold hostReadNODE
  split <;> exact answer_invariant hi _

theorem hostActIdle_invariant {a : HostAction} (h : hostActIdle a s = .next t) : t.invariant := by
  cases a with
  | writeIB a b => cases h; exact writeIB_invariant hi a b
  | writeReg r v => exact writeReg_invariant hi h
  | readReg r => cases h; exact answer_invariant hi _
  | readOB a => exact hostReadOB_invariant hi h
  | readIB a => exact hostReadIB_invariant hi h
  | readFT sym => cases h; exact answer_invariant hi _
  | readNODE i => cases h; exact hostReadNODE_invariant hi i
  | readCT sym => cases h; exact answer_invariant hi _
  | reset => cases h; exact resetBlock_invariant s

theorem step_invariant (h : step s = .next t) : t.invariant := by
  unfold step hostStep at h
  split at h
  · cases h; exact hi
  · next a rest _ =>
    have ⟨_, ⟨hbusy, _⟩, _⟩ := hi
    rw [hostAct, if_neg (by simp [hbusy])] at h
    exact hostActIdle_invariant (invariant_withHost hi _) h

end

/-- Settles O54: the bodies of the commands keep what stands in Laws/Invariant.lean, the frame and the
error entry set the flags to agree, and a host write that could break a stage's facts clears them. -/
theorem stepKeepsMachineInvariant : Obligations.StepKeepsMachineInvariant :=
  fun _ _ hi h => step_invariant hi h

end Sys2Proof.Machine
end

section
/-! SUPPORT. Every step keeps the four buffers canonical and within their capacities (10_state R46,
20_memory R60), from every state in which they are: the one operation that writes a buffer is MemWrite,
which tests the capacity, and what a command's pseudocode does between the writes changes no buffer.
`s.memoryOk` speaks of the buffers and the parameters only, so it passes to an update of other fields as
it stands. -/

namespace Sys2Proof.Machine

/-! ### Operations on the buffers -/

theorem memoryOk_iff (s : State) :
    s.memoryOk ↔ ∀ n, BufOk (buffer s n) (capacity s.cfg n) := by
  constructor
  · rintro ⟨i1, o1, p1, t1, i2, o2, p2, t2⟩ (_ | _ | _ | _)
    exacts [⟨i1, i2⟩, ⟨o1, o2⟩, ⟨p1, p2⟩, ⟨t1, t2⟩]
  · intro h
    have ⟨i1, i2⟩ := h .ib
    have ⟨o1, o2⟩ := h .ob
    have ⟨p1, p2⟩ := h .pb
    have ⟨t1, t2⟩ := h .td
    exact ⟨i1, o1, p1, t1, i2, o2, p2, t2⟩

section
variable {s t : State} (hm : s.memoryOk)
include hm

theorem setBuffer_memoryOk {n : BufName} {m : Buf} (hb : BufOk m (capacity s.cfg n)) :
    (setBuffer s n m).memoryOk := by
  refine (memoryOk_iff _).2 fun k => ?_
  rw [setBuffer_cfg]
  by_cases hk : k = n
  · rw [hk, buffer_setBuffer_same]; exact hb
  · rw [buffer_setBuffer_ne s hk]; exact (memoryOk_iff s).1 hm k

/-- MemWrite writes below the capacity or not at all (00_scope R7). -/
theorem memWrite_memoryOk {n : BufName} {a : Nat} {bs : List Byte} (h : memWrite s n a bs = .ok t) :
    t.memoryOk := by
  rw [memWrite_eq] at h
  split at h
  · next hfit =>
    cases h
    obtain ⟨hwf, hbelow⟩ := (memoryOk_iff s).1 hm n
    exact setBuffer_memoryOk hm ⟨wf_bufWriteList bs _ a hwf, bufBelow_bufWriteList bs hbelow hfit⟩
  · cases h

theorem clearDerived_memoryOk : (clearDerived s).memoryOk := by
  obtain ⟨hwf, -, -, -, hbelow, -⟩ := hm
  exact ⟨hwf, rfl, rfl, rfl, hbelow, rfl, rfl, rfl⟩

theorem errorEntry_memoryOk (c : ErrCode) (pos : Nat) : (errorEntry s c pos).memoryOk :=
  (clearDerived_memoryOk hm : (clearDerived s).memoryOk)

theorem invalidate_memoryOk : (invalidate s).memoryOk := by
  unfold invalidate
  split
  · exact clearDerived_memoryOk hm
  · exact hm

theorem writeNode_memoryOk {i : Nat} {x : Node} (h : writeNode s i x = .ok t) : t.memoryOk := by
  obtain ⟨-, rfl⟩ := writeNode_ok.1 h
  exact hm

theorem queuePopMin_memoryOk {m : Nat} (h : queuePopMin s = .ok (m, t)) : t.memoryOk := by
  unfold queuePopMin stopFault at h
  split at h <;> cases h
  exact hm

theorem readerGet_memoryOk {b : Bool} (h : readerGet s = .ok (b, t)) : t.memoryOk := by
  obtain ⟨-, -, rfl⟩ := readerGet_ok h
  exact hm

/-! ### The BitWriter -/

theorem writerSend_memoryOk (h : writerSend s = .ok t) : t.memoryOk := by
  obtain ⟨u, hw, h⟩ := bind_eq_ok.1 h
  cases h
  exact (memWrite_memoryOk hm hw : u.memoryOk)

theorem writerPut_memoryOk {b : Bool} (h : writerPut b s = .ok t) : t.memoryOk := by
  simp only [writerPut] at h
  split at h
  · refine writerSend_memoryOk ?_ h
    exact hm
  · cases h; exact hm

theorem writerFlush_memoryOk (h : writerFlush s = .ok t) : t.memoryOk := by
  unfold writerFlush at h
  split at h
  · exact writerSend_memoryOk hm h
  · cases h; exact hm

theorem putBits_memoryOk {bits : List Bool} (h : putBits bits s = .ok t) : t.memoryOk := by
  induction bits generalizing s with
  | nil => cases h; exact hm
  | cons b rest ih =>
    obtain ⟨u, hput, h⟩ := bind_eq_ok.1 h
    exact ih (writerPut_memoryOk hm hput) h

/-! ### The bodies of the encode commands -/

theorem countLoop_memoryOk {n i : Nat} (h : countLoop n i s = .ok t) : t.memoryOk := by
  induction n generalizing i s with
  | zero => cases h; exact hm
  | succ n ih =>
    obtain ⟨b, -, h⟩ := bind_eq_ok.1 h
    exact ih (s := writeFT s b _) hm h

theorem fcountBody_memoryOk (h : fcountBody s = .ok t) : t.memoryOk := by
  obtain ⟨u, hcount, h⟩ := bind_eq_ok.1 h
  cases h
  exact (countLoop_memoryOk hm hcount : u.memoryOk)

theorem leafLoop_memoryOk {vs : List Nat} {n k : Nat} (h : leafLoop vs n s = .ok (k, t)) :
    t.memoryOk := by
  induction vs generalizing n s with
  | nil => cases h; exact hm
  | cons v rest ih =>
    simp only [leafLoop] at h
    split at h
    · obtain ⟨u, hw, h⟩ := bind_eq_ok.1 h
      exact ih (s := queuePush n u) (writeNode_memoryOk hm hw : u.memoryOk) h
    · exact ih hm h

theorem mergeLoop_memoryOk {fuel : Nat} (h : mergeLoop fuel s = .ok t) : t.memoryOk := by
  induction fuel generalizing s with
  | zero => cases h; exact hm
  | succ fuel ih =>
    simp only [mergeLoop] at h
    split at h
    · cases h; exact hm
    · obtain ⟨⟨a, s1⟩, h1, h⟩ := bind_eq_ok.1 h
      obtain ⟨⟨b, s2⟩, h2, h⟩ := bind_eq_ok.1 h
      obtain ⟨na, -, h⟩ := bind_eq_ok.1 h
      obtain ⟨nb, -, h⟩ := bind_eq_ok.1 h
      obtain ⟨s3, h3, h⟩ := bind_eq_ok.1 h
      have m2 := queuePopMin_memoryOk (queuePopMin_memoryOk hm h1) h2
      exact ih (s := { queuePush s3.nnode s3 with nnode := s3.nnode + 1 })
        (writeNode_memoryOk m2 h3 : s3.memoryOk) h

theorem takeRoot_memoryOk (h : takeRoot s = .ok t) : t.memoryOk := by
  unfold takeRoot at h
  split at h
  · obtain ⟨⟨r, u⟩, hpop, h⟩ := bind_eq_ok.1 h
    cases h
    exact (queuePopMin_memoryOk hm hpop : u.memoryOk)
  · cases h; exact hm

theorem tbuildBody_memoryOk (h : tbuildBody s = .ok t) : t.memoryOk := by
  obtain ⟨⟨n, s1⟩, h1, h⟩ := bind_eq_ok.1 h
  obtain ⟨s2, h2, h⟩ := bind_eq_ok.1 h
  obtain ⟨s3, h3, h⟩ := bind_eq_ok.1 h
  cases h
  have m1 : s1.memoryOk := leafLoop_memoryOk hm h1
  have m2 := mergeLoop_memoryOk (s := { s1 with nnode := n }) m1 h2
  exact (takeRoot_memoryOk m2 h3 : s3.memoryOk)

theorem codeWalk_memoryOk {fuel i : Nat} {path : List Bool} (h : codeWalk fuel i path s = .ok t) :
    t.memoryOk := by
  induction fuel generalizing i path s t with
  | zero => cases h
  | succ fuel ih =>
    obtain ⟨x, -, h⟩ := bind_eq_ok.1 h
    split at h
    · cases h; exact hm
    · obtain ⟨u, hl, hr⟩ := bind_eq_ok.1 h
      exact ih (ih hm hl) hr

theorem codeTree_memoryOk (h : codeTree s = .ok t) : t.memoryOk := by
  unfold codeTree at h
  split at h
  · cases h; exact hm
  · obtain ⟨x, -, h⟩ := bind_eq_ok.1 h
    split at h
    · cases h; exact hm
    · exact codeWalk_memoryOk hm h

theorem cgenBody_memoryOk (h : cgenBody s = .ok t) : t.memoryOk := by
  obtain ⟨u, htree, h⟩ := bind_eq_ok.1 h
  cases h
  exact (codeTree_memoryOk hm htree : u.memoryOk)

theorem packLoop_memoryOk {n i : Nat} (h : packLoop n i s = .ok t) : t.memoryOk := by
  induction n generalizing i s with
  | zero => cases h; exact hm
  | succ n ih =>
    obtain ⟨b, -, h⟩ := bind_eq_ok.1 h
    obtain ⟨u, hput, h⟩ := bind_eq_ok.1 h
    exact ih (putBits_memoryOk hm hput) h

theorem packBody_memoryOk (h : packBody s = .ok t) : t.memoryOk := by
  obtain ⟨u, hloop, h⟩ := bind_eq_ok.1 h
  obtain ⟨v, hflush, h⟩ := bind_eq_ok.1 h
  have hv := writerFlush_memoryOk (packLoop_memoryOk (s := writerInit .pb s) hm hloop) hflush
  split at h
  · cases h
  · cases h; exact hv

theorem emitNode_memoryOk {fuel i : Nat} (h : emitNode fuel i s = .ok t) : t.memoryOk := by
  induction fuel generalizing i s t with
  | zero => cases h
  | succ fuel ih =>
    obtain ⟨x, -, h⟩ := bind_eq_ok.1 h
    split at h
    · exact putBits_memoryOk hm h
    · obtain ⟨u, hflag, h⟩ := bind_eq_ok.1 h
      obtain ⟨v, hl, hr⟩ := bind_eq_ok.1 h
      exact ih (ih (writerPut_memoryOk hm hflag) hl) hr

theorem emitTree_memoryOk (h : emitTree s = .ok t) : t.memoryOk := by
  unfold emitTree at h
  split at h
  · exact emitNode_memoryOk hm h
  · cases h; exact hm

theorem describeTree_memoryOk (h : describeTree s = .ok t) : t.memoryOk := by
  obtain ⟨u, hemit, h⟩ := bind_eq_ok.1 h
  obtain ⟨v, hflush, h⟩ := bind_eq_ok.1 h
  cases h
  have hu := emitTree_memoryOk (s := writerInit .td s) hm hemit
  exact (writerFlush_memoryOk hu hflush : v.memoryOk)

theorem assemble_memoryOk (h : assemble s = .ok t) : t.memoryOk := by
  obtain ⟨s1, h1, h⟩ := bind_eq_ok.1 h
  obtain ⟨d, -, h⟩ := bind_eq_ok.1 h
  obtain ⟨s2, h2, h⟩ := bind_eq_ok.1 h
  obtain ⟨s3, h3, h⟩ := bind_eq_ok.1 h
  obtain ⟨p, -, h⟩ := bind_eq_ok.1 h
  obtain ⟨s4, h4, h⟩ := bind_eq_ok.1 h
  cases h
  have m3 := memWrite_memoryOk (memWrite_memoryOk (memWrite_memoryOk hm h1) h2) h3
  exact (memWrite_memoryOk (s := { s3 with payOff := 8 + s3.tdLen }) m3 h4 : s4.memoryOk)

theorem serialBody_memoryOk (h : serialBody s = .ok t) : t.memoryOk := by
  obtain ⟨u, hdesc, h⟩ := bind_eq_ok.1 h
  exact assemble_memoryOk (describeTree_memoryOk hm hdesc) h

theorem compressBody_memoryOk (h : compressBody s = .ok t) : t.memoryOk := by
  obtain ⟨s1, h1, h⟩ := bind_eq_ok.1 h
  obtain ⟨s2, h2, h⟩ := bind_eq_ok.1 h
  obtain ⟨s3, h3, h⟩ := bind_eq_ok.1 h
  obtain ⟨s4, h4, h⟩ := bind_eq_ok.1 h
  have m2 := tbuildBody_memoryOk (fcountBody_memoryOk hm h1) h2
  exact serialBody_memoryOk (packBody_memoryOk (cgenBody_memoryOk m2 h3) h4) h

/-! ### The bodies of the decode commands -/

theorem parseTree_memoryOk (h : parseTree s = .ok t) : t.memoryOk := by
  unfold parseTree at h
  split at h
  · obtain ⟨⟨r, u⟩, hnode, h⟩ := bind_eq_ok.1 h
    obtain ⟨-, tr, -, -, -, hu⟩ := deserNode_ok hnode
    simp only at h
    split at h
    · cases h
    · cases h
      rw [hu.rest]
      exact hm
  · cases h; exact hm

theorem parseBody_memoryOk (h : parseBody s = .ok t) : t.memoryOk := by
  unfold parseBody at h
  split at h
  · cases h
  · obtain ⟨w, -, h⟩ := bind_eq_ok.1 h
    obtain ⟨s1, h1, h⟩ := bind_eq_ok.1 h
    obtain ⟨s2, h2, h⟩ := bind_eq_ok.1 h
    obtain ⟨v, -, h3⟩ := bind_eq_ok.1 h
    obtain ⟨-, rfl⟩ := headerField_ok h1
    obtain ⟨-, -, -, -, rfl⟩ := metadataField_ok h3
    exact (parseTree_memoryOk (s := { s with tdLen := w.toNat }) hm h2 : s2.memoryOk)

theorem walkLoop_memoryOk {fuel cur c : Nat} (h : walkLoop fuel cur s = .ok (c, t)) :
    t.memoryOk := by
  induction fuel generalizing cur s with
  | zero => cases h; exact hm
  | succ fuel ih =>
    simp only [walkLoop] at h
    split at h
    · cases h; exact hm
    · obtain ⟨⟨b, s1⟩, hget, h⟩ := bind_eq_ok.1 h
      obtain ⟨x, -, h⟩ := bind_eq_ok.1 h
      obtain ⟨y, -, h⟩ := bind_eq_ok.1 h
      have m1 := readerGet_memoryOk hm hget
      split at h
      · obtain ⟨s2, hw, h⟩ := bind_eq_ok.1 h
        have m2 : s2.memoryOk := memWrite_memoryOk m1 hw
        exact ih (s := { s2 with outLen := s2.outLen + 1 }) m2 h
      · exact ih m1 h

theorem treeWalk_memoryOk (h : treeWalk s = .ok t) : t.memoryOk := by
  obtain ⟨⟨c, u⟩, hloop, h⟩ := bind_eq_ok.1 h
  have hu := walkLoop_memoryOk (s := readerInit s.payOff s.vbits s) hm hloop
  simp only at h
  split at h
  · cases h
  · cases h; exact hu

theorem repeatLoop_memoryOk {n k : Nat} {sym : Byte} (h : repeatLoop n k sym s = .ok t) :
    t.memoryOk := by
  induction n generalizing k s with
  | zero => cases h; exact hm
  | succ n ih =>
    obtain ⟨u, hw, h⟩ := bind_eq_ok.1 h
    exact ih (memWrite_memoryOk hm hw) h

theorem unpackTree_memoryOk (h : unpackTree s = .ok t) : t.memoryOk := by
  unfold unpackTree at h
  split at h
  · cases h; exact hm
  · obtain ⟨x, -, h⟩ := bind_eq_ok.1 h
    split at h
    · obtain ⟨u, hloop, h⟩ := bind_eq_ok.1 h
      cases h
      exact (repeatLoop_memoryOk hm hloop : u.memoryOk)
    · exact treeWalk_memoryOk hm h

theorem unpackBody_memoryOk (h : unpackBody s = .ok t) : t.memoryOk := by
  obtain ⟨u, htree, h⟩ := bind_eq_ok.1 h
  cases h
  exact (unpackTree_memoryOk (s := { s with outLen := 0 }) hm htree : u.memoryOk)

theorem decompressBody_memoryOk (h : decompressBody s = .ok t) : t.memoryOk := by
  obtain ⟨u, hparse, h⟩ := bind_eq_ok.1 h
  exact unpackBody_memoryOk (parseBody_memoryOk hm hparse) h

/-! ### The command frame (60_exceptions R221) -/

theorem unitCommand_memoryOk {io : Bool} {st : Stage} {body : State → Except Stop State}
    (hb : ∀ {u}, body (startCommand s) = .ok u → u.memoryOk)
    (h : unitCommand io st body s = .next t) : t.memoryOk := by
  rcases unitCommand_next h with
    ⟨-, rfl⟩ | ⟨-, ⟨-, -, rfl⟩ | ⟨-, -, rfl⟩ | ⟨-, -, ⟨u, hu, rfl⟩ | ⟨c, pos, -, rfl⟩⟩⟩
  · exact hm
  · exact errorEntry_memoryOk hm .len 0
  · exact errorEntry_memoryOk hm .seq 0
  · exact (hb hu : u.memoryOk)
  · exact errorEntry_memoryOk hm c pos

theorem wholeCommand_memoryOk {io : Bool} {body : State → Except Stop State}
    (hb : ∀ {u}, body (clearDerived (startCommand s)) = .ok u → u.memoryOk)
    (h : wholeCommand io body s = .next t) : t.memoryOk := by
  rcases wholeCommand_next h with
    ⟨-, rfl⟩ | ⟨-, ⟨-, -, rfl⟩ | ⟨-, ⟨u, hu, rfl⟩ | ⟨c, pos, -, rfl⟩⟩⟩
  · exact hm
  · exact errorEntry_memoryOk hm .len 0
  · exact (hb hu : u.memoryOk)
  · exact errorEntry_memoryOk hm c pos

theorem execCommand_memoryOk {i : Instr} (hcmd : isCommand i = true) (h : exec i s = .next t) :
    t.memoryOk := by
  have hs : (startCommand s).memoryOk := hm
  have hz := clearDerived_memoryOk hs
  cases i with
  | nop => cases h; exact hm
  | clear => exact wholeCommand_memoryOk hm (fun hu => by cases hu; exact hz) h
  | fcount => exact unitCommand_memoryOk hm (fcountBody_memoryOk hs) h
  | tbuild => exact unitCommand_memoryOk hm (tbuildBody_memoryOk hs) h
  | cgen => exact unitCommand_memoryOk hm (cgenBody_memoryOk hs) h
  | pack => exact unitCommand_memoryOk hm (packBody_memoryOk hs) h
  | serial => exact unitCommand_memoryOk hm (serialBody_memoryOk hs) h
  | parse => exact unitCommand_memoryOk hm (parseBody_memoryOk hs) h
  | unpack => exact unitCommand_memoryOk hm (unpackBody_memoryOk hs) h
  | compress => exact wholeCommand_memoryOk hm (compressBody_memoryOk hz) h
  | decompress => exact wholeCommand_memoryOk hm (decompressBody_memoryOk hz) h
  | _ => cases hcmd

/-! ### The host's actions (10_state R50, R51) -/

theorem badCommand_memoryOk : (badCommand s).memoryOk := by
  unfold badCommand
  split
  · exact hm
  · exact errorEntry_memoryOk hm .badcmd 0

theorem writeReg_memoryOk {r : Byte} {v : Word} (h : writeReg r v s = .next t) : t.memoryOk := by
  unfold writeReg writeCMD at h
  split at h
  · split at h
    · next hi => exact execCommand_memoryOk hm (isCommand_of_decodeCommand hi) h
    · cases h; exact badCommand_memoryOk hm
  split at h
  · cases h; exact invalidate_memoryOk (s := { s with inLen := v.toNat }) hm
  · cases h; exact hm

/-- WriteIB tests the capacity, as MemWrite does (10_state R50). -/
theorem writeIB_memoryOk (a : Nat) (b : Byte) : (writeIB a b s).memoryOk := by
  unfold writeIB
  split
  · next ha =>
    obtain ⟨hwf, hbelow⟩ := (memoryOk_iff s).1 hm .ib
    exact invalidate_memoryOk (setBuffer_memoryOk (n := .ib) hm
      ⟨wf_bufWrite _ a b hwf, bufBelow_bufWrite a b hbelow ha⟩)
  · exact hm

end

theorem resetBlock_memoryOk (s : State) : (resetBlock s).memoryOk :=
  ⟨rfl, rfl, rfl, rfl, rfl, rfl, rfl, rfl⟩

/-! ### The step -/

section
variable {s t : State}

theorem hostReadOB_next {a : Nat} (h : hostReadOB a s = .next t) : ∃ r, t = answer s r := by
  unfold hostReadOB at h
  split at h
  · split at h <;> cases h
    exact ⟨_, rfl⟩
  · cases h; exact ⟨_, rfl⟩

theorem hostReadIB_next {a : Nat} (h : hostReadIB a s = .next t) : ∃ r, t = answer s r := by
  unfold hostReadIB at h
  split at h
  · split at h <;> cases h
    exact ⟨_, rfl⟩
  · cases h; exact ⟨_, rfl⟩

theorem hostReadNODE_eq (i : Nat) : ∃ r, hostReadNODE i s = answer s r := by
  unfold hostReadNODE
  split <;> exact ⟨_, rfl⟩

/-- Everything an action can do while BUSY = 0 (10_state R50). -/
theorem hostActIdle_next {a : HostAction} (h : hostActIdle a s = .next t) :
    (∃ r, t = answer s r) ∨ (∃ c b, t = writeIB c b s) ∨ (∃ r v, writeReg r v s = .next t) ∨
      t = resetBlock s := by
  cases a with
  | writeIB c b => cases h; exact .inr (.inl ⟨c, b, rfl⟩)
  | writeReg r v => exact .inr (.inr (.inl ⟨r, v, h⟩))
  | readReg r => cases h; exact .inl ⟨_, rfl⟩
  | readOB c => exact .inl (hostReadOB_next h)
  | readIB c => exact .inl (hostReadIB_next h)
  | readFT sym => cases h; exact .inl ⟨_, rfl⟩
  | readNODE i => cases h; exact .inl (hostReadNODE_eq i)
  | readCT sym => cases h; exact .inl ⟨_, rfl⟩
  | reset => cases h; exact .inr (.inr (.inr rfl))

/-- Everything an action can do while BUSY = 1 (70_reset_and_hazards R246). -/
theorem hostActBusy_next {a : HostAction} (h : hostActBusy a s = .next t) :
    t = s ∨ (∃ r, t = answer s r) ∨ t = resetBlock s := by
  cases a with
  | writeReg r v =>
    simp only [hostActBusy] at h
    split at h <;> cases h
    exact .inl rfl
  | readReg r =>
    simp only [hostActBusy] at h
    split at h <;> cases h
    exact .inr (.inl ⟨_, rfl⟩)
  | reset => cases h; exact .inr (.inr rfl)
  | _ => cases h

theorem hostAct_memoryOk (hm : s.memoryOk) {a : HostAction} (h : hostAct a s = .next t) :
    t.memoryOk := by
  unfold hostAct at h
  split at h
  · rcases hostActBusy_next h with rfl | ⟨r, rfl⟩ | rfl
    · exact hm
    · exact hm
    · exact resetBlock_memoryOk s
  · rcases hostActIdle_next h with ⟨r, rfl⟩ | ⟨c, b, rfl⟩ | ⟨r, v, h⟩ | rfl
    · exact hm
    · exact writeIB_memoryOk hm c b
    · exact writeReg_memoryOk hm h
    · exact resetBlock_memoryOk s

theorem step_memoryOk (hm : s.memoryOk) (h : step s = .next t) : t.memoryOk := by
  unfold step hostStep at h
  split at h
  · cases h; exact hm
  · refine hostAct_memoryOk ?_ h
    exact hm

end

/-- Settles O53: every write of a command is a MemWrite within the capacity, a WriteIB is one below
IB_CAP, and ClearDerived and Reset only empty buffers. -/
theorem stepKeepsMemoryCanonical : Obligations.StepKeepsMemoryCanonical :=
  fun _ _ hm h => step_memoryOk hm h

end Sys2Proof.Machine
end

section
/-! SUPPORT. How a command ends, in any state (10_state R31, R45, 60_exceptions R221, R222): a body
reaches its stage with the flags untouched, or raises a cause other than 0; the frame makes DONE or the
error entry of it. -/

namespace Sys2Proof.Machine

/-! ### The bodies -/

/-- From any state the body ends in stage `st` with the flags and the input kept, or raises a cause. -/
structure BodyEnds (body : State → Except Stop State) (st : Stage) : Prop where
  stage : ∀ {s u}, body s = .ok u → u.stage = st
  keeps : ∀ {s u}, body s = .ok u → Keeps s u
  cause : ∀ {s c pos}, body s = .error (.raise c pos) → c ≠ .none

/-- One body after the other. -/
theorem BodyEnds.andThen {f g : State → Except Stop State} {st st' : Stage} (hf : BodyEnds f st)
    (hg : BodyEnds g st') : BodyEnds (fun s => f s >>= g) st' where
  stage h := by
    obtain ⟨u, -, h⟩ := bind_eq_ok.1 h
    exact hg.stage h
  keeps h := by
    obtain ⟨u, h1, h2⟩ := bind_eq_ok.1 h
    exact (hf.keeps h1).trans (hg.keeps h2)
  cause h := by
    rcases bind_eq_error.1 h with h | ⟨u, -, h⟩
    · exact hf.cause h
    · exact hg.cause h

theorem cause_of_capacity {c : ErrCode} {pos : Nat} (h : c = .cap ∧ pos = 0) : c ≠ .none := by
  obtain ⟨rfl, -⟩ := h
  decide

theorem fcountBody_ends : BodyEnds fcountBody .freq where
  stage h := by
    obtain ⟨u, -, h⟩ := bind_eq_ok.1 h
    cases h
    rfl
  keeps := fcountBody_keeps
  cause h := absurd h fcountBody_raise

theorem tbuildBody_ends : BodyEnds tbuildBody .tree where
  stage h := by
    obtain ⟨⟨n, s1⟩, -, h⟩ := bind_eq_ok.1 h
    obtain ⟨s2, -, h⟩ := bind_eq_ok.1 h
    obtain ⟨s3, -, h⟩ := bind_eq_ok.1 h
    cases h
    rfl
  keeps := tbuildBody_keeps
  cause h := absurd h tbuildBody_raise

theorem cgenBody_ends : BodyEnds cgenBody .code where
  stage h := by
    obtain ⟨u, -, h⟩ := bind_eq_ok.1 h
    cases h
    rfl
  keeps := cgenBody_keeps
  cause h := absurd h cgenBody_raise

theorem packBody_ends : BodyEnds packBody .packed where
  stage h := by
    obtain ⟨u, -, h⟩ := bind_eq_ok.1 h
    obtain ⟨v, -, h⟩ := bind_eq_ok.1 h
    split at h <;> cases h
    rfl
  keeps := packBody_keeps
  cause h := cause_of_capacity (packBody_raise h)

theorem serialBody_ends : BodyEnds serialBody .cdone where
  stage h := by
    obtain ⟨u, -, h⟩ := bind_eq_ok.1 h
    obtain ⟨s1, -, h⟩ := bind_eq_ok.1 h
    obtain ⟨d, -, h⟩ := bind_eq_ok.1 h
    obtain ⟨s2, -, h⟩ := bind_eq_ok.1 h
    obtain ⟨s3, -, h⟩ := bind_eq_ok.1 h
    obtain ⟨p, -, h⟩ := bind_eq_ok.1 h
    obtain ⟨s4, -, h⟩ := bind_eq_ok.1 h
    cases h
    rfl
  keeps := serialBody_keeps
  cause h := cause_of_capacity (serialBody_raise h)

theorem parseBody_ends : BodyEnds parseBody .parsed where
  stage h := by
    unfold parseBody at h
    split at h
    · cases h
    · obtain ⟨w, -, h⟩ := bind_eq_ok.1 h
      obtain ⟨s1, -, h⟩ := bind_eq_ok.1 h
      obtain ⟨s2, -, h⟩ := bind_eq_ok.1 h
      obtain ⟨v, -, h⟩ := bind_eq_ok.1 h
      obtain ⟨-, -, -, -, rfl⟩ := metadataField_ok h
      rfl
  keeps := parseBody_keeps
  cause h := by
    obtain ⟨hformat, -⟩ := parseBody_raise h
    rintro rfl
    cases hformat

theorem unpackBody_ends : BodyEnds unpackBody .ddone where
  stage h := by
    obtain ⟨u, -, h⟩ := bind_eq_ok.1 h
    cases h
    rfl
  keeps := unpackBody_keeps
  cause h := by
    rcases unpackBody_raise h with ⟨rfl, -⟩ | hcap
    · decide
    · exact cause_of_capacity hcap

theorem compressBody_ends : BodyEnds compressBody .cdone :=
  fcountBody_ends.andThen <| tbuildBody_ends.andThen <| cgenBody_ends.andThen <|
    packBody_ends.andThen serialBody_ends

theorem decompressBody_ends : BodyEnds decompressBody .ddone :=
  parseBody_ends.andThen unpackBody_ends

/-! ### The frame (60_exceptions R221) -/

/-- DONE without an error, in stage `st` (10_state R31, R33, R45). -/
structure NormalEnd (t : State) (st : Stage) : Prop where
  busy : t.busy = false
  done : t.done = true
  err : t.err = false
  errCode : t.errCode = .none
  errPos : t.errPos = 0
  stage : t.stage = st

/-- `t` is the error entry from `s` for some cause (60_exceptions R222). -/
def ErrorEnd (s t : State) : Prop := ∃ c pos, c ≠ .none ∧ t = errorEntry s c pos

section
variable {s t : State}

/-- The start of the command has cleared the flags the end reports. -/
theorem endCommand_normalEnd {u : State} {st : Stage} (hk : Keeps (startCommand s) u)
    (hst : u.stage = st) : NormalEnd (endCommand u) st where
  busy := rfl
  done := rfl
  err := hk.err
  errCode := hk.errCode
  errPos := hk.errPos
  stage := hst

theorem BodyEnds.command_ends {body : State → Except Stop State} {r : State} {st : Stage}
    (hb : BodyEnds body st) (hk : Keeps (startCommand s) r)
    (h : (∃ u, body r = .ok u ∧ t = endCommand u) ∨
      ∃ c pos, body r = .error (.raise c pos) ∧ t = errorEntry s c pos) :
    NormalEnd t st ∨ ErrorEnd s t := by
  rcases h with ⟨u, hu, rfl⟩ | ⟨c, pos, hr, rfl⟩
  · exact .inl (endCommand_normalEnd (hk.trans (hb.keeps hu)) (hb.stage hu))
  · exact .inr ⟨c, pos, hb.cause hr, rfl⟩

variable (hbusy : s.busy = false)
include hbusy

theorem unitCommand_ends {io : Bool} {st st' : Stage} {body : State → Except Stop State}
    (hb : BodyEnds body st') (h : unitCommand io st body s = .next t) :
    NormalEnd t st' ∨ ErrorEnd s t := by
  rcases unitCommand_next h with ⟨hs, -⟩ | ⟨-, ⟨-, -, rfl⟩ | ⟨-, -, rfl⟩ | ⟨-, -, hend⟩⟩
  · simp [hbusy] at hs
  · exact .inr ⟨.len, 0, by decide, rfl⟩
  · exact .inr ⟨.seq, 0, by decide, rfl⟩
  · exact hb.command_ends (.refl _) hend

theorem wholeCommand_ends {io : Bool} {st : Stage} {body : State → Except Stop State}
    (hb : BodyEnds body st) (h : wholeCommand io body s = .next t) :
    NormalEnd t st ∨ ErrorEnd s t := by
  rcases wholeCommand_next h with ⟨hs, -⟩ | ⟨-, ⟨-, -, rfl⟩ | ⟨-, hend⟩⟩
  · simp [hbusy] at hs
  · exact .inr ⟨.len, 0, by decide, rfl⟩
  · exact hb.command_ends (clearDerived_startCommand_keeps s) hend

/-- CLEAR raises nothing (46_codec R201). -/
theorem execClear_ends (h : execClear s = .next t) : NormalEnd t .clear := by
  rcases wholeCommand_next h with ⟨hs, -⟩ | ⟨-, ⟨hio, -⟩ | ⟨-, ⟨u, hu, rfl⟩ | ⟨c, pos, hr, -⟩⟩⟩
  · simp [hbusy] at hs
  · cases hio
  · cases hu
    exact endCommand_normalEnd (clearDerived_startCommand_keeps s) rfl
  · cases hr

/-- Every command but NOP ends normally in its next stage or in the error entry. -/
theorem execCommand_ends {i : Instr} (hcmd : isCommand i = true) (hnop : i ≠ .nop)
    (h : exec i s = .next t) : (∃ st, nextStage i = some st ∧ NormalEnd t st) ∨ ErrorEnd s t := by
  have named {st : Stage} (hst : nextStage i = some st) (he : NormalEnd t st ∨ ErrorEnd s t) :
      (∃ st, nextStage i = some st ∧ NormalEnd t st) ∨ ErrorEnd s t :=
    he.imp_left fun hn => ⟨st, hst, hn⟩
  cases i with
  | nop => exact absurd rfl hnop
  | clear => exact .inl ⟨.clear, rfl, execClear_ends hbusy h⟩
  | fcount => exact named rfl (unitCommand_ends hbusy fcountBody_ends h)
  | tbuild => exact named rfl (unitCommand_ends hbusy tbuildBody_ends h)
  | cgen => exact named rfl (unitCommand_ends hbusy cgenBody_ends h)
  | pack => exact named rfl (unitCommand_ends hbusy packBody_ends h)
  | serial => exact named rfl (unitCommand_ends hbusy serialBody_ends h)
  | parse => exact named rfl (unitCommand_ends hbusy parseBody_ends h)
  | unpack => exact named rfl (unitCommand_ends hbusy unpackBody_ends h)
  | compress => exact named rfl (wholeCommand_ends hbusy compressBody_ends h)
  | decompress => exact named rfl (wholeCommand_ends hbusy decompressBody_ends h)
  | _ => cases hcmd

end

theorem statusWord_errorEntry (s : State) (c : ErrCode) (pos : Nat) :
    statusWord (errorEntry s c pos) = 0x06#8 := by
  rw [statusWord, errorEntry_stage, errorEntry_err, errorEntry_done, errorEntry_busy]
  rfl

/-- Settles O9: the frame turns what each body can do into DONE or the error entry; the rest are the
fields of those two states. -/
theorem commandsEndDoneOrInErrorEntry : Obligations.CommandsEndDoneOrInErrorEntry := by
  intro i s t hcmd hnop hbusy h
  rcases execCommand_ends hbusy hcmd hnop h with ⟨st, hst, hn⟩ | ⟨c, pos, hc, rfl⟩
  · exact ⟨hn.busy, hn.done, by simp [hn.err, hn.errCode],
      .inl ⟨hn.err, hn.errPos, by rw [hst, hn.stage]⟩⟩
  · exact ⟨rfl, rfl, ⟨fun _ => hc, fun _ => rfl⟩, .inr ⟨rfl, statusWord_errorEntry s c pos, rfl, rfl, rfl⟩⟩

end Sys2Proof.Machine
end

section
/-! SUPPORT. The host interface (10_state R30 to R51): a step with an action pending is that action on
the state without it, the effect of each action, and the register map. -/

namespace Sys2Proof.Machine

/-! ### The pending action -/

section
variable {s : State} {a : HostAction} {rest : List HostAction}

/-- The state with the host's next action taken from its script, `rest` being what follows (log 2). -/
def takeAction (s : State) (rest : List HostAction) : State :=
  { s with host := { s.host with script := rest } }

theorem step_of_pending (h : s.host.script = a :: rest) : step s = hostAct a (takeAction s rest) := by
  unfold step hostStep
  rw [h]
  rfl

theorem step_of_idle (hb : s.busy = false) (h : s.host.script = a :: rest) :
    step s = hostActIdle a (takeAction s rest) :=
  (step_of_pending h).trans (hostAct_idle hb)

theorem step_of_busy (hb : s.busy = true) (h : s.host.script = a :: rest) :
    step s = hostActBusy a (takeAction s rest) :=
  (step_of_pending h).trans (if_pos hb)

/-- The test of 10_state R51 by the three stages that do not clear. -/
theorem invalidate_eq (s : State) :
    invalidate s = if s.stage = .clear ∨ s.stage = .cdone ∨ s.stage = .ddone then s
      else clearDerived s := by
  cases hs : s.stage <;> simp [invalidate, midPipeline, hs]

/-! ### The effect of each action while BUSY = 0 (10_state R50) -/

theorem writeIB_of_lt {c : Nat} (b : Byte) (hc : c < s.cfg.ibCap.val) :
    writeIB c b s = invalidate { s with ib := bufWrite s.ib c b } := if_pos hc

theorem writeIB_of_ge {c : Nat} (b : Byte) (hc : s.cfg.ibCap.val ≤ c) :
    writeIB c b s = answer s .refused := if_neg (Nat.not_lt.2 hc)

theorem writeReg_inLen (v : Word) : writeReg 4#8 v s = .next (writeInLen v s) := rfl

theorem writeReg_other {r : Byte} (v : Word) (h0 : r ≠ 0#8) (h4 : r ≠ 4#8) :
    writeReg r v s = .next s := by
  rw [writeReg, if_neg h0, if_neg h4]

theorem hostReadOB_of_lt {c : Nat} {b : Byte} (hc : c < s.outLen) (hb : bufRead s.ob c = some b) :
    hostReadOB c s = .next (answer s (.byte b)) := by
  rw [hostReadOB, if_pos hc, hb]

theorem hostReadOB_of_ge {c : Nat} (hc : s.outLen ≤ c) :
    hostReadOB c s = .next (answer s .refused) := if_neg (Nat.not_lt.2 hc)

theorem hostReadIB_of_lt {c : Nat} {b : Byte} (hc : c < s.cfg.ibCap.val)
    (hb : bufRead s.ib c = some b) : hostReadIB c s = .next (answer s (.byte b)) := by
  rw [hostReadIB, if_pos hc, hb]

theorem hostReadNODE_of_lt {i : Nat} (hi : i < Config.nodeMax) :
    hostReadNODE i s = answer s (.node (nodeAt s i)) := if_pos hi

end

/-- Settles O56: the write, then R51's test of the stage. -/
theorem hostWritesInvalidate : Obligations.HostWritesInvalidate := by
  intro s rest hb
  refine ⟨fun a b h => ⟨fun ha => ⟨bufWrite s.ib a b, bufRead_bufWrite_same _ a b,
    fun c hc => bufRead_bufWrite_ne _ b hc, ?_⟩, fun ha => ?_⟩, fun v h => ?_, fun r v h0 h4 h => ?_⟩
  · rw [step_of_idle hb h, hostActIdle, writeIB_of_lt (s := takeAction s rest) b ha, invalidate_eq]
    rfl
  · rw [step_of_idle hb h, hostActIdle, writeIB_of_ge (s := takeAction s rest) b ha]
    rfl
  · rw [step_of_idle hb h, hostActIdle, writeReg_inLen, writeInLen, invalidate_eq]
    rfl
  · rw [step_of_idle hb h, hostActIdle, writeReg_other v h0 h4]
    rfl

/-- Settles O57: each read hands over its reply, once its range test is passed. -/
theorem hostReadsChangeNothing : Obligations.HostReadsChangeNothing := by
  intro s rest hb
  refine ⟨fun r h => step_of_idle hb h, fun a b h ha hr => ?_, fun a h ha => ?_,
    fun a b h ha hr => ?_, fun sym h => step_of_idle hb h, fun i h hi => ?_,
    fun sym h => step_of_idle hb h⟩
  · exact (step_of_idle hb h).trans (hostReadOB_of_lt (s := takeAction s rest) ha hr)
  · exact (step_of_idle hb h).trans (hostReadOB_of_ge (s := takeAction s rest) ha)
  · exact (step_of_idle hb h).trans (hostReadIB_of_lt (s := takeAction s rest) ha hr)
  · rw [step_of_idle hb h, hostActIdle, hostReadNODE_of_lt (Nat.lt_succ_of_le hi)]
    rfl

/-- Settles O60: hostActBusy answers a CMD write, a read of STATUS and Reset, and refuses the rest. -/
theorem busyHostHasNoOtherMove : Obligations.BusyHostHasNoOtherMove := by
  intro s rest hb
  refine ⟨fun v h => step_of_busy hb h, fun h => step_of_busy hb h, fun a hreset hcmd hstatus h => ?_⟩
  rw [step_of_busy hb h]
  cases a with
  | reset => exact absurd rfl hreset
  | writeReg r v =>
    have hr : r ≠ 0#8 := by
      rintro rfl
      exact hcmd v rfl
    exact if_neg hr
  | readReg r =>
    have hr : r ≠ 1#8 := by
      rintro rfl
      exact hstatus rfl
    exact if_neg hr
  | _ => rfl

/-- The byte placed as the low byte of the written word is the byte CMD takes (logs 16, 17). -/
theorem commandByte_of_word (w : Nat) :
    (BitVec.ofNat 32 (w % 256)).setWidth 8 = BitVec.ofNat 8 w := by
  apply BitVec.eq_of_toNat_eq
  simp only [BitVec.toNat_setWidth, BitVec.toNat_ofNat]
  omega

/-- Settles O6: no action is a wait; the placed byte is the host's next write to CMD, with BUSY 0. -/
theorem waitsAndRunsPlacedCommand : Obligations.WaitsAndRunsPlacedCommand := by
  refine ⟨fun s h => ?_, fun s w i hd => ?_⟩
  · unfold step hostStep
    rw [h]
  · have hstep : step (s.withFetchWord 8 w) =
        writeCMD ((BitVec.ofNat 32 (w % 256)).setWidth 8) { s with busy := false } := rfl
    rw [hstep, commandByte_of_word, writeCMD, hd]

/-- Settles O15: ClearDerived with the two cursor registers' zeros written out. -/
theorem clearDerivedZeroesDerivedState : Obligations.ClearDerivedZeroesDerivedState :=
  fun _ => rfl

/-! ### Reset and the register map (10_state R30, R49) -/

/-- The fields of STATUS as the digits of its value (10_state R31). -/
theorem statusWord_toNat (s : State) :
    (statusWord s).toNat = s.busy.toNat + 2 * s.done.toNat + 4 * s.err.toNat +
      16 * (stageValue s.stage).toNat := by
  have digits : ∀ (b d e : Bool) (k : BitVec 3),
      (0#1 ++ k ++ 0#1 ++ BitVec.ofBool e ++ BitVec.ofBool d ++ BitVec.ofBool b).toNat =
        b.toNat + 2 * d.toNat + 4 * e.toNat + 16 * k.toNat := by decide
  exact digits s.busy s.done s.err (stageValue s.stage)

theorem readReg_reserved (s : State) {r : Byte} (hr : 14 ≤ r.toNat) : readReg s r = 0#32 := by
  have hne : ∀ k : Byte, k.toNat < 14 → r ≠ k := by
    rintro k hk rfl
    omega
  simp [readReg, hne]

theorem readReg_reset (r : Byte) : readReg State.reset r = 0#32 := by
  have numbered : ∀ k : Fin 14, readReg State.reset (BitVec.ofNat 8 k.val) = 0#32 := by decide
  by_cases hr : r.toNat < 14
  · have := numbered ⟨r.toNat, hr⟩
    rwa [BitVec.ofNat_toNat, BitVec.setWidth_eq] at this
  · exact readReg_reserved State.reset (Nat.le_of_not_lt hr)

/-- Settles O55: the state after reset is what the Reset action leaves of it. -/
theorem resetMeetsInvariant : Obligations.ResetMeetsInvariant := by
  refine ⟨resetBlock_invariant State.reset, readReg_reset, fun n a => ?_⟩
  cases n <;> rfl

/-- A register below 2^32 is read as its value. -/
theorem word_toNat {n : Nat} (h : n < 2 ^ 32) : (BitVec.ofNat 32 n).toNat = n :=
  (BitVec.toNat_ofNat n 32).trans (Nat.mod_eq_of_lt h)

/-- A byte-wide register is read zero-extended. -/
theorem zeroExtend_toNat (b : Byte) : (b.setWidth 32).toNat = b.toNat :=
  BitVec.toNat_setWidth_of_le (by decide)

/-- Settles O58: each register fits its width, so its 32-bit word is its value. -/
theorem registerMapReadsRegisters : Obligations.RegisterMapReadsRegisters := by
  intro s hfits
  obtain ⟨-, -, -, -, -, -, -, -, -, hpos, hin, hout, hnsym, hnnode, hroot, htdBits, htdLen, hvbits,
    hpayLen, hpayOff⟩ := hfits
  have small {n k : Nat} (hk : k ≤ 32) (h : n < 2 ^ k) : (BitVec.ofNat 32 n).toNat = n :=
    word_toNat (lt_of_lt_of_le h (Nat.pow_le_pow_right (by decide) hk))
  exact ⟨rfl, fun r => readReg_reserved s, (zeroExtend_toNat _).trans (statusWord_toNat s),
    zeroExtend_toNat _, word_toNat hpos, word_toNat hin, word_toNat hout, small (by decide) hnsym,
    small (by decide) hnnode, small (by decide) hroot, small (by decide) htdBits, word_toNat htdLen,
    word_toNat hvbits, word_toNat hpayLen, word_toNat hpayOff⟩

end Sys2Proof.Machine
end

section
/-! SUPPORT. Every instruction keeps the input and what is not the block's own: IB, IN_LEN, the
parameters and the host's side (20_memory R60, 00_scope R10, 10_state R35). What the operations of the
sequencer keep stands in Laws/Frame.lean; the frame of a command, the error entry and the latch of a
micro-operation touch none of the four. -/

namespace Sys2Proof.Machine

/-- IB, IN_LEN, the parameters and the host's side are the same. -/
structure KeepsInput (s t : State) : Prop where
  ib : t.ib = s.ib
  inLen : t.inLen = s.inLen
  cfg : t.cfg = s.cfg
  host : t.host = s.host

section
variable {s t : State}

theorem KeepsInput.refl (s : State) : KeepsInput s s := ⟨rfl, rfl, rfl, rfl⟩

theorem Keeps.keepsInput (h : Keeps s t) : KeepsInput s t := ⟨h.ib, h.inLen, h.cfg, h.host⟩

theorem clearDerived_keepsInput (s : State) : KeepsInput s (clearDerived s) := ⟨rfl, rfl, rfl, rfl⟩

theorem errorEntry_keepsInput (s : State) (c : ErrCode) (pos : Nat) :
    KeepsInput s (errorEntry s c pos) := ⟨rfl, rfl, rfl, rfl⟩

/-- The start and the end of a command set flags only (60_exceptions R221). -/
theorem endCommand_keepsInput {u : State} (h : Keeps (startCommand s) u) :
    KeepsInput s (endCommand u) := ⟨h.ib, h.inLen, h.cfg, h.host⟩

/-! ### How meanings end -/

theorem settle_keepsInput {r : Except Stop State} (hr : ∀ {u}, r = .ok u → KeepsInput s u)
    (h : settle s r = .next t) : KeepsInput s t := by
  rcases settle_next h with hok | ⟨c, pos, -, rfl⟩
  · exact hr hok
  · exact errorEntry_keepsInput s c pos

theorem settleRet_keepsInput {r : Except Stop (Nat × State)}
    (hr : ∀ {v u}, r = .ok (v, u) → Keeps s u) (h : settleRet s r = .next t) : KeepsInput s t := by
  rcases settleRet_next h with ⟨v, u, hok, rfl⟩ | ⟨c, pos, -, rfl⟩
  · obtain ⟨hib, hlen, hcfg, hhost⟩ := (hr hok).keepsInput
    exact ⟨hib, hlen, hcfg, hhost⟩
  · exact errorEntry_keepsInput s c pos

theorem unitCommand_keepsInput {io : Bool} {st : Stage} {body : State → Except Stop State}
    (hb : ∀ {r u}, body r = .ok u → Keeps r u) (h : unitCommand io st body s = .next t) :
    KeepsInput s t := by
  rcases unitCommand_next h with
    ⟨-, rfl⟩ | ⟨-, ⟨-, -, rfl⟩ | ⟨-, -, rfl⟩ | ⟨-, -, ⟨u, hu, rfl⟩ | ⟨c, pos, -, rfl⟩⟩⟩
  · exact .refl t
  · exact errorEntry_keepsInput s .len 0
  · exact errorEntry_keepsInput s .seq 0
  · exact endCommand_keepsInput (hb hu)
  · exact errorEntry_keepsInput s c pos

theorem wholeCommand_keepsInput {io : Bool} {body : State → Except Stop State}
    (hb : ∀ {r u}, body r = .ok u → Keeps r u) (h : wholeCommand io body s = .next t) :
    KeepsInput s t := by
  rcases wholeCommand_next h with
    ⟨-, rfl⟩ | ⟨-, ⟨-, -, rfl⟩ | ⟨-, ⟨u, hu, rfl⟩ | ⟨c, pos, -, rfl⟩⟩⟩
  · exact .refl t
  · exact errorEntry_keepsInput s .len 0
  · exact endCommand_keepsInput ((clearDerived_startCommand_keeps s).trans (hb hu))
  · exact errorEntry_keepsInput s c pos

/-! ### The operations that no command's body runs as they stand -/

theorem clearBody_keeps (h : clearBody s = .ok t) : Keeps s t := by
  cases h
  exact .refl s

theorem skipBits_keeps (n : Nat) (s : State) : Keeps s (skipBits n s) :=
  ⟨rfl, rfl, rfl, rfl, rfl, rfl, rfl, rfl, rfl, rfl⟩

theorem leafCode_keeps {sym : Byte} {v : Nat} (h : leafCode sym s = .ok (v, t)) : Keeps s t := by
  obtain ⟨-, -, h⟩ := bind_eq_ok.1 h
  split at h
  · cases h
  · exact (skipBits_keeps 9 s).trans (placeLeaf_keeps h)

theorem internalCode_keeps {v : Nat} (h : internalCode s = .ok (v, t)) : Keeps s t := by
  obtain ⟨-, -, h⟩ := bind_eq_ok.1 h
  exact (skipBits_keeps 1 s).trans (placeInternal_keeps deserNode_keeps h)

theorem headerField_keepsInput {w : Word} (h : headerField w s = .ok t) : KeepsInput s t := by
  obtain ⟨-, rfl⟩ := headerField_ok h
  exact ⟨rfl, rfl, rfl, rfl⟩

theorem metadataField_keepsInput {w : Word} (h : metadataField w s = .ok t) : KeepsInput s t := by
  obtain ⟨-, -, -, -, rfl⟩ := metadataField_ok h
  exact ⟨rfl, rfl, rfl, rfl⟩

theorem execPqPush_keepsInput {i : Nat} (h : execPqPush i s = .next t) : KeepsInput s t := by
  refine settle_keepsInput (fun hu => ?_) h
  split at hu <;> cases hu
  exact ⟨rfl, rfl, rfl, rfl⟩

theorem execBrGet_keepsInput (h : execBrGet s = .next t) : KeepsInput s t := by
  refine settleRet_keepsInput (fun hu => ?_) h
  obtain ⟨⟨b, r⟩, hget, hu⟩ := bind_eq_ok.1 hu
  cases hu
  exact readerGet_keeps hget

theorem execBrRem_keepsInput (h : execBrRem s = .next t) : KeepsInput s t := by
  cases h
  exact ⟨rfl, rfl, rfl, rfl⟩

/-! ### Every instruction -/

theorem exec_keepsInput {i : Instr} (h : exec i s = .next t) : KeepsInput s t := by
  cases i with
  | nop => cases h; exact .refl s
  | clear => exact wholeCommand_keepsInput clearBody_keeps h
  | fcount => exact unitCommand_keepsInput fcountBody_keeps h
  | tbuild => exact unitCommand_keepsInput tbuildBody_keeps h
  | cgen => exact unitCommand_keepsInput cgenBody_keeps h
  | pack => exact unitCommand_keepsInput packBody_keeps h
  | serial => exact unitCommand_keepsInput serialBody_keeps h
  | parse => exact unitCommand_keepsInput parseBody_keeps h
  | unpack => exact unitCommand_keepsInput unpackBody_keeps h
  | compress => exact wholeCommand_keepsInput compressBody_keeps h
  | decompress => exact wholeCommand_keepsInput decompressBody_keeps h
  | pqPush i => exact execPqPush_keepsInput h
  | pqPopMin => exact settleRet_keepsInput queuePopMin_keeps h
  | cgWalk i path => exact settle_keepsInput (fun hu => (codeWalk_keeps hu).keepsInput) h
  | bwInit k => cases h; exact ⟨rfl, rfl, rfl, rfl⟩
  | bwPut b => exact settle_keepsInput (fun hu => (writerPut_keeps hu).keepsInput) h
  | bwFlush => exact settle_keepsInput (fun hu => (writerFlush_keeps hu).keepsInput) h
  | brInit base limit => cases h; exact ⟨rfl, rfl, rfl, rfl⟩
  | brRem => exact execBrRem_keepsInput h
  | brGet => exact execBrGet_keepsInput h
  | serEmit i => exact settle_keepsInput (fun hu => (emitNode_keeps hu).keepsInput) h
  | desNode => exact settleRet_keepsInput deserNode_keeps h
  | clearDerived => cases h; exact clearDerived_keepsInput s
  | hdrT w => exact settle_keepsInput headerField_keepsInput h
  | metaV w => exact settle_keepsInput metadataField_keepsInput h
  | treeInternal => exact settleRet_keepsInput internalCode_keeps h
  | treeLeaf sym => exact settleRet_keepsInput leafCode_keeps h

end

/-- Settles O8: instruction by instruction, the next state is the error entry or what an operation of
Laws/Frame.lean leaves. -/
theorem instructionsKeepInput : Obligations.InstructionsKeepInput := by
  intro i s t h
  obtain ⟨hib, hlen, hcfg, hhost⟩ := exec_keepsInput h
  exact ⟨hib, hlen, hcfg, hhost⟩

end Sys2Proof.Machine
end

section
/-! SUPPORT. The decoder and the encoder against each other (30_encoding R80, R87, R88, R90, R96, R100):
at each place the decoder undoes the encoder and accepts nothing else. -/

namespace Sys2Proof

open Machine (bind_eq_ok ok_bind isCommand_of_decodeCommand)

/-! ### The decoder on an encoding -/

theorem decode_command {c : Byte} {i : Instr} (h : decodeCommand c = .ok i) (rest : List Bool) :
    decode .command (byteBits c ++ rest) = .ok (i, rest) := by
  simp only [decode, takeByte_byteBits, h, ok_bind]

theorem decode_header (t : Word) (rest : List Bool) :
    decode .header (wordBits t ++ rest) = .ok (.hdrT t, rest) := by
  simp only [decode, takeWord_wordBits, ok_bind]

theorem decode_payloadMetadata (v : Word) (rest : List Bool) :
    decode .payloadMetadata (wordBits v ++ rest) = .ok (.metaV v, rest) := by
  simp only [decode, takeWord_wordBits, ok_bind]

theorem decode_leaf (s : Byte) (rest : List Bool) :
    decode .treeNode (true :: (byteBits s ++ rest)) = .ok (.treeLeaf s, rest) := by
  simp only [decode, decodeNode, takeByte_byteBits, ok_bind]

theorem decode_encode (i : Instr) {p : Place} (rest : List Bool) (hp : i.place = some p) :
    decode p (encode i ++ rest) = .ok (i, rest) := by
  cases i with
  | nop | clear | fcount | tbuild | cgen | pack | serial | parse | unpack | compress | decompress =>
    cases hp
    exact decode_command rfl rest
  | hdrT t =>
    cases hp
    exact decode_header t rest
  | metaV v =>
    cases hp
    exact decode_payloadMetadata v rest
  | treeInternal =>
    cases hp
    rfl
  | treeLeaf s =>
    cases hp
    exact decode_leaf s rest
  | _ => cases hp

/-! ### What the decoder accepts -/

/-- One row of the command table, its command encoded by its code, in front of the rows `e`. -/
theorem encode_of_row {c k : Byte} {i j : Instr} {e : Except DecodeError Instr}
    (hrow : encode j = byteBits k) (he : e = .ok i → encode i = byteBits c) :
    (if c = k then .ok j else e) = .ok i → encode i = byteBits c := by
  intro h
  by_cases hc : c = k
  · subst hc
    rw [if_pos rfl] at h
    cases h
    exact hrow
  · rw [if_neg hc] at h
    exact he h

/-- The code a command is decoded from is the code it is encoded as. -/
theorem encode_of_decodeCommand {c : Byte} {i : Instr} :
    decodeCommand c = .ok i → encode i = byteBits c := by
  unfold decodeCommand
  iterate 11 refine encode_of_row rfl ?_
  nofun

theorem decodeNode_ok {bits rest : List Bool} {i : Instr} (h : decodeNode bits = .ok (i, rest)) :
    bits = encode i ++ rest ∧ i.place = some .treeNode := by
  match bits with
  | [] => cases h
  | false :: _ =>
    cases h
    exact ⟨rfl, rfl⟩
  | true :: _ =>
    obtain ⟨⟨s, r⟩, hs, h⟩ := bind_eq_ok.1 h
    cases h
    exact ⟨congrArg (true :: ·) (takeByte_ok hs), rfl⟩

theorem decode_ok {p : Place} {bits rest : List Bool} {i : Instr} (h : decode p bits = .ok (i, rest)) :
    bits = encode i ++ rest ∧ i.place = some p := by
  cases p with
  | command =>
    obtain ⟨⟨c, r⟩, hc, h⟩ := bind_eq_ok.1 h
    obtain ⟨j, hj, h⟩ := bind_eq_ok.1 h
    cases h
    exact ⟨encode_of_decodeCommand hj ▸ takeByte_ok hc,
      of_decide_eq_true (isCommand_of_decodeCommand hj)⟩
  | header | payloadMetadata =>
    obtain ⟨⟨v, r⟩, hv, h⟩ := bind_eq_ok.1 h
    cases h
    exact ⟨takeWord_ok hv, rfl⟩
  | treeNode => exact decodeNode_ok h

/-- Only micro-operations have operands that can be out of range, and they have no place (30_encoding
R98). -/
theorem wellFormed_of_place {i : Instr} {p : Place} (h : i.place = some p) : i.wellFormed = true := by
  cases i with
  | pqPush | cgWalk | brInit | serEmit => cases h
  | _ => rfl

/-- Settles O1: by place, a taken byte or field of its own bits is itself. -/
theorem encodeThenDecodeGivesInstruction : Obligations.EncodeThenDecodeGivesInstruction :=
  fun i _ rest hp => decode_encode i rest hp

/-- Settles O2: the bits a byte or field was taken from are its own, and a code decodes to the command
encoded by it. -/
theorem decodedBitsAreTheEncoding : Obligations.DecodedBitsAreTheEncoding := by
  intro p bits i rest h
  obtain ⟨hbits, hp⟩ := decode_ok h
  exact ⟨hbits, hp, wellFormed_of_place hp⟩

/-- Settles O3: each word, written out, is the encoding of what it stands for. -/
theorem specWordsDecode : Obligations.SpecWordsDecode :=
  ⟨decode_encode .fcount [] rfl, decode_encode .compress [] rfl, decode_encode (.treeLeaf 0x61#8) [] rfl,
    decode_encode .treeInternal [true] rfl, decode_encode (.hdrT 1000#32) [] rfl,
    decode_encode (.metaV 23#32) [] rfl⟩

end Sys2Proof
end

section
/-! SUPPORT. A CMD write of a reserved code (30_encoding R97, 60_exceptions R228). -/

namespace Sys2Proof.Machine

theorem decodeCommand_reserved {c : Byte}
    (hc : 0x09 ≤ c.toNat ∧ c.toNat ≤ 0x0F ∨ 0x12 ≤ c.toNat) :
    decodeCommand c = .error (.reservedCode c) := by
  have hne : ∀ k : Byte, k.toNat < 0x09 ∨ 0x0F < k.toNat ∧ k.toNat < 0x12 → c ≠ k := by
    rintro k hk rfl
    omega
  simp [decodeCommand, hne]

theorem badCommand_idle {s : State} (hb : s.busy = false) : badCommand s = errorEntry s .badcmd 0 := by
  simp [badCommand, hb]

theorem writeCMD_reserved {s : State} {c : Byte} (hb : s.busy = false)
    (hc : 0x09 ≤ c.toNat ∧ c.toNat ≤ 0x0F ∨ 0x12 ≤ c.toNat) :
    writeCMD c s = .next (errorEntry s .badcmd 0) := by
  rw [writeCMD, decodeCommand_reserved hc, badCommand_idle hb]

/-- Settles O5: no defined code lies in the two ranges, so the CMD write enters the error. -/
theorem reservedCodeRaisesBadCommand : Obligations.ReservedCodeRaisesBadCommand :=
  ⟨rfl, fun s _ rest hb h hv =>
    (step_of_idle hb h).trans (writeCMD_reserved (s := takeAction s rest) hb hv)⟩

end Sys2Proof.Machine
end

section
/-! SUPPORT. What the command FCOUNT leaves (40_frequency_counter R111, R112). -/

namespace Sys2Proof.Machine

theorem hasInput_inLen {s : State} {bs : List Byte} (h : s.hasInput bs = true) :
    s.inLen = bs.length := by
  simp only [State.hasInput, Bool.and_eq_true, decide_eq_true_eq] at h
  exact h.1

/-- Settles O16: the command's frame around its body, whose loop has counted the input. -/
theorem fcountCountsInput : Obligations.FcountCountsInput := by
  intro s bs hbusy hstage hzero hin hcap
  obtain ⟨u, hu, hcount, hnsym, heq⟩ := fcountBody_eq (s := startCommand s) hin hzero
  have hlen : s.inLen ≤ s.cfg.ibCap.val := hasInput_inLen hin ▸ hcap
  refine ⟨endCommand u, unitCommand_of_body hbusy (fun _ => hlen) hstage hu, hcount, hnsym, ?_⟩
  rw [heq]
  rfl

/-! ### What holds after FCOUNT -/

/-- An FCOUNT that ends without an error has passed the length test (60_exceptions R229). -/
theorem fcount_inLen_le {s t : State} (hbusy : s.busy = false) (h : exec .fcount s = .next t)
    (herr : t.err = false) : s.inLen ≤ s.cfg.ibCap.val := by
  rcases unitCommand_next h with
    ⟨hb, -⟩ | ⟨-, ⟨-, -, rfl⟩ | ⟨hlen, -, -⟩ | ⟨hlen, -, -⟩⟩
  · rw [hbusy] at hb
    cases hb
  · cases herr
  · exact hlen rfl
  · exact hlen rfl

/-- FT and NSYM after an FCOUNT that ends without an error (40_frequency_counter R111). -/
theorem fcount_counts {s t : State} {bs : List Byte} (hbusy : s.busy = false)
    (hstage : s.stage = .clear) (hclear : s.derivedClear) (hin : s.hasInput bs = true)
    (h : exec .fcount s = .next t) (herr : t.err = false) :
    (∀ sym, readFT t sym = bs.count sym) ∧ t.nsym = bs.dedup.length := by
  have hcap : bs.length ≤ s.cfg.ibCap.val := hasInput_inLen hin ▸ fcount_inLen_le hbusy h herr
  obtain ⟨u, hu, hcount, hnsym, -⟩ :=
    fcountCountsInput s bs hbusy hstage (readFT_zero (clear_zero hclear).1) hin hcap
  cases h.symm.trans hu
  exact ⟨hcount, hnsym⟩

/-- A byte has 256 values, so no input has more distinct symbols (40_frequency_counter R112). -/
theorem dedup_length_le_of_counts {s : State} {bs : List Byte} (h : ∀ sym, readFT s sym = bs.count sym) :
    bs.dedup.length ≤ min 256 bs.length :=
  le_min ((presentSymbols_perm h).length_eq ▸ presentSymbols_length_le s)
    (List.dedup_sublist bs).length_le

/-- Settles O17: after FCOUNT the table counts the input, and permuted inputs have the same counts. -/
theorem fcountTableFacts : Obligations.FcountTableFacts := by
  intro s t bs hbusy hstage hclear hin h herr
  obtain ⟨hcount, hnsym⟩ := fcount_counts hbusy hstage hclear hin h herr
  obtain ⟨hib, hinLen, -, -⟩ := exec_keepsInput h
  have hlen : t.inLen = bs.length := hinLen.trans (hasInput_inLen hin)
  rw [hnsym, hlen]
  refine ⟨counts_sum hcount, fun sym => ?_, ?_, dedup_length_le_of_counts hcount, hib, ?_⟩
  · rw [hcount]
    exact List.one_le_count_iff
  · rw [List.length_eq_zero_iff, List.length_eq_zero_iff, List.dedup_eq_nil]
  · intro s' t' bs' hbusy' hstage' hclear' hin' h' herr' hperm
    obtain ⟨hcount', -⟩ := fcount_counts hbusy' hstage' hclear' hin' h' herr'
    exact ft_ext fun sym => by rw [hcount', hcount, hperm.count_eq]

end Sys2Proof.Machine
end

section
/-! SUPPORT. The queue's micro-operations (41_tree_builder R125, R126) and the micro-operations that stop
outside their preconditions (10_state R22, R48, 44_bit_reader R161). -/

namespace Sys2Proof.Machine

/-- Settles O23: the member `queuePopMin` finds goes to the latch. -/
theorem popMinTakesLowestKey : Obligations.PopMinTakesLowestKey := by
  intro s hmem
  obtain ⟨m, hm, hlow, hpop⟩ := queuePopMin_eq hmem
  refine ⟨m, hm, hlow, ?_⟩
  show settleRet s (queuePopMin s) = _
  rw [hpop]
  rfl

theorem execPqPush_allocatable {s : State} {i : Nat} (hi : i < Config.nodeMax) :
    exec (.pqPush i) s = .next (queuePush i s) := by
  show settle s (if i < Config.nodeMax then _ else _) = _
  rw [if_pos hi]
  rfl

/-- Settles O24: PUSH is `setInsert` on the queue. -/
theorem pushAddsMember : Obligations.PushAddsMember := by
  intro s i hi
  exact ⟨_, execPqPush_allocatable hi, fun _ => mem_setInsert, setInsert_rising, rfl⟩

/-! ### Stops -/

/-- There is no NODE entry above 510 (10_state R22, log 11). -/
theorem readNode_noSuchNode {s : State} {i : Nat} (hi : 511 ≤ i) :
    readNode s i = .error (.fault (.noSuchNode i)) :=
  if_neg (Nat.not_lt.2 hi)

theorem execPqPush_noSuchNode {s : State} {i : Nat} (hi : 511 ≤ i) :
    exec (.pqPush i) s = .fault (.noSuchNode i) := by
  show settle s (if i < Config.nodeMax then _ else _) = _
  rw [if_neg (Nat.not_lt.2 hi)]
  rfl

theorem codeWalk_noSuchNode {fuel i : Nat} {path : List Bool} {s : State} (hi : 511 ≤ i) :
    codeWalk (fuel + 1) i path s = .error (.fault (.noSuchNode i)) := by
  rw [codeWalk, readNode_noSuchNode hi]
  rfl

theorem emitNode_noSuchNode {fuel i : Nat} {s : State} (hi : 511 ≤ i) :
    emitNode (fuel + 1) i s = .error (.fault (.noSuchNode i)) := by
  rw [emitNode, readNode_noSuchNode hi]
  rfl

theorem queuePopMin_empty {s : State} (h : s.pq = []) :
    queuePopMin s = .error (.fault .queueEmpty) := by
  rw [queuePopMin, h]
  rfl

theorem readerGet_atLimit {s : State} (h : s.br.limit ≤ s.br.pos) :
    readerGet s = .error (.fault .readerAtLimit) :=
  if_neg (Nat.not_lt.2 h)

theorem readerGet_unwritten {s : State} (h : s.br.pos < s.br.limit)
    (hb : bufRead s.ib (s.br.base + s.br.pos / 8) = none) :
    readerGet s = .error (.fault (.readUnwritten .ib (s.br.base + s.br.pos / 8))) := by
  have hread : memReadByte s .ib (s.br.base + s.br.pos / 8) =
      .error (.fault (.readUnwritten .ib (s.br.base + s.br.pos / 8))) := by
    simp only [memReadByte, buffer, hb]
    rfl
  rw [readerGet, if_pos h, hread]
  rfl

/-- The traversal stack has a call left below every path of at most 255 bits (42_code_table R136). -/
theorem stackDepth_sub_path {k : Nat} (h : k ≤ 255) : stackDepth - k = (255 - k) + 1 := by
  unfold stackDepth
  omega

/-- Settles O34: each operation faults before it changes anything. -/
theorem emptyPopReaderEndAndBadIndexFault : Obligations.EmptyPopReaderEndAndBadIndexFault := by
  intro s
  refine ⟨fun h => ?_, fun h => ?_, fun h hb => ?_, fun i hi =>
    ⟨execPqPush_noSuchNode hi, fun path hpath => ?_, ?_⟩⟩
  · show settleRet s (queuePopMin s) = _
    rw [queuePopMin_empty h]
    rfl
  · show execBrGet s = _
    rw [execBrGet, readerGet_atLimit h]
    rfl
  · show execBrGet s = _
    rw [execBrGet, readerGet_unwritten h hb]
    rfl
  · show execCgWalk i path s = _
    rw [execCgWalk, stackDepth_sub_path hpath, codeWalk_noSuchNode hi]
    rfl
  · show execSerEmit i s = _
    rw [execSerEmit, stackDepth, emitNode_noSuchNode hi]
    rfl

end Sys2Proof.Machine
end

section
/-! SUPPORT. What the command TBUILD leaves (41_tree_builder R122, R124, R126, R127): its frame around the
body, whose arena is that of the ended merge loop (`Built`). -/

namespace Sys2Proof.Machine

@[simp] theorem presentSymbols_startCommand (s : State) :
    presentSymbols (startCommand s) = presentSymbols s := rfl

@[simp] theorem readFT_startCommand (s : State) : readFT (startCommand s) = readFT s := rfl

@[simp] theorem holdsTree_endCommand (s : State) (i : Nat) (tr : Tree) :
    holdsTree (endCommand s) i tr = holdsTree s i tr :=
  holdsTree_node_congr (endCommand_node (s := s)) i tr

/-- TBUILD from FREQ with an empty queue ends as its body does. -/
theorem exec_tbuild {s : State} (hbusy : s.busy = false) (hstage : s.stage = .freq) (hq : s.pq = []) :
    ∃ t u v f, exec .tbuild s = .next (endCommand t) ∧ Built (startCommand s) t u v f := by
  obtain ⟨t, u, v, f, hbody, hbuilt⟩ := tbuildBody_eq (s := startCommand s) hq
  exact ⟨t, u, v, f, unitCommand_of_body hbusy (fun h => by cases h) hstage hbody, hbuilt⟩

section
variable {s t u v : State} {f : Nat → Tree}

/-- The arena of TBUILD is that of the ended merge loop. -/
theorem Built.nodeAt_eq (h : Built s t u v f) (k : Nat) : nodeAt t k = nodeAt v k :=
  nodeAt_congr h.node k

theorem Built.keyLess_iff (h : Built s t u v f) {i j : Nat} : keyLess t i j ↔ keyLess v i j :=
  keyLess_congr (h.nodeAt_eq i) (h.nodeAt_eq j)

/-- Two leaves less one make the arena; none make it empty (41_tree_builder R124, R127). -/
theorem Built.nnode_eq (h : Built s t u v f) : t.nnode = 2 * (presentSymbols s).length - 1 := by
  rw [h.nnode]
  rcases merging_done h.merging h.done with ⟨h0, hk, -⟩ | ⟨-, hk, -⟩ <;> omega

theorem Built.leaf (h : Built s t u v f) (k : Nat) (hk : k < (presentSymbols s).length) :
    nodeAt t k = leafRecord (presentSymbols s)[k] (readFT s (presentSymbols s)[k]) := by
  rw [h.nodeAt_eq, h.merging.outside k (.inl hk), h.leavesAt k hk]

theorem Built.internal (h : Built s t u v f) (k : Nat) (hn : (presentSymbols s).length ≤ k)
    (hk : k < t.nnode) : (nodeAt t k).left < k ∧ (nodeAt t k).right < k ∧
      keyLess t (nodeAt t k).left (nodeAt t k).right ∧
      nodeAt t k = internalRecord (nodeAt t k).left (nodeAt t k).right
        ((nodeAt t (nodeAt t k).left).weight + (nodeAt t (nodeAt t k).right).weight) := by
  rw [h.keyLess_iff]
  simp only [h.nodeAt_eq]
  exact h.merging.records k hn (h.nnode ▸ hk)

theorem Built.unallocated (h : Built s t u v f) (k : Nat) (hk : t.nnode ≤ k) :
    nodeAt t k = nodeAt s k := by
  rw [h.nnode] at hk
  rw [h.nodeAt_eq, h.merging.outside k (.inr hk), h.above k (h.merging.ge.trans hk)]

theorem Built.lowest (h : Built s t u v f) (k : Nat) (hn : (presentSymbols s).length ≤ k)
    (hk : k < t.nnode) (j : Nat) (hj : j < k)
    (hfree : ∀ m, (presentSymbols s).length ≤ m → m < k →
      (nodeAt t m).left ≠ j ∧ (nodeAt t m).right ≠ j) :
    j = (nodeAt t k).left ∨ j = (nodeAt t k).right ∨ keyLess t (nodeAt t k).right j := by
  simp only [h.nodeAt_eq] at hfree
  rw [h.keyLess_iff, h.nodeAt_eq]
  exact h.merging.lowest k hn (h.nnode ▸ hk) j hj hfree

theorem Built.nnode_eq_root (h : Built s t u v f) (hne : presentSymbols s ≠ []) :
    t.nnode = t.root + 1 := by
  have hpos := List.length_pos_iff.2 hne
  rw [h.nnode_eq, h.root]
  omega

/-- Every index below the root is a child exactly once (41_tree_builder R124, 10_state R22). -/
theorem Built.childList_perm (h : Built s t u v f) (hne : presentSymbols s ≠ []) :
    (childList t (presentSymbols s).length).Perm (List.range t.root) := by
  have hq : v.pq = [t.root] := (built_tree h hne).2.2.2.2.2.2.2
  have hlist : childList v (presentSymbols s).length = childList t (presentSymbols s).length := by
    simp only [childList, h.nnode, h.nodeAt_eq]
  have hperm := h.merging.children
  rw [hq, hlist, ← h.nnode, h.nnode_eq_root hne, List.range_succ] at hperm
  exact (List.perm_append_right_iff _).1 hperm

end

/-- Settles O19: the parts of `Built`, the command's frame around them. -/
theorem tbuildBuildsArena : Obligations.TbuildBuildsArena := by
  intro s hbusy hstage hq
  obtain ⟨t, u, v, f, hexec, hb⟩ := exec_tbuild hbusy hstage hq
  refine ⟨endCommand t, hexec, hb.nnode_eq, hb.root, hb.leaf, hb.internal, hb.unallocated, ?_⟩
  rw [hb.rest]
  rfl

/-- Settles O20: the merge loop pops the two lowest members. -/
theorem tbuildMergesTwoLowestKeys : Obligations.TbuildMergesTwoLowestKeys := by
  intro s t' hbusy hstage hq h
  obtain ⟨t, u, v, f, hexec, hb⟩ := exec_tbuild hbusy hstage hq
  cases h.symm.trans hexec
  exact hb.lowest

/-- Settles O21: the one entry left in the queue holds the whole forest. -/
theorem tbuildYieldsStrictTree : Obligations.TbuildYieldsStrictTree := by
  intro s t' hbusy hstage hq hne h
  obtain ⟨t, u, v, f, hexec, hb⟩ := exec_tbuild hbusy hstage hq
  cases h.symm.trans hexec
  obtain ⟨-, -, htree, hleaves, hsize, hweight, -, -⟩ := built_tree hb hne
  rw [sum_present] at hweight
  exact ⟨⟨f t.root, (holdsTree_endCommand t _ _).trans htree, hleaves, hsize⟩,
    hb.childList_perm hne, hweight⟩

end Sys2Proof.Machine
end

section
/-! SUPPORT. Weights at the leaves of a complete binary tree, seen only through the leaves' depths: which
depths occur is Kraft's equation, and merging the two lowest weights lowers the weighted path length by
at least their sum. This is the exchange step of Huffman's theorem (41_tree_builder R123). -/

namespace Sys2Proof.Machine

/-! ### Kraft's equation -/

/-- Kraft's equation, `Σ 2⁻ᵈ = 1`, over a common denominator: the depths of the leaves of a complete
binary tree satisfy it. -/
def Kraft (ds : Multiset ℕ) : Prop :=
  ∃ N, (∀ d ∈ ds, d ≤ N) ∧ (ds.map fun d => 2 ^ (N - d)).sum = 2 ^ N

theorem sum_two_pow_succ {ds : Multiset ℕ} {N : ℕ} (h : ∀ d ∈ ds, d ≤ N) :
    (ds.map fun d => 2 ^ (N + 1 - d)).sum = 2 * (ds.map fun d => 2 ^ (N - d)).sum := by
  rw [← Multiset.sum_map_mul_left]
  congr 1
  refine Multiset.map_congr rfl fun d hd => ?_
  rw [Nat.succ_sub (h d hd), Nat.pow_succ']

/-- Below the root the greatest depth occurs twice, by parity, and the two leaves can be merged into one
that stands a level higher. -/
theorem Kraft.deepest {ds : Multiset ℕ} (h : Kraft ds) (hcard : 2 ≤ ds.card) :
    ∃ L M, ds = (L + 1) ::ₘ (L + 1) ::ₘ M ∧ (∀ d ∈ M, d ≤ L + 1) ∧ Kraft (L ::ₘ M) := by
  obtain ⟨N, hle, hsum⟩ := h
  induction N with
  | zero =>
    have hone : ds.card = 1 := by simpa using hsum
    omega
  | succ N ih =>
    have below : ∀ {M : Multiset ℕ}, (∀ d ∈ M, d ≤ N + 1) → N + 1 ∉ M → ∀ d ∈ M, d ≤ N :=
      fun hM hN d hd => Nat.le_of_lt_succ ((hM d hd).lt_of_ne fun e => hN (e ▸ hd))
    by_cases h1 : N + 1 ∈ ds
    · obtain ⟨ds', rfl⟩ := Multiset.exists_cons_of_mem h1
      rw [Multiset.forall_mem_cons] at hle
      by_cases h2 : N + 1 ∈ ds'
      · obtain ⟨M, rfl⟩ := Multiset.exists_cons_of_mem h2
        rw [Multiset.forall_mem_cons] at hle
        obtain ⟨-, -, hM⟩ := hle
        refine ⟨N, M, rfl, hM, N + 1, Multiset.forall_mem_cons.2 ⟨Nat.le_succ N, hM⟩, ?_⟩
        simp only [Multiset.map_cons, Multiset.sum_cons, Nat.sub_self, pow_zero] at hsum
        simp only [Multiset.map_cons, Multiset.sum_cons, Nat.add_sub_cancel_left]
        omega
      · rw [Multiset.map_cons, Multiset.sum_cons, sum_two_pow_succ (below hle.2 h2), Nat.sub_self,
          pow_zero, Nat.pow_succ] at hsum
        omega
    · have hN := below hle h1
      rw [sum_two_pow_succ hN, Nat.pow_succ'] at hsum
      exact ih hN (Nat.eq_of_mul_eq_mul_left two_pos hsum)

/-! ### Weights placed at depths -/

/-- The weighted path length of weights paired with depths. -/
def pairCost (D : Multiset (ℕ × ℕ)) : ℕ := (D.map fun c => c.1 * c.2).sum

@[simp] theorem pairCost_cons (c : ℕ × ℕ) (D : Multiset (ℕ × ℕ)) :
    pairCost (c ::ₘ D) = c.1 * c.2 + pairCost D := by
  simp [pairCost]

/-- The weights `W` can stand at depths that meet Kraft's equation with a weighted path length of at
most `c`. -/
def Placeable (W : Multiset ℕ) (c : ℕ) : Prop :=
  ∃ D : Multiset (ℕ × ℕ), D.map Prod.fst = W ∧ Kraft (D.map Prod.snd) ∧ pairCost D ≤ c

/-- The exchange: the lowest weight trades its depth for the greatest one. -/
theorem exists_lowest_deepest {D : Multiset (ℕ × ℕ)} {W ds : Multiset ℕ} {a L : ℕ}
    (hW : D.map Prod.fst = a ::ₘ W) (hmin : ∀ x ∈ W, a ≤ x) (hds : D.map Prod.snd = L ::ₘ ds)
    (hmax : ∀ d ∈ ds, d ≤ L) :
    ∃ E : Multiset (ℕ × ℕ), E.map Prod.fst = W ∧ E.map Prod.snd = ds ∧
      a * L + pairCost E ≤ pairCost D := by
  obtain ⟨⟨a, e⟩, hae, rfl⟩ := Multiset.mem_map.1 (hW ▸ Multiset.mem_cons_self a W)
  obtain ⟨⟨x, L⟩, hxL, rfl⟩ := Multiset.mem_map.1 (hds ▸ Multiset.mem_cons_self L ds)
  obtain ⟨D, rfl⟩ := Multiset.exists_cons_of_mem hae
  simp only [Multiset.map_cons, Multiset.cons_inj_right] at hW hds
  subst hW
  rcases Multiset.mem_cons.1 hxL with heq | hxL
  · cases heq
    exact ⟨D, rfl, (Multiset.cons_inj_right _).1 hds, by simp⟩
  · obtain ⟨M, rfl⟩ := Multiset.exists_cons_of_mem hxL
    rw [Multiset.map_cons, Multiset.cons_swap, Multiset.cons_inj_right] at hds
    subst hds
    have hax : a ≤ x := hmin x (by simp)
    have heL : e ≤ L := hmax e (by simp)
    refine ⟨(x, e) ::ₘ M, by simp, by simp, ?_⟩
    have := mul_add_mul_le_mul_add_mul hax heL
    simp only [pairCost_cons]
    omega

/-- Merging the two lowest weights (41_tree_builder R122, R123). -/
theorem Placeable.merge {a b c : ℕ} {R : Multiset ℕ} (h : Placeable (a ::ₘ b ::ₘ R) c) (hab : a ≤ b)
    (hR : ∀ z ∈ R, b ≤ z) : ∃ c', Placeable ((a + b) ::ₘ R) c' ∧ c' + (a + b) ≤ c := by
  obtain ⟨D, hW, hK, hc⟩ := h
  have hcard : 2 ≤ (D.map Prod.snd).card := by
    rw [Multiset.card_map, ← Multiset.card_map Prod.fst, hW]
    simp
  obtain ⟨L, M, hds, hM, hK'⟩ := hK.deepest hcard
  obtain ⟨E, hE, hE', hcE⟩ := exists_lowest_deepest hW
    (Multiset.forall_mem_cons.2 ⟨hab, fun z hz => hab.trans (hR z hz)⟩) hds
    (Multiset.forall_mem_cons.2 ⟨le_rfl, hM⟩)
  obtain ⟨F, hF, hF', hcF⟩ := exists_lowest_deepest hE hR hE' hM
  refine ⟨pairCost ((a + b, L) ::ₘ F), ⟨_, by simp [hF], by simpa [hF'] using hK', le_rfl⟩, ?_⟩
  rw [pairCost_cons]
  linarith

/-! ### Trees place their leaves -/

/-- Kraft's equation for the codes of a tree. -/
theorem treeCodes_kraft (tr : Tree) : ∀ {path : List Bool} {N : ℕ}, path.length + treeDepth tr ≤ N →
    ((treeCodes path tr).map fun c => 2 ^ (N - c.2.length)).sum = 2 ^ (N - path.length) := by
  induction tr with
  | leaf sym => simp [treeCodes]
  | node l r ihl ihr =>
    intro path N h
    simp only [treeDepth] at h
    have hN : N - path.length = N - (path.length + 1) + 1 := by omega
    rw [treeCodes, List.map_append, List.sum_append, ihl (by simp; omega), ihr (by simp; omega)]
    simp only [List.length_append, List.length_singleton]
    rw [hN, Nat.pow_succ, Nat.mul_two]

/-- Every tree places the weights of its leaves at its weighted path length. -/
theorem placeable_treeLeaves (w : Byte → ℕ) (tr : Tree) :
    Placeable ((treeLeaves tr).map w : List ℕ)
      ((treeCodes [] tr).map fun c => w c.1 * c.2.length).sum := by
  refine ⟨((treeCodes [] tr).map fun c => (w c.1, c.2.length) : List (ℕ × ℕ)), ?_,
    ⟨treeDepth tr, ?_, ?_⟩, ?_⟩
  · rw [← treeCodes_symbols tr []]
    simp [Function.comp_def]
  · intro d hd
    simp only [Multiset.map_coe, List.map_map, Multiset.mem_coe, List.mem_map] at hd
    obtain ⟨c, hc, rfl⟩ := hd
    simpa using treeCodes_length hc
  · simpa [Function.comp_def] using treeCodes_kraft tr (path := []) (N := treeDepth tr) (by simp)
  · simp [pairCost, Function.comp_def]

end Sys2Proof.Machine
end

section
/-! SUPPORT. The tree of TBUILD is optimal (41_tree_builder R123): read off the finished arena, the queue
before each merge still places its weights at a cost that, with the bits already spent below the queue,
stays within that of any other tree. -/

namespace Sys2Proof.Machine

/-! ### The queue before each merge, read off the arena -/

/-- The children of the internal nodes below `k`. -/
def childrenBelow (s : State) (n k : ℕ) : List ℕ := childList { s with nnode := k } n

/-- `Q` are the entries below `k` that are no child of an internal node below `k`: the queue when entry
`k` is about to be made. -/
def QueuedAt (s : State) (n k : ℕ) (Q : Multiset ℕ) : Prop :=
  (childrenBelow s n k : Multiset ℕ) + Q = Multiset.range k

theorem childrenBelow_start (s : State) (n : ℕ) : childrenBelow s n n = [] := by
  simp [childrenBelow, childList, List.drop_of_length_le]

theorem childrenBelow_succ (s : State) {n k : ℕ} (h : n ≤ k) :
    childrenBelow s n (k + 1) = childrenBelow s n k ++ [(nodeAt s k).left, (nodeAt s k).right] := by
  have hdrop : (List.range (k + 1)).drop n = (List.range k).drop n ++ [k] := by
    rw [List.range_succ, List.drop_append_of_le_length (by simpa using h)]
  simp only [childrenBelow, childList, hdrop, List.flatMap_append]
  rfl

theorem mem_childrenBelow {s : State} {n k m : ℕ} (hn : n ≤ m) (hm : m < k) :
    (nodeAt s m).left ∈ childrenBelow s n k ∧ (nodeAt s m).right ∈ childrenBelow s n k := by
  have hmem : m ∈ (List.range k).drop n := by
    refine List.mem_drop_iff_getElem.2 ⟨m - n, by simp; omega, by simp; omega⟩
  exact ⟨List.mem_flatMap.2 ⟨m, hmem, .head _⟩, List.mem_flatMap.2 ⟨m, hmem, .tail _ (.head _)⟩⟩

theorem QueuedAt.disjoint {s : State} {n k : ℕ} {Q : Multiset ℕ} (h : QueuedAt s n k Q) :
    Q.Nodup ∧ Disjoint (childrenBelow s n k : Multiset ℕ) Q := by
  have hnd := Multiset.nodup_range k
  rw [← h, Multiset.nodup_add] at hnd
  exact hnd.2

theorem QueuedAt.mem_iff {s : State} {n k j : ℕ} {Q : Multiset ℕ} (h : QueuedAt s n k Q) :
    j ∈ Q ↔ j < k ∧ j ∉ childrenBelow s n k := by
  have hall : (j ∈ childrenBelow s n k ∨ j ∈ Q) ↔ j < k := by
    rw [← Multiset.mem_range, ← h, Multiset.mem_add, Multiset.mem_coe]
  have hnot : j ∈ Q → j ∉ childrenBelow s n k := fun hj hc =>
    Multiset.disjoint_left.1 h.disjoint.2 hc hj
  tauto

section
variable {s0 s : State} {n : ℕ} {P : List Byte} {w : Byte → ℕ} {f : ℕ → Tree}

theorem Merging.childrenBelow_nodup (h : Merging s0 s n P w f) {k : ℕ} (hk : k ≤ s.nnode) :
    (childrenBelow s n k).Nodup := by
  have hall : (childList s n).Nodup :=
    (List.nodup_append.1 (h.children.nodup_iff.2 List.nodup_range)).1
  exact hall.sublist (((List.range_sublist.2 hk).drop n).flatMap _)

/-- What is queued and is not taken by merge `k` has a higher key than both its children
(41_tree_builder R126). -/
theorem Merging.keyLess_of_queued (h : Merging s0 s n P w f) {k j : ℕ} (hn : n ≤ k)
    (hk : k < s.nnode) {Q : Multiset ℕ} (hQ : QueuedAt s n k Q) (hj : j ∈ Q)
    (hl : j ≠ (nodeAt s k).left) (hr : j ≠ (nodeAt s k).right) :
    keyLess s (nodeAt s k).right j := by
  obtain ⟨hjk, hfree⟩ := hQ.mem_iff.1 hj
  have hlow := h.lowest k hn hk j hjk fun m hm hmk =>
    ⟨fun e => hfree (e ▸ (mem_childrenBelow hm hmk).1),
      fun e => hfree (e ▸ (mem_childrenBelow hm hmk).2)⟩
  exact (hlow.resolve_left hl).resolve_left hr

/-- Merge `k` takes its two children from the queue, the lowest members of it, and queues itself
(41_tree_builder R122, R126). -/
theorem Merging.queuedAt_succ (h : Merging s0 s n P w f) {k : ℕ} (hn : n ≤ k) (hk : k < s.nnode)
    {Q : Multiset ℕ} (hQ : QueuedAt s n k Q) :
    ∃ R, Q = (nodeAt s k).left ::ₘ (nodeAt s k).right ::ₘ R ∧ QueuedAt s n (k + 1) (k ::ₘ R) ∧
      ∀ j ∈ R, keyLess s (nodeAt s k).right j := by
  obtain ⟨hl, hr, -, -⟩ := h.records k hn hk
  have hnd := h.childrenBelow_nodup hk
  rw [childrenBelow_succ s hn, List.nodup_append] at hnd
  obtain ⟨-, hlr, hnew⟩ := hnd
  have hlr : (nodeAt s k).left ≠ (nodeAt s k).right := by simpa using hlr
  obtain ⟨Q, rfl⟩ := Multiset.exists_cons_of_mem
    (hQ.mem_iff.2 ⟨hl, fun hc => hnew _ hc _ (.head _) rfl⟩)
  have hrQ := hQ.mem_iff.2 ⟨hr, fun hc => hnew _ hc _ (.tail _ (.head _)) rfl⟩
  obtain ⟨R, rfl⟩ := Multiset.exists_cons_of_mem ((Multiset.mem_cons.1 hrQ).resolve_left hlr.symm)
  refine ⟨R, rfl, ?_, fun j hj => ?_⟩
  · rw [QueuedAt, childrenBelow_succ s hn, Multiset.range_succ, ← hQ, ← Multiset.coe_add,
      ← Multiset.cons_coe, ← Multiset.cons_coe, Multiset.coe_nil]
    simp only [Multiset.add_cons, Multiset.cons_add, Multiset.add_zero]
  · have hndQ := hQ.disjoint.1
    simp only [Multiset.nodup_cons, Multiset.mem_cons, not_or] at hndQ
    obtain ⟨⟨-, hlR⟩, hrR, -⟩ := hndQ
    exact h.keyLess_of_queued hn hk hQ (by simp [hj]) (fun e => hlR (e ▸ hj)) fun e => hrR (e ▸ hj)

/-! ### The bits spent below the queue -/

theorem Merging.tree_leaf (h : Merging s0 s n P w f) {k : ℕ} (hk : k < n) : treeCost w (f k) = 0 := by
  have ht := (h.trees k (hk.trans_le h.ge)).1
  cases hf : f k with
  | leaf sym => rfl
  | node l r =>
    rw [hf, holdsTree_node, h.leafKind k hk] at ht
    cases ht.2.1

theorem Merging.tree_internal (h : Merging s0 s n P w f) {k : ℕ} (hn : n ≤ k) (hk : k < s.nnode) :
    f k = .node (f (nodeAt s k).left) (f (nodeAt s k).right) := by
  obtain ⟨hl, hr, -, hrec⟩ := h.records k hn hk
  have ht := (h.trees k hk).1
  refine holdsTree_unique ht (holdsTree_node.2 ⟨holdsTree_lt ht, by rw [hrec]; rfl, ?_, ?_⟩)
  · exact (h.trees _ (hl.trans hk)).1
  · exact (h.trees _ (hr.trans hk)).1

/-- Each merge spends the two lowest weights, and lowers what the queue can be placed at by as much. -/
theorem Merging.placeable (h : Merging s0 s n P w f) {c : ℕ}
    (hP : Placeable ((Multiset.range n).map fun j => (nodeAt s j).weight) c) {k : ℕ} (hn : n ≤ k) :
    k ≤ s.nnode → ∃ Q c', QueuedAt s n k Q ∧ Placeable (Q.map fun j => (nodeAt s j).weight) c' ∧
      c' + (Q.map fun j => treeCost w (f j)).sum ≤ c := by
  induction k, hn using Nat.le_induction with
  | base =>
    intro _
    refine ⟨Multiset.range n, c, ?_, hP, ?_⟩
    · simp [QueuedAt, childrenBelow_start]
    · rw [Multiset.sum_eq_zero (by simpa using fun j hj => h.tree_leaf hj)]
      rfl
  | succ k hn ih =>
    intro hk
    obtain ⟨Q, c', hQ, hplace, hc⟩ := ih (Nat.le_of_lt hk)
    obtain ⟨hl, hr, hkey, hrec⟩ := h.records k hn hk
    obtain ⟨R, rfl, hR, hlow⟩ := h.queuedAt_succ hn hk hQ
    simp only [Multiset.map_cons, Multiset.sum_cons] at hplace hc
    obtain ⟨c'', hplace', hc'⟩ := hplace.merge (keyLess_weight hkey)
      (by simpa using fun j hj => keyLess_weight (hlow j hj))
    have hweight : (nodeAt s k).weight = _ := congrArg Node.weight hrec
    refine ⟨k ::ₘ R, c'', hR, by simpa [hweight, internalRecord] using hplace', ?_⟩
    simp only [Multiset.map_cons, Multiset.sum_cons, h.tree_internal hn hk, treeCost,
      ← (h.trees _ (hl.trans hk)).2, ← (h.trees _ (hr.trans hk)).2]
    omega

end

/-! ### The finished tree -/

section
variable {s t u v : State} {f : ℕ → Tree}

theorem Built.leafWeights (h : Built s t u v f) :
    (List.range (presentSymbols s).length).map (fun j => (nodeAt v j).weight) =
      (presentSymbols s).map (readFT s) := by
  refine List.ext_getElem (by simp) fun k hk _ => ?_
  simp only [List.length_map, List.length_range] at hk
  simp [← h.nodeAt_eq, h.leaf k hk, leafRecord]

theorem Built.childrenBelow_perm (h : Built s t u v f) (hne : presentSymbols s ≠ []) :
    (childrenBelow v (presentSymbols s).length t.nnode).Perm (List.range t.root) := by
  have hlist : childrenBelow v (presentSymbols s).length t.nnode =
      childList t (presentSymbols s).length := by
    simp only [childrenBelow, childList, h.nodeAt_eq]
    rfl
  exact hlist ▸ h.childList_perm hne

/-- No placement of the counts costs less than the tree at the root. -/
theorem Built.treeCost_le (h : Built s t u v f) (hne : presentSymbols s ≠ []) {c : ℕ}
    (hc : Placeable ((presentSymbols s).map (readFT s) : List ℕ) c) :
    treeCost (readFT s) (f t.root) ≤ c := by
  rw [← h.leafWeights] at hc
  obtain ⟨Q, c', hQ, -, hle⟩ := h.merging.placeable hc h.merging.ge le_rfl
  have hroot : Q = {t.root} := by
    have hchildren : (childrenBelow v (presentSymbols s).length v.nnode : Multiset ℕ) =
        Multiset.range t.root := by
      rw [← h.nnode]
      exact Multiset.coe_eq_coe.2 (h.childrenBelow_perm hne)
    rw [QueuedAt, hchildren, ← h.nnode, h.nnode_eq_root hne, Multiset.range_succ,
      ← Multiset.singleton_add, add_comm] at hQ
    exact add_right_cancel hQ
  rw [hroot, Multiset.map_singleton, Multiset.sum_singleton] at hle
  exact (Nat.le_add_left _ _).trans hle

end

/-- Settles O22: Huffman's exchange argument along the merges, against the depths of the other tree. -/
theorem tbuildTreeIsOptimal : Obligations.TbuildTreeIsOptimal := by
  intro s t' tr tr' hbusy hstage hq h hroot hleaves
  obtain ⟨t, u, v, f, hexec, hb⟩ := exec_tbuild hbusy hstage hq
  cases h.symm.trans hexec
  have hne : presentSymbols s ≠ [] := fun he => treeLeaves_ne_nil tr' (by simpa [he] using hleaves)
  have htr : tr = f t.root := by
    simp only [holdsRoot, holdsTree_endCommand, Bool.and_eq_true] at hroot
    exact holdsTree_unique hroot.2 (built_tree hb hne).2.2.1
  have hplace := placeable_treeLeaves (readFT s) tr'
  rw [Multiset.coe_eq_coe.2 (hleaves.map _)] at hplace
  calc ((treeCodes [] tr).map fun c => readFT s c.1 * c.2.length).sum
      = treeCost (readFT s) tr := by simpa using treeCost_codes (readFT s) tr []
    _ ≤ _ := htr ▸ hb.treeCost_le hne hplace

end Sys2Proof.Machine
end

section
/-! SUPPORT. The code table CGEN leaves (42_code_table R136 to R140): the codes of the tree at ROOT, a lone
leaf's included, written into CT. -/

namespace Sys2Proof.Machine

/-! ### The codes of a walk -/

/-- What stands in CT after a list of codes depends on CT alone. -/
theorem writeCodes_ct_congr (x : List (Byte × List Bool)) {s t : State} (h : s.ct = t.ct) :
    (writeCodes s x).ct = (writeCodes t x).ct := by
  induction x generalizing s t with
  | nil => exact h
  | cons c x ih =>
    obtain ⟨sym, path⟩ := c
    exact ih (by rw [writeCT_ct, writeCT_ct, h])

/-- Settles O25: a path of `k` bits leaves the walk a stack of `256 - k` calls, more than the tree is deep. -/
theorem codeWalkRecordsPaths : Obligations.CodeWalkRecordsPaths := by
  intro s i path tr htree hlen
  have hfuel : treeDepth tr < stackDepth - path.length := by
    simp only [stackDepth]
    omega
  show settle s (codeWalk (stackDepth - path.length) i path s) = _
  rw [codeWalk_eq tr hfuel htree, ← writeCodes_rest]
  rfl

/-! ### The codes of a whole tree -/

/-- The codes CGEN gives the leaves of the tree at ROOT: the root-to-leaf paths (42_code_table R136), except
that a lone leaf, whose path is empty, gets the code `0` (R138). -/
def rootCodes : Tree → List (Byte × List Bool)
  | .leaf sym => [(sym, [false])]
  | .node l r => treeCodes [] (.node l r)

theorem rootCodes_symbols (tr : Tree) : (rootCodes tr).map Prod.fst = treeLeaves tr := by
  cases tr with
  | leaf sym => rfl
  | node l r => exact treeCodes_symbols _ []

/-- No leaf gets the empty code, which stands for "no code" in CT (10_state R23). -/
theorem rootCodes_ne_nil {tr : Tree} {c : Byte × List Bool} (hc : c ∈ rootCodes tr) : c.2 ≠ [] := by
  have hbelow : ∀ {b : Bool} {sub : Tree}, c ∈ treeCodes [b] sub → c.2 ≠ [] := fun h hnil =>
    absurd (treeCodes_prefix h) (by simp [hnil])
  cases tr with
  | leaf sym => simp [List.mem_singleton.1 hc]
  | node l r => exact (List.mem_append.1 hc).elim hbelow hbelow

theorem rootCodes_prefixFree {tr : Tree} (hn : (treeLeaves tr).Nodup) {c d : Byte × List Bool}
    (hc : c ∈ rootCodes tr) (hd : d ∈ rootCodes tr) (hne : c.1 ≠ d.1) : ¬ c.2 <+: d.2 := by
  cases tr with
  | leaf sym =>
    rw [List.mem_singleton.1 hc, List.mem_singleton.1 hd] at hne
    exact absurd rfl hne
  | node l r => exact treeCodes_prefixFree hn hc hd hne

theorem exists_code_of_mem_treeLeaves {tr : Tree} {sym : Byte} (h : sym ∈ treeLeaves tr) :
    ∃ c ∈ rootCodes tr, c.1 = sym := by
  rwa [← rootCodes_symbols, List.mem_map] at h

/-! ### CGEN -/

theorem codeTree_none {s : State} (h : s.nnode = 0) : codeTree s = .ok s := by
  rw [codeTree, if_pos h]

/-- With a tree at ROOT whose paths fit a code, CGEN writes the tree's codes (42_code_table R137). -/
theorem codeTree_some {s : State} {tr : Tree} (h : holdsRoot s (some tr) = true)
    (hd : treeDepth tr ≤ 255) : codeTree s = .ok (writeCodes s (rootCodes tr)) := by
  simp only [holdsRoot, Bool.and_eq_true, decide_eq_true_eq] at h
  obtain ⟨hnnode, htree⟩ := h
  rw [codeTree, if_neg hnnode, readNode_eq (holdsTree_lt htree), ok_bind]
  cases tr with
  | leaf sym =>
    obtain ⟨-, hkind, hsym⟩ := holdsTree_leaf.1 htree
    simp only [hkind, hsym]
    rfl
  | node l r =>
    obtain ⟨-, hkind, -, -⟩ := holdsTree_node.1 htree
    simp only [hkind]
    exact codeWalk_eq _ (Nat.lt_succ_of_le hd) htree

@[simp] theorem holdsRoot_startCommand (s : State) (tr : Option Tree) :
    holdsRoot (startCommand s) tr = holdsRoot s tr :=
  holdsRoot_congr (s := s) (t := startCommand s) rfl rfl rfl tr

/-- CGEN in its stage ends with the table its case split leaves (42_code_table R137). -/
theorem exec_cgen {s u : State} (hbusy : s.busy = false) (hstage : s.stage = .tree)
    (h : codeTree (startCommand s) = .ok u) :
    exec .cgen s = .next (endCommand { u with stage := .code }) :=
  unitCommand_of_body hbusy (fun hio => by cases hio) hstage (by rw [cgenBody, h, ok_bind])

theorem exec_cgen_none {s : State} (hbusy : s.busy = false) (hstage : s.stage = .tree)
    (h : s.nnode = 0) : exec .cgen s = .next { completed s with stage := .code } :=
  exec_cgen hbusy hstage (codeTree_none h)

theorem exec_cgen_some {s : State} {tr : Tree} (hbusy : s.busy = false) (hstage : s.stage = .tree)
    (h : holdsRoot s (some tr) = true) (hd : treeDepth tr ≤ 255) :
    exec .cgen s = .next { completed s with ct := (writeCodes s (rootCodes tr)).ct, stage := .code } := by
  rw [← holdsRoot_startCommand] at h
  rw [exec_cgen hbusy hstage (codeTree_some h hd), writeCodes_rest,
    writeCodes_ct_congr (rootCodes tr) (startCommand_ct (s := s))]
  rfl

/-- Settles O26: the two cases with a tree are `rootCodes` of a leaf and of an internal node. -/
theorem cgenBuildsCodeTable : Obligations.CgenBuildsCodeTable := fun _ hbusy hstage =>
  ⟨exec_cgen_none hbusy hstage,
    fun _ h => exec_cgen_some hbusy hstage h (Nat.zero_le _),
    fun _ _ => exec_cgen_some hbusy hstage⟩

/-- Settles O27: CT reads the tree's codes, which are prefix-free and never empty, and is empty elsewhere. -/
theorem codesArePrefixFree : Obligations.CodesArePrefixFree := by
  intro s t tr hbusy hstage hempty hroot hnodup hdepth h
  cases h.symm.trans (exec_cgen_some hbusy hstage hroot hdepth)
  obtain ⟨hcode, hrest⟩ := readCT_writeCodes ((rootCodes_symbols tr).symm ▸ hnodup) s
  rw [rootCodes_symbols] at hrest
  refine ⟨fun sym => ⟨fun hread => ?_, fun hmem => ?_⟩, fun a b ha hb hne => ?_⟩
  · by_contra hmem
    exact hread ((hrest sym hmem).trans (hempty sym))
  · obtain ⟨c, hc, rfl⟩ := exists_code_of_mem_treeLeaves hmem
    exact fun hnil => rootCodes_ne_nil hc ((hcode c hc).symm.trans hnil)
  · obtain ⟨c, hc, rfl⟩ := exists_code_of_mem_treeLeaves ha
    obtain ⟨d, hd, rfl⟩ := exists_code_of_mem_treeLeaves hb
    have hfree := rootCodes_prefixFree hnodup hc hd hne
    rwa [← hcode c hc, ← hcode d hd] at hfree

end Sys2Proof.Machine
end

section
/-! SUPPORT. The bit writer's micro-operations BW.INIT, BW.PUT and BW.FLUSH (43_bit_writer R146 to R149):
a byte sent to a sink that has room, a sink that is full, and the invariant of 10_state R25. -/

namespace Sys2Proof.Machine

/-! ### The sink -/

theorem buffer_withWriter (s : State) (w : BitWriter) (n : BufName) :
    buffer { s with bw := w } n = buffer s n := by
  cases n <;> rfl

/-- A sink is PB or TD, so replacing it leaves the rest of the state. -/
theorem setBuffer_sink (s : State) (k : Sink) (m : Buf) :
    setBuffer s (sinkBuffer k) m =
      { s with pb := (setBuffer s (sinkBuffer k) m).pb, td := (setBuffer s (sinkBuffer k) m).td } := by
  cases k <;> rfl

/-- Sending ACC where the sink has a byte at WP (43_bit_writer R147, R148). -/
theorem writerSend_room {s : State} (h : s.bw.wp < capacity s.cfg (sinkBuffer s.bw.sink)) :
    ∃ t, writerSend s = .ok t ∧
      bufRead (buffer t (sinkBuffer s.bw.sink)) s.bw.wp = some s.bw.acc ∧
      (∀ n a, ¬(n = sinkBuffer s.bw.sink ∧ a = s.bw.wp) →
        bufRead (buffer t n) a = bufRead (buffer s n) a) ∧
      t = { s with pb := t.pb, td := t.td, bw := { s.bw with acc := 0#8, nb := 0, wp := s.bw.wp + 1 } } := by
  refine ⟨_, (writerSend_eq s).trans (if_pos h), ?_, fun n a hna => ?_, ?_⟩
  · rw [buffer_withWriter, buffer_setBuffer_same, bufRead_bufWrite_same]
  · rw [buffer_withWriter, buffer_setBuffer]
    split
    next hn => rw [bufRead_bufWrite_ne _ _ fun ha => hna ⟨hn, ha⟩, hn]
    next => rfl
  · rw [setBuffer_sink]

/-- Sending ACC to a sink that is full (60_exceptions R232). -/
theorem writerSend_full {s : State} (h : capacity s.cfg (sinkBuffer s.bw.sink) ≤ s.bw.wp) :
    writerSend s = .error (.raise .cap 0) :=
  (writerSend_eq s).trans (if_neg (Nat.not_lt.2 h))

/-! ### BW.INIT -/

/-- Settles O28: BW.INIT writes the five registers, and an empty bit string meets the invariant. -/
theorem writerInitStartsEmpty : Obligations.WriterInitStartsEmpty := fun _ _ =>
  ⟨rfl, Nat.zero_lt_succ 7, rfl, fun _ _ => BitVec.getLsbD_zero⟩

/-! ### BW.PUT -/

theorem bwPut_eq (s : State) (b : Bool) : exec (.bwPut b) s = settle s (writerPut b s) := rfl

/-- The BitWriter with a bit in ACC and counted, before a full byte is sent (43_bit_writer R147). -/
def countBit (b : Bool) (w : BitWriter) : BitWriter :=
  { w with acc := placeBit w.acc w.nb b, nb := w.nb + 1, total := w.total + 1 }

theorem writerPut_within {s : State} {b : Bool} (h : s.bw.nb ≠ 7) :
    writerPut b s = .ok { s with bw := countBit b s.bw } :=
  if_neg fun h8 => h (Nat.succ.inj h8)

theorem writerPut_eighth {s : State} {b : Bool} (h : s.bw.nb = 7) :
    writerPut b s = writerSend { s with bw := countBit b s.bw } :=
  if_pos (congrArg Nat.succ h)

theorem writerPut_full {s : State} {b : Bool} (h7 : s.bw.nb = 7)
    (hfull : capacity s.cfg (sinkBuffer s.bw.sink) ≤ s.bw.wp) :
    writerPut b s = .error (.raise .cap 0) :=
  (writerPut_eighth h7).trans (writerSend_full hfull)

/-- The eighth bit goes to the lowest position. -/
theorem placeBit_eighth (acc : Byte) (b : Bool) :
    placeBit acc 7 b = acc ||| (BitVec.ofBool b).setWidth 8 := by
  rw [placeBit, Nat.sub_self, BitVec.shiftLeft_zero]

/-- A bit put at position `7 - NB` leaves the positions below it. -/
theorem placeBit_getLsbD_below {acc : Byte} {nb j : Nat} {b : Bool} (h : j < 7 - nb) :
    (placeBit acc nb b).getLsbD j = acc.getLsbD j := by
  simp [placeBit, BitVec.getLsbD_or, BitVec.getLsbD_shiftLeft, h]

theorem countBit_regular {w : BitWriter} {b : Bool} (h : w.regular) (h7 : w.nb ≠ 7) :
    (countBit b w).regular := by
  obtain ⟨hnb, htotal, hacc⟩ := h
  refine ⟨show w.nb + 1 < 8 by omega, show w.total + 1 = 8 * w.wp + (w.nb + 1) by omega, fun j hj => ?_⟩
  have hj : j < 8 - (w.nb + 1) := hj
  exact (placeBit_getLsbD_below (by omega)).trans (hacc j (by omega))

theorem zero_regular : BitWriter.zero.regular := by decide

/-- BW.PUT keeps the invariant of the BitWriter (10_state R25). -/
theorem writerPut_regular {s t : State} {b : Bool} (h : writerPut b s = .ok t) (hreg : s.bw.regular) :
    t.bw.regular := by
  by_cases h7 : s.bw.nb = 7
  · by_cases hroom : s.bw.wp < capacity s.cfg (sinkBuffer s.bw.sink)
    · obtain ⟨u, hu, -, -, hrest⟩ := writerSend_room (s := { s with bw := countBit b s.bw }) hroom
      cases h.symm.trans ((writerPut_eighth h7).trans hu)
      obtain ⟨-, htotal, -⟩ := hreg
      rw [hrest]
      refine ⟨Nat.zero_lt_succ 7, ?_, fun _ _ => BitVec.getLsbD_zero⟩
      show s.bw.total + 1 = 8 * (s.bw.wp + 1) + 0
      omega
    · cases h.symm.trans (writerPut_full h7 (Nat.not_lt.1 hroom))
  · cases h.symm.trans (writerPut_within h7)
    exact countBit_regular hreg h7

/-- Settles O29: the bit is counted in ACC, and the eighth sends ACC. -/
theorem writerPutPlacesBit : Obligations.WriterPutPlacesBit := by
  intro s b
  rw [bwPut_eq]
  refine ⟨fun h => ?_, fun h7 hroom => ?_, fun h7 hfull => ?_, fun hreg t ht => ?_⟩
  · rw [writerPut_within h.ne]
    rfl
  · obtain ⟨t, ht, hsent, hkept, hrest⟩ := writerSend_room (s := { s with bw := countBit b s.bw }) hroom
    refine ⟨t, ?_, ?_, fun n a hna => ?_, hrest⟩
    · rw [writerPut_eighth h7, ht]
      rfl
    · rw [← placeBit_eighth, ← h7]
      exact hsent
    · rw [hkept n a hna, buffer_withWriter]
  · rw [writerPut_full h7 hfull]
    rfl
  · rcases settle_next ht with hok | ⟨c, pos, -, rfl⟩
    · exact writerPut_regular hok hreg
    · exact zero_regular

/-! ### BW.FLUSH -/

theorem bwFlush_eq (s : State) : exec .bwFlush s = settle s (writerFlush s) := rfl

theorem writerFlush_boundary {s : State} (h : s.bw.nb = 0) : writerFlush s = .ok s :=
  if_neg h.not_gt

theorem writerFlush_partial {s : State} (h : 0 < s.bw.nb) : writerFlush s = writerSend s := if_pos h

/-- The unwritten positions of ACC are the padding (10_state R25). -/
theorem regular_padding {w : BitWriter} (h : w.regular) (j : Nat) :
    w.acc.getLsbD j = (decide (8 - w.nb ≤ j) && w.acc.getLsbD j) := by
  obtain ⟨-, -, hacc⟩ := h
  by_cases hj : 8 - w.nb ≤ j
  · simp [hj]
  · simp [hacc j (Nat.not_le.1 hj)]

/-- Settles O30: nothing to send on a byte boundary, and ACC otherwise. -/
theorem writerFlushSendsPartialByte : Obligations.WriterFlushSendsPartialByte := by
  intro s
  rw [bwFlush_eq]
  refine ⟨fun h0 => ?_, fun hpos hroom => ?_, fun hpos hfull => ?_⟩
  · rw [writerFlush_boundary h0]
    rfl
  · obtain ⟨t, ht, hsent, hkept, hrest⟩ := writerSend_room hroom
    refine ⟨t, s.bw.acc, ?_, hsent, rfl, fun hreg j _ => regular_padding hreg j, hkept, hrest⟩
    rw [writerFlush_partial hpos, ht]
    rfl
  · rw [writerFlush_partial hpos, writerSend_full hfull]
    rfl

/-! ### A whole bit string -/

/-- A BW.PUT for each bit, one after the other, is `putBits`. -/
theorem runInstrs_puts {bits : List Bool} {s t : State} (rest : List Instr) (h : putBits bits s = .ok t) :
    runInstrs (bits.map .bwPut ++ rest) s = runInstrs rest t := by
  induction bits generalizing s with
  | nil =>
    cases h
    rfl
  | cons b bits ih =>
    obtain ⟨u, hput, h⟩ := bind_eq_ok.1 h
    rw [List.map_cons, List.cons_append, runInstrs, bwPut_eq, hput]
    exact ih h

/-- Settles O31: the sequence is BW.INIT, `putBits` and BW.FLUSH, which pack the string. -/
theorem writerPacksBitString : Obligations.WriterPacksBitString := by
  intro s k bits hcap
  obtain ⟨v, t, hputs, hflush, hbw, hholds, hkept, -, hrest⟩ := (pack_eq s k bits).1 hcap
  refine ⟨t, ?_, hholds, hkept, hbw ▸ hrest⟩
  show runInstrs (bits.map .bwPut ++ [.bwFlush]) (writerInit k s) = .next t
  rw [runInstrs_puts _ hputs, runInstrs, bwFlush_eq, hflush]
  rfl

end Sys2Proof.Machine
end

section
/-! SUPPORT. What the command PACK leaves (43_bit_writer R150, R151): the codes of the input as one packed
bit string in PB, or CapacityError. -/

namespace Sys2Proof.Machine

/-- What the input's codes come to, one after the other (43_bit_writer R150). -/
def payloadBits (s : State) (bs : List Byte) : List Bool := bs.flatMap (readCT s)

theorem payloadBits_length (s : State) (bs : List Byte) :
    (payloadBits s bs).length = (bs.map (fun b => (readCT s b).length)).sum :=
  List.length_flatMap

theorem hasInput_holds {s : State} {bs : List Byte} (h : s.hasInput bs = true) :
    bufHolds s.ib 0 bs = true := by
  simp only [State.hasInput, Bool.and_eq_true, decide_eq_true_eq] at h
  exact h.2

/-- PACK's loop on a written input puts the payload. -/
theorem packLoop_payload {s : State} {bs : List Byte} (h : s.hasInput bs = true) :
    packLoop s.inLen 0 (writerInit .pb s) = putBits (payloadBits s bs) (writerInit .pb s) := by
  rw [hasInput_inLen h]
  exact packLoop_eq bs rfl rfl (hasInput_holds h)

/-- A payload that PB holds has a length of 32 bits (00_scope R4). -/
theorem length_le_of_ceil8_le {c : Config} {n : Nat} (h : ceil8 n ≤ c.pbCap) : n ≤ 2 ^ 32 - 1 := by
  have := c.ibCap.isLt
  simp only [ceil8, Config.pbCap] at h
  omega

/-- The body of PACK where PB holds the payload. -/
theorem packBody_fits {s : State} {bs : List Byte} (hin : s.hasInput bs = true)
    (hcap : ceil8 (payloadBits s bs).length ≤ s.cfg.pbCap) :
    ∃ u, packBody s = .ok u ∧
      u.vbits = (payloadBits s bs).length ∧ u.payLen = ceil8 (payloadBits s bs).length ∧
      bufHolds u.pb 0 (packBits (payloadBits s bs)) = true ∧
      (∀ a, u.payLen ≤ a → bufRead u.pb a = bufRead s.pb a) ∧
      u = { s with
        pb := u.pb, vbits := u.vbits, payLen := u.payLen, stage := .packed
        bw := { sink := .pb, acc := 0#8, nb := 0, wp := u.payLen, total := u.vbits } } := by
  obtain ⟨v, t, hputs, hflush, hbw, hholds, hkept, hother, hrest⟩ := (pack_eq s .pb _).1 hcap
  have htd : t.td = s.td := hother .td (by decide)
  have htotal : t.bw.total = (payloadBits s bs).length := by rw [hbw]
  have hwp : t.bw.wp = ceil8 (payloadBits s bs).length := by rw [hbw]
  refine ⟨{ t with vbits := t.bw.total, payLen := t.bw.wp, stage := .packed }, ?_, htotal, hwp, hholds,
    fun a ha => hkept .pb a fun hlt => ?_, ?_⟩
  · simp only [packBody, packLoop_payload hin, hputs, ok_bind, hflush]
    exact if_neg (htotal ▸ Nat.not_lt.2 (length_le_of_ceil8_le hcap))
  · exact Nat.not_lt.2 (hwp ▸ ha) hlt.2
  · rw [htotal, hwp, ← hbw, hrest, htd]

/-- The body of PACK where the payload exceeds PB (60_exceptions R232). -/
theorem packBody_exceeds {s : State} {bs : List Byte} (hin : s.hasInput bs = true)
    (hcap : s.cfg.pbCap < ceil8 (payloadBits s bs).length) : packBody s = .error (.raise .cap 0) := by
  rw [packBody, packLoop_payload hin, ← bind_assoc, (pack_eq s .pb _).2 hcap]
  rfl

/-- Settles O32: the command's frame around its body. -/
theorem packWritesPayload : Obligations.PackWritesPayload := by
  intro s bs hbusy hstage hin hlen
  have hlen : s.inLen ≤ s.cfg.ibCap.val := hasInput_inLen hin ▸ hlen
  refine ⟨fun hcap => ?_, fun hcap => ?_⟩
  · obtain ⟨u, hbody, hvbits, hpay, hholds, hkept, hrest⟩ := packBody_fits (s := startCommand s) hin hcap
    refine ⟨endCommand u, unitCommand_of_body hbusy (fun _ => hlen) hstage hbody,
      hvbits.trans (payloadBits_length _ bs), hpay.trans (congrArg ceil8 hvbits.symm), hholds, hkept, ?_⟩
    rw [hrest]
    rfl
  · show execPack s = _
    rw [execPack, unitCommand_eq hbusy (fun _ => hlen) hstage,
      packBody_exceeds (s := startCommand s) hin hcap]
    rfl

end Sys2Proof.Machine
end

section
/-! SUPPORT. The bit reader's micro-operations BR.INIT, BR.REM and BR.GET (44_bit_reader R161, R162) and
the command UNPACK (R163 to R167). -/

namespace Sys2Proof.Machine

/-! ### BR.INIT, BR.REM and BR.GET -/

theorem brGet_eq (s : State) :
    exec .brGet s = settleRet s (readerGet s >>= fun x => .ok (x.1.toNat, x.2)) := rfl

/-- The bit at POS where the byte at `BASE + POS div 8` holds a value (20_memory R62). -/
theorem readerHolds_bit {s : State} {y : Byte}
    (hread : bufRead s.ib (s.br.base + s.br.pos / 8) = some y) :
    readerHolds s s.br.pos [bitOfByte y (s.br.pos % 8)] = true := by
  simp [readerHolds, hread]

/-- Settles O33: BR.GET answers the bit the reader holds at POS and skips it. -/
theorem readerYieldsBits : Obligations.ReaderYieldsBits := by
  intro s
  refine ⟨fun _ _ => rfl, rfl, fun y hlt hread => ?_⟩
  rw [brGet_eq, readerGet_holds (readerHolds_bit hread) hlt]
  rfl

/-! ### UNPACK -/

theorem execUnpack_eq {s : State} (hbusy : s.busy = false) (hstage : s.stage = .parsed)
    (hlen : s.inLen ≤ s.cfg.ibCap.val) :
    exec .unpack s = settleCommand (startCommand s) (unpackBody (startCommand s)) :=
  unitCommand_eq hbusy (fun _ => hlen) hstage

/-- The start of a command leaves the bits of the payload where they are. -/
theorem readerHolds_startCommand (base limit k : Nat) (s : State) (bits : List Bool) :
    readerHolds (readerInit base limit (startCommand s)) k bits =
      readerHolds (readerInit base limit s) k bits :=
  readerHolds_congr (s := readerInit base limit s) (t := readerInit base limit (startCommand s))
    rfl rfl k bits

/-- Settles O45: the command's frame around its body, which decodes the payload into OB from address 0. -/
theorem unpackDecodesPayload : Obligations.UnpackDecodesPayload := by
  refine ⟨rfl, fun s tr bits hbusy hstage hlen hroot hcap hbits => ?_⟩
  rw [← holdsRoot_startCommand] at hroot
  obtain ⟨hdecodes, hmidcode⟩ := unpackBody_eq (s := startCommand s) hroot hcap fun hwalk =>
    ⟨(hbits hwalk).1, (readerHolds_startCommand ..).trans (hbits hwalk).2⟩
  rw [execUnpack_eq hbusy hstage hlen]
  refine ⟨fun out hout => ?_, fun hnone => ?_⟩
  · obtain ⟨u, hbody, houtLen, hob, hrest⟩ := hdecodes out hout
    refine ⟨endCommand u, by rw [hbody]; rfl, houtLen, ?_, fun a ha => ?_, ?_⟩
    · rw [endCommand_ob, hob]
      exact bufHolds_bufWriteList out s.ob 0
    · rw [endCommand_outLen, houtLen] at ha
      rw [endCommand_ob, hob]
      exact bufRead_bufWriteList_outside out s.ob 0 a (.inr (by omega))
    · rw [hrest]
      rfl
  · rw [hmidcode hnone]
    rfl

end Sys2Proof.Machine
end

section
/-! SUPPORT. The fields and the node codes of a container as instructions (30_encoding R87, R88, R90): the
extents HDR.T checks, the payload checks of META.V, and DES.NODE as the node code its bits start with
(45_container R182 to R185). -/

namespace Sys2Proof.Machine

/-! ### HDR.T -/

section
variable {s : State} {w : Word}

theorem headerField_noHeader (h : s.inLen < 4) : headerField w s = .error (.raise .eob 0) := if_pos h

theorem headerField_noBlock (h4 : 4 ≤ s.inLen) (h : s.inLen < 4 + w.toNat) :
    headerField w s = .error (.raise .eob 4) :=
  (if_neg h4.not_gt).trans (if_pos h)

theorem headerField_noCount (hT : 4 + w.toNat ≤ s.inLen) (h : s.inLen < 8 + w.toNat) :
    headerField w s = .error (.raise .eob (4 + w.toNat)) :=
  (if_neg (by omega)).trans <| (if_neg hT.not_gt).trans (if_pos h)

theorem headerField_fits (h : 8 + w.toNat ≤ s.inLen) :
    headerField w s = .ok { s with tdLen := w.toNat } :=
  (if_neg (by omega)).trans <| (if_neg (by omega)).trans (if_neg h.not_gt)

end

/-- Settles O37: the four answers of `headerField`. -/
theorem headerFieldChecksExtent : Obligations.HeaderFieldChecksExtent :=
  ⟨rfl, fun s _ =>
    ⟨fun h => congrArg (settle s) (headerField_noHeader h),
      fun h4 h => congrArg (settle s) (headerField_noBlock h4 h),
      fun hT _ h => congrArg (settle s) (headerField_noCount hT h),
      fun h => congrArg (settle s) (headerField_fits h)⟩⟩

/-! ### META.V -/

section
variable {s : State} {v p : Nat}

theorem checkPayload_vbits (h : 8 * p < v) :
    checkPayload v p s = .error (.raise .vbits (4 + s.tdLen)) := if_pos h

theorem checkPayload_paylen (hv : v ≤ 8 * p) (h : ceil8 v < p) :
    checkPayload v p s = .error (.raise .paylen (8 + s.tdLen + ceil8 v)) :=
  (if_neg hv.not_gt).trans (if_pos h)

theorem checkPayload_notree (hv : v ≤ 8 * p) (hp : p ≤ ceil8 v) (h : s.tdLen = 0 ∧ v ≠ 0) :
    checkPayload v p s = .error (.raise .notree 4) :=
  (if_neg hv.not_gt).trans <| (if_neg hp.not_gt).trans (if_pos h)

theorem checkPayload_agrees (hv : v ≤ 8 * p) (hp : p ≤ ceil8 v) (h : ¬(s.tdLen = 0 ∧ v ≠ 0)) :
    checkPayload v p s =
      .ok { s with vbits := v, payLen := p, payOff := 8 + s.tdLen, stage := .parsed } :=
  (if_neg hv.not_gt).trans <| (if_neg hp.not_gt).trans (if_neg h)

/-- Where the field fits, the bytes after it are the payload. -/
theorem metadataField_eq (w : Word) (h : s.inLen = 8 + s.tdLen + p) :
    metadataField w s = checkPayload w.toNat p s := by
  rw [metadataField, if_neg (by omega), h, Nat.add_sub_cancel_left]

end

/-- Settles O38: the four answers of `checkPayload`. -/
theorem metadataFieldChecksPayload : Obligations.MetadataFieldChecksPayload := by
  refine ⟨rfl, rfl, rfl, fun s v p hp => ?_⟩
  have hexec : exec (.metaV v) s = settle s (checkPayload v.toNat p s) :=
    congrArg (settle s) (metadataField_eq v hp)
  rw [hexec]
  exact ⟨fun h => congrArg (settle s) (checkPayload_vbits h),
    fun hv h => congrArg (settle s) (checkPayload_paylen hv h),
    fun hv hc hT h0 => congrArg (settle s) (checkPayload_notree hv hc ⟨hT, h0⟩),
    fun hv hc h => congrArg (settle s) (checkPayload_agrees hv hc h)⟩

/-! ### A node that is due -/

section
variable {s : State}

theorem nodeDue_noBit (h : s.br.limit ≤ s.br.pos) :
    nodeDue s = .error (.raise .treeTrunc (4 + s.tdLen)) :=
  if_pos (Nat.sub_eq_zero_of_le h)

theorem deserNode_notDue {fuel : Nat} {e : Stop} (h : nodeDue s = .error e) :
    deserNode fuel s = .error e := by
  cases fuel <;> simp only [deserNode, h, error_bind]

/-- A leaf flag with fewer than eight bits after it ends inside its symbol (45_container R182). -/
theorem deserNode_shortLeaf {fuel : Nat} (hlt : s.br.pos < s.br.limit) (hn : s.nnode < 511)
    (hflag : readerHolds s s.br.pos [true] = true) (hshort : s.br.limit < s.br.pos + 9) :
    deserNode (fuel + 1) s = .error (.raise .treeTrunc (4 + s.tdLen)) := by
  have hrem : readerRem (skipBits 1 s) < 8 := by
    show s.br.limit - (s.br.pos + 1) < 8
    omega
  simp only [deserNode, nodeDue_ok.2 ⟨hlt, hn⟩, readerGet_holds hflag hlt, ok_bind, if_true, hrem]
  rfl

/-- DES.NODE on a leaf's code is that code (45_container R182, log 15). -/
theorem deserNode_leafCode {fuel : Nat} {sym : Byte}
    (hbits : readerHolds s s.br.pos (true :: byteBits sym) = true) (hl : s.br.pos + 9 ≤ s.br.limit) :
    deserNode (fuel + 1) s = leafCode sym s := by
  have hsym : readerHolds (skipBits 1 s) (s.br.pos + 1) (byteBits sym) = true := by
    rw [readerHolds_skipBits]
    exact ((readerHolds_append s s.br.pos [true] _).1 hbits).2
  have hbyte := readerGetBits_holds (v := 0) hsym (by show s.br.pos + 1 + 8 ≤ s.br.limit; omega)
  rw [byteBits_length] at hbyte
  have h8 : ¬ readerRem (skipBits 1 s) < 8 := by
    show ¬ s.br.limit - (s.br.pos + 1) < 8
    omega
  have h9 : ¬ readerRem s < 9 := by
    show ¬ s.br.limit - s.br.pos < 9
    omega
  simp only [deserNode, leafCode, readerGet_holds hbits (by omega), ok_bind, if_true, h8, h9, if_false,
    hbyte, bitsValue_byteBits, skipBits_skipBits]

/-- Below an internal node one arena entry fewer is free, so one nested call fewer is enough (10_state R27). -/
theorem placeInternal_fuel {f f' : Nat} (hn : s.nnode < 511) (hf : 510 ≤ f + s.nnode)
    (hf' : 510 ≤ f' + s.nnode) :
    placeInternal (deserNode f) s = placeInternal (deserNode f') s := by
  have hfirst : deserNode f (allocated Node.zero s) = deserNode f' (allocated Node.zero s) :=
    deserNode_fuel (by show 511 ≤ f + (s.nnode + 1); omega) (by show 511 ≤ f' + (s.nnode + 1); omega)
  simp only [placeInternal, allocNode_eq hn, ok_bind, hfirst]
  cases hl : deserNode f' (allocated Node.zero s) with
  | error e => rfl
  | ok la =>
    obtain ⟨l, a⟩ := la
    obtain ⟨-, left, -, -, -, hleft⟩ := deserNode_ok hl
    have hnnode : a.nnode = s.nnode + 1 + treeSize left := hleft.nnode
    simp only [ok_bind, deserNode_fuel (s := a) (fuel := f) (f' := f') (by omega) (by omega)]

/-- DES.NODE on an internal node's code is that code (45_container R182, log 15). -/
theorem deserNode_internalCode (hbit : readerHolds s s.br.pos [false] = true)
    (hl : s.br.pos < s.br.limit) : deserNode parseDepth s = internalCode s := by
  rw [parseDepth, deserNode, internalCode]
  cases hd : nodeDue s with
  | error e => rfl
  | ok _ =>
    have hn : (skipBits 1 s).nnode < 511 := (nodeDue_ok.1 hd).2
    simp only [ok_bind, readerGet_holds hbit hl, Bool.false_eq_true, if_false]
    exact placeInternal_fuel hn (by omega) (by simp only [parseDepth]; omega)

end

/-- Settles O39: the tests of `leafCode` pass, and the leaf is placed past its nine bits. -/
theorem leafCodeAllocatesLeaf : Obligations.LeafCodeAllocatesLeaf := by
  intro s sym hn hl
  have hrem : ¬ readerRem s < 9 := by
    show ¬ s.br.limit - s.br.pos < 9
    omega
  have hcode : leafCode sym s = .ok (s.nnode,
      { allocated (leafRecord sym 0) (skipBits 9 s) with nsym := s.nsym + 1 }) := by
    rw [leafCode, nodeDue_ok.2 ⟨by omega, hn⟩, ok_bind, if_neg hrem]
    exact placeLeaf_eq (s := skipBits 9 s) sym hn
  have hnode : ∀ k, nodeAt (allocated (leafRecord sym 0) (skipBits 9 s)) k =
      if k = s.nnode then leafRecord sym 0 else nodeAt s k :=
    nodeAt_allocated (s := skipBits 9 s) hn
  exact ⟨_, congrArg (settleRet s) hcode, (hnode s.nnode).trans (if_pos rfl),
    fun k hk => (hnode k).trans (if_neg hk), rfl⟩

/-- Settles O41: the two tests of a node that is due, and the one of a leaf's symbol. -/
theorem desNodeRejectsBadDescriptions : Obligations.DesNodeRejectsBadDescriptions :=
  ⟨rfl, rfl, fun s =>
    ⟨fun h => congrArg (settleRet s) (deserNode_notDue (nodeDue_noBit h)),
      fun hlt hn => congrArg (settleRet s) (deserNode_full hlt hn),
      fun hlt hn hflag hshort => congrArg (settleRet s) (deserNode_shortLeaf hlt hn hflag hshort)⟩⟩

/-- Settles O7: the bits that decode are the code's own, which DES.NODE reads as that code. -/
theorem desNodeRunsDecodedNode : Obligations.DesNodeRunsDecodedNode := by
  intro s bits rest i hbits hl hdecode
  obtain ⟨rfl, hplace⟩ := decode_ok hdecode
  rw [readerHolds_append] at hbits
  obtain ⟨hcode, -⟩ := hbits
  rw [List.length_append] at hl
  cases i with
  | treeInternal =>
    have hlen : (encode .treeInternal).length = 1 := rfl
    exact congrArg (settleRet s) (deserNode_internalCode hcode (by omega))
  | treeLeaf sym =>
    have hlen : (encode (.treeLeaf sym)).length = 9 := rfl
    exact congrArg (settleRet s) (deserNode_leafCode hcode (by omega))
  | _ => cases hplace

theorem placedAt_node_congr {s t : State} {i : Nat} {tr : Tree} (h : t.node = s.node) :
    placedAt t i tr ↔ placedAt s i tr :=
  placedAt_congr fun k _ _ => nodeAt_congr h k

/-- Settles O40: `deserNode_tree` with its result in the latch; an internal root's code is DES.NODE. -/
theorem nodesRebuildTree : Obligations.NodesRebuildTree := by
  intro s tr hn hbits hl
  obtain ⟨t, hrun, hrebuilt⟩ := deserNode_tree tr (fuel := parseDepth) (Nat.le_add_right 511 s.nnode) hn
    hbits hl
  have hexec : exec .desNode s = .next { t with ret := some s.nnode } := congrArg (settleRet s) hrun
  have hplaced := (placedAt_node_congr (s := t) (t := { t with ret := some s.nnode }) rfl).2
    hrebuilt.placed
  refine ⟨_, hexec, ?_, placedAt_holds hplaced hn, hplaced,
    fun k hk => hrebuilt.outside k (hrebuilt.nnode ▸ hk), ?_⟩
  · rintro ⟨l, r, rfl⟩
    rw [← hexec]
    obtain ⟨hflag, -⟩ := (readerHolds_append s s.br.pos [false] _).1 hbits
    have hlen : 0 < (treeBits (.node l r)).length := Nat.zero_lt_succ _
    exact congrArg (settleRet s) (deserNode_internalCode hflag (by omega)).symm
  · rw [hrebuilt.rest]

end Sys2Proof.Machine
end

section
/-! SUPPORT. The command PARSE (45_container R180 to R186): a container that ends before a field, a tree
block that is malformed, and a container with a legal description. -/

namespace Sys2Proof.Machine

theorem execParse_eq {s : State} (hbusy : s.busy = false) (hstage : s.stage = .clear)
    (hlen : s.inLen ≤ s.cfg.ibCap.val) :
    exec .parse s = settleCommand (startCommand s) (parseBody (startCommand s)) :=
  unitCommand_eq hbusy (fun _ => hlen) hstage

theorem execParse_raise {s : State} {c : ErrCode} {pos : Nat} (hbusy : s.busy = false)
    (hstage : s.stage = .clear) (hlen : s.inLen ≤ s.cfg.ibCap.val)
    (h : parseBody (startCommand s) = .error (.raise c pos)) :
    exec .parse s = .next (errorEntry s c pos) := by
  rw [execParse_eq hbusy hstage hlen, h]
  rfl

/-! ### The fixed fields (45_container R183) -/

section
variable {s : State} {w : Word} {e : Stop}

theorem parseBody_noHeader (h : s.inLen < 4) : parseBody s = .error (.raise .eob 0) := if_pos h

theorem parseBody_eq (h4 : 4 ≤ s.inLen) (hw : bufHolds s.ib 0 (be32 w) = true) :
    parseBody s = headerField w s >>= fun s => parseTree s >>= fun s =>
      readField32 s (4 + s.tdLen) >>= fun v => metadataField v s := by
  rw [parseBody, if_neg h4.not_gt, readField32_holds hw]
  rfl

theorem parseBody_headerError (h4 : 4 ≤ s.inLen) (hw : bufHolds s.ib 0 (be32 w) = true)
    (h : headerField w s = .error e) : parseBody s = .error e := by
  rw [parseBody_eq h4 hw, h, error_bind]

theorem parseBody_treeError (hlen : 8 + w.toNat ≤ s.inLen) (hw : bufHolds s.ib 0 (be32 w) = true)
    (h : parseTree { s with tdLen := w.toNat } = .error e) : parseBody s = .error e := by
  rw [parseBody_eq (by omega) hw, headerField_fits hlen, ok_bind, h, error_bind]

end

/-- Settles O43: the header is missing, or `headerField` raises. -/
theorem parseRejectsMissingFields : Obligations.ParseRejectsMissingFields := by
  intro s hbusy hstage hlen
  have hraise {w : Word} {pos : Nat} (hw : bufHolds s.ib 0 (be32 w) = true) (h4 : 4 ≤ s.inLen)
      (h : headerField w (startCommand s) = .error (.raise .eob pos)) :
      exec .parse s = .next (errorEntry s .eob pos) :=
    execParse_raise hbusy hstage hlen (parseBody_headerError (s := startCommand s) h4 hw h)
  exact ⟨fun h => execParse_raise hbusy hstage hlen (parseBody_noHeader h), fun w hw =>
    ⟨fun h4 h => hraise hw h4 (headerField_noBlock h4 h),
      fun hT h => hraise hw (by omega) (headerField_noCount hT h)⟩⟩

/-! ### The tree block (45_container R182) -/

theorem derivedClear_nnode {s : State} (h : s.derivedClear) : s.nnode = 0 :=
  (congrArg State.nnode h).symm

/-- PARSE has come to the tree block: its bytes `d` stand in IB behind the header, and the arena is empty. -/
structure AtBlock (s : State) (d : List Byte) : Prop where
  nnode : s.nnode = 0
  tdLen : s.tdLen = d.length
  ne_nil : d ≠ []
  holds : bufHolds s.ib 4 d = true

section
variable {s : State} {tr : Tree} {d : List Byte}

/-- The reader of the tree block. -/
def blockReader (d : List Byte) (s : State) : State := readerInit 4 (8 * d.length) s

theorem AtBlock.reads (h : AtBlock s d) : readerHolds (blockReader d s) 0 (unpackBits d) = true :=
  readerHolds_block h.holds

theorem AtBlock.parseTree_eq (h : AtBlock s d) :
    parseTree s = deserNode parseDepth (blockReader d s) >>= fun x =>
      if ceil8 x.2.br.pos ≠ x.2.tdLen then raiseFormat .treeLen (4 + ceil8 x.2.br.pos)
      else .ok { x.2 with root := x.1, tdBits := x.2.br.pos } := by
  rw [parseTree, if_pos (h.tdLen ▸ List.length_pos_iff.2 h.ne_nil), h.tdLen]
  rfl

/-- A tree that ends before the block does (45_container R182). -/
theorem AtBlock.parseTree_treeLen (h : AtBlock s d) (hsize : treeSize tr ≤ 511)
    (hp : treeBits tr <+: unpackBits d) (hshort : ceil8 (treeBits tr).length < d.length) :
    parseTree s = .error (.raise .treeLen (4 + ceil8 (treeBits tr).length)) := by
  have hlen := hp.length_le
  rw [unpackBits_length] at hlen
  have hn : (blockReader d s).nnode = 0 := h.nnode
  have hlimit : (blockReader d s).br = ⟨4, 8 * d.length, 0⟩ := rfl
  obtain ⟨t, hrun, ht⟩ := deserNode_tree tr (fuel := parseDepth) (s := blockReader d s)
    (Nat.le_add_right 511 _) (by omega) (readerHolds_prefix hp h.reads) (by simpa [hlimit] using hlen)
  have hpos : t.br.pos = (treeBits tr).length := by rw [ht.br, hlimit]; exact Nat.zero_add _
  have htd : t.tdLen = d.length := ht.tdLen.trans h.tdLen
  rw [h.parseTree_eq, hrun, ok_bind, if_pos (by rw [hpos, htd]; exact hshort.ne), hpos]
  rfl

/-- A bit left where a 512th node is due. -/
theorem AtBlock.parseTree_treeOvf (h : AtBlock s d) (hsize : 511 < treeSize tr)
    (hp : treePrefix 511 tr <+: unpackBits d) (hlen : (treePrefix 511 tr).length < 8 * d.length) :
    parseTree s = .error (.raise .treeOvf (4 + (treePrefix 511 tr).length / 8)) := by
  have hn : (blockReader d s).nnode = 0 := h.nnode
  have hpos : (blockReader d s).br.pos = 0 := rfl
  have hrun := deserNode_overflow tr (fuel := parseDepth) (s := blockReader d s)
    (Nat.le_add_right 511 _) (by omega) (by omega)
  rw [hn, hpos, Nat.zero_add] at hrun
  rw [h.parseTree_eq, hrun (readerHolds_prefix hp h.reads) hlen, error_bind]

/-- A block at an end before its tree, within the nodes the arena holds. -/
theorem AtBlock.parseTree_treeTrunc (h : AtBlock s d) (hp : unpackBits d <+: treePrefix 511 tr)
    (hlen : 8 * d.length < (treeBits tr).length) :
    parseTree s = .error (.raise .treeTrunc (4 + d.length)) := by
  have hn : (blockReader d s).nnode = 0 := h.nnode
  have hlimit : (blockReader d s).br = ⟨4, 8 * d.length, 0⟩ := rfl
  have htd : (blockReader d s).tdLen = d.length := h.tdLen
  have hrun := deserNode_truncated tr (fuel := parseDepth) (s := blockReader d s) (Nat.le_add_right 511 _)
    (by omega) h.reads (by simp [hlimit]) (by rwa [hn]) (by simpa using hlen)
  rw [h.parseTree_eq, hrun, error_bind, htd]

end

/-- Settles O44: the three malformed blocks, behind a header that fits. -/
theorem parseRejectsWrongTreeBlock : Obligations.ParseRejectsWrongTreeBlock := by
  refine ⟨rfl, rfl, rfl, fun s tr d hbusy hstage hclear hcap hne hlen hb => ?_⟩
  rw [bufHolds_append] at hb
  obtain ⟨hheader, hblock⟩ := hb
  have hsmall : d.length < 2 ^ 32 := by
    have := s.cfg.ibCap.isLt
    omega
  have hw : (BitVec.ofNat 32 d.length).toNat = d.length := word_toNat hsmall
  have hnnode : s.nnode = 0 := derivedClear_nnode hclear
  have hat : AtBlock { startCommand s with tdLen := (BitVec.ofNat 32 d.length).toNat } d :=
    ⟨hnnode, hw, hne, hblock⟩
  have hraise {c : ErrCode} {pos : Nat}
      (h : parseTree { startCommand s with tdLen := (BitVec.ofNat 32 d.length).toNat } =
        .error (.raise c pos)) : exec .parse s = .next (errorEntry s c pos) :=
    execParse_raise hbusy hstage hcap (parseBody_treeError (by rw [hw]; exact hlen) hheader h)
  exact ⟨fun hsize hp hshort => hraise (hat.parseTree_treeLen hsize hp hshort),
    fun hsize hp hleft => hraise (hat.parseTree_treeOvf hsize hp hleft),
    fun hp hshort => hraise (hat.parseTree_treeTrunc hp hshort)⟩

/-! ### A legal description -/

/-- `t` is `s` after PARSE has rebuilt the tree of the description `d` (45_container R182, R186). -/
structure TreeParsed (s t : State) (tr : Option Tree) (d : List Byte) : Prop where
  root : t.root = 0
  holds : holdsRoot t tr = true
  placed : ∀ x ∈ tr, placedAt t 0 x
  nnode : t.nnode = (tr.map treeSize).getD 0
  nsym : t.nsym = ((tr.map treeLeaves).getD []).length
  kept : ∀ k, t.nnode ≤ k → nodeAt t k = nodeAt s k
  rest : t = { s with
    node := t.node, nnode := t.nnode, nsym := t.nsym, br := t.br
    tdBits := (rootBits tr).length, tdLen := d.length }

theorem TreeParsed.tdLen {s t : State} {tr : Option Tree} {d : List Byte} (h : TreeParsed s t tr d) :
    t.tdLen = d.length := by rw [h.rest]

/-- From nothing derived, behind a legal description PARSE checks the payload as META.V does (45_container
R180, R184, R185). -/
theorem parseBody_container {s : State} {tr : Option Tree} {d : List Byte} {v : Word} {p : Nat}
    (hclear : s.derivedClear) (h256 : ∀ x ∈ tr, (treeLeaves x).length ≤ 256)
    (hd : d.length = ceil8 (rootBits tr).length) (hp : rootBits tr <+: unpackBits d)
    (hb : bufHolds s.ib 0 (be32 (BitVec.ofNat 32 d.length) ++ d ++ be32 v) = true)
    (hlen : s.inLen = 8 + d.length + p) :
    ∃ t, parseBody s = checkPayload v.toNat p t ∧ TreeParsed s t tr d := by
  obtain ⟨t, hbody, hnnode, hholds, hnsym, hplaced, hkept, hroot, hrest⟩ := parseBody_holds
    (derivedClear_nnode hclear) (congrArg State.nsym hclear).symm (congrArg State.root hclear).symm
    (congrArg State.tdBits hclear).symm h256 hd hp hb (by omega)
  have ht : TreeParsed s t tr d := ⟨hroot, hholds, hplaced, hnnode, hnsym, hkept, hrest⟩
  have hin : t.inLen = 8 + t.tdLen + p := by
    rw [ht.tdLen, hrest]
    exact hlen
  exact ⟨t, hbody.trans (metadataField_eq v hin), ht⟩

/-- Settles O42: behind the rebuilt tree, the four answers of `checkPayload`. -/
theorem parseRebuildsContainer : Obligations.ParseRebuildsContainer := by
  intro s tr d v p hbusy hstage hclear hcap h256 hd hp hb hlen
  obtain ⟨t, hbody, ht⟩ := parseBody_container (s := startCommand s) (startCommand_derivedClear hclear)
    h256 hd hp hb hlen
  rw [execParse_eq hbusy hstage hcap, hbody, ← ht.tdLen]
  refine ⟨fun h => ?_, fun hv h => ?_, fun hv hc hT h0 => ?_, fun hv hc h => ?_⟩
  · rw [checkPayload_vbits h]
    rfl
  · rw [checkPayload_paylen hv h]
    rfl
  · rw [checkPayload_notree hv hc ⟨hT, h0⟩]
    rfl
  · rw [checkPayload_agrees hv hc h]
    refine ⟨_, rfl, ht.root, ?_, fun x hx => ?_, ht.nnode, ht.nsym, ht.kept, ?_⟩
    · rw [holdsRoot_congr (s := t), ht.holds] <;> rfl
    · exact Iff.mpr (placedAt_node_congr (s := t) rfl) (ht.placed x hx)
    · rw [ht.rest]
      rfl

end Sys2Proof.Machine
end

section
/-! SUPPORT. The serializer: SER.EMIT as the BW.PUTs of a description, and what the command SERIAL leaves
(45_container R175, R176, R178, R179). -/

namespace Sys2Proof.Machine

/-! ### SER.EMIT -/

/-- A BW.PUT where the sink has a bit left moves the writer by one bit (43_bit_writer R147). -/
theorem writerPut_room {s : State} {b : Bool} (hnb : s.bw.nb < 8)
    (hroom : 8 * s.bw.wp + s.bw.nb + 1 ≤ 8 * capacity s.cfg (sinkBuffer s.bw.sink)) :
    ∃ t, writerPut b s = .ok t ∧ t.cfg = s.cfg ∧ t.bw.sink = s.bw.sink ∧ t.bw.nb < 8 ∧
      8 * t.bw.wp + t.bw.nb = 8 * s.bw.wp + s.bw.nb + 1 ∧ t.bw.total = s.bw.total + 1 := by
  by_cases h7 : s.bw.nb = 7
  · obtain ⟨t, ht, -, -, hrest⟩ := writerSend_room (s := { s with bw := countBit b s.bw })
      (show s.bw.wp < capacity s.cfg (sinkBuffer s.bw.sink) by omega)
    refine ⟨t, (writerPut_eighth h7).trans ht, ?_⟩
    rw [hrest]
    refine ⟨rfl, rfl, Nat.zero_lt_succ 7, ?_, rfl⟩
    show 8 * (s.bw.wp + 1) + 0 = _
    omega
  · refine ⟨_, writerPut_within h7, rfl, rfl, ?_, rfl, rfl⟩
    show s.bw.nb + 1 < 8
    omega

/-- A bit string is put where the sink has room for it. -/
theorem putBits_room (bits : List Bool) : ∀ {s : State}, s.bw.nb < 8 →
    8 * s.bw.wp + s.bw.nb + bits.length ≤ 8 * capacity s.cfg (sinkBuffer s.bw.sink) →
    ∃ t, putBits bits s = .ok t ∧ t.bw.total = s.bw.total + bits.length := by
  induction bits with
  | nil => intro s _ _; exact ⟨s, rfl, rfl⟩
  | cons b bits ih =>
    intro s hnb hroom
    rw [List.length_cons] at hroom
    obtain ⟨u, hput, hcfg, hsink, hnb', hpos, htotal⟩ := writerPut_room (b := b) hnb (by omega)
    obtain ⟨t, hputs, htotal'⟩ := ih hnb' (by rw [hcfg, hsink]; omega)
    refine ⟨t, ?_, ?_⟩
    · rw [putBits, hput, ok_bind, hputs]
    · rw [htotal', htotal, List.length_cons, Nat.add_right_comm, Nat.add_assoc]

/-- Settles O35: SER.EMIT and the BW.PUTs are both `putBits` of the description. -/
theorem emitPutsDescription : Obligations.EmitPutsDescription := by
  intro s i tr htree hdepth hnb hroom
  obtain ⟨t, hputs, htotal⟩ := putBits_room (treeBits tr) hnb hroom
  have hemit : emitNode stackDepth i s = .ok t :=
    (emitNode_eq tr (Nat.lt_succ_of_le hdepth) htree).trans hputs
  refine ⟨t, congrArg (settle s) hemit, ?_, htotal, putBits_tables hputs⟩
  have hrun := runInstrs_puts [] hputs
  rwa [List.append_nil] at hrun

/-! ### SERIAL -/

/-- `u` is `s` after SERIAL's body on the tree `tr` and the payload: the description in TD, the container in
OB (45_container R175, R178). -/
structure Serialized (s u : State) (tr : Option Tree) (payload : List Byte) : Prop where
  tdBits : u.tdBits = (rootBits tr).length
  tdLen : u.tdLen = ceil8 u.tdBits
  description : bufHolds u.td 0 (packBits (rootBits tr)) = true
  tdKept : ∀ a, u.tdLen ≤ a → bufRead u.td a = bufRead s.td a
  payOff : u.payOff = 8 + u.tdLen
  outLen : u.outLen = u.payOff + s.payLen
  container : bufHolds u.ob 0 (containerBytes (packBits (rootBits tr)) s.vbits payload) = true
  obKept : ∀ a, u.outLen ≤ a → bufRead u.ob a = bufRead s.ob a
  rest : u = { s with
    td := u.td, tdBits := u.tdBits, tdLen := u.tdLen, payOff := u.payOff, ob := u.ob
    outLen := u.outLen, stage := .cdone
    bw := { sink := .td, acc := 0#8, nb := 0, wp := u.tdLen, total := u.tdBits } }

/-- OB has room for every container of a description of 320 bytes and a payload of PB (00_scope R4). -/
theorem container_fits {c : Config} {n p : Nat} (hn : n ≤ Config.tdCap) (hp : p ≤ c.pbCap) :
    8 + n + p ≤ c.obCap := by
  simp only [Config.tdCap, Config.pbCap, Config.obCap] at *
  omega

theorem serialBody_eq {s : State} {tr : Option Tree} {payload : List Byte} (hroot : holdsRoot s tr = true)
    (hdepth : ∀ x ∈ tr, treeDepth x ≤ 255) (hbits : (rootBits tr).length ≤ 2560)
    (hlen : s.payLen = payload.length) (hpb : bufHolds s.pb 0 payload = true)
    (hcap : s.payLen ≤ s.cfg.pbCap) : ∃ u, serialBody s = .ok u ∧ Serialized s u tr payload := by
  have h320 : ceil8 (rootBits tr).length ≤ 320 := (ceil8_le _ _).2 hbits
  obtain ⟨d, hd, htdBits, htdLen, hbw, htd, htdKept, hdrest⟩ := describeTree_eq hroot hdepth h320
  have hpay : d.payLen = s.payLen := by rw [hdrest]
  have hvbits : d.vbits = s.vbits := by rw [hdrest]
  have hob : d.ob = s.ob := by rw [hdrest]
  have hlength : (packBits (rootBits tr)).length = d.tdLen := by
    rw [packBits_length, htdLen, htdBits]
  obtain ⟨u, hu, hpayOff, houtLen, hcontainer, hobKept, hurest⟩ := assemble_eq (s := d)
    (p := payload) hlength (by rw [hpay, hlen]) htd (by rw [hdrest]; exact hpb)
    (by rw [hpay, ← hlength, packBits_length, hdrest]; exact container_fits h320 hcap)
  have htdBits' : u.tdBits = d.tdBits := by rw [hurest]
  have htdLen' : u.tdLen = d.tdLen := by rw [hurest]
  have htd' : u.td = d.td := by rw [hurest]
  refine ⟨u, by rw [serialBody, hd, ok_bind, hu], ?_⟩
  constructor
  · rw [htdBits', htdBits]
  · rw [htdLen', htdLen, htdBits']
  · rw [htd']; exact htd
  · rw [htdLen', htd']; exact htdKept
  · rw [htdLen', hpayOff]
  · rw [houtLen, hpayOff, hpay]
  · rw [containerBytes, hlength, ← hvbits]; exact hcontainer
  · rw [← hob]; exact hobKept
  · rw [htdLen', htdBits', htd', ← hbw, hurest, hdrest]

/-- Settles O36: the command's frame around `serialBody`. -/
theorem serialWritesContainer : Obligations.SerialWritesContainer := by
  intro s tr payload hbusy hstage hroot hdepth hbits hlen hpb hcap
  rw [← holdsRoot_startCommand] at hroot
  obtain ⟨u, hbody, h⟩ := serialBody_eq (s := startCommand s) hroot hdepth hbits hlen hpb hcap
  have hlength : (packBits (rootBits tr)).length = u.tdLen := by
    rw [packBits_length, h.tdLen, h.tdBits]
  refine ⟨endCommand u, unitCommand_of_body hbusy (fun hio => by cases hio) hstage hbody, h.tdBits, h.tdLen,
    h.description, h.tdKept, h.payOff, h.outLen, ?_, h.obKept, ?_⟩
  · rw [endCommand_tdLen, ← hlength]
    exact h.container
  · rw [h.rest]
    rfl

end Sys2Proof.Machine
end

section
/-! SUPPORT. The container COMPRESS leaves in OB (46_codec R204, 45_container R178), and DECOMPRESS on it
without its last payload byte (45_container R184). -/

namespace Sys2Proof.Machine

/-! ### The bodies of COMPRESS -/

/-- The arena of TBUILD holds a tree of the present symbols, or none (41_tree_builder R124, R127). -/
theorem Built.holdsRoot {s t u v : State} {f : Nat → Tree} (h : Built s t u v f) :
    ∃ tr, Machine.holdsRoot t tr = true ∧ ((tr.map treeLeaves).getD []).Perm (presentSymbols s) := by
  by_cases hne : presentSymbols s = []
  · obtain ⟨hnnode, -⟩ := built_empty h hne
    exact ⟨none, decide_eq_true hnnode, by rw [hne]; rfl⟩
  · obtain ⟨hnnode, hpos, htree, hleaves, -⟩ := built_tree h hne
    refine ⟨some (f t.root), ?_, hleaves⟩
    simp only [Machine.holdsRoot, htree, Bool.and_true, decide_eq_true_eq]
    omega

/-- CGEN writes the codes of the tree at ROOT, where there is one (42_code_table R137, R140). -/
theorem cgenBody_root {s : State} {tr : Option Tree} (h : holdsRoot s tr = true)
    (hdepth : ∀ x ∈ tr, treeDepth x ≤ 255) :
    cgenBody s = .ok { writeCodes s ((tr.map rootCodes).getD []) with stage := .code } := by
  cases tr with
  | none => rw [cgenBody, codeTree_none (of_decide_eq_true h), ok_bind]; rfl
  | some x => rw [cgenBody, codeTree_some h (hdepth x rfl), ok_bind]; rfl

/-- `u` is the end of COMPRESS's body: the container of a tree of at most 256 leaves and of a payload of
VBITS bits stands in OB. -/
structure Compressed (u : State) (tr : Option Tree) (payload : List Byte) : Prop where
  leaves : ∀ x ∈ tr, (treeLeaves x).length ≤ 256
  vbits : u.vbits < 2 ^ 32
  payload_length : payload.length = ceil8 u.vbits
  payLen : u.payLen = payload.length
  tdLen : u.tdLen = (packBits (rootBits tr)).length
  outLen : u.outLen = (containerBytes (packBits (rootBits tr)) u.vbits payload).length
  container : bufHolds u.ob 0 (containerBytes (packBits (rootBits tr)) u.vbits payload) = true

theorem containerBytes_length (d payload : List Byte) (v : Nat) :
    (containerBytes d v payload).length = 8 + d.length + payload.length := by
  simp only [containerBytes, List.length_append, fieldBytes, be32_length]
  omega

theorem Serialized.compressed {s u : State} {tr : Option Tree} {payload : List Byte}
    (h : Serialized s u tr payload) (hleaves : ∀ x ∈ tr, (treeLeaves x).length ≤ 256)
    (hvbits : s.vbits < 2 ^ 32) (hpayload : payload.length = ceil8 s.vbits)
    (hpayLen : s.payLen = payload.length) : Compressed u tr payload := by
  have hv : u.vbits = s.vbits := by rw [h.rest]
  have htd : u.tdLen = (packBits (rootBits tr)).length := by rw [packBits_length, h.tdLen, h.tdBits]
  refine ⟨hleaves, hv ▸ hvbits, hv ▸ hpayload, ?_, htd, ?_, hv ▸ h.container⟩
  · rw [h.rest]
    exact hpayLen
  · rw [h.outLen, h.payOff, hpayLen, htd, containerBytes_length]

/-- A tree of at most 256 leaves is no deeper than the traversal stack, its description no longer than TD. -/
theorem tree_bounds {tr : Option Tree} (h : ∀ x ∈ tr, (treeLeaves x).length ≤ 256) :
    (∀ x ∈ tr, treeDepth x ≤ 255) ∧ (rootBits tr).length ≤ 2560 := by
  cases tr with
  | none => exact ⟨nofun, Nat.zero_le _⟩
  | some x =>
    have hx := h x rfl
    have hdepth := treeDepth_lt x
    have hbits : (rootBits (some x)).length + 1 = 10 * (treeLeaves x).length := treeBits_length x
    refine ⟨fun y hy => ?_, by omega⟩
    cases hy
    omega

theorem hasInput_congr {s t : State} (hib : t.ib = s.ib) (hlen : t.inLen = s.inLen) (bs : List Byte) :
    t.hasInput bs = s.hasInput bs := by
  simp only [State.hasInput, hib, hlen]

/-- PACK ends only where PB holds the payload (60_exceptions R232). -/
theorem packBody_room {s u : State} {bs : List Byte} (hin : s.hasInput bs = true)
    (h : packBody s = .ok u) : ceil8 (payloadBits s bs).length ≤ s.cfg.pbCap := by
  by_contra hcap
  cases h.symm.trans (packBody_exceeds hin (Nat.not_le.1 hcap))

/-- PACK and SERIAL on a tree at ROOT and a written input (46_codec R204, steps 4 and 5). -/
theorem packSerial_compressed {s d u : State} {tr : Option Tree} {bs : List Byte}
    (hin : s.hasInput bs = true) (hroot : holdsRoot s tr = true)
    (hleaves : ∀ x ∈ tr, (treeLeaves x).length ≤ 256) (hd : packBody s = .ok d)
    (hu : serialBody d = .ok u) : Compressed u tr (packBits (payloadBits s bs)) := by
  obtain ⟨hdepth, hbits⟩ := tree_bounds hleaves
  have hcap := packBody_room hin hd
  obtain ⟨d', hd', hvbits, hpayLen, hpb, -, hrest⟩ := packBody_fits hin hcap
  cases hd.symm.trans hd'
  have hrootd : holdsRoot d tr = true := by
    rw [← hroot]
    exact holdsRoot_congr (by rw [hrest]) (by rw [hrest]) (by rw [hrest]) tr
  have hlength : d.payLen = (packBits (payloadBits s bs)).length := by rw [hpayLen, packBits_length]
  obtain ⟨u', hu', hserial⟩ := serialBody_eq hrootd hdepth hbits hlength hpb
    (by rw [hpayLen, hrest]; exact hcap)
  cases hu.symm.trans hu'
  refine hserial.compressed hleaves ?_ (by rw [packBits_length, hvbits]) hlength
  have := length_le_of_ceil8_le hcap
  omega

/-- COMPRESS, where it ends without error, ends with the container (46_codec R204). -/
theorem compressBody_container {s u : State} {bs : List Byte} (hin : s.hasInput bs = true)
    (hclear : s.derivedClear) (h : compressBody s = .ok u) : ∃ tr payload, Compressed u tr payload := by
  obtain ⟨a, ha, h⟩ := bind_eq_ok.1 h
  obtain ⟨b, hb, h⟩ := bind_eq_ok.1 h
  obtain ⟨c, hc, h⟩ := bind_eq_ok.1 h
  obtain ⟨d, hd, hu⟩ := bind_eq_ok.1 h
  have hft : s.ft = Vector.replicate 256 0 := (congrArg State.ft hclear).symm
  obtain ⟨a', ha', -, -, harest⟩ := fcountBody_eq hin (readFT_zero hft)
  cases ha.symm.trans ha'
  have hq : a.pq = [] := by
    rw [harest]
    exact (congrArg State.pq hclear).symm
  obtain ⟨b', v, w, f, hb', hbuilt⟩ := tbuildBody_eq hq
  cases hb.symm.trans hb'
  obtain ⟨tr, hroot, hperm⟩ := hbuilt.holdsRoot
  have hleaves : ∀ x ∈ tr, (treeLeaves x).length ≤ 256 := by
    rintro x rfl
    exact hperm.length_eq.trans_le (presentSymbols_length_le a)
  have hcodes := Except.ok.inj (hc.symm.trans (cgenBody_root hroot (tree_bounds hleaves).1))
  rw [writeCodes_rest] at hcodes
  have hrootc : holdsRoot c tr = true := by
    rw [← hroot]
    exact holdsRoot_congr (by rw [hcodes]) (by rw [hcodes]) (by rw [hcodes]) tr
  have hkeeps : Keeps s c := (fcountBody_keeps ha).trans ((tbuildBody_keeps hb).trans (cgenBody_keeps hc))
  have hinc : c.hasInput bs = true := (hasInput_congr hkeeps.ib hkeeps.inLen bs).trans hin
  exact ⟨tr, _, packSerial_compressed hinc hrootc hleaves hd hu⟩

theorem exec_compress_container {s t : State} {bs : List Byte} (hbusy : s.busy = false)
    (hin : s.hasInput bs = true) (h : exec .compress s = .next t) (herr : t.err = false) :
    ∃ tr payload, Compressed t tr payload := by
  rcases wholeCommand_next h with ⟨hs, -⟩ | ⟨-, ⟨-, -, rfl⟩ | ⟨-, ⟨u, hbody, rfl⟩ | ⟨c, pos, -, rfl⟩⟩⟩
  · cases hbusy.symm.trans hs
  · cases herr
  · obtain ⟨tr, payload, hu⟩ := compressBody_container (s := clearDerived (startCommand s)) hin
      (clearDerived_clearDerived _) hbody
    exact ⟨tr, payload, { hu with }⟩
  · cases herr

/-! ### A payload byte short -/

/-- A place of a buffer holds one run of bytes of a length. -/
theorem bufHolds_unique {m : Buf} {a : Nat} {x y : List Byte} (hx : bufHolds m a x = true)
    (hy : bufHolds m a y = true) (hlen : x.length = y.length) : x = y := by
  rw [bufHolds_iff] at hx hy
  exact List.ext_getElem hlen fun k hkx hky => Option.some.inj ((hx k hkx).symm.trans (hy k hky))

theorem containerBytes_dropLast {d payload : List Byte} {v : Nat} (h : payload ≠ []) :
    (containerBytes d v payload).dropLast = containerBytes d v payload.dropLast :=
  List.dropLast_append_of_ne_nil h

/-- PARSE on a container whose payload is shorter than its valid bits (45_container R184). -/
theorem parseBody_shortPayload {s : State} {tr : Option Tree} {payload : List Byte} {v : Nat}
    (hclear : s.derivedClear) (hleaves : ∀ x ∈ tr, (treeLeaves x).length ≤ 256) (hv : v < 2 ^ 32)
    (hshort : 8 * payload.length < v)
    (hin : s.hasInput (containerBytes (packBits (rootBits tr)) v payload) = true) :
    parseBody s = .error (.raise .vbits (4 + (packBits (rootBits tr)).length)) := by
  have hlen := hasInput_inLen hin
  rw [containerBytes_length] at hlen
  have hholds := hasInput_holds hin
  rw [containerBytes, bufHolds_append] at hholds
  obtain ⟨t, hbody, ht⟩ := parseBody_container hclear hleaves (packBits_length _)
    (unpackBits_packBits _) hholds.1 hlen
  rw [hbody, checkPayload_vbits (by rw [word_toNat hv]; exact hshort), ht.tdLen]

/-- Settles O50: the container is that of `Compressed`, its valid bits one more byte than is left. -/
theorem truncatedContainerIsRejected : Obligations.TruncatedContainerIsRejected := by
  intro s t s' bs c hbusy hin hcap hexec herr hpay hlen hc hbusy' hin' hcap'
  obtain ⟨tr, payload, h⟩ := exec_compress_container hbusy hin hexec herr
  obtain rfl := bufHolds_unique hc h.container (hlen.trans h.outLen)
  have hne : payload ≠ [] := by
    rintro rfl
    rw [h.payLen] at hpay
    cases hpay
  have hshort : 8 * payload.dropLast.length < t.vbits := by
    have hbytes := h.payload_length
    have hpos := List.length_pos_iff.2 hne
    rw [List.length_dropLast]
    simp only [ceil8] at hbytes
    omega
  have hlen' : s'.inLen ≤ s'.cfg.ibCap.val := by
    rw [hasInput_inLen hin', List.length_dropLast]
    omega
  rw [containerBytes_dropLast hne] at hin'
  have hparse := parseBody_shortPayload (s := clearDerived (startCommand s')) (clearDerived_clearDerived _)
    h.leaves h.vbits hshort hin'
  show execDecompress s' = _
  rw [execDecompress, wholeCommand_eq hbusy' (fun _ => hlen'), decompressBody, hparse, h.tdLen]
  rfl

end Sys2Proof.Machine
end

section
/-! SUPPORT. The housekeeping commands NOP and CLEAR (46_codec R200, R201). -/

namespace Sys2Proof.Machine

/-- Settles O13: NOP is handled before the frame. -/
theorem nopChangesNothing : Obligations.NopChangesNothing := fun _ => rfl

/-- STATUS after a normal end is DONE with the stage (10_state R31). -/
theorem statusWord_normalEnd {t : State} {st : Stage} (h : NormalEnd t st) :
    statusWord t = 0#1 ++ stageValue st ++ 0x2#4 := by
  rw [statusWord, h.stage, h.err, h.done, h.busy]
  cases st <;> rfl

/-- Settles O14: the frame of CLEAR performs ClearDerived and ends normally. -/
theorem clearDiscardsDerivedState : Obligations.ClearDiscardsDerivedState := by
  intro s hbusy
  have h : exec .clear s = .next (endCommand (clearDerived (startCommand s))) :=
    wholeCommand_of_body hbusy nofun rfl
  exact ⟨_, h, statusWord_normalEnd (execClear_ends hbusy h), rfl⟩

end Sys2Proof.Machine
end

section
/-! SUPPORT. COMPRESS and DECOMPRESS as functions of the input (46_codec R207, 30_encoding R102): two states
with one input end alike, and the call of a function ends as the command does on any state with its input. -/

namespace Sys2Proof.Machine

section
variable {s s' t : State} {bs : List Byte}

/-! ### The commands -/

theorem sameInput_of_hasInput (h : s.hasInput bs = true) (h' : s'.hasInput bs = true) :
    SameInput s'.ib s := by
  intro a ha
  rw [hasInput_inLen h] at ha
  have hholds := (bufHolds_iff _ _ _).1 (hasInput_holds h) a ha
  have hholds' := (bufHolds_iff _ _ _).1 (hasInput_holds h') a ha
  rw [Nat.zero_add] at hholds hholds'
  rw [hholds, hholds']

/-- The two commands of the codec depend on the input alone. -/
theorem exec_codec_reseat {i : Instr} (hi : i = .compress ∨ i = .decompress) (hbusy : s.busy = false)
    (hbusy' : s'.busy = false) (hcfg : s'.cfg = s.cfg) (hlen : s'.inLen = s.inLen)
    (hin : SameInput s'.ib s) :
    (∀ t, exec i s = .next t → exec i s' = .next { t with ib := s'.ib, host := s'.host }) ∧
    ∀ f, exec i s = .fault f → exec i s' = .fault f := by
  rcases hi with rfl | rfl
  · exact wholeCommand_reseat (fun _ _ _ => compressBody_reseat) hbusy hbusy' hcfg hlen hin
  · exact wholeCommand_reseat (fun _ _ _ => decompressBody_reseat) hbusy hbusy' hcfg hlen hin

theorem wholeCommand_ne_refused {io : Bool} {body : State → Except Stop State} {r : Refusal} :
    wholeCommand io body s ≠ .refused r := by
  unfold wholeCommand
  split
  · exact nofun
  split
  · exact nofun
  · cases body (clearDerived (startCommand s)) with
    | ok u => exact nofun
    | error e => cases e <;> exact nofun

theorem exec_codec_ne_refused {i : Instr} (hi : i = .compress ∨ i = .decompress) {r : Refusal} :
    exec i s ≠ .refused r := by
  rcases hi with rfl | rfl <;> exact wholeCommand_ne_refused

/-- What the host takes after either command is a function of the input. -/
theorem callResult_codec {i : Instr} (hi : i = .compress ∨ i = .decompress) (hbusy : s.busy = false)
    (hbusy' : s'.busy = false) (hcfg : s'.cfg = s.cfg) (hin : s.hasInput bs = true)
    (hin' : s'.hasInput bs = true) : callResult (exec i s') = callResult (exec i s) := by
  obtain ⟨hnext, hfault⟩ := exec_codec_reseat hi hbusy hbusy' hcfg
    ((hasInput_inLen hin').trans (hasInput_inLen hin).symm) (sameInput_of_hasInput hin hin')
  cases hexec : exec i s with
  | next t => rw [hnext t hexec]; exact stateResult_reseat t
  | fault f => rw [hfault f hexec]
  | refused r => exact absurd hexec (exec_codec_ne_refused hi)

/-! ### The functions -/

/-- `compress` of an input, in terms of COMPRESS on any state that holds it. -/
theorem compress_eq (hbusy : s.busy = false) (hin : s.hasInput bs = true)
    (hcap : bs.length ≤ s.cfg.ibCap.val) : compress s.cfg bs = callResult (exec .compress s) := by
  rw [compress, compressFrom_eq (s := State.initial s.cfg) rfl hcap]
  exact callResult_codec (.inl rfl) hbusy (loadInput_busy bs _) (loadInput_cfg bs _) hin
    (loadInput_hasInput bs _)

/-- `decompress` of an input, in terms of DECOMPRESS on any state that holds it. -/
theorem decompress_eq (hbusy : s.busy = false) (hin : s.hasInput bs = true)
    (hcap : bs.length ≤ s.cfg.ibCap.val) : decompress s.cfg bs = callResult (exec .decompress s) := by
  rw [decompress, decompressFrom_eq (s := State.initial s.cfg) rfl hcap]
  exact callResult_codec (.inr rfl) hbusy (loadInput_busy bs _) (loadInput_cfg bs _) hin
    (loadInput_hasInput bs _)

theorem writeCMD_keepsInput {c : Byte} (h : writeCMD c s = .next t) : KeepsInput s t := by
  unfold writeCMD at h
  split at h
  · exact exec_keepsInput h
  · cases h
    unfold badCommand
    split
    · exact .refl s
    · exact errorEntry_keepsInput s _ _

/-- The call of a function leaves its input in IB. -/
theorem playScript_call_hasInput {code : Byte} (hbusy : s.busy = false)
    (hcap : bs.length ≤ s.cfg.ibCap.val) (h : playScript (callScript code bs) s = .next t) :
    t.hasInput bs = true := by
  rw [playScript_call hbusy hcap] at h
  have hk := writeCMD_keepsInput h
  exact (hasInput_congr hk.ib hk.inLen bs).trans (loadInput_hasInput bs s)

end

/-- Settles O51: the commands by `exec_codec_reseat`; a call runs its command on the loaded input. -/
theorem codecDependsOnInputAlone : Obligations.CodecDependsOnInputAlone := by
  refine ⟨fun _ _ _ => exec_codec_reseat, fun s bs hbusy hcap => ?_⟩
  have hbusyU : (loadInput bs s).busy = false := (loadInput_busy bs s).trans hbusy
  have hcapU : bs.length ≤ (loadInput bs s).cfg.ibCap.val := by rwa [loadInput_cfg]
  refine ⟨⟨loadInput bs s, hbusyU, loadInput_hasInput bs s, loadInput_cfg bs s, loadInput_host bs s,
    playScript_call hbusy hcap, playScript_call hbusy hcap⟩,
    fun _ _ => playScript_call_hasInput hbusy hcap, ?_, ?_⟩
  · rw [compressFrom_eq hbusy hcap, ← loadInput_cfg bs s]
    exact (compress_eq hbusyU (loadInput_hasInput bs s) hcapU).symm
  · rw [decompressFrom_eq hbusy hcap, ← loadInput_cfg bs s]
    exact (decompress_eq hbusyU (loadInput_hasInput bs s) hcapU).symm

end Sys2Proof.Machine
end

section
/-! SUPPORT. The unit commands in sequence end as COMPRESS and DECOMPRESS do (46_codec R208): a frame starts
from the state the body before it has reached, and an error leaves a stage no later unit command runs in. -/

namespace Sys2Proof.Machine

section
variable {s t u : State} {io : Bool} {st st' : Stage} {body rest : State → Except Stop State}
  {i : Instr} {is : List Instr}

/-! ### One frame after the other -/

/-- The start of the next command undoes the normal end of the one before. -/
theorem startCommand_endCommand (h : Keeps (startCommand s) u) : startCommand (endCommand u) = u := by
  calc startCommand (endCommand u)
      = { u with
          busy := (startCommand s).busy, done := (startCommand s).done, err := (startCommand s).err
          errCode := (startCommand s).errCode, errPos := (startCommand s).errPos
          ret := (startCommand s).ret } := rfl
    _ = u := by rw [← h.busy, ← h.done, ← h.err, ← h.errCode, ← h.errPos, ← h.ret]

theorem runInstrs_cons (h : runInstrs (i :: is) s = .next t) :
    ∃ u, exec i s = .next u ∧ runInstrs is u = .next t := by
  unfold runInstrs at h
  split at h
  · exact ⟨_, ‹_›, h⟩
  · cases h
  · cases h

theorem runInstrs_single (i : Instr) (s : State) : runInstrs [i] s = exec i s := by
  unfold runInstrs
  cases exec i s <;> rfl

/-- A unit command that does not end in the error entry has run its body, in its stage and on a legal
length (60_exceptions R221). -/
theorem unitCommand_completes (hbusy : s.busy = false) (h : unitCommand io st body s = .next t)
    (hend : ∀ c pos, t ≠ errorEntry s c pos) :
    (io = true → s.inLen ≤ s.cfg.ibCap.val) ∧ s.stage = st ∧
      ∃ u, body (startCommand s) = .ok u ∧ t = endCommand u := by
  rcases unitCommand_next h with
    ⟨hs, -⟩ | ⟨-, ⟨-, -, hlen⟩ | ⟨-, -, hseq⟩ | ⟨hlen, hstage, hok | ⟨c, pos, -, hraise⟩⟩⟩
  · cases hbusy.symm.trans hs
  · exact absurd hlen (hend _ _)
  · exact absurd hseq (hend _ _)
  · exact ⟨hlen, hstage, hok⟩
  · exact absurd hraise (hend _ _)

/-! ### Sequences of unit commands -/

/-- A sequence of unit commands that ends without error has run `body` from stage `st`; `io` says whether
its first command reads IB. -/
def RunsBody (is : List Instr) (io : Bool) (st : Stage) (body : State → Except Stop State) : Prop :=
  ∀ s t, s.busy = false → runInstrs is s = .next t → t.err = false →
    (io = true → s.inLen ≤ s.cfg.ibCap.val) ∧ s.stage = st ∧
      ∃ u, body (startCommand s) = .ok u ∧ t = endCommand u

theorem RunsBody.single (hexec : exec i = unitCommand io st body) : RunsBody [i] io st body := by
  intro s t hbusy hrun herr
  rw [runInstrs_single, hexec] at hrun
  refine unitCommand_completes hbusy hrun ?_
  rintro c pos rfl
  cases herr

/-- A command in front: the stage the rest runs in shows that it has not ended in the error entry. -/
theorem RunsBody.cons {io' : Bool} (hexec : exec i = unitCommand io st body) (hends : BodyEnds body st')
    (hst' : st' ≠ .clear) (hrest : RunsBody is io' st' rest) :
    RunsBody (i :: is) io st (fun s => body s >>= rest) := by
  intro s t hbusy hrun herr
  obtain ⟨v, hv, hrun⟩ := runInstrs_cons hrun
  rw [hexec] at hv
  have hbusyV : v.busy = false := by
    rcases unitCommand_ends hbusy hends hv with hn | ⟨c, pos, -, rfl⟩
    · exact hn.busy
    · rfl
  obtain ⟨-, hstage, u, hu, ht⟩ := hrest v t hbusyV hrun herr
  obtain ⟨hlen, hst, w, hw, rfl⟩ := unitCommand_completes hbusy hv (by
    rintro c pos rfl
    exact hst' hstage.symm)
  rw [startCommand_endCommand (hends.keeps hw)] at hu
  exact ⟨hlen, hst, u, bind_eq_ok.2 ⟨w, hw, hu⟩, ht⟩

theorem encode_runsBody :
    RunsBody [.fcount, .tbuild, .cgen, .pack, .serial] true .clear compressBody :=
  .cons rfl fcountBody_ends (by decide) <| .cons rfl tbuildBody_ends (by decide) <|
    .cons rfl cgenBody_ends (by decide) <| .cons rfl packBody_ends (by decide) <| .single rfl

/-! ### The whole commands where nothing is derived -/

theorem wholeCommand_clear (hbusy : s.busy = false) (hlen : s.inLen ≤ s.cfg.ibCap.val)
    (hclear : s.derivedClear) :
    wholeCommand true body s = settleCommand (startCommand s) (body (startCommand s)) := by
  rw [wholeCommand_eq hbusy fun _ => hlen, startCommand_derivedClear hclear]

theorem wholeCommand_oversize (hbusy : s.busy = false) (hlen : s.cfg.ibCap.val < s.inLen) :
    wholeCommand true body s = .next (errorEntry s .len 0) := by
  rw [wholeCommand, hbusy, if_neg (by decide), if_pos (by simpa using hlen), errorEntry_startCommand]

theorem errorEntry_congr (h : KeepsInput s t) (c : ErrCode) (pos : Nat) :
    errorEntry t c pos = errorEntry s c pos := by
  simp only [errorEntry, clearDerived, h.ib, h.inLen, h.cfg, h.host]

theorem settleCommand_congr (h : KeepsInput s t) (r : Except Stop State) :
    settleCommand t r = settleCommand s r := by
  cases r with
  | ok u => rfl
  | error e =>
    cases e with
    | raise c pos => exact congrArg Host.Outcome.next (errorEntry_congr h c pos)
    | fault f => rfl

/-! ### PARSE and UNPACK -/

/-- How PARSE ends where nothing is derived: the stage test passes. -/
theorem exec_parse_next (hbusy : s.busy = false) (hclear : s.derivedClear) (h : exec .parse s = .next t) :
    (s.cfg.ibCap.val < s.inLen ∧ t = errorEntry s .len 0) ∨
    (s.inLen ≤ s.cfg.ibCap.val ∧
      ((∃ u, parseBody (startCommand s) = .ok u ∧ t = endCommand u) ∨
        ∃ c pos, parseBody (startCommand s) = .error (.raise c pos) ∧ t = errorEntry s c pos)) := by
  have hstage : s.stage = .clear := (congrArg State.stage hclear).symm
  rcases unitCommand_next h with ⟨hs, -⟩ | ⟨-, ⟨-, hlen, ht⟩ | ⟨-, hst, -⟩ | ⟨hlen, -, hend⟩⟩
  · cases hbusy.symm.trans hs
  · exact .inl ⟨hlen, ht⟩
  · exact absurd hstage hst
  · exact .inr ⟨hlen rfl, hend⟩

/-- Where PARSE raises, DECOMPRESS ends as PARSE does. -/
theorem exec_decompress_parseError (hbusy : s.busy = false) (hclear : s.derivedClear)
    (h : exec .parse s = .next t) (herr : t.err = true) : exec .decompress s = .next t := by
  show wholeCommand true decompressBody s = _
  rcases exec_parse_next hbusy hclear h with ⟨hlen, rfl⟩ | ⟨hlen, ⟨u, hu, rfl⟩ | ⟨c, pos, hraise, rfl⟩⟩
  · exact wholeCommand_oversize hbusy hlen
  · cases herr.symm.trans (parseBody_keeps hu).err
  · rw [wholeCommand_clear hbusy hlen hclear, decompressBody, hraise]
    rfl

/-- Where PARSE completes, UNPACK after it is the rest of DECOMPRESS. -/
theorem exec_unpack_parsed (hbusy : s.busy = false) (hclear : s.derivedClear)
    (hlen : s.inLen ≤ s.cfg.ibCap.val) (hu : parseBody (startCommand s) = .ok u) :
    exec .unpack (endCommand u) = exec .decompress s := by
  have hk : Keeps (startCommand s) u := parseBody_keeps hu
  have hstage : u.stage = .parsed := parseBody_ends.stage hu
  have hlenU : u.inLen ≤ u.cfg.ibCap.val := by rwa [hk.inLen, hk.cfg]
  show _ = wholeCommand true decompressBody s
  rw [wholeCommand_clear hbusy hlen hclear, execUnpack_eq (s := endCommand u) rfl hstage hlenU,
    startCommand_endCommand hk, decompressBody, hu]
  exact settleCommand_congr hk.keepsInput _

/-- After an error of PARSE, UNPACK is out of sequence, or the length is too long for both. -/
theorem exec_unpack_errorEntry {c : ErrCode} {pos : Nat}
    (h : exec .unpack (errorEntry s c pos) = .next t) (hseq : t.errCode ≠ .seq) :
    s.cfg.ibCap.val < s.inLen ∧ t = errorEntry s .len 0 := by
  replace h : unitCommand true .parsed unpackBody (errorEntry s c pos) = .next t := h
  rcases unitCommand_next h with ⟨hs, -⟩ | ⟨-, ⟨-, hlen, ht⟩ | ⟨-, -, rfl⟩ | ⟨-, hst, -⟩⟩
  · cases hs
  · exact ⟨hlen, ht⟩
  · exact absurd rfl hseq
  · cases hst

end

/-- Settles O52: the five encode commands are `encode_runsBody`; UNPACK after PARSE by how PARSE ended. -/
theorem unitCommandsAgreeWithCodec : Obligations.UnitCommandsAgreeWithCodec := by
  intro s hbusy hclear
  refine ⟨fun t hrun herr => ?_, fun t hrun hseq => ?_, fun t => exec_decompress_parseError hbusy hclear⟩
  · obtain ⟨hlen, -, u, hu, rfl⟩ := encode_runsBody s t hbusy hrun herr
    exact (wholeCommand_clear hbusy (hlen rfl) hclear).trans (by rw [hu]; rfl)
  · obtain ⟨v, hparse, hunpack⟩ := runInstrs_cons hrun
    rw [runInstrs_single] at hunpack
    rcases exec_parse_next hbusy hclear hparse with
      ⟨-, rfl⟩ | ⟨hlen, ⟨u, hu, rfl⟩ | ⟨c, pos, -, rfl⟩⟩
    · obtain ⟨-, rfl⟩ := exec_unpack_errorEntry hunpack hseq
      exact exec_decompress_parseError hbusy hclear hparse rfl
    · rw [← exec_unpack_parsed hbusy hclear hlen hu, hunpack]
    · exact absurd (exec_unpack_errorEntry hunpack hseq).1 (Nat.not_lt.2 hlen)

end Sys2Proof.Machine
end

section
/-! SUPPORT. What COMPRESS leaves (46_codec R204, R206, R209): the counts, the tree and the codes of its input,
no more than 8 payload bits for each byte of it, and the container of the tree and the coded input in OB. -/

namespace Sys2Proof.Machine

/-! ### The tables of an input -/

/-- The tables hold the counts, the tree and the codes of an input, which code it in at most 8 bits a byte
(46_codec R204, R206). -/
structure Coded (s : State) (tr : Option Tree) (bs : List Byte) : Prop where
  counts : ∀ sym, readFT s sym = bs.count sym
  nsym : s.nsym = bs.dedup.length
  root : holdsRoot s tr = true
  leaves : ((tr.map treeLeaves).getD []).Perm bs.dedup
  codes : ∀ c ∈ (tr.map rootCodes).getD [], readCT s c.1 = c.2
  bits : (payloadBits s bs).length ≤ 8 * bs.length

/-- `Coded` reads FT, CT, the arena and its registers only. -/
theorem Coded.congr {s t : State} {tr : Option Tree} {bs : List Byte} (h : Coded s tr bs)
    (hft : t.ft = s.ft) (hct : t.ct = s.ct) (hnode : t.node = s.node) (hnnode : t.nnode = s.nnode)
    (hroot : t.root = s.root) (hnsym : t.nsym = s.nsym) : Coded t tr bs := by
  have hFT : readFT t = readFT s := by funext sym; simp only [readFT, hft]
  have hCT : readCT t = readCT s := by funext sym; simp only [readCT, hct]
  refine ⟨by rw [hFT]; exact h.counts, hnsym.trans h.nsym,
    (holdsRoot_congr hnode hnnode hroot tr).trans h.root, h.leaves, by rw [hCT]; exact h.codes, ?_⟩
  rw [payloadBits, hCT]
  exact h.bits

section
variable {s : State} {bs : List Byte}

theorem Coded.mem_leaves {x : Tree} (h : Coded s (some x) bs) {b : Byte} : b ∈ treeLeaves x ↔ b ∈ bs :=
  h.leaves.mem_iff.trans List.mem_dedup

theorem Coded.leaves_le {tr : Option Tree} (h : Coded s tr bs) : ∀ x ∈ tr, (treeLeaves x).length ≤ 256 := by
  rintro x rfl
  refine h.leaves.length_eq.trans_le ?_
  exact (dedup_length_le_of_counts h.counts).trans (min_le_left _ _)

theorem Coded.eq_nil (h : Coded s none bs) : bs = [] :=
  (List.dedup_eq_nil bs).1 h.leaves.symm.eq_nil

/-! ### The bits of the coded input -/

/-- The code bits of an input, symbol by symbol. -/
theorem payloadBits_length_counts {syms : List Byte} (hnodup : syms.Nodup) (hmem : ∀ b ∈ bs, b ∈ syms) :
    (payloadBits s bs).length = (syms.map fun sym => bs.count sym * (readCT s sym).length).sum := by
  rw [payloadBits_length, Finset.sum_list_map_count, ← List.sum_toFinset _ hnodup]
  refine Finset.sum_subset (fun b hb => ?_) fun b _ hb => ?_
  · exact List.mem_toFinset.2 (hmem b (List.mem_toFinset.1 hb))
  · rw [List.count_eq_zero_of_not_mem fun h => hb (List.mem_toFinset.2 h), zero_smul]

/-- A lone leaf costs a bit for each occurrence, any other tree what its merges cost. -/
theorem rootCodes_cost_le {w : Byte → Nat} {tr : Tree} (h : treeCost w tr ≤ 8 * treeWeight w tr) :
    ((rootCodes tr).map fun c => w c.1 * c.2.length).sum ≤ 8 * treeWeight w tr := by
  cases tr with
  | leaf sym =>
    show w sym * 1 + 0 ≤ 8 * w sym
    omega
  | node l r =>
    have hcost := treeCost_codes w (.node l r) []
    rw [List.length_nil, Nat.zero_mul, Nat.zero_add] at hcost
    exact hcost.trans_le h

/-- The codes of a tree over the symbols of an input code it in at most 8 bits a byte where the tree's
merges cost no more. -/
theorem payloadBits_length_le {tr : Tree} (hleaves : (treeLeaves tr).Perm bs.dedup)
    (hcodes : ∀ c ∈ rootCodes tr, readCT s c.1 = c.2)
    (hcost : treeCost (bs.count ·) tr ≤ 8 * treeWeight (bs.count ·) tr) :
    (payloadBits s bs).length ≤ 8 * bs.length := by
  have hnodup : (treeLeaves tr).Nodup := hleaves.nodup_iff.2 bs.nodup_dedup
  have hmem : ∀ b ∈ bs, b ∈ treeLeaves tr := fun b hb => hleaves.mem_iff.2 (List.mem_dedup.2 hb)
  have hweight : treeWeight (bs.count ·) tr = bs.length :=
    (treeWeight_leaves _ tr).trans (sum_count hnodup hmem)
  calc (payloadBits s bs).length
      = ((treeLeaves tr).map fun sym => bs.count sym * (readCT s sym).length).sum :=
        payloadBits_length_counts hnodup hmem
    _ = ((rootCodes tr).map fun c => bs.count c.1 * c.2.length).sum := by
        rw [← rootCodes_symbols, List.map_map]
        exact congrArg List.sum (List.map_congr_left fun c hc => by rw [Function.comp, hcodes c hc])
    _ ≤ 8 * bs.length := hweight ▸ rootCodes_cost_le hcost

end

/-! ### FCOUNT, TBUILD and CGEN -/

/-- The merges of TBUILD cost at most 8 bits a byte (46_codec R206). -/
theorem Built.cost_le {s t u v : State} {f : Nat → Tree} (h : Built s t u v f) {tr : Tree}
    (hroot : Machine.holdsRoot t (some tr) = true) :
    treeCost (readFT s) tr ≤ 8 * treeWeight (readFT s) tr := by
  simp only [Machine.holdsRoot, Bool.and_eq_true, decide_eq_true_eq] at hroot
  obtain ⟨hne, htr⟩ := hroot
  obtain ⟨-, -, hf, hleaves, -, -, hcost, -⟩ := built_tree h fun he => hne (built_empty h he).1
  obtain rfl := holdsTree_unique htr hf
  rw [treeWeight_leaves, (hleaves.map (readFT s)).sum_eq]
  exact hcost

/-- CGEN's table holds the code of each leaf of a tree whose leaves carry different symbols. -/
theorem readCT_rootCodes {s : State} {tr : Option Tree} (h : ((tr.map treeLeaves).getD []).Nodup) :
    ∀ c ∈ (tr.map rootCodes).getD [], readCT (writeCodes s ((tr.map rootCodes).getD [])) c.1 = c.2 := by
  refine (readCT_writeCodes ?_ s).1
  cases tr with
  | none => exact List.nodup_nil
  | some x => exact (rootCodes_symbols x).symm ▸ h

/-- The first three steps of COMPRESS on a written input (46_codec R204). -/
theorem encodeTables_coded {s : State} {bs : List Byte} (hin : s.hasInput bs = true)
    (hclear : s.derivedClear) :
    ∃ a b c tr, fcountBody s = .ok a ∧ tbuildBody a = .ok b ∧ cgenBody b = .ok c ∧ Coded c tr bs := by
  have hft : s.ft = Vector.replicate 256 0 := (congrArg State.ft hclear).symm
  have hpq : s.pq = [] := (congrArg State.pq hclear).symm
  obtain ⟨a, ha, hcounts, hnsym, harest⟩ := fcountBody_eq hin (readFT_zero hft)
  obtain ⟨b, v, w, f, hb, hbuilt⟩ := tbuildBody_eq (s := a) (by rw [harest]; exact hpq)
  obtain ⟨tr, hroot, hperm⟩ := hbuilt.holdsRoot
  have hleaves := hperm.trans (presentSymbols_perm hcounts)
  have hle : ∀ x ∈ tr, (treeLeaves x).length ≤ 256 := by
    rintro x rfl
    exact hperm.length_eq.trans_le (presentSymbols_length_le a)
  have hc := cgenBody_root hroot (tree_bounds hle).1
  have hcodes := readCT_rootCodes (s := b) (hleaves.nodup_iff.2 bs.nodup_dedup)
  have hFT : readFT b = readFT a := by rw [hbuilt.rest]; rfl
  have hcoded : Coded (writeCodes b ((tr.map rootCodes).getD [])) tr bs := by
    have hrest := writeCodes_rest b ((tr.map rootCodes).getD [])
    refine ⟨fun sym => ?_, ?_, ?_, hleaves, hcodes, ?_⟩
    · rw [hrest]
      exact (congrFun hFT sym).trans (hcounts sym)
    · rw [hrest, hbuilt.rest]
      exact hnsym
    · rw [← hroot]
      exact holdsRoot_congr (by rw [hrest]) (by rw [hrest]) (by rw [hrest]) tr
    · cases tr with
      | none =>
        rw [(List.dedup_eq_nil bs).1 hleaves.symm.eq_nil]
        exact Nat.le_refl 0
      | some x =>
        refine payloadBits_length_le hleaves hcodes ?_
        have hcost := hbuilt.cost_le hroot
        rwa [funext hcounts] at hcost
  exact ⟨a, b, _, tr, ha, hb, hc, hcoded.congr rfl rfl rfl rfl rfl rfl⟩

/-! ### PACK and SERIAL -/

/-- The end of COMPRESS: the tables of the input and its container (46_codec R204). -/
structure Encoded (s : State) (tr : Option Tree) (bs : List Byte) : Prop where
  coded : Coded s tr bs
  vbits : s.vbits = (payloadBits s bs).length
  compressed : Compressed s tr (packBits (payloadBits s bs))

/-- The last two steps of COMPRESS: PB and OB have room for 8 bits a byte (46_codec R204, R206). -/
theorem packSerial_encoded {s : State} {tr : Option Tree} {bs : List Byte} (h : Coded s tr bs)
    (hin : s.hasInput bs = true) (hcap : bs.length ≤ s.cfg.ibCap.val) :
    ∃ d u, packBody s = .ok d ∧ serialBody d = .ok u ∧ Encoded u tr bs := by
  have hpb : ceil8 (payloadBits s bs).length ≤ s.cfg.pbCap :=
    (ceil8_le _ _).2 (h.bits.trans (Nat.mul_le_mul_left 8 hcap))
  obtain ⟨hdepth, hbits⟩ := tree_bounds h.leaves_le
  obtain ⟨d, hd, hvbits, hpayLen, hholds, -, hdrest⟩ := packBody_fits hin hpb
  have hcodedD : Coded d tr bs := by
    apply h.congr <;> rw [hdrest]
  obtain ⟨u, hu, hserial⟩ := serialBody_eq hcodedD.root hdepth hbits (by rw [hpayLen, packBits_length])
    hholds (by rw [hpayLen, hdrest]; exact hpb)
  have hcodedU : Coded u tr bs := by
    apply hcodedD.congr <;> rw [hserial.rest]
  have hpayload : payloadBits u bs = payloadBits s bs := by
    rw [hserial.rest, hdrest]
    rfl
  refine ⟨d, u, hd, hu, hcodedU, ?_, ?_⟩
  · rw [hpayload, ← hvbits, hserial.rest]
  · rw [hpayload]
    exact packSerial_compressed hin h.root h.leaves_le hd hu

/-! ### COMPRESS -/

theorem compressBody_encoded {s : State} {bs : List Byte} (hin : s.hasInput bs = true)
    (hclear : s.derivedClear) (hcap : bs.length ≤ s.cfg.ibCap.val) :
    ∃ u tr, compressBody s = .ok u ∧ Encoded u tr bs := by
  obtain ⟨a, b, c, tr, ha, hb, hc, hcoded⟩ := encodeTables_coded hin hclear
  have hk : Keeps s c := (fcountBody_keeps ha).trans ((tbuildBody_keeps hb).trans (cgenBody_keeps hc))
  obtain ⟨d, u, hd, hu, henc⟩ := packSerial_encoded hcoded
    ((hasInput_congr hk.ib hk.inLen bs).trans hin) (by rwa [hk.cfg])
  exact ⟨u, tr, by rw [compressBody, ha, ok_bind, hb, ok_bind, hc, ok_bind, hd, ok_bind, hu], henc⟩

/-- COMPRESS ends without error on a legal input (46_codec R209). -/
theorem exec_compress_encoded {s : State} {bs : List Byte} (hbusy : s.busy = false)
    (hin : s.hasInput bs = true) (hcap : bs.length ≤ s.cfg.ibCap.val) :
    ∃ t tr, exec .compress s = .next t ∧ NormalEnd t .cdone ∧ Encoded t tr bs := by
  obtain ⟨u, tr, hbody, h⟩ := compressBody_encoded (s := clearDerived (startCommand s)) hin
    (clearDerived_clearDerived _) hcap
  have hk := (clearDerived_startCommand_keeps s).trans (compressBody_keeps hbody)
  have hlen : s.inLen ≤ s.cfg.ibCap.val := hasInput_inLen hin ▸ hcap
  exact ⟨endCommand u, tr, wholeCommand_of_body hbusy (fun _ => hlen) hbody,
    endCommand_normalEnd hk (compressBody_ends.stage hbody),
    h.coded.congr rfl rfl rfl rfl rfl rfl, h.vbits, { h.compressed with }⟩

/-- What the host takes after COMPRESS. -/
theorem compress_encoded {s t : State} {tr : Option Tree} {bs : List Byte} (hbusy : s.busy = false)
    (hin : s.hasInput bs = true) (hcap : bs.length ≤ s.cfg.ibCap.val) (hexec : exec .compress s = .next t)
    (herr : t.err = false) (h : Encoded t tr bs) :
    compress s.cfg bs = .bytes (containerBytes (packBits (rootBits tr)) t.vbits
      (packBits (payloadBits t bs))) := by
  rw [compress_eq hbusy hin hcap, hexec]
  exact stateResult_bytes herr h.compressed.outLen h.compressed.container

/-! ### The sizes (46_codec R209) -/

/-- The bytes of the description of a tree with `n` leaves. -/
theorem ceil8_rootBits (tr : Option Tree) {n : Nat} (hn : ((tr.map treeLeaves).getD []).length = n) :
    ceil8 (rootBits tr).length = if n = 0 then 0 else ceil8 (10 * n - 1) := by
  subst hn
  cases tr with
  | none => rfl
  | some x =>
    have hpos := List.length_pos_iff.2 (treeLeaves_ne_nil x)
    exact (congrArg ceil8 (Nat.eq_sub_of_add_eq (treeBits_length x))).trans
      (if_neg (Nat.ne_of_gt hpos)).symm

section
variable {s : State} {tr : Option Tree} {bs : List Byte}

theorem Encoded.tdLen (h : Encoded s tr bs) :
    s.tdLen = if s.nsym = 0 then 0 else ceil8 (10 * s.nsym - 1) := by
  rw [h.compressed.tdLen, packBits_length]
  exact ceil8_rootBits tr (h.coded.leaves.length_eq.trans h.coded.nsym.symm)

theorem Encoded.payLen (h : Encoded s tr bs) :
    s.payLen = ceil8 s.vbits := by
  rw [h.compressed.payLen, h.compressed.payload_length]

theorem Encoded.outLen (h : Encoded s tr bs) :
    s.outLen = 8 + s.tdLen + s.payLen := by
  rw [h.compressed.outLen, containerBytes_length, h.compressed.tdLen, h.compressed.payLen]

theorem Encoded.vbits_le (h : Encoded s tr bs) :
    s.vbits ≤ 8 * bs.length := h.vbits.trans_le h.coded.bits

theorem Encoded.outLen_le (h : Encoded s tr bs) :
    s.outLen ≤ bs.length + 328 := by
  have htd : s.tdLen ≤ 320 := by
    rw [h.compressed.tdLen, packBits_length, ceil8_le]
    exact (tree_bounds h.coded.leaves_le).2
  have hpay : s.payLen ≤ bs.length := by
    rw [h.payLen, ceil8_le]
    exact h.vbits_le
  rw [h.outLen]
  omega

end

/-- Settles O46: the body of COMPRESS ends, and its sizes are those of `Encoded`. -/
theorem compressNeverFails : Obligations.CompressNeverFails := by
  intro s bs hbusy hin hcap
  obtain ⟨t, tr, hexec, hn, h⟩ := exec_compress_encoded hbusy hin hcap
  exact ⟨t, hexec, statusWord_normalEnd hn, hn.errCode, h.vbits_le, h.coded.nsym, h.tdLen, h.payLen,
    h.outLen, h.outLen_le, _, compress_encoded hbusy hin hcap hexec hn.err h, h.compressed.outLen.symm,
    h.compressed.container⟩

/-- Settles O47: the parts of `Encoded`. -/
theorem compressWritesContainer : Obligations.CompressWritesContainer := by
  intro s t bs hbusy hin hcap hexec _
  obtain ⟨t', tr, hexec', -, h⟩ := exec_compress_encoded hbusy hin hcap
  cases hexec.symm.trans hexec'
  refine ⟨h.coded.counts, tr, h.coded.root, h.coded.leaves, ?_, ?_,
    h.vbits.trans (payloadBits_length t bs), h.compressed.outLen, h.compressed.container⟩
  · rintro sym rfl
    exact h.coded.codes (sym, [false]) (List.mem_singleton_self _)
  · rintro l r rfl
    exact h.coded.codes

end Sys2Proof.Machine
end

section
/-! SUPPORT. PARSE and UNPACK on a written input (45_container R180, 44_bit_reader R163): neither stops in a
model fault, and what PARSE leaves, UNPACK decodes or rejects with ERR_MIDCODE. -/

namespace Sys2Proof.Machine

/-- Every byte of the input holds a value (70_reset_and_hazards R244). -/
abbrev InputWritten (s : State) : Prop := ∀ a < s.inLen, ∃ b, bufRead s.ib a = some b

section
variable {s t u : State} {f : Fault} {tr : Option Tree} {c : List Byte}

theorem inputWritten_of_hasInput (h : s.hasInput c = true) : InputWritten s := by
  intro a ha
  rw [hasInput_inLen h] at ha
  have hread := (bufHolds_iff _ _ _).1 (hasInput_holds h) a ha
  rw [Nat.zero_add] at hread
  exact ⟨_, hread⟩

theorem InputWritten.congr (h : InputWritten s) (hib : t.ib = s.ib) (hlen : t.inLen = s.inLen) :
    InputWritten t := by
  rw [InputWritten, hib, hlen]
  exact h

/-! ### Reading a written input -/

theorem memReadByte_written (h : InputWritten s) {a : Nat} (ha : a < s.inLen) :
    ∃ b, memReadByte s .ib a = .ok b := by
  obtain ⟨b, hb⟩ := h a ha
  exact ⟨b, memReadByte_ok.2 hb⟩

theorem readField32_written (h : InputWritten s) {a : Nat} (ha : a + 4 ≤ s.inLen) :
    ∃ w, readField32 s a = .ok w := by
  obtain ⟨b0, h0⟩ := memReadByte_written h (show a < s.inLen by omega)
  obtain ⟨b1, h1⟩ := memReadByte_written h (show a + 1 < s.inLen by omega)
  obtain ⟨b2, h2⟩ := memReadByte_written h (show a + 2 < s.inLen by omega)
  obtain ⟨b3, h3⟩ := memReadByte_written h (show a + 3 < s.inLen by omega)
  exact ⟨unbe32 b0 b1 b2 b3, by simp only [readField32, h0, h1, h2, h3, ok_bind]⟩

theorem readerGet_written (h : InputWritten s) (hr : ReaderInside s) (hlt : s.br.pos < s.br.limit) :
    ∃ b, readerGet s = .ok (b, skipBits 1 s) := by
  simp only [ReaderInside, ceil8] at hr
  obtain ⟨y, hy⟩ := memReadByte_written h (show s.br.base + s.br.pos / 8 < s.inLen by omega)
  exact ⟨_, by rw [readerGet, if_pos hlt, hy]; rfl⟩

theorem readerGetBits_written {n : Nat} : ∀ {v : Nat} {s : State}, InputWritten s → ReaderInside s →
    s.br.pos + n ≤ s.br.limit → ∃ r, readerGetBits n v s = .ok r := by
  induction n with
  | zero => exact fun _ _ _ => ⟨_, rfl⟩
  | succ n ih =>
    intro v s h hr hle
    obtain ⟨b, hb⟩ := readerGet_written h hr (by omega)
    rw [readerGetBits, hb, ok_bind]
    exact ih (s := skipBits 1 s) h hr (show s.br.pos + 1 + n ≤ s.br.limit by omega)

/-! ### PARSE -/

theorem nodeDue_fault : nodeDue s ≠ .error (.fault f) := by
  unfold nodeDue
  split
  · exact nofun
  split <;> exact nofun

/-- DES.NODE inside a written input stops in no model fault: what it reads is written and what it allocates
is an entry of the arena (45_container R182). -/
theorem deserNode_fault {fuel : Nat} : ∀ {s : State}, InputWritten s → ReaderInside s →
    deserNode fuel s ≠ .error (.fault f) := by
  induction fuel with
  | zero =>
    intro s _ _ h
    rcases bind_eq_error.1 h with h | ⟨_, _, h⟩
    · exact nodeDue_fault h
    · cases h
  | succ fuel ih =>
    intro s hw hr h
    rcases bind_eq_error.1 h with h | ⟨_, hdue, h⟩
    · exact nodeDue_fault h
    obtain ⟨hlt, hn⟩ := nodeDue_ok.1 hdue
    obtain ⟨b, hb⟩ := readerGet_written hw hr hlt
    rw [hb, ok_bind] at h
    cases b with
    | true =>
      simp only [if_true] at h
      split at h
      · cases h
      · rename_i hrem
        simp only [readerRem, skipBits_br] at hrem
        obtain ⟨⟨v, t⟩, hv⟩ := readerGetBits_written (n := 8) (v := 0) (s := skipBits 1 s) hw hr
          (show s.br.pos + 1 + 8 ≤ s.br.limit by omega)
        obtain ⟨-, -, -, -, -, rfl⟩ := readerGetBits_ok hv
        rw [hv, ok_bind, placeLeaf_eq (s := skipBits 8 (skipBits 1 s)) _ hn] at h
        cases h
    | false =>
      simp only [Bool.false_eq_true, if_false, placeInternal] at h
      rw [allocNode_eq (s := skipBits 1 s) hn, ok_bind] at h
      rcases bind_eq_error.1 h with h | ⟨⟨l, a⟩, hl, h⟩
      · exact ih (s := allocated Node.zero (skipBits 1 s)) hw hr h
      obtain ⟨-, x, -, -, -, hx⟩ := deserNode_ok hl
      have hk := deserNode_keeps hl
      rcases bind_eq_error.1 h with h | ⟨⟨r, b⟩, -, h⟩
      · refine ih (s := a) ?_ ?_ h
        · exact InputWritten.congr (s := allocated Node.zero (skipBits 1 s)) hw hk.ib hk.inLen
        · rw [ReaderInside, hx.br, hk.inLen]
          exact hr
      rw [readNode_eq (i := (skipBits 1 s).nnode) hn, ok_bind,
        writeNode_eq (i := (skipBits 1 s).nnode) _ hn] at h
      cases h

theorem headerField_fault {w : Word} : headerField w s ≠ .error (.fault f) := by
  unfold headerField
  split
  · exact nofun
  split
  · exact nofun
  split <;> exact nofun

theorem parseTree_fault (h : InputWritten s) (hlen : 4 + s.tdLen ≤ s.inLen) :
    parseTree s ≠ .error (.fault f) := by
  intro hf
  unfold parseTree at hf
  split at hf
  · rcases bind_eq_error.1 hf with hf | ⟨⟨r, t⟩, -, hf⟩
    · refine deserNode_fault (s := readerInit 4 (8 * s.tdLen) s) h ?_ hf
      show 4 + ceil8 (8 * s.tdLen) ≤ s.inLen
      rwa [ceil8_mul]
    · simp only at hf
      split at hf <;> cases hf
  · cases hf

theorem metadataField_fault {w : Word} : metadataField w s ≠ .error (.fault f) := by
  unfold metadataField checkPayload
  split
  · exact nofun
  split
  · exact nofun
  split
  · exact nofun
  split <;> exact nofun

/-- PARSE on a written input stops in no model fault. -/
theorem parseBody_fault (h : InputWritten s) : parseBody s ≠ .error (.fault f) := by
  intro hf
  unfold parseBody at hf
  split at hf
  · cases hf
  obtain ⟨w, hw⟩ := readField32_written h (a := 0) (by omega)
  rw [hw, ok_bind] at hf
  rcases bind_eq_error.1 hf with hf | ⟨v, hv, hf⟩
  · exact headerField_fault hf
  obtain ⟨hlen, rfl⟩ := headerField_ok hv
  rcases bind_eq_error.1 hf with hf | ⟨u, hu, hf⟩
  · exact parseTree_fault (s := { s with tdLen := w.toNat }) h (by simp only; omega) hf
  have hk := parseTree_keeps hu
  have htd : u.tdLen = w.toNat := parseTree_tdLen hu
  obtain ⟨x, hx⟩ := readField32_written (h.congr hk.ib hk.inLen) (a := 4 + u.tdLen)
    (by rw [hk.inLen, htd]; simp only; omega)
  rw [hx, ok_bind] at hf
  exact metadataField_fault hf

/-- The tree block leaves a tree at ROOT, or there is none (45_container R180). -/
theorem parseTree_root (hn : s.nnode = 0) (h : parseTree s = .ok t) : ∃ tr, holdsRoot t tr = true := by
  unfold parseTree at h
  split at h
  · obtain ⟨⟨r, u⟩, hu, h⟩ := bind_eq_ok.1 h
    obtain ⟨rfl, x, hsize, -, -, hx⟩ := deserNode_ok hu
    simp only at h
    split at h
    · cases h
    · cases h
      have hpos := treeSize_pos x
      have hnode : u.nnode ≠ 0 := by rw [hx.nnode]; omega
      have hheld := placedAt_holds hx.placed hsize
      refine ⟨some x, ?_⟩
      simp only [holdsRoot, Bool.and_eq_true, decide_eq_true_eq]
      refine ⟨hnode, ?_⟩
      rw [← hheld]
      apply holdsTree_node_congr
      rfl
  · cases h
    exact ⟨none, decide_eq_true hn⟩

theorem parseBody_root (hclear : s.derivedClear) (h : parseBody s = .ok u) :
    ∃ tr, holdsRoot u tr = true := by
  unfold parseBody at h
  split at h
  · cases h
  obtain ⟨w, -, h⟩ := bind_eq_ok.1 h
  obtain ⟨v, hv, h⟩ := bind_eq_ok.1 h
  obtain ⟨-, rfl⟩ := headerField_ok hv
  obtain ⟨t, ht, h⟩ := bind_eq_ok.1 h
  obtain ⟨x, -, h⟩ := bind_eq_ok.1 h
  obtain ⟨-, -, -, -, rfl⟩ := metadataField_ok h
  have hn : s.nnode = 0 := derivedClear_nnode hclear
  obtain ⟨tr, htr⟩ := parseTree_root (s := { s with tdLen := w.toNat }) hn ht
  refine ⟨tr, ?_⟩
  rw [← htr]
  apply holdsRoot_congr <;> rfl

/-! ### UNPACK -/

/-- The valid bits of the payload, the input being `c` (44_bit_reader R163). -/
def validBits (s : State) (c : List Byte) : List Bool := (unpackBits (c.drop s.payOff)).take s.vbits

/-- The reader of the payload holds the valid bits. -/
theorem readerHolds_validBits (hin : s.hasInput c = true) (hpay : s.payOff + ceil8 s.vbits ≤ s.inLen) :
    (validBits s c).length = s.vbits ∧
      readerHolds (readerInit s.payOff s.vbits s) 0 (validBits s c) = true := by
  have hlen := hasInput_inLen hin
  have hholds := hasInput_holds hin
  rw [← List.take_append_drop s.payOff c, bufHolds_append, List.length_take_of_le (by omega),
    Nat.zero_add] at hholds
  refine ⟨?_, readerHolds_prefix (List.take_prefix _ _) (readerHolds_block hholds.2)⟩
  rw [validBits, List.length_take_of_le]
  rw [unpackBits_length, List.length_drop, ← ceil8_le]
  omega

/-- A payload of an input has no more bits than OB bytes (00_scope R4). -/
theorem vbits_le_obCap (hcap : s.inLen ≤ s.cfg.ibCap.val) (hpay : s.payOff + ceil8 s.vbits ≤ s.inLen) :
    s.vbits ≤ s.cfg.obCap := by
  simp only [ceil8, Config.obCap] at *
  omega

/-- UNPACK behind PARSE: the valid bits decode, and their symbols stand in OB, or they end inside a code. -/
theorem unpackBody_input (hroot : holdsRoot s tr = true) (hin : s.hasInput c = true)
    (hcap : s.inLen ≤ s.cfg.ibCap.val) (hpay : s.payOff + ceil8 s.vbits ≤ s.inLen) :
    (∀ out, rootOutput s.vbits (validBits s c) tr = some out →
      ∃ u, unpackBody s = .ok u ∧ u.outLen = out.length ∧ bufHolds u.ob 0 out = true) ∧
    (rootOutput s.vbits (validBits s c) tr = none → unpackBody s = .error (.raise .midcode s.inLen)) := by
  obtain ⟨hdecodes, hends⟩ := unpackBody_eq hroot (vbits_le_obCap hcap hpay)
    fun _ => readerHolds_validBits hin hpay
  refine ⟨fun out hout => ?_, hends⟩
  obtain ⟨u, hu, hlen, hob, -⟩ := hdecodes out hout
  exact ⟨u, hu, hlen, by rw [hob]; exact bufHolds_bufWriteList _ _ _⟩

/-! ### DECOMPRESS -/

/-- DECOMPRESS on a written input ends with its output in OB or in a FormatError (46_codec R205). -/
theorem decompressBody_input (hclear : s.derivedClear) (hin : s.hasInput c = true)
    (hcap : s.inLen ≤ s.cfg.ibCap.val) :
    (∃ u out, decompressBody s = .ok u ∧ u.outLen = out.length ∧ bufHolds u.ob 0 out = true) ∨
      ∃ code pos, decompressBody s = .error (.raise code pos) ∧ isFormatError code = true := by
  unfold decompressBody
  cases hp : parseBody s with
  | error e =>
    cases e with
    | raise code pos => exact .inr ⟨code, pos, rfl, (parseBody_raise hp).1⟩
    | fault f => exact absurd hp (parseBody_fault (inputWritten_of_hasInput hin))
  | ok v =>
    have hk := parseBody_keeps hp
    obtain ⟨tr, htr⟩ := parseBody_root hclear hp
    obtain ⟨hdecodes, hends⟩ := unpackBody_input htr ((hasInput_congr hk.ib hk.inLen c).trans hin)
      (by rwa [hk.inLen, hk.cfg]) (parseBody_payload hp)
    rw [ok_bind]
    cases hout : rootOutput v.vbits (validBits v c) tr with
    | some out =>
      obtain ⟨u, hu, hlen, hob⟩ := hdecodes out hout
      exact .inl ⟨u, out, hu, hlen, hob⟩
    | none => exact .inr ⟨.midcode, v.inLen, hends hout, rfl⟩

end

end Sys2Proof.Machine
end

section
/-! SUPPORT. DECOMPRESS on a container whose parts agree, and the round trip (46_codec R205, R209,
44_bit_reader R168). -/

namespace Sys2Proof.Machine

/-! ### A container whose parts agree -/

/-- A tree (of at most 256 leaves, or none), its description `d`, a valid-bit count and a payload that agree
(45_container R180 to R185). -/
structure PartsAgree (tr : Option Tree) (d payload : List Byte) (v : Nat) : Prop where
  leaves : ∀ x ∈ tr, (treeLeaves x).length ≤ 256
  length : d.length = ceil8 (rootBits tr).length
  description : rootBits tr <+: unpackBits d
  payload : payload.length = ceil8 v
  noTree : tr = none → v = 0

section
variable {s : State} {tr : Option Tree} {d payload out : List Byte} {v : Nat}

/-- Only the container without a tree has no description. -/
theorem PartsAgree.tree (h : PartsAgree tr d payload v) : ¬(d.length = 0 ∧ v ≠ 0) := by
  rintro ⟨hd, hv⟩
  cases tr with
  | none => exact hv (h.noTree rfl)
  | some x =>
    have hlength := h.length
    have hbits : (rootBits (some x)).length + 1 = 10 * (treeLeaves x).length := treeBits_length x
    have hpos := List.length_pos_iff.2 (treeLeaves_ne_nil x)
    simp only [ceil8] at hlength
    omega

theorem containerBytes_drop (d payload : List Byte) (v : Nat) :
    (containerBytes d v payload).drop (8 + d.length) = payload := by
  refine List.drop_left' ?_
  simp only [List.length_append, fieldBytes, be32_length]
  omega

/-- PARSE accepts a container whose parts agree. -/
theorem parseBody_agrees (h : PartsAgree tr d payload v) (hclear : s.derivedClear)
    (hin : s.hasInput (containerBytes d v payload) = true) (hcap : s.inLen ≤ s.cfg.ibCap.val) :
    ∃ u, parseBody s = .ok u ∧ holdsRoot u tr = true ∧ u.vbits = v ∧
      validBits u (containerBytes d v payload) = (unpackBits payload).take v := by
  have hlen := hasInput_inLen hin
  rw [containerBytes_length] at hlen
  have hv : v ≤ 8 * payload.length := (ceil8_le _ _).1 h.payload.ge
  have hword : (BitVec.ofNat 32 v).toNat = v := word_toNat (by
    have := s.cfg.ibCap.isLt
    omega)
  have hholds := hasInput_holds hin
  rw [containerBytes, bufHolds_append] at hholds
  obtain ⟨t, hbody, ht⟩ := parseBody_container hclear h.leaves h.length h.description hholds.1 hlen
  rw [hword, checkPayload_agrees hv h.payload.le (by rw [ht.tdLen]; exact h.tree)] at hbody
  refine ⟨_, hbody, ?_, rfl, ?_⟩
  · rw [← ht.holds]
    apply holdsRoot_congr <;> rfl
  · show (unpackBits (List.drop (8 + t.tdLen) _)).take v = _
    rw [ht.tdLen, containerBytes_drop]

/-- DECOMPRESS decodes a container whose parts agree (46_codec R205). -/
theorem exec_decompress_agrees (h : PartsAgree tr d payload v) (hbusy : s.busy = false)
    (hin : s.hasInput (containerBytes d v payload) = true) (hcap : s.inLen ≤ s.cfg.ibCap.val)
    (hout : rootOutput v ((unpackBits payload).take v) tr = some out) :
    ∃ t, exec .decompress s = .next t ∧ NormalEnd t .ddone ∧ t.outLen = out.length ∧
      bufHolds t.ob 0 out = true := by
  obtain ⟨p, hp, hroot, hvbits, hbits⟩ := parseBody_agrees (s := clearDerived (startCommand s)) h
    (clearDerived_clearDerived _) hin hcap
  have hk := parseBody_keeps hp
  obtain ⟨u, hu, hlen, hob⟩ := (unpackBody_input hroot ((hasInput_congr hk.ib hk.inLen _).trans hin)
    (by rw [hk.inLen, hk.cfg]; exact hcap) (parseBody_payload hp)).1 out (by rw [hvbits, hbits, hout])
  have hbody : decompressBody (clearDerived (startCommand s)) = .ok u := by
    rw [decompressBody, hp, ok_bind, hu]
  exact ⟨endCommand u, wholeCommand_of_body hbusy (fun _ => hcap) hbody,
    endCommand_normalEnd ((clearDerived_startCommand_keeps s).trans (decompressBody_keeps hbody))
      (decompressBody_ends.stage hbody), hlen, hob⟩

end

/-! ### Any input -/

/-- DECOMPRESS on a written input, and what the host takes from it (60_exceptions R215, R216). -/
theorem exec_decompress_input {s : State} {c : List Byte} (hbusy : s.busy = false)
    (hin : s.hasInput c = true) (hcap : s.inLen ≤ s.cfg.ibCap.val) :
    ∃ t, exec .decompress s = .next t ∧
      ((t.err = false ∧ ∃ out, stateResult t = .bytes out ∧ out.length = t.outLen ∧
          bufHolds t.ob 0 out = true) ∨
        (t.err = true ∧ isFormatError t.errCode = true ∧
          stateResult t = .error t.errCode t.errPos)) := by
  have hexec : exec .decompress s = settleCommand (startCommand s)
      (decompressBody (clearDerived (startCommand s))) := wholeCommand_eq hbusy fun _ => hcap
  rcases decompressBody_input (s := clearDerived (startCommand s)) (clearDerived_clearDerived _) hin hcap
    with ⟨u, out, hu, hlen, hob⟩ | ⟨code, pos, hraise, hformat⟩
  · have hk := (clearDerived_startCommand_keeps s).trans (decompressBody_keeps hu)
    exact ⟨endCommand u, by rw [hexec, hu]; rfl,
      .inl ⟨hk.err, out, stateResult_bytes (t := endCommand u) hk.err hlen hob, hlen.symm, hob⟩⟩
  · exact ⟨errorEntry (startCommand s) code pos, by rw [hexec, hraise]; rfl,
      .inr ⟨rfl, hformat, stateResult_error rfl⟩⟩

/-- Settles O48: the parts that agree by `exec_decompress_agrees`, any input by `exec_decompress_input`. -/
theorem decompressDecodesContainer : Obligations.DecompressDecodesContainer := by
  refine ⟨fun s tr d payload v out hbusy hleaves hlength hdescription hpayload hnone hin hcap hout => ?_,
    fun s c hbusy hin hcap => ?_⟩
  · obtain ⟨t, hexec, hn, hlen, hob⟩ := exec_decompress_agrees
      ⟨hleaves, hlength, hdescription, hpayload, hnone⟩ hbusy hin (hasInput_inLen hin ▸ hcap) hout
    exact ⟨t, hexec, statusWord_normalEnd hn, hn.errCode, hlen, hob⟩
  · obtain ⟨t, hexec, hend⟩ := exec_decompress_input hbusy hin (hasInput_inLen hin ▸ hcap)
    have hresult : decompress s.cfg c = stateResult t := by
      rw [decompress_eq hbusy hin hcap, hexec]
      rfl
    exact ⟨t, hexec, by rw [hresult]; exact hend⟩

/-! ### The round trip -/

/-- The coded input decodes to the input (44_bit_reader R168). -/
theorem Coded.decodes {s : State} {tr : Option Tree} {bs : List Byte} (h : Coded s tr bs) :
    rootOutput (payloadBits s bs).length (payloadBits s bs) tr = some bs := by
  cases tr with
  | none => rw [h.eq_nil]; rfl
  | some x =>
    cases x with
    | leaf sym =>
      have hbs : bs = List.replicate bs.length sym :=
        List.eq_replicate_of_mem fun b hb => List.mem_singleton.1 (h.mem_leaves.2 hb)
      have hcode : readCT s sym = [false] := h.codes (sym, [false]) (List.mem_singleton_self _)
      have hlength : (payloadBits s bs).length = bs.length := by
        rw [payloadBits_length, hbs, List.map_replicate, hcode, List.sum_replicate, List.length_replicate]
        exact mul_one _
      rw [hlength]
      exact congrArg some hbs.symm
    | node l r => exact treeDecode_codes h.codes bs fun b hb => h.mem_leaves.2 hb

theorem Encoded.partsAgree {s : State} {tr : Option Tree} {bs : List Byte} (h : Encoded s tr bs) :
    PartsAgree tr (packBits (rootBits tr)) (packBits (payloadBits s bs)) s.vbits where
  leaves := h.coded.leaves_le
  length := packBits_length _
  description := unpackBits_packBits _
  payload := h.compressed.payload_length
  noTree hnone := by
    subst hnone
    rw [h.vbits, h.coded.eq_nil]
    rfl

/-- DECOMPRESS of the container COMPRESS has left is its input (46_codec R209). -/
theorem exec_decompress_encoded {s t : State} {tr : Option Tree} {bs : List Byte} (h : Encoded t tr bs)
    (hbusy : s.busy = false)
    (hin : s.hasInput (containerBytes (packBits (rootBits tr)) t.vbits (packBits (payloadBits t bs))) = true)
    (hcap : s.inLen ≤ s.cfg.ibCap.val) :
    ∃ u, exec .decompress s = .next u ∧ u.err = false ∧ u.outLen = bs.length ∧
      bufHolds u.ob 0 bs = true := by
  obtain ⟨u, hexec, hn, hlen, hob⟩ := exec_decompress_agrees h.partsAgree hbusy hin hcap (out := bs) (by
    rw [h.vbits, take_unpackBits_packBits]
    exact h.coded.decodes)
  exact ⟨u, hexec, hn.err, hlen, hob⟩

/-- Settles O49: the output of COMPRESS is the one container of `Encoded`, and so for the functions. -/
theorem decompressInvertsCompress : Obligations.DecompressInvertsCompress := by
  refine ⟨fun s t s' bs c hbusy hin hcap hexec _ hlen hc hbusy' hin' hcap' => ?_, fun c c' bs hcap => ?_⟩
  · obtain ⟨t', tr, hexec', -, h⟩ := exec_compress_encoded hbusy hin hcap
    cases hexec.symm.trans hexec'
    obtain rfl := bufHolds_unique hc h.compressed.container (hlen.trans h.compressed.outLen)
    exact exec_decompress_encoded h hbusy' hin' (hasInput_inLen hin' ▸ hcap')
  · have hin := loadInput_hasInput bs (State.initial c)
    obtain ⟨t, tr, hexec, hn, h⟩ := exec_compress_encoded (loadInput_busy bs (State.initial c)) hin
      (by rwa [loadInput_cfg])
    have hout := compress_encoded (loadInput_busy bs (State.initial c)) hin (by rwa [loadInput_cfg]) hexec
      hn.err h
    rw [loadInput_cfg] at hout
    refine ⟨_, hout, fun hcap' => ?_⟩
    rw [decompress, decompressFrom_eq (s := State.initial c') rfl hcap']
    obtain ⟨u, hu, herr, hlen, hob⟩ := exec_decompress_encoded h (loadInput_busy _ (State.initial c'))
      (loadInput_hasInput _ _) (by rw [hasInput_inLen (loadInput_hasInput _ _), loadInput_cfg]; exact hcap')
    rw [hu]
    exact stateResult_bytes herr hlen hob

end Sys2Proof.Machine
end

section
/-! SUPPORT. The tests of the command frame: BUSY, then the length, then the stage (60_exceptions R221,
R229, R230). -/

namespace Sys2Proof.Machine

/-! ### The frame each command runs in -/

/-- What runs a command: nothing for NOP (46_codec R200), otherwise one of the two frames of 60_exceptions
R221, with the tests the tables of required stages and of commands that read IB name for it. -/
inductive CommandFrame (i : Instr) : Prop where
  | nop (hi : i = .nop)
  | unit {st : Stage} {body : State → Except Stop State} (hstage : requiredStage i = some st)
      (hexec : exec i = unitCommand (readsInput i) st body)
  | whole {body : State → Except Stop State} (hstage : requiredStage i = none)
      (hexec : exec i = wholeCommand (readsInput i) body)

theorem commandFrame_of_isCommand {i : Instr} (h : isCommand i = true) : CommandFrame i := by
  cases i with
  | nop => exact .nop rfl
  | fcount | tbuild | cgen | pack | serial | parse | unpack => exact .unit rfl rfl
  | clear | compress | decompress => exact .whole rfl rfl
  | _ => cases h

theorem isCommand_of_requiredStage {i : Instr} {st : Stage} (h : requiredStage i = some st) :
    isCommand i = true := by
  cases i with
  | fcount | tbuild | cgen | pack | serial | parse | unpack => rfl
  | _ => cases h

theorem isCommand_of_readsInput {i : Instr} (h : readsInput i = true) : isCommand i = true := by
  cases i with
  | fcount | pack | parse | unpack | compress | decompress => rfl
  | _ => cases h

/-! ### The answers of a frame that does not run its body -/

section
variable {s : State} {io : Bool} {st : Stage} {body : State → Except Stop State}

theorem unitCommand_busy (hbusy : s.busy = true) : unitCommand io st body s = .next s := if_pos hbusy

theorem wholeCommand_busy (hbusy : s.busy = true) : wholeCommand io body s = .next s := if_pos hbusy

theorem unitCommand_oversize (hbusy : s.busy = false) (hlen : s.cfg.ibCap.val < s.inLen) :
    unitCommand true st body s = .next (errorEntry s .len 0) := by
  rw [unitCommand, hbusy, if_neg (by decide), if_pos (by simpa using hlen), errorEntry_startCommand]

theorem unitCommand_wrongStage (hbusy : s.busy = false) (hlen : io = true → s.inLen ≤ s.cfg.ibCap.val)
    (hstage : s.stage ≠ st) : unitCommand io st body s = .next (errorEntry s .seq 0) := by
  rw [unitCommand, hbusy, if_neg (by decide), if_neg (by simpa using hlen), if_pos hstage,
    errorEntry_startCommand]

end

/-- Settles O10: behind the length test the stage test of `unitCommand` enters the error. -/
theorem wrongStageRaisesSequenceError : Obligations.WrongStageRaisesSequenceError := by
  refine ⟨rfl, fun i st s hreq hbusy hstage hlen => ?_⟩
  cases commandFrame_of_isCommand (isCommand_of_requiredStage hreq) with
  | nop hi =>
    subst hi
    cases hreq
  | unit hst hexec =>
    cases hreq.symm.trans hst
    rw [hexec]
    exact unitCommand_wrongStage hbusy hlen hstage
  | whole hst => cases hreq.symm.trans hst

/-- Settles O11: in both frames the length test comes before anything that looks at the stage. -/
theorem oversizeInputRaisesLengthError : Obligations.OversizeInputRaisesLengthError := by
  refine ⟨rfl, fun i s hreads hbusy hlen => ?_⟩
  cases commandFrame_of_isCommand (isCommand_of_readsInput hreads) with
  | nop hi =>
    subst hi
    cases hreads
  | unit _ hexec =>
    rw [hexec, hreads]
    exact unitCommand_oversize hbusy hlen
  | whole _ hexec =>
    rw [hexec, hreads]
    exact wholeCommand_oversize hbusy hlen

/-- Settles O12: NOP has no effect, and both frames test BUSY first. -/
theorem busyIgnoresCommands : Obligations.BusyIgnoresCommands := by
  intro i s hcmd hbusy
  cases commandFrame_of_isCommand hcmd with
  | nop hi => rw [hi, nopChangesNothing]
  | unit _ hexec => rw [hexec, unitCommand_busy hbusy]
  | whole _ hexec => rw [hexec, wholeCommand_busy hbusy]

end Sys2Proof.Machine
end

section
/-! SUPPORT. A count of an input with an unwritten byte (70_reset_and_hazards R248, 10_state R48). -/

namespace Sys2Proof.Machine

/-- The body of FCOUNT stops at the first byte of the input that holds no value. -/
theorem fcountBody_fault {s : State} {k : Nat} (hk : k < s.inLen)
    (hwritten : ∀ j < k, (bufRead s.ib j).isSome = true) (hnone : bufRead s.ib k = none) :
    fcountBody s = .error (.fault (.readUnwritten .ib k)) := by
  have hloop : countLoop s.inLen 0 s = .error (.fault (.readUnwritten .ib k)) := by
    simpa only [Nat.zero_add] using countLoop_fault (i := 0) hk
      (by simpa only [Nat.zero_add] using hwritten) (by rwa [Nat.zero_add])
  rw [fcountBody, hloop, error_bind]

/-- Settles O18: FCOUNT's body, alone and as the first of COMPRESS's, faults, and a frame hands a fault on. -/
theorem unwrittenInputFaults : Obligations.UnwrittenInputFaults := by
  intro s k hbusy hlen hk hwritten hnone
  refine ⟨fun hstage => ?_, ?_⟩
  · have hbody := fcountBody_fault (s := startCommand s) hk hwritten hnone
    calc exec .fcount s
        = settleCommand (startCommand s) (fcountBody (startCommand s)) :=
          unitCommand_eq hbusy (fun _ => hlen) hstage
      _ = .fault (.readUnwritten .ib k) := by rw [hbody, settleCommand]
  · have hbody := fcountBody_fault (s := clearDerived (startCommand s)) hk hwritten hnone
    calc exec .compress s
        = settleCommand (startCommand s) (compressBody (clearDerived (startCommand s))) :=
          wholeCommand_eq hbusy fun _ => hlen
      _ = .fault (.readUnwritten .ib k) := by rw [compressBody, hbody, error_bind, settleCommand]

end Sys2Proof.Machine
end

section
/-! SUPPORT. Steps whose host action writes a defined code to CMD, or is Reset (10_state R32, R49;
70_reset_and_hazards R240 to R242). -/

namespace Sys2Proof.Machine

theorem writeCMD_of_decodeCommand {s : State} {c : Byte} {i : Instr} (h : decodeCommand c = .ok i) :
    writeCMD c s = exec i s := by
  rw [writeCMD, h]

/-- Settles O4: with BUSY 0 the write reaches CMD, which runs the decoded instruction. -/
theorem stepRunsDecodedCommand : Obligations.StepRunsDecodedCommand :=
  fun s _ rest _ hbusy hscript hdecode =>
    (step_of_idle hbusy hscript).trans (writeCMD_of_decodeCommand (s := takeAction s rest) hdecode)

/-- What Reset leaves of the block depends on its parameters alone (10_state R49, log 23). -/
theorem resetBlock_eq (s : State) : resetBlock s = { State.initial s.cfg with host := s.host } := rfl

/-- Reset resets whether BUSY is 0 or 1 (70_reset_and_hazards R242). -/
theorem hostAct_reset (s : State) : hostAct .reset s = .next (resetBlock s) := by
  cases hbusy : s.busy with
  | false => rw [hostAct_idle hbusy, hostActIdle]
  | true => rw [hostAct, if_pos hbusy, hostActBusy]

/-- Settles O59: whatever BUSY is, the step is Reset, which leaves the initial state of the parameters. -/
theorem resetActionResetsBlock : Obligations.ResetActionResetsBlock := by
  intro s rest hscript
  rw [step_of_pending hscript, hostAct_reset, resetBlock_eq]
  rfl

end Sys2Proof.Machine
end
